-- ==== Sys2Proof/Word.lean ====
section
/-! DEFINITION. The plain value types of the HR4820: bytes, keys, field numbers, generations and the
numbers of channels, lanes, engines, entries and profiles. -/

namespace Sys2Proof

/-- One byte of the ingest links and of the management link. -/
abbrev Byte := BitVec 8

/-- A reel tag or a reel key (00_scope.md, Terms). -/
abbrev Key := BitVec 32

/-- A field number, 0 to 16,777,215 (00_scope.md, Terms). -/
abbrev FieldNum := BitVec 24

/-- A generation, 0 to 255, counted modulo 256 (R31). -/
abbrev Gen := BitVec 8

/-- Channels are numbered 0 to 7. -/
abbrev Channel := Fin 8

/-- Lanes are numbered 0 to 3. -/
abbrev LaneId := Fin 4

/-- The three scaling engines. -/
abbrev EngineId := Fin 3

/-- The address of an entry, 0 to 1023. -/
abbrev Handle := Fin 1024

/-- The index of a scaling profile, 0 to 15. -/
abbrev ProfileIdx := Fin 16

end Sys2Proof
end

