-- ==== Sys2Proof/Config.lean ====
section
/-! DEFINITION. What the HR4820 fixes for good: the identification codes of R172, the sizes and limits the
rules name, and the active line counts of R3. -/

namespace Sys2Proof.Config

/-- Vendor code (R172). -/
def vendorCode : BitVec 16 := 0x1C6E#16

/-- Part code (R172). -/
def partCode : BitVec 16 := 0x4820#16

/-- Revision of the part the manual describes (R172). -/
def revision : Byte := 1#8

/-- The staging buffer holds at most 64 bytes (R163). -/
def stagingSize : Nat := 64

/-- A link reset is made when the clock-low time reaches 30 ms (R171). -/
def clockLowLimit : Nat := 30

/-- Samples of one active line (01, The field packet). -/
def samplesPerLine : Nat := 720

/-- Bytes of one active line: a chroma byte and a luma byte for each sample (10, The field packet). -/
def bytesPerLine : Nat := 1440

/-- The lock count at which a channel enters RUNNING (R8). -/
def lockRun : Nat := 4

/-- The rejoin count that shows a recovered deck (R17, R18). -/
def rejoinRun : Nat := 64

/-- What one fault adds to the fault count (R13). -/
def faultWeight : Nat := 8

/-- The unlocked run at which the material is judged VIDEO (R103). -/
def unlockedLimit : Nat := 60

/-- The deadline distance of a render request at its issue (R89, R128). -/
def issueDistance : Nat := 2

/-- A cue list holds at most four cues (R151). -/
def cueListSize : Nat := 4

end Sys2Proof.Config
end

