-- ==== Sys2Proof/Syntax.lean ====
section
/-! DEFINITION. The commands of the HR4820: one constructor for each row of spec/opcode_table.json, with the
operands the row's rule gives it. A request carries the items of its body as the request catalogue lists
them, reserved encodings included: the owner judges them (R186). -/

namespace Sys2Proof

/-- How a transfer on the management link ends (R161, R166). A transfer carries its complete bytes; the incomplete byte
in which a condition falls is discarded (log 42). -/
inductive Ending where
  /-- a stop condition after a complete byte: the transaction is over -/
  | stop
  /-- a repeated start after a complete byte: a new transfer begins inside the same transaction -/
  | repeatedStart
  /-- a stop condition within a byte: the transaction is over after its last complete byte -/
  | stopWithinByte
  /-- a start condition within a byte: the transaction is over after its last complete byte, and a new one begins -/
  | startWithinByte
  deriving DecidableEq, Repr

/-- A matcher of a channel configuration record as its 13 bytes carry it (10, Channel configuration record). -/
structure MatcherBody where
  flags : Byte
  code : BitVec 32
  mask : BitVec 32
  aliasKey : BitVec 32
  deriving DecidableEq, Repr

/-- A channel configuration record as its 61 bytes carry it (10, Channel configuration record). -/
structure ConfigBody where
  flags : Byte
  quota : Byte
  repeatThreshold : BitVec 16
  pairedThreshold : BitVec 16
  directives : BitVec 24
  matcher0 : MatcherBody
  matcher1 : MatcherBody
  matcher2 : MatcherBody
  matcher3 : MatcherBody
  deriving DecidableEq, Repr

/-- An event of an ingest port that can carry the fault count past 255 (R13). -/
inductive PortEvent where
  /-- a header completion, with the bytes received since the port's last completion or change to SEEKING -/
  | header (received : List Byte)
  /-- a packet completion, with the bytes received since the header completion: those of the lines, then the two of the
  body check word -/
  | packet (lines check : List Byte)
  deriving DecidableEq, Repr

/-- The commands. A three-byte directives record is a `BitVec 24`, a six-byte record a `BitVec 48`, first
byte most significant. -/
inductive Instr where
  /-- R93, R161: a pin reset with the levels of the three straps at its end, first strap most significant -/
  | pinReset (straps : BitVec 3)
  /-- R1, R2: the bytes port n has received since its last completion or change to SEEKING, up to the header check
  word -/
  | headerCompletion (n : Channel) (received : List Byte)
  /-- R4: the bytes port n has received since the header completion: those of the lines, then the two of the body check
  word -/
  | packetCompletion (n : Channel) (lines check : List Byte)
  /-- R8: the packet completion at which the lock count reaches 4 -/
  | lockGained (n : Channel) (lines check : List Byte)
  /-- R15: the port event whose fault would carry the fault count past 255 -/
  | detachment (n : Channel) (event : PortEvent)
  /-- R18: the packet completion at which the rejoin count reaches 64 with auto-rejoin set -/
  | autoRejoin (n : Channel) (lines check : List Byte)
  /-- R16: the silence timer of port n reaches 100 ms -/
  | silenceTimeout (n : Channel)
  /-- R84: a shift of the window of channel n -/
  | windowShift (n : Channel)
  /-- R100: the shift of channel n whose observation makes the detector enter LOCKED -/
  | cadenceLock (n : Channel)
  /-- R103: the shift of channel n whose observation makes the unlocked run reach 60 -/
  | unlockedRunExpiry (n : Channel)
  /-- R40: the Table Controller takes the waiting lookup of channel n -/
  | lookup (n : Channel)
  /-- R44: the Table Controller takes the waiting release of channel n -/
  | release (n : Channel)
  /-- R109: the Table Controller takes the waiting proposal claim of channel n -/
  | proposalClaim (n : Channel)
  /-- R52 -/
  | entryAdd (key : Key) (first last : FieldNum) (directives : BitVec 24)
  /-- R54 -/
  | entryAmend (handle : BitVec 16) (expected : Gen) (first last : FieldNum) (directives : BitVec 24)
  /-- R57 -/
  | entryRetire (handle : BitVec 16) (expected : Gen)
  /-- R59 -/
  | entryRead (handle : BitVec 16)
  /-- R60 -/
  | entryFind (key : Key) (number : FieldNum)
  /-- R61 -/
  | entryNext (key : Key) (number : FieldNum)
  /-- R63 -/
  | proposalConfirm (handle : BitVec 16) (expected : Gen)
  /-- R66 -/
  | proposalReject (handle : BitVec 16) (expected : Gen)
  /-- R75 -/
  | channelSet (mask : Byte) (record : ConfigBody)
  /-- R77 -/
  | channelStart (mask : Byte)
  /-- R78 -/
  | channelHalt (mask : Byte)
  /-- R79: bit 0 of the flags asks for the clearing of the counters -/
  | channelRead (channel flags : Byte)
  /-- R91 -/
  | syncSnapshot (mask lane : Byte)
  /-- R91: 100 ms have passed without a tick of the lane -/
  | snapshotWaitExpiry
  /-- R92 -/
  | syncRead
  /-- R126 -/
  | profileWrite (index : Byte) (record : BitVec 48)
  /-- R127 -/
  | profileRead (index : Byte)
  /-- R130: an IDLE engine starts the request the arbiter chooses -/
  | jobStart
  /-- R131: the job of engine e has formed and scaled its frame -/
  | jobCompletion (e : EngineId)
  /-- R132: the tick of lane l at which the queued request of channel n reaches its deadline -/
  | deadlineWithdrawal (l : LaneId) (n : Channel)
  /-- R132: the tick of lane l at which the job of engine e reaches its deadline -/
  | deadlineCancellation (l : LaneId) (e : EngineId)
  /-- R133: the pool takes the withdraw order of channel n -/
  | withdrawOrder (n : Channel)
  /-- R133: the pool takes the cancel order of channel n -/
  | cancelOrder (n : Channel)
  /-- R144: a tick of lane l -/
  | laneTick (l : LaneId)
  /-- R145: the tick of lane l at which its hold count reaches the hold limit -/
  | starvation (l : LaneId)
  /-- R138 -/
  | laneSet (lane : Byte) (record : BitVec 48)
  /-- R152 -/
  | cueAdd (lane target trigger : Byte) (number : FieldNum)
  /-- R157 -/
  | cueAbort (lane cue : Byte)
  /-- R158: bit 0 of the flags asks for the clearing of the counters -/
  | laneRead (lane flags : Byte)
  /-- R181 -/
  | attnRead
  /-- R180 -/
  | attnAck (sources : Byte)
  /-- R182 -/
  | attnSet (enables modes : Byte) (threshold : BitVec 16)
  /-- R172 -/
  | unitRead
  /-- R173, first stage: the table part of R48 and the channels of R93 -/
  | unitReset
  /-- R135: the pool's part of a UNIT_RESET -/
  | unitResetPoolPart
  /-- R160: the part of lane l in a UNIT_RESET -/
  | unitResetLanePart (l : LaneId)
  /-- R183: the attention unit's part, the third stage of a UNIT_RESET -/
  | unitResetAttentionPart
  /-- R163: a write transfer of the given bytes (command byte first) to the given address, with the
  milliseconds of low clock it took and the way it ended -/
  | uncheckedPiece (address : BitVec 7) (bytes : List Byte) (low : Nat) (ending : Ending)
  /-- R164: a write transfer whose command byte has CHECKED -/
  | checkedPiece (address : BitVec 7) (bytes : List Byte) (low : Nat) (ending : Ending)
  /-- R168: the bytes written before the read transfer (none, or a RESULT command byte first), then a read
  transfer in which the station clocks the given number of bytes -/
  | resultRead (address : BitVec 7) (written : List Byte) (clocked low : Nat) (ending : Ending)
  /-- R167: the link completes the request whose owner has handed back its result -/
  | requestCompletion
  /-- R171: the cumulative clock-low time reaches 30 ms -/
  | linkReset
  /-- R173: the snapshot store's part of a UNIT_RESET -/
  | unitResetSnapshotStorePart
  deriving DecidableEq, Repr

end Sys2Proof
end

