-- ==== Sys2Proof/Machine/State.lean ====
section
/-! DEFINITION. The state of the HR4820 as plain data: every register, slot, queue, latch and waiting claim
the manual names, the queue of commands not yet taken, and the state after reset. -/

namespace Sys2Proof.Machine

/-! ## Faults and refusals -/

/-- The HR4820 has no stop of its own: no rule of the manual ends the machine, so nothing is a fault. -/
inductive Fault
  deriving DecidableEq, Repr

/-- Why the model gives a command no meaning. -/
inductive Refusal where
  /-- Raised by an arm of `exec` whose command has no meaning yet (safe: nothing is claimed of it). No arm
  of this model raises it. -/
  | notModelled (mnemonic : String)
  deriving DecidableEq, Repr

/-! ## Fields and treatments -/

/-- A field's parity (00_scope.md, Terms). -/
inductive Parity | upper | lower
  deriving DecidableEq, Repr

/-- The parity that leads a picture (02, The directives record). -/
inductive Dominance | upperFirst | lowerFirst
  deriving DecidableEq, Repr

/-- How pictures are arranged across fields (02, The directives record). -/
inductive Cadence | auto | video | film22 | film32
  deriving DecidableEq, Repr

/-- The recipe for fields treated as video (02, The directives record). -/
inductive VideoMethod | motion | lineDouble | blend
  deriving DecidableEq, Repr

/-- Lines of each source field blanked to black, at the top and at the bottom. -/
structure Mask where
  top : Fin 16
  bottom : Fin 16
  deriving DecidableEq, Repr

/-- The directives record of R24. -/
structure Directives where
  dominance : Dominance
  cadence : Cadence
  phase : Option (Fin 10)
  method : VideoMethod
  repair : Bool
  profile : ProfileIdx
  mask : Option Mask
  deriving DecidableEq, Repr

/-- A field as the ingest port took it (R11): its header items, its key, its flags and its line bytes. -/
structure Field where
  number : FieldNum
  parity : Parity
  key : Key
  damaged : Bool
  slip : Bool
  lines : List Byte
  deriving DecidableEq, Repr

/-- The classification of an arriving field (R9). -/
inductive FieldClass | start | next | gap | discontinuity
  deriving DecidableEq, Repr

/-- What the arrival slot holds (R11). -/
structure Arrived where
  field : Field
  cls : FieldClass
  deriving DecidableEq, Repr

/-- The two states of an entry a lookup can answer (R40). -/
inductive LiveState | active | provisional
  deriving DecidableEq, Repr

/-- The treatment latched for a field (R80): an entry's, or the channel's default. -/
inductive LatchedSet where
  | entry (handle : Handle) (gen : Gen) (state : LiveState) (first : FieldNum) (directives : Directives)
  | default (directives : Directives)
  deriving DecidableEq, Repr

/-- A field in a window slot with the set latched for it (R80). -/
structure WindowField where
  field : Field
  set : LatchedSet
  deriving DecidableEq, Repr

/-- The three slots of a channel's window (R80). -/
structure Window where
  older : Option WindowField
  current : Option WindowField
  newer : Option WindowField
  deriving DecidableEq, Repr

/-! ## Ingest port -/

/-- The two conditions of a timer whose elapsed time is not held. -/
inductive Timer | stopped | running
  deriving DecidableEq, Repr

/-- What the header of the packet being read gave (R1, R6). -/
structure PacketHeader where
  number : FieldNum
  parity : Parity
  key : Key
  lineCount : Nat
  deriving DecidableEq, Repr

/-- Where a port stands in its stream of packets (R1). -/
inductive Receiver where
  /-- looking for a sync word -/
  | searching
  /-- reading the lines of an accepted packet -/
  | reading (header : PacketHeader)
  /-- skipping the announced lines and the body check word of a discarded packet, before the next search -/
  | skipping (lineCount : Nat)
  deriving DecidableEq, Repr

/-- The eleven port counters, in the order of the table in R20. -/
structure PortCounters where
  taken : Nat
  headerFaults : Nat
  mismatches : Nat
  rejected : Nat
  damaged : Nat
  overruns : Nat
  missing : Nat
  discontinuities : Nat
  slips : Nat
  silenceTimeouts : Nat
  detachments : Nat
  deriving DecidableEq, Repr

/-- The state of an ingest port (01, the opening table). -/
structure Port where
  lockCount : Nat
  faultCount : Nat
  rejoinCount : Nat
  previous : Option FieldNum
  slot : Option Arrived
  silence : Timer
  receiver : Receiver
  counters : PortCounters
  deriving DecidableEq, Repr

/-- The confinement levels (R14). -/
inductive Level | normal | caution | degraded
  deriving DecidableEq, Repr

/-! ## Channel configuration -/

/-- A reel matcher (R5). -/
structure Matcher where
  enabled : Bool
  code : BitVec 32
  mask : BitVec 32
  aliasKey : Option Key
  deriving DecidableEq, Repr

/-- The four source standards (R74). -/
inductive Standard | std625 | std525 | std405 | std819
  deriving DecidableEq, Repr

/-- The two rates of fields and of frames (R74, 07 Lane configuration). -/
inductive Rate | r50 | r5994
  deriving DecidableEq, Repr

/-- The channel configuration record (R74). -/
structure ChannelConfig where
  standard : Standard
  matchers : Vector Matcher 4
  default : Directives
  quota : Nat
  repeatThreshold : Nat
  pairedThreshold : Nat
  autoRejoin : Bool
  deriving DecidableEq, Repr

/-! ## Cadence monitor -/

/-- The two film modes (R96). -/
inductive Film | film22 | film32
  deriving DecidableEq, Repr

/-- A field as the monitor saw it (05, the opening section). -/
structure FieldRecord where
  number : FieldNum
  key : Key
  set : LatchedSet
  deriving DecidableEq, Repr

/-- An entry of the observation history (R98). -/
structure Observation where
  record : FieldRecord
  paired : Bool
  rep : Bool
  deriving DecidableEq, Repr

/-- The detector (R99 to R101). -/
inductive Detector where
  | searching
  | candidate (mode : Film) (align : Nat) (count : Nat) (start : FieldRecord)
  | locked (mode : Film) (align : Nat) (misses : Nat) (firstMiss : Option FieldRecord)
  deriving DecidableEq, Repr

/-- The settled state (R103). -/
inductive Settled where
  | none
  | video
  | film (mode : Film) (align : Nat)
  deriving DecidableEq, Repr

/-- A pending transition (R104). -/
structure Pending where
  breakField : FieldRecord
  settled : Settled
  deriving DecidableEq, Repr

/-- A cadence monitor less its counters (05, the opening table). -/
structure Monitor where
  history : List Observation
  detector : Detector
  settled : Settled
  unlockedRun : Nat
  pending : Option Pending
  deriving DecidableEq, Repr

/-- The monitor counters (R116). -/
structure MonitorCounters where
  proposals : Nat
  suppressed : Nat
  abandoned : Nat
  disagreements : Nat
  deriving DecidableEq, Repr

/-! ## Claims on the table -/

/-- A field sequencer's waiting claim (R38). -/
inductive SequencerClaim where
  /-- a lookup for the field that has just become NEWER (R40) -/
  | lookup (arrived : Arrived)
  /-- a release (R44); the mark says that the departure was to SEEKING or DETACHED, whose effects reset
  the monitor (R72) -/
  | release (resetsMonitor : Bool)
  deriving DecidableEq, Repr

/-- A proposal claim (R107). -/
structure ProposalClaim where
  key : Key
  start : FieldNum
  basis : Option (Handle × Gen)
  directives : Directives
  deriving DecidableEq, Repr

/-! ## Channels -/

/-- The channel states (R70). -/
inductive ChannelState | halted | seeking | running | halting | detached
  deriving DecidableEq, Repr

/-- Port, sequencer and monitor of one channel, with the channel's waiting claims and its orders on their
way to the pool. -/
structure Chan where
  state : ChannelState
  config : ChannelConfig
  port : Port
  window : Window
  currentEntry : Option Handle
  latchedGen : Option Gen
  relatch : Bool
  lastSet : Option LatchedSet
  tally : Nat
  stepOpen : Bool
  noneSteps : Nat
  doubleSteps : Nat
  monitor : Monitor
  monitorCounters : MonitorCounters
  sequencerClaim : Option SequencerClaim
  proposalClaim : Option ProposalClaim
  withdrawOrder : Bool
  cancelOrder : Bool
  deriving DecidableEq, Repr

/-! ## Treatment Table -/

/-- The entry states (R25). -/
inductive EntryState | free | active | provisional | retiring
  deriving DecidableEq, Repr

/-- Who created an entry (02, The entry record). -/
inductive Origin | operator | monitor
  deriving DecidableEq, Repr

/-- Which pool an entry is counted against (R33). -/
inductive Charge where
  | shared
  | reserve (c : Channel)
  deriving DecidableEq, Repr

/-- An entry of the Treatment Table (R23). -/
structure Entry where
  state : EntryState
  key : Key
  first : FieldNum
  last : FieldNum
  gen : Gen
  origin : Origin
  owner : Option Channel
  charge : Charge
  useCount : Nat
  directives : Directives
  parent : Option (Handle × Gen)
  deriving DecidableEq, Repr

/-- The 1024 entries. The span indexes, F and the H_c are views of them (Machine/Table.lean). -/
abbrev Table := Vector Entry 1024

/-! ## Profile Bank, pictures and the scaler pool -/

/-- Placement of the picture on the raster (R125). -/
inductive Aspect | pillarbox | centreCrop | stretch
  deriving DecidableEq, Repr

/-- The taps of the scaling filter (R125). -/
inductive Kernel | taps4 | taps6 | taps8
  deriving DecidableEq, Repr

/-- A colour: Y, Cb, Cr. -/
structure Colour where
  y : Byte
  cb : Byte
  cr : Byte
  deriving DecidableEq, Repr

/-- A scaling profile (06, The Profile Bank). -/
structure Profile where
  aspect : Aspect
  kernel : Kernel
  detail : Fin 8
  verticalTrim : Int
  horizontalTrim : Int
  pillar : Colour
  deriving DecidableEq, Repr

/-- The rasters of a lane (07, Lane configuration). -/
inductive Raster | r1920x1080 | r1280x720 | r3840x2160
  deriving DecidableEq, Repr

/-- The window slots a recipe can name. -/
inductive Slot | older | current | newer
  deriving DecidableEq, Repr

/-- The kinds of recipe (06, Recipes). -/
inductive RecipeKind | weave | motion | lineDouble | blend
  deriving DecidableEq, Repr

/-- A recipe: its kind, its primary slot and its other source slots (06, Recipes). -/
structure Recipe where
  kind : RecipeKind
  primary : Slot
  others : List Slot
  deriving DecidableEq, Repr

/-- Whether a request or frame belongs to the lane's source or to its armed cue. -/
inductive Role | program | armed
  deriving DecidableEq, Repr

/-- A queued render request (R89, R128). -/
structure RenderRequest where
  channel : Channel
  lane : LaneId
  role : Role
  number : FieldNum
  recipe : Recipe
  profile : ProfileIdx
  mask : Option Mask
  distance : Nat
  deriving DecidableEq, Repr

/-- A job on an engine: its request and what it copied at its start (R130). The fields stand in the order
of the recipe's slots, primary first; an absent slot is copied as absent. `lineCount` is the active line count of the
channel's source standard, which gives the height of the picture (R119). -/
structure Job where
  request : RenderRequest
  fields : List (Option Field)
  lineCount : Nat
  profile : Profile
  raster : Raster
  deriving DecidableEq, Repr

/-- A line of a formed picture: its 1440 bytes where the rules give them, else the source lines that determine it by
an arithmetic the manual does not specify (log 19). -/
inductive PictureLine where
  /-- the bytes of the line -/
  | known (bytes : List Byte)
  /-- interpolated from the field's own lines above and below (R119) -/
  | between (above below : List Byte)
  /-- MOTION's missing line: taken from the lines of OLDER and NEWER at its place where the fields show no motion,
  interpolated from the own lines above and below where they do (R121) -/
  | motion (above below older newer : List Byte)
  /-- a mix of the same line of two doubled fields, CURRENT's first (R122) -/
  | mixed (current neighbour : PictureLine)
  /-- a line of which a source field was absent at the job's start (log 18) -/
  | unspecified
  deriving DecidableEq, Repr

/-- A frame delivered to a lane: the picture as formed, and the profile and raster it is scaled under. -/
structure Frame where
  channel : Channel
  number : FieldNum
  picture : List PictureLine
  profile : Profile
  raster : Raster
  deriving DecidableEq, Repr

/-! ## Lanes -/

/-- A slate record (R138, R147). -/
inductive SlateRecord where
  | bars (count width : Nat)
  | flat (colour : Colour)
  deriving DecidableEq, Repr

/-- The lane configuration record (07, Lane configuration). -/
structure LaneConfig where
  enabled : Bool
  raster : Raster
  rate : Rate
  holdLimit : Nat
  slate : SlateRecord
  deriving DecidableEq, Repr

/-- The lane states with their slate reasons (R141). -/
inductive LaneState | idle | slateNoProgram | slateStarved | program
  deriving DecidableEq, Repr

/-- The ready frames of one role: one due at the next tick, one at the tick after it (R142). -/
structure Ready where
  next : Option Frame
  after : Option Frame
  deriving DecidableEq, Repr

/-- A cue's trigger (07, The cue list). -/
inductive Trigger where
  | nextTick
  | atField (number : FieldNum)
  deriving DecidableEq, Repr

/-- A cue; a target of `none` is SLATE (07, The cue list). -/
structure Cue where
  number : Byte
  target : Option Channel
  trigger : Trigger
  deriving DecidableEq, Repr

/-- What a lane's output carries since its last tick. -/
inductive Emission where
  /-- the output is quiet -/
  | quiet
  | frame (frame : Frame)
  | slate (record : SlateRecord) (raster : Raster)
  deriving DecidableEq, Repr

/-- The four lane counters (R158). -/
structure LaneCounters where
  emitted : Nat
  held : Nat
  late : Nat
  cancelled : Nat
  deriving DecidableEq, Repr

/-- An output lane (07, the opening table). -/
structure Lane where
  config : LaneConfig
  state : LaneState
  source : Option Channel
  programFrames : Ready
  armedFrames : Ready
  lastFrame : Option Frame
  holdCount : Nat
  sampledSlate : Option SlateRecord
  cues : List Cue
  cueCounter : Byte
  counters : LaneCounters
  output : Emission
  deriving DecidableEq, Repr

/-! ## Alignment snapshot store -/

/-- One channel of a snapshot (R91). -/
structure SnapshotItem where
  channel : Channel
  state : ChannelState
  position : Option (Key × FieldNum)
  deriving DecidableEq, Repr

/-- An alignment snapshot (R91). -/
structure Snapshot where
  lane : LaneId
  items : List SnapshotItem
  deriving DecidableEq, Repr

/-- The snapshot store, with the SYNC_SNAPSHOT that waits for its lane's tick (R91). -/
structure Store where
  snapshot : Option Snapshot
  waiting : Option (Byte × LaneId)
  deriving DecidableEq, Repr

/-! ## Management link -/

/-- The result codes (R170). -/
inductive ResultCode
  | done | noEntry | overlap | stale | noRoom | inUse | wrongState | range | badRequest | checkFail | noRequest
  deriving DecidableEq, Repr

/-- A result: its code and its result bytes (R170). -/
structure Result where
  code : ResultCode
  bytes : List Byte
  deriving DecidableEq, Repr

/-- The request in flight (R166, R167). BUSY is any but `idle`. -/
inductive Flight where
  /-- no launched request is incomplete -/
  | idle
  /-- launched, waiting for its owner -/
  | launched (request : Instr)
  /-- taken by its owner and not yet finished there: CHANNEL_HALT, SYNC_SNAPSHOT, UNIT_RESET -/
  | carried (request : Instr)
  /-- the owner has handed back the result -/
  | handedBack (request : Instr) (result : Result)
  deriving DecidableEq, Repr

/-- The transaction in progress (08, the opening table): the command byte if one was accepted, the bytes
received, the read pending mark with what it notes of CHECKED, and the clock-low time in milliseconds. -/
structure Transaction where
  command : Option Byte
  received : List Byte
  readPending : Option Bool
  clockLow : Nat
  deriving DecidableEq, Repr

/-- The management link. `acks` and `sent` record what the wires last showed: the acknowledge bits of the
last transfer, address first, and the bytes the last read sent. -/
structure Link where
  address : BitVec 7
  staging : List Byte
  overflow : Bool
  flight : Flight
  lastResult : Result
  transaction : Option Transaction
  acks : List Bool
  sent : List Byte
  deriving DecidableEq, Repr

/-! ## Attention unit -/

/-- The PORT latch of one channel: its causes and its acknowledge-pending mark (R175). -/
structure PortLatch where
  levelChange : Bool
  lockLost : Bool
  lockGained : Bool
  detached : Bool
  mark : Bool
  deriving DecidableEq, Repr

/-- A latch without causes, with its acknowledge-pending mark (R175, R179). -/
structure MarkedLatch where
  set : Bool
  mark : Bool
  deriving DecidableEq, Repr

/-- The STEP latch of one channel (R175). -/
structure StepLatch where
  none : Bool
  double : Bool
  deriving DecidableEq, Repr

/-- The CUE latch of one lane (R175). -/
structure CueLatch where
  taken : Bool
  aborted : Bool
  deriving DecidableEq, Repr

/-- How an acknowledgement clears a source (R180). -/
inductive AttnMode | edge | level
  deriving DecidableEq, Repr

/-- The attention unit (09, the opening table). `enables` has the bits of a source set. -/
structure Attn where
  port : Vector PortLatch 8
  starved : Vector MarkedLatch 4
  tableLow : MarkedLatch
  proposal : Vector Bool 8
  cue : Vector CueLatch 4
  step : Vector StepLatch 8
  request : Bool
  enables : BitVec 7
  portMode : AttnMode
  starvedMode : AttnMode
  tableLowMode : AttnMode
  threshold : Nat
  detachedCond : Vector Bool 8
  starvedCond : Vector Bool 4
  tableLowCond : Bool
  lastSharedFree : Nat
  deriving DecidableEq, Repr

/-! ## UNIT_RESET in progress -/

/-- Which parts of the second stage of a UNIT_RESET have been taken (R173). -/
structure ResetProgress where
  pool : Bool
  lanes : Vector Bool 4
  store : Bool
  deriving DecidableEq, Repr

/-! ## The state -/

/-- The state of the HR4820. The queue `pending` is the model's own: the commands not yet taken, the next
one first. -/
structure State where
  straps : BitVec 3
  chans : Vector Chan 8
  claims : Vector (Option LaneId) 8
  table : Table
  profiles : Vector Profile 16
  queue : List RenderRequest
  engines : Vector (Option Job) 3
  lanes : Vector Lane 4
  store : Store
  link : Link
  attn : Attn
  unitReset : Option ResetProgress
  pending : List Instr
  deriving DecidableEq, Repr

/-! ## Reset values -/

/-- The default directives after pin reset (R74). -/
def Directives.reset : Directives :=
  { dominance := .upperFirst, cadence := .auto, phase := none, method := .motion, repair := false,
    profile := 0, mask := none }

/-- A disabled matcher. Its code and mask are 0 (DESIGN CHOICE, log 2). -/
def Matcher.reset : Matcher := { enabled := false, code := 0, mask := 0, aliasKey := none }

/-- The configuration record after pin reset (R74). -/
def ChannelConfig.reset : ChannelConfig :=
  { standard := .std625, matchers := Vector.replicate 4 Matcher.reset, default := Directives.reset,
    quota := 0, repeatThreshold := 64, pairedThreshold := 256, autoRejoin := false }

/-- Every port counter 0 (R22). -/
def PortCounters.zero : PortCounters :=
  { taken := 0, headerFaults := 0, mismatches := 0, rejected := 0, damaged := 0, overruns := 0,
    missing := 0, discontinuities := 0, slips := 0, silenceTimeouts := 0, detachments := 0 }

/-- A port after pin reset (R22). -/
def Port.reset : Port :=
  { lockCount := 0, faultCount := 0, rejoinCount := 0, previous := none, slot := none,
    silence := .stopped, receiver := .searching, counters := PortCounters.zero }

/-- A window with every slot absent. -/
def Window.empty : Window := { older := none, current := none, newer := none }

/-- A monitor after a monitor reset (R117). -/
def Monitor.reset : Monitor :=
  { history := [], detector := .searching, settled := .none, unlockedRun := 0, pending := none }

/-- Every monitor counter 0 (R116). -/
def MonitorCounters.zero : MonitorCounters :=
  { proposals := 0, suppressed := 0, abandoned := 0, disagreements := 0 }

/-- A channel with a given configuration record and everything else at reset (R22, R93). -/
def Chan.resetWith (config : ChannelConfig) : Chan :=
  { state := .halted, config := config, port := Port.reset, window := Window.empty, currentEntry := none,
    latchedGen := none, relatch := false, lastSet := none, tally := 0, stepOpen := false, noneSteps := 0,
    doubleSteps := 0, monitor := Monitor.reset, monitorCounters := MonitorCounters.zero,
    sequencerClaim := none, proposalClaim := none, withdrawOrder := false, cancelOrder := false }

/-- A FREE entry: only its state and its generation hold values (R23); the rest is kept blank (log 3). -/
def Entry.free (gen : Gen) : Entry :=
  { state := .free, key := 0, first := 0, last := 0, gen := gen, origin := .operator, owner := none,
    charge := .shared, useCount := 0, directives := Directives.reset, parent := none }

/-- Video black (R124). -/
def Colour.black : Colour := { y := 16, cb := 128, cr := 128 }

/-- A profile after pin reset (06, The Profile Bank). -/
def Profile.reset : Profile :=
  { aspect := .pillarbox, kernel := .taps6, detail := 2, verticalTrim := 0, horizontalTrim := 0,
    pillar := Colour.black }

/-- No ready frame. -/
def Ready.empty : Ready := { next := none, after := none }

/-- Every lane counter 0. -/
def LaneCounters.zero : LaneCounters := { emitted := 0, held := 0, late := 0, cancelled := 0 }

/-- The lane configuration after pin reset (R159). -/
def LaneConfig.reset : LaneConfig :=
  { enabled := false, raster := .r1920x1080, rate := .r50, holdLimit := 25, slate := .bars 8 240 }

/-- A lane after pin reset (R159). -/
def Lane.reset : Lane :=
  { config := LaneConfig.reset, state := .idle, source := none, programFrames := Ready.empty,
    armedFrames := Ready.empty, lastFrame := none, holdCount := 0, sampledSlate := none, cues := [],
    cueCounter := 0, counters := LaneCounters.zero, output := .quiet }

/-- The target address: 0111b and the three strap levels (R161). -/
def targetAddress (straps : BitVec 3) : BitVec 7 := 0b0111#4 ++ straps

/-- The link after pin reset (R174). -/
def Link.reset (straps : BitVec 3) : Link :=
  { address := targetAddress straps, staging := [], overflow := false, flight := .idle,
    lastResult := { code := .noRequest, bytes := [] }, transaction := none, acks := [], sent := [] }

/-- A PORT latch that holds nothing. -/
def PortLatch.clear : PortLatch :=
  { levelChange := false, lockLost := false, lockGained := false, detached := false, mark := false }

/-- A latch that holds nothing. -/
def MarkedLatch.clear : MarkedLatch := { set := false, mark := false }

/-- A STEP latch that holds nothing. -/
def StepLatch.clear : StepLatch := { none := false, double := false }

/-- A CUE latch that holds nothing. -/
def CueLatch.clear : CueLatch := { taken := false, aborted := false }

/-- The attention unit after pin reset (R183). -/
def Attn.reset : Attn :=
  { port := Vector.replicate 8 PortLatch.clear, starved := Vector.replicate 4 MarkedLatch.clear,
    tableLow := MarkedLatch.clear, proposal := Vector.replicate 8 false,
    cue := Vector.replicate 4 CueLatch.clear, step := Vector.replicate 8 StepLatch.clear,
    request := false, enables := 0, portMode := .edge, starvedMode := .edge, tableLowMode := .edge,
    threshold := 0, detachedCond := Vector.replicate 8 false, starvedCond := Vector.replicate 4 false,
    tableLowCond := false, lastSharedFree := 1024 }

/-- The part right after a pin reset with the given strap levels (R22, R47, R93, R117, R127, R135, R159,
R174, R183). -/
def State.resetWith (straps : BitVec 3) : State :=
  { straps := straps, chans := Vector.replicate 8 (Chan.resetWith ChannelConfig.reset),
    claims := Vector.replicate 8 none, table := Vector.replicate 1024 (Entry.free 0),
    profiles := Vector.replicate 16 Profile.reset, queue := [], engines := Vector.replicate 3 none,
    lanes := Vector.replicate 4 Lane.reset, store := { snapshot := none, waiting := none },
    link := Link.reset straps, attn := Attn.reset, unitReset := none, pending := [] }

/-- The state after reset. The strap levels are pins: all low here (DESIGN CHOICE, log 1). -/
def State.reset : State := State.resetWith 0

end Sys2Proof.Machine
end

