-- ==== Sys2Proof/Machine/Ops.lean ====
section
/-! DEFINITION. The named operations every block shares: reading and replacing one channel, lane, entry,
engine or profile, saturating counters, masks of channels, bytes of wider values, and the two checks. -/

namespace Sys2Proof.Machine

/-! ## One element of a fixed collection -/

/-- The collection with element `i` replaced. -/
def setAt {α : Type} {n : Nat} (v : Vector α n) (i : Fin n) (x : α) : Vector α n := v.set i.val x i.isLt

/-- The collection with element `i` changed by `f`. -/
def modifyAt {α : Type} {n : Nat} (v : Vector α n) (i : Fin n) (f : α → α) : Vector α n :=
  setAt v i (f (v.get i))

/-- Channel `n`. -/
def State.chan (s : State) (n : Channel) : Chan := s.chans.get n

/-- The state with channel `n` changed by `f`. -/
def State.modChan (s : State) (n : Channel) (f : Chan → Chan) : State :=
  { s with chans := modifyAt s.chans n f }

/-- The state with port `n` changed by `f`. -/
def State.modPort (s : State) (n : Channel) (f : Port → Port) : State :=
  s.modChan n fun c => { c with port := f c.port }

/-- Lane `l`. -/
def State.lane (s : State) (l : LaneId) : Lane := s.lanes.get l

/-- The state with lane `l` changed by `f`. -/
def State.modLane (s : State) (l : LaneId) (f : Lane → Lane) : State :=
  { s with lanes := modifyAt s.lanes l f }

/-- Entry `h`. -/
def State.entry (s : State) (h : Handle) : Entry := s.table.get h

/-- The state with entry `h` replaced. -/
def State.setEntry (s : State) (h : Handle) (e : Entry) : State := { s with table := setAt s.table h e }

/-- The state with engine `e` given a job or made IDLE. -/
def State.setEngine (s : State) (e : EngineId) (j : Option Job) : State :=
  { s with engines := setAt s.engines e j }

/-- The state with the link changed by `f`. -/
def State.modLink (s : State) (f : Link → Link) : State := { s with link := f s.link }

/-- The state with the attention unit changed by `f`. -/
def State.modAttn (s : State) (f : Attn → Attn) : State := { s with attn := f s.attn }

/-- The eight channels in ascending order. -/
def allChannels : List Channel := [0, 1, 2, 3, 4, 5, 6, 7]

/-- The four lanes in ascending order. -/
def allLanes : List LaneId := [0, 1, 2, 3]

/-- The three engines in ascending order. -/
def allEngines : List EngineId := [0, 1, 2]

/-! ## Counters and masks -/

/-- A 16-bit counter raised by `k`, at most to 65,535: it stays once it has reached that value (R20, R116, R158; of the
step counters of R90 the model's choice, log 41). -/
def bump (c k : Nat) : Nat := if c < 65535 then min 65535 (c + k) else c

/-- The channels a channel mask names, in ascending order (10, Common encodings: bit n for channel n). -/
def maskChannels (mask : Byte) : List Channel := allChannels.filter fun n => mask.getLsbD n.val

/-- A one-byte lane number, if it names a lane. -/
def laneOf (b : Byte) : Option LaneId := if h : b.toNat < 4 then some ⟨b.toNat, h⟩ else none

/-- A one-byte channel number, if it names a channel. -/
def channelOf (b : Byte) : Option Channel := if h : b.toNat < 8 then some ⟨b.toNat, h⟩ else none

/-- A two-byte handle, if it names an entry (R50). -/
def handleOf (b : BitVec 16) : Option Handle := if h : b.toNat < 1024 then some ⟨b.toNat, h⟩ else none

/-- A one-byte profile index, if it names a profile (R126). -/
def profileOf (b : Byte) : Option ProfileIdx := if h : b.toNat < 16 then some ⟨b.toNat, h⟩ else none

/-! ## Bytes of wider values, most significant first (10, Common encodings) -/

/-- A truth value as bit `k` of a byte. -/
def bitAt (k : Nat) (b : Bool) : Byte := if b then BitVec.ofNat 8 (2 ^ k) else 0

/-- A one-byte number. -/
def byte (n : Nat) : Byte := BitVec.ofNat 8 n

/-- The two bytes of a 16-bit value. -/
def bytes16 (v : BitVec 16) : List Byte := [v.extractLsb' 8 8, v.extractLsb' 0 8]

/-- The two bytes of a number. -/
def num16 (n : Nat) : List Byte := bytes16 (BitVec.ofNat 16 n)

/-- The three bytes of a 24-bit value. -/
def bytes24 (v : BitVec 24) : List Byte := [v.extractLsb' 16 8, v.extractLsb' 8 8, v.extractLsb' 0 8]

/-- The four bytes of a 32-bit value. -/
def bytes32 (v : BitVec 32) : List Byte :=
  [v.extractLsb' 24 8, v.extractLsb' 16 8, v.extractLsb' 8 8, v.extractLsb' 0 8]

/-- The six bytes of a 48-bit value. -/
def bytes48 (v : BitVec 48) : List Byte :=
  [v.extractLsb' 40 8, v.extractLsb' 32 8, v.extractLsb' 24 8, v.extractLsb' 16 8, v.extractLsb' 8 8,
    v.extractLsb' 0 8]

/-- The byte at an offset; bytes past the end read as 0. -/
def byteAt (bs : List Byte) (i : Nat) : Byte := bs.getD i 0

/-- A 16-bit value at an offset. -/
def word16At (bs : List Byte) (i : Nat) : BitVec 16 := byteAt bs i ++ byteAt bs (i + 1)

/-- A 24-bit value at an offset. -/
def word24At (bs : List Byte) (i : Nat) : BitVec 24 := byteAt bs i ++ word16At bs (i + 1)

/-- A 32-bit value at an offset. -/
def word32At (bs : List Byte) (i : Nat) : BitVec 32 := byteAt bs i ++ word24At bs (i + 1)

/-- A 48-bit value at an offset. -/
def word48At (bs : List Byte) (i : Nat) : BitVec 48 := word16At bs i ++ word32At bs (i + 2)

/-! ## The two checks -/

/-- One bit enters a CRC register of 16 bits with polynomial x^16+x^12+x^5+1 (R184). -/
def crc16Bit (crc : BitVec 16) (bit : Bool) : BitVec 16 :=
  if (crc.msb != bit) then (crc <<< 1) ^^^ 0x1021#16 else crc <<< 1

/-- One byte enters the 16-bit check, most significant bit first (R184). -/
def crc16Byte (crc : BitVec 16) (b : Byte) : BitVec 16 :=
  [7, 6, 5, 4, 3, 2, 1, 0].foldl (fun c k => crc16Bit c (b.getLsbD k)) crc

/-- The 16-bit check of the field packet: initial value FFFFh, no inversion at the end (R184). -/
def crc16 (bs : List Byte) : BitVec 16 := bs.foldl crc16Byte 0xFFFF#16

/-- One bit enters a CRC register of 8 bits with polynomial x^8+x^2+x+1 (R165). -/
def crc8Bit (crc : Byte) (bit : Bool) : Byte :=
  if (crc.msb != bit) then (crc <<< 1) ^^^ 0x07#8 else crc <<< 1

/-- One byte enters the 8-bit check, most significant bit first (R165). -/
def crc8Byte (crc : Byte) (b : Byte) : Byte :=
  [7, 6, 5, 4, 3, 2, 1, 0].foldl (fun c k => crc8Bit c (b.getLsbD k)) crc

/-- The check value of the management link: initial value 0, no inversion at the end (R165). -/
def crc8 (bs : List Byte) : Byte := bs.foldl crc8Byte 0

/-! ## Named values of the link's records -/

/-- The active line count of a standard (R3). -/
def Standard.lines : Standard → Nat
  | .std625 => 288
  | .std525 => 243
  | .std405 => 188
  | .std819 => 368

/-- The code of a standard (R74). -/
def Standard.code : Standard → Nat
  | .std625 => 1
  | .std525 => 2
  | .std405 => 3
  | .std819 => 4

/-- The standard of a code 1 to 4. -/
def standardOf : Nat → Option Standard
  | 1 => some .std625
  | 2 => some .std525
  | 3 => some .std405
  | 4 => some .std819
  | _ => none

/-- The field rate of a standard (R74). -/
def Standard.rate : Standard → Rate
  | .std625 => .r50
  | .std525 => .r5994
  | .std405 => .r50
  | .std819 => .r50

/-- The confinement level of a fault count (R14). -/
def levelOf (faults : Nat) : Level :=
  if faults < 96 then .normal else if faults < 128 then .caution else .degraded

/-- The confinement level of a channel. -/
def Chan.level (c : Chan) : Level := levelOf c.port.faultCount

/-- The directives of a latched set. -/
def LatchedSet.directives : LatchedSet → Directives
  | .entry _ _ _ _ d => d
  | .default d => d

/-! ## Views of the pool (R136) -/

/-- The queued request indication of channel `n`: the queue holds a request of it. -/
def State.queued (s : State) (n : Channel) : Bool := s.queue.any fun r => r.channel == n

/-- Whether an engine runs a job of channel `n`. -/
def jobOf (n : Channel) (j : Option Job) : Bool :=
  match j with
  | some j => j.request.channel == n
  | none => false

/-- The job in flight indication of channel `n`: an engine runs a job of it. -/
def State.inFlight (s : State) (n : Channel) : Bool := s.engines.toList.any (jobOf n)

/-- Whether a release claim of channel `n` waits at the controller. -/
def Chan.releaseWaits (c : Chan) : Bool :=
  match c.sequencerClaim with
  | some (.release _) => true
  | _ => false

/-! ## The request in flight -/

/-- The owner hands back a result for the request it carries; the link completes it later (R167). -/
def State.handBack (s : State) (res : Result) : State :=
  match s.link.flight with
  | .carried r => s.modLink fun k => { k with flight := .handedBack r res }
  | _ => s

/-- The same of a SYNC_SNAPSHOT that waits at the snapshot store; another request in flight is left alone (R91). -/
def State.handBackSnapshot (s : State) (res : Result) : State :=
  match s.link.flight with
  | .carried (.syncSnapshot _ _) => s.handBack res
  | _ => s

/-- A result of DONE with the given bytes. -/
def done (bytes : List Byte) : Result := { code := .done, bytes := bytes }

/-- A refusal with no result bytes. -/
def refuse (code : ResultCode) : Result := { code := code, bytes := [] }

end Sys2Proof.Machine
end

