-- ==== Sys2Proof/Machine/Operands.lean ====
section
/-! DEFINITION. The records carried by requests and results: how an owner reads the items of a body, with
reserved encodings refused (R186), and how the part composes what it sends (R185). -/

namespace Sys2Proof.Machine

/-! ## Directives record (10, Directives record; R24) -/

/-- A cadence from its two bits. -/
def cadenceOf (b : BitVec 2) : Cadence :=
  if b = 0 then .auto else if b = 1 then .video else if b = 2 then .film22 else .film32

/-- A video method from its two bits; 11 is reserved. -/
def methodOf (b : BitVec 2) : Option VideoMethod :=
  if b = 0 then some .motion else if b = 1 then some .lineDouble else if b = 2 then some .blend else none

/-- The phase of a record: absent, or within the cycle of the record's film mode (R24). The outer option
is `none` when the record is not well formed. -/
def phaseOf (cadence : Cadence) (present : Bool) (nibble : Nat) : Option (Option (Fin 10)) :=
  if present then
    match cadence with
    | .auto => none
    | .video => none
    | .film22 => if nibble < 2 then some (some (Fin.ofNat 10 nibble)) else none
    | .film32 => if nibble < 10 then some (some (Fin.ofNat 10 nibble)) else none
  else some none

/-- The directives record of three bytes, if it is well formed (R24, R186). -/
def decodeDirectives (v : BitVec 24) : Option Directives :=
  let cadence := cadenceOf (v.extractLsb' 21 2)
  match methodOf (v.extractLsb' 18 2), phaseOf cadence (v.getLsbD 20) (v.extractLsb' 12 4).toNat with
  | some method, some phase =>
    some
      { dominance := if v.getLsbD 23 then .lowerFirst else .upperFirst
        cadence := cadence
        phase := phase
        method := method
        repair := v.getLsbD 17
        profile := Fin.ofNat 16 (v.extractLsb' 8 4).toNat
        mask :=
          if v.getLsbD 16 then
            some { top := Fin.ofNat 16 (v.extractLsb' 4 4).toNat, bottom := Fin.ofNat 16 (v.extractLsb' 0 4).toNat }
          else none }
  | _, _ => none

/-- The two bits of a cadence. -/
def Cadence.bits : Cadence → BitVec 2
  | .auto => 0
  | .video => 1
  | .film22 => 2
  | .film32 => 3

/-- The two bits of a video method. -/
def VideoMethod.bits : VideoMethod → BitVec 2
  | .motion => 0
  | .lineDouble => 1
  | .blend => 2

/-- The three bytes of a directives record, absent items sent as 0 (R185). -/
def encodeDirectives (d : Directives) : BitVec 24 :=
  BitVec.ofBool (d.dominance == .lowerFirst) ++ d.cadence.bits ++ BitVec.ofBool d.phase.isSome
    ++ d.method.bits ++ BitVec.ofBool d.repair ++ BitVec.ofBool d.mask.isSome
    ++ BitVec.ofNat 4 (match d.phase with | some p => p.val | none => 0)
    ++ BitVec.ofNat 4 d.profile.val
    ++ BitVec.ofNat 4 (match d.mask with | some m => m.top.val | none => 0)
    ++ BitVec.ofNat 4 (match d.mask with | some m => m.bottom.val | none => 0)

/-! ## Channel configuration record (R75, R186) -/

/-- A matcher from its 13 bytes: reserved flag bits and an alias key without its presence bit are ignored. -/
def decodeMatcher (m : MatcherBody) : Matcher :=
  { enabled := m.flags.getLsbD 7, code := m.code, mask := m.mask,
    aliasKey := if m.flags.getLsbD 6 then some m.aliasKey else none }

/-- The configuration record, if it is well formed under check 2 of R75. -/
def decodeConfig (b : ConfigBody) : Option ChannelConfig :=
  match standardOf (b.flags.extractLsb' 0 3).toNat, decodeDirectives b.directives with
  | some standard, some default =>
    if b.quota.toNat ≤ 32 ∧ b.repeatThreshold.toNat ≤ 1023 ∧ b.pairedThreshold.toNat ≤ 1023
        ∧ default.phase = none then
      some
        { standard := standard
          matchers := #v[decodeMatcher b.matcher0, decodeMatcher b.matcher1, decodeMatcher b.matcher2,
            decodeMatcher b.matcher3]
          default := default
          quota := b.quota.toNat
          repeatThreshold := b.repeatThreshold.toNat
          pairedThreshold := b.pairedThreshold.toNat
          autoRejoin := b.flags.getLsbD 7 }
    else none
  | _, _ => none

/-! ## Profile record (R126, R186) -/

/-- An aspect from its two bits; 11 is reserved. -/
def aspectOf (b : BitVec 2) : Option Aspect :=
  if b = 0 then some .pillarbox else if b = 1 then some .centreCrop else if b = 2 then some .stretch else none

/-- A kernel from its two bits; 11 is reserved. -/
def kernelOf (b : BitVec 2) : Option Kernel :=
  if b = 0 then some .taps4 else if b = 1 then some .taps6 else if b = 2 then some .taps8 else none

/-- The profile record of six bytes, if every field is in range. -/
def decodeProfile (v : BitVec 48) : Option Profile :=
  let vertical := (v.extractLsb' 32 8).toInt
  let horizontal := (v.extractLsb' 24 8).toInt
  match aspectOf (v.extractLsb' 46 2), kernelOf (v.extractLsb' 44 2) with
  | some aspect, some kernel =>
    if -16 ≤ vertical ∧ vertical ≤ 15 ∧ -32 ≤ horizontal ∧ horizontal ≤ 31 then
      some
        { aspect := aspect, kernel := kernel, detail := Fin.ofNat 8 (v.extractLsb' 40 3).toNat,
          verticalTrim := vertical, horizontalTrim := horizontal,
          pillar := { y := v.extractLsb' 16 8, cb := v.extractLsb' 8 8, cr := v.extractLsb' 0 8 } }
    else none
  | _, _ => none

/-- The two bits of an aspect. -/
def Aspect.bits : Aspect → BitVec 2
  | .pillarbox => 0
  | .centreCrop => 1
  | .stretch => 2

/-- The two bits of a kernel. -/
def Kernel.bits : Kernel → BitVec 2
  | .taps4 => 0
  | .taps6 => 1
  | .taps8 => 2

/-- The six bytes of a profile record. -/
def encodeProfile (p : Profile) : BitVec 48 :=
  p.aspect.bits ++ p.kernel.bits ++ 0#1 ++ BitVec.ofNat 3 p.detail.val ++ BitVec.ofInt 8 p.verticalTrim
    ++ BitVec.ofInt 8 p.horizontalTrim ++ p.pillar.y ++ p.pillar.cb ++ p.pillar.cr

/-! ## Lane configuration record (R138, R186) -/

/-- A raster from its two bits; 11 is reserved. -/
def rasterOf (b : BitVec 2) : Option Raster :=
  if b = 0 then some .r1920x1080 else if b = 1 then some .r1280x720 else if b = 2 then some .r3840x2160
  else none

/-- A slate record from its kind byte and its three data bytes, if it is well formed (R138). -/
def slateOf (kind : Byte) (data : BitVec 24) : Option SlateRecord :=
  if kind = 0 then
    let count := (data.extractLsb' 16 8).toNat
    let width := (data.extractLsb' 0 16).toNat
    if (count = 1 ∨ count = 2 ∨ count = 4 ∨ count = 8) ∧ width % 16 = 0 ∧ 16 ≤ width ∧ width ≤ 3840 then
      some (.bars count width)
    else none
  else if kind = 1 then
    some (.flat { y := data.extractLsb' 16 8, cb := data.extractLsb' 8 8, cr := data.extractLsb' 0 8 })
  else none

/-- The lane configuration record of six bytes, if it passes check 1 of R138. -/
def decodeLaneConfig (v : BitVec 48) : Option LaneConfig :=
  let hold := (v.extractLsb' 32 8).toNat
  match rasterOf (v.extractLsb' 45 2), slateOf (v.extractLsb' 24 8) (v.extractLsb' 0 24) with
  | some raster, some slate =>
    if 1 ≤ hold ∧ hold ≤ 250 then
      some
        { enabled := v.getLsbD 47, raster := raster, rate := if v.getLsbD 44 then .r5994 else .r50,
          holdLimit := hold, slate := slate }
    else none
  | _, _ => none

/-! ## Cues (10, Cue record) -/

/-- A cue's target from its byte: 0 to 7 a channel, 8 SLATE, other values reserved. -/
def targetOf (b : Byte) : Option (Option Channel) :=
  if b = 8 then some none
  else match channelOf b with
    | some n => some (some n)
    | none => none

/-- A cue's trigger from its byte and the field number; a NEXT_TICK ignores the number (R186). -/
def triggerOf (b : Byte) (number : FieldNum) : Option Trigger :=
  if b = 0 then some .nextTick else if b = 1 then some (.atField number) else none

/-- The six bytes of a cue; the field number of a NEXT_TICK is sent as 0 (DEDUCED from R185, log 24). -/
def encodeCue (c : Cue) : List Byte :=
  [c.number, match c.target with | some n => byte n.val | none => 8]
    ++ match c.trigger with
      | .nextTick => [0, 0, 0, 0]
      | .atField f => 1 :: bytes24 f

/-! ## Attention modes (10, the request catalogue) -/

/-- A mode from its two bits; 10 and 11 are reserved. -/
def attnModeOf (b : BitVec 2) : Option AttnMode :=
  if b = 0 then some .edge else if b = 1 then some .level else none

/-- The two bits of a mode. -/
def AttnMode.bits : AttnMode → BitVec 2
  | .edge => 0
  | .level => 1

/-! ## Named values in results (10, Common encodings) -/

/-- The code of an entry state. -/
def EntryState.code : EntryState → Byte
  | .free => 0
  | .active => 1
  | .provisional => 2
  | .retiring => 3

/-- The code of the state a set was latched under. -/
def LiveState.code : LiveState → Byte
  | .active => 1
  | .provisional => 2

/-- The code of a channel state. -/
def ChannelState.code : ChannelState → Byte
  | .halted => 0
  | .seeking => 1
  | .running => 2
  | .halting => 3
  | .detached => 4

/-- The code of a confinement level. -/
def Level.code : Level → Byte
  | .normal => 0
  | .caution => 1
  | .degraded => 2

/-- The code of a film mode. -/
def Film.code : Film → Byte
  | .film22 => 2
  | .film32 => 3

/-- The code of a lane state. -/
def LaneState.code : LaneState → Byte
  | .idle => 0
  | .slateNoProgram => 1
  | .slateStarved => 2
  | .program => 3

/-- The number of a result code (R170). -/
def ResultCode.code : ResultCode → Byte
  | .done => 0
  | .noEntry => 1
  | .overlap => 2
  | .stale => 3
  | .noRoom => 4
  | .inUse => 5
  | .wrongState => 6
  | .range => 7
  | .badRequest => 8
  | .checkFail => 9
  | .noRequest => 15

/-! ## Entries in results -/

/-- An entry summary of 10 bytes: handle, generation, state, first field, last field. -/
def entrySummary (h : Handle) (e : Entry) : List Byte :=
  num16 h.val ++ [e.gen, e.state.code] ++ bytes24 e.first ++ bytes24 e.last

/-- Whether an entry is charged to a reserve. -/
def Charge.isReserve : Charge → Bool
  | .shared => false
  | .reserve _ => true

/-- The flags byte of an entry record, at offset 12. -/
def entryFlags (e : Entry) : Byte :=
  bitAt 7 (e.origin == .monitor) ||| bitAt 6 e.owner.isSome ||| bitAt 5 e.charge.isReserve
    ||| bitAt 4 e.parent.isSome ||| (match e.owner with | some c => byte c.val | none => 0)

/-- The entry record of ENTRY_READ: 2 bytes for a FREE entry, 20 for any other (R59, R185). -/
def entryRecord (e : Entry) : List Byte :=
  if e.state = .free then [e.state.code, e.gen]
  else
    [e.state.code, e.gen] ++ bytes32 e.key ++ bytes24 e.first ++ bytes24 e.last
      ++ [entryFlags e, byte e.useCount] ++ bytes24 (encodeDirectives e.directives)
      ++ match e.parent with
        | some (h, g) => num16 h.val ++ [g]
        | none => [0, 0, 0]

end Sys2Proof.Machine
end

