-- ==== Sys2Proof/Machine/Flags.lean ====
section
/-! DEFINITION. The flags of the part: the latches, marks and conditions of the attention unit (R175 to
R182) and the attention line they drive. -/

namespace Sys2Proof.Machine

/-! ## What stands in a latch -/

/-- Whether a channel stands in the PORT latch: any of its causes is kept (10, ATTN_READ result). -/
def PortLatch.inLatch (p : PortLatch) : Bool := p.levelChange || p.lockLost || p.lockGained || p.detached

/-- Whether a channel stands in the STEP latch. -/
def StepLatch.inLatch (p : StepLatch) : Bool := p.none || p.double

/-- Whether a lane stands in the CUE latch. -/
def CueLatch.inLatch (p : CueLatch) : Bool := p.taken || p.aborted

/-- The set sources as a source set: bit 0 PORT to bit 6 REQUEST, in priority order (R175). -/
def Attn.setSources (a : Attn) : BitVec 7 :=
  BitVec.ofBool a.request ++ BitVec.ofBool (a.step.toList.any StepLatch.inLatch)
    ++ BitVec.ofBool (a.cue.toList.any CueLatch.inLatch) ++ BitVec.ofBool (a.proposal.toList.any id)
    ++ BitVec.ofBool a.tableLow.set ++ BitVec.ofBool (a.starved.toList.any MarkedLatch.set)
    ++ BitVec.ofBool (a.port.toList.any PortLatch.inLatch)

/-- Whether the part pulls the attention line low: an enabled source is set (R177). -/
def Attn.line (a : Attn) : Bool := (a.setSources &&& a.enables) != 0

/-- The ATTN indication of the status byte: any latch is set, enabled or not (R169). -/
def Attn.anySet (a : Attn) : Bool := a.setSources != 0

/-! ## Latching events (R176) -/

/-- The causes kept for a channel in the PORT latch (R175). -/
inductive PortCause | levelChange | lockLost | lockGained | detached
  deriving DecidableEq, Repr

/-- A PORT latching event adds its cause and drops the mark. -/
def PortLatch.add (p : PortLatch) : PortCause → PortLatch
  | .levelChange => { p with levelChange := true, mark := false }
  | .lockLost => { p with lockLost := true, mark := false }
  | .lockGained => { p with lockGained := true, mark := false }
  | .detached => { p with detached := true, mark := false }

/-- A PORT latching event for channel `n`. -/
def Attn.latchPort (a : Attn) (n : Channel) (cause : PortCause) : Attn :=
  { a with port := modifyAt a.port n fun p => p.add cause }

/-- A PROPOSAL latching event for channel `n`. -/
def Attn.latchProposal (a : Attn) (n : Channel) : Attn := { a with proposal := setAt a.proposal n true }

/-- A CUE latching event for lane `l` with the outcome taken. -/
def Attn.latchTaken (a : Attn) (l : LaneId) : Attn :=
  { a with cue := modifyAt a.cue l fun p => { p with taken := true } }

/-- A CUE latching event for lane `l` with the outcome aborted. -/
def Attn.latchAborted (a : Attn) (l : LaneId) : Attn :=
  { a with cue := modifyAt a.cue l fun p => { p with aborted := true } }

/-- A STEP latching event for channel `n` with the cause NONE. -/
def Attn.latchNone (a : Attn) (n : Channel) : Attn :=
  { a with step := modifyAt a.step n fun p => { p with none := true } }

/-- A STEP latching event for channel `n` with the cause DOUBLE. -/
def Attn.latchDouble (a : Attn) (n : Channel) : Attn :=
  { a with step := modifyAt a.step n fun p => { p with double := true } }

/-- The REQUEST latch is set. -/
def Attn.latchRequest (a : Attn) : Attn := { a with request := true }

/-! ## Conditions (R178, R179) -/

/-- Entry into DETACHED of channel `n`: the condition begins and PORT is latched with the cause DETACHED. -/
def Attn.beginDetached (a : Attn) (n : Channel) : Attn :=
  { a with detachedCond := setAt a.detachedCond n true }.latchPort n .detached

/-- The DETACHED condition of channel `n` ends: a marked member leaves the latch with its causes (R179). -/
def Attn.endDetached (a : Attn) (n : Channel) : Attn :=
  { a with
    detachedCond := setAt a.detachedCond n false
    port := modifyAt a.port n fun p => if p.mark then PortLatch.clear else p }

/-- Entry into SLATE/STARVED of lane `l`: the condition begins and STARVED is latched. -/
def Attn.beginStarved (a : Attn) (l : LaneId) : Attn :=
  { a with
    starvedCond := setAt a.starvedCond l true
    starved := setAt a.starved l { set := true, mark := false } }

/-- The starved condition of lane `l` ends: a marked member leaves the latch (R179). -/
def Attn.endStarved (a : Attn) (l : LaneId) : Attn :=
  { a with
    starvedCond := setAt a.starvedCond l false
    starved := modifyAt a.starved l fun p => if p.mark then MarkedLatch.clear else p }

/-- The last shared free is compared with the threshold (R178). -/
def Attn.compareFree (a : Attn) : Attn :=
  if a.lastSharedFree < a.threshold then
    if a.tableLowCond then a
    else { a with tableLowCond := true, tableLow := { set := true, mark := false } }
  else if a.tableLowCond then
    { a with
      tableLowCond := false
      tableLow := if a.tableLow.mark then MarkedLatch.clear else a.tableLow }
  else a

/-- The Table Controller hands over a new shared free (R34, R178). -/
def Attn.handOver (a : Attn) (free : Nat) : Attn := { a with lastSharedFree := free }.compareFree

/-! ## Acknowledgement (R180) -/

/-- A PORT member is acknowledged: cleared in EDGE mode or when its condition does not hold, marked when it
is set in LEVEL mode while its condition holds. -/
def PortLatch.ack (p : PortLatch) (mode : AttnMode) (cond : Bool) : PortLatch :=
  if mode = .level ∧ cond = true then (if p.inLatch then { p with mark := true } else p)
  else PortLatch.clear

/-- A member without causes is acknowledged in the same way. -/
def MarkedLatch.ack (p : MarkedLatch) (mode : AttnMode) (cond : Bool) : MarkedLatch :=
  if mode = .level ∧ cond = true then (if p.set then { p with mark := true } else p)
  else MarkedLatch.clear

/-- The acknowledgement of the sources of a source set (R180). Bit 7 is ignored (R186). -/
def Attn.ack (a : Attn) (sources : Byte) : Attn :=
  { a with
    port :=
      if sources.getLsbD 0 then
        Vector.ofFn fun n => (a.port.get n).ack a.portMode (a.detachedCond.get n)
      else a.port
    starved :=
      if sources.getLsbD 1 then
        Vector.ofFn fun l => (a.starved.get l).ack a.starvedMode (a.starvedCond.get l)
      else a.starved
    tableLow := if sources.getLsbD 2 then a.tableLow.ack a.tableLowMode a.tableLowCond else a.tableLow
    proposal := if sources.getLsbD 3 then Vector.replicate 8 false else a.proposal
    cue := if sources.getLsbD 4 then Vector.replicate 4 CueLatch.clear else a.cue
    step := if sources.getLsbD 5 then Vector.replicate 8 StepLatch.clear else a.step
    request := if sources.getLsbD 6 then false else a.request }

/-! ## Settings (R182) -/

/-- A change of the modes: a source that goes from LEVEL to EDGE loses its marked members. -/
def Attn.setModes (a : Attn) (port starved tableLow : AttnMode) : Attn :=
  { a with
    portMode := port
    starvedMode := starved
    tableLowMode := tableLow
    port :=
      if a.portMode = .level ∧ port = .edge then
        a.port.map fun p => if p.mark then PortLatch.clear else p
      else a.port
    starved :=
      if a.starvedMode = .level ∧ starved = .edge then
        a.starved.map fun p => if p.mark then MarkedLatch.clear else p
      else a.starved
    tableLow :=
      if a.tableLowMode = .level ∧ tableLow = .edge ∧ a.tableLow.mark = true then MarkedLatch.clear
      else a.tableLow }

/-- An ATTN_SET whose values are in range: enables and modes are replaced, then the last shared free is
compared with the new threshold (R182). -/
def Attn.configure (a : Attn) (enables : BitVec 7) (port starved tableLow : AttnMode) (threshold : Nat) :
    Attn :=
  { a.setModes port starved tableLow with enables := enables, threshold := threshold }.compareFree

/-! ## Reset (R183) -/

/-- The attention unit's part of a UNIT_RESET: every latch and mark is cleared, all else kept. -/
def Attn.clearLatches (a : Attn) : Attn :=
  { a with
    port := Vector.replicate 8 PortLatch.clear
    starved := Vector.replicate 4 MarkedLatch.clear
    tableLow := MarkedLatch.clear
    proposal := Vector.replicate 8 false
    cue := Vector.replicate 4 CueLatch.clear
    step := Vector.replicate 8 StepLatch.clear
    request := false }

/-! ## Reading (R181) -/

/-- The top source: the highest-priority source that is enabled and set, FFh for none. -/
def Attn.topSource (a : Attn) : Byte :=
  match [0, 1, 2, 3, 4, 5, 6].find? fun k => (a.setSources &&& a.enables).getLsbD k with
  | some k => byte k
  | none => 0xFF

/-- The PORT byte of a channel. -/
def PortLatch.byte (p : PortLatch) : Byte :=
  bitAt 0 p.levelChange ||| bitAt 1 p.lockLost ||| bitAt 2 p.lockGained ||| bitAt 3 p.detached
    ||| bitAt 7 p.mark

/-- The modes byte: PORT in bits 1 to 0, STARVED in bits 3 to 2, TABLE_LOW in bits 5 to 4. -/
def Attn.modesByte (a : Attn) : Byte :=
  0#2 ++ a.tableLowMode.bits ++ a.starvedMode.bits ++ a.portMode.bits

/-- A set of channels as a mask. -/
def channelSetByte (v : Vector Bool 8) : Byte :=
  allChannels.foldl (fun b n => b ||| bitAt n.val (v.get n)) 0

/-- The result bytes of ATTN_READ, 36 bytes (10, ATTN_READ result). -/
def Attn.readBytes (a : Attn) : List Byte :=
  [0#1 ++ a.setSources, 0#1 ++ a.enables, a.modesByte] ++ num16 a.threshold ++ num16 a.lastSharedFree
    ++ [channelSetByte a.detachedCond,
      allLanes.foldl (fun b l => b ||| bitAt l.val (a.starvedCond.get l)) 0 ||| bitAt 7 a.tableLowCond,
      a.topSource]
    ++ a.port.toList.map PortLatch.byte
    ++ [channelSetByte a.proposal]
    ++ a.step.toList.map (fun p => bitAt 0 p.none ||| bitAt 1 p.double)
    ++ a.starved.toList.map (fun p => bitAt 0 p.set ||| bitAt 7 p.mark)
    ++ a.cue.toList.map (fun p => bitAt 0 p.taken ||| bitAt 1 p.aborted)
    ++ [bitAt 7 a.tableLow.mark]

end Sys2Proof.Machine
end

