-- ==== Sys2Proof/Machine/Table.lean ====
section
/-! DEFINITION. The Treatment Table: its span indexes and reserve accounting as views of the entries and
quotas, and the changes of entries the claims and requests share (R23 to R37). -/

namespace Sys2Proof.Machine

/-! ## Span index (R30) -/

/-- ACTIVE or PROVISIONAL: the entries that stand in a span index (R25). -/
def Entry.live (e : Entry) : Bool := e.state == .active || e.state == .provisional

/-- Whether the span of an entry holds a field number. -/
def Entry.covers (e : Entry) (f : FieldNum) : Bool := e.first.toNat ≤ f.toNat && f.toNat ≤ e.last.toNat

/-- Whether the span of an entry meets the span from `a` to `b` (R51). -/
def Entry.meets (e : Entry) (a b : FieldNum) : Bool := e.first.toNat ≤ b.toNat && a.toNat ≤ e.last.toNat

/-- The handles whose entries satisfy `p`, in ascending order. -/
def State.handlesWhere (s : State) (p : Entry → Bool) : List Handle :=
  s.table.toList.zipIdx.filterMap fun x => if p x.1 then some (Fin.ofNat 1024 x.2) else none

/-- A handle put into a list in ascending order of first field. -/
def State.insertByFirst (s : State) (h : Handle) : List Handle → List Handle
  | [] => [h]
  | g :: rest =>
    if (s.entry h).first.toNat ≤ (s.entry g).first.toNat then h :: g :: rest
    else g :: s.insertByFirst h rest

/-- The span index of a key: its ACTIVE and PROVISIONAL entries in ascending order of first field (R30). -/
def State.spanIndex (s : State) (key : Key) : List Handle :=
  (s.handlesWhere fun e => e.live && e.key == key).foldr s.insertByFirst []

/-- The covering entry of a key for a field (R30). -/
def State.covering (s : State) (key : Key) (f : FieldNum) : Option Handle :=
  (s.spanIndex key).find? fun h => (s.entry h).covers f

/-- The next entry of a key after a field: the smallest first field above it (R30). -/
def State.nextAfter (s : State) (key : Key) (f : FieldNum) : Option Handle :=
  (s.spanIndex key).find? fun h => f.toNat < (s.entry h).first.toNat

/-- The overlapping entry with the smallest first field, an amended entry left out (R51). -/
def State.overlapping (s : State) (key : Key) (a b : FieldNum) (except : Option Handle) : Option Handle :=
  (s.spanIndex key).find? fun h => some h != except && (s.entry h).meets a b

/-- The lowest-numbered FREE handle (R26). -/
def State.lowestFree (s : State) : Option Handle :=
  (s.table.toList.findIdx? fun e => e.state == .free).map (Fin.ofNat 1024)

/-! ## Charges and reserve accounting (R33, R34) -/

/-- F: the number of FREE entries. -/
def State.freeCount (s : State) : Nat := s.table.toList.countP fun e => e.state == .free

/-- H_c: the number of entries not FREE and charged RESERVE of `c`. -/
def State.reserveHeld (s : State) (c : Channel) : Nat :=
  s.table.toList.countP fun e => e.state != .free && e.charge == .reserve c

/-- Q_c: the reserve quota of channel `c`. -/
def State.quota (s : State) (c : Channel) : Nat := (s.chan c).config.quota

/-- The outstanding reserve: the sum over the channels of Q_c less H_c. -/
def State.outstanding (s : State) : Nat :=
  (allChannels.map fun c => s.quota c - s.reserveHeld c).sum

/-- Shared free: F less the outstanding reserve. -/
def State.sharedFree (s : State) : Nat := s.freeCount - s.outstanding

/-- The controller hands the new shared free to the attention unit (R34). -/
def State.handOver (s : State) : State := s.modAttn fun a => a.handOver s.sharedFree

/-! ## Changes of entries -/

/-- An entry becomes FREE: its generation is kept and its charge settled (R28). -/
def State.freeEntry (s : State) (h : Handle) : State :=
  (s.setEntry h (Entry.free (s.entry h).gen)).handOver

/-- The use count of an entry falls by one; a RETIRING entry whose count reaches 0 becomes FREE (R28,
R32). -/
def State.lowerUse (s : State) (h : Handle) : State :=
  let e := s.entry h
  if e.state = .retiring ∧ e.useCount ≤ 1 then s.freeEntry h
  else s.setEntry h { e with useCount := e.useCount - 1 }

/-- The use count of an entry rises by one. -/
def State.raiseUse (s : State) (h : Handle) : State :=
  let e := s.entry h
  s.setEntry h { e with useCount := e.useCount + 1 }

/-- The use counts follow a channel from one current entry to another (R32, R40). -/
def State.moveUse (s : State) (old new : Option Handle) : State :=
  if old = new then s
  else
    let s := match old with
      | some h => s.lowerUse h
      | none => s
    match new with
    | some h => s.raiseUse h
    | none => s

/-- An entry leaves its index: FREE if it has no users, else RETIRING (R27). -/
def State.withdrawEntry (s : State) (h : Handle) : State :=
  let e := s.entry h
  if e.useCount = 0 then s.freeEntry h else s.setEntry h { e with state := .retiring }

/-- A FREE entry is given out with the fields of `e`: its generation is one above the generation it bore
while FREE, its use count 0 (R26). -/
def State.giveOut (s : State) (h : Handle) (e : Entry) : State :=
  (s.setEntry h { e with gen := (s.entry h).gen + 1, useCount := 0 }).handOver

end Sys2Proof.Machine
end

