-- ==== Sys2Proof/Machine/Request.lean ====
section
/-! DEFINITION. How a request reaches its owner and hands back its result (R49, R166, R167). -/

namespace Sys2Proof.Machine

/-- A launch: the link becomes BUSY with the request, the last result becomes NO_REQUEST, the staging
buffer is emptied (R166). -/
def State.launch (s : State) (r : Instr) : State :=
  s.modLink fun k =>
    { k with
      staging := []
      overflow := false
      flight := .launched r
      lastResult := { code := .noRequest, bytes := [] } }

/-- The state in which the owner takes request `r`. A request already launched is taken as it waits. With
no request in flight the command stands for the whole: the station ends any transaction, sends the body in
one piece with FIRST and LAST, and the link launches it (DESIGN CHOICE, log 6). While another request is in
flight, or this one has been taken already, there is nothing to take. -/
def State.reachOwner (s : State) (r : Instr) : Option State :=
  match s.link.flight with
  | .idle => some ((s.modLink fun k => { k with transaction := none }).launch r)
  | .launched r' => if r' = r then some s else none
  | .carried _ => none
  | .handedBack _ _ => none

/-- The owner's result is handed back; the link completes the request in an event of its own (R167). -/
def State.setHandedBack (s : State) (r : Instr) (res : Result) : State :=
  s.modLink fun k => { k with flight := .handedBack r res }

/-- The request stays with its owner until its work there ends. -/
def State.setCarried (s : State) (r : Instr) : State := s.modLink fun k => { k with flight := .carried r }

/-- A request that its owner completes at its taking. -/
def State.serve (s : State) (r : Instr) (owner : State → State × Result) : State :=
  match s.reachOwner r with
  | none => s
  | some s0 => (owner s0).1.setHandedBack r (owner s0).2

end Sys2Proof.Machine
end

