-- ==== Sys2Proof/Machine/Attention.lean ====
section
/-! DEFINITION. The requests on the attention unit (R180 to R182). -/

namespace Sys2Proof.Machine

/-- ATTN_SET at the attention unit (R182): RANGE for a threshold above 1023 or a reserved mode; bit 7 of the
enables and bits 7 to 6 of the modes are ignored (R186). -/
def State.takeAttnSet (s : State) (enables modes : Byte) (threshold : BitVec 16) : State × Result :=
  match attnModeOf (modes.extractLsb' 0 2), attnModeOf (modes.extractLsb' 2 2),
      attnModeOf (modes.extractLsb' 4 2) with
  | some port, some starved, some tableLow =>
    if 1023 < threshold.toNat then (s, refuse .range)
    else
      (s.modAttn fun a => a.configure (enables.extractLsb' 0 7) port starved tableLow threshold.toNat, done [])
  | _, _, _ => (s, refuse .range)

/-- ATTN_READ (R181). -/
def execAttnRead (s : State) : Host.Outcome State Fault Refusal :=
  .next (s.serve .attnRead fun s => (s, done s.attn.readBytes))

/-- ATTN_ACK (R180). -/
def execAttnAck (sources : Byte) (s : State) : Host.Outcome State Fault Refusal :=
  .next (s.serve (.attnAck sources) fun s => (s.modAttn fun a => a.ack sources, done []))

/-- ATTN_SET (R182). -/
def execAttnSet (enables modes : Byte) (threshold : BitVec 16) (s : State) : Host.Outcome State Fault Refusal :=
  .next (s.serve (.attnSet enables modes threshold) fun s => s.takeAttnSet enables modes threshold)

end Sys2Proof.Machine
end

