-- ==== Sys2Proof/Decode.lean ====
section
/-! DEFINITION. What the bytes of the management link spell. No row of the command table gives bits, so no word
decodes to a command. A request body does spell a request: `decodeBody` reads a staged body by the catalogue of
10_record_and_message_layouts.md (R166) and `encodeBody` writes it. -/

namespace Sys2Proof

open Machine

/-- The command a word spells by the table's bits: none, since the table gives no row any bits. -/
def decodeTableWord (_nbits _w : Nat) : Option Instr := none

/-! ## Reading a body -/

/-- The matcher at an offset of a CHANNEL_SET body (10, Channel configuration record). -/
def decodeMatcherBody (b : List Byte) (at' : Nat) : MatcherBody :=
  { flags := byteAt b at', code := word32At b (at' + 1), mask := word32At b (at' + 5),
    aliasKey := word32At b (at' + 9) }

/-- The configuration record of a CHANNEL_SET body, from offset 2 on. -/
def decodeConfigBody (b : List Byte) : ConfigBody :=
  { flags := byteAt b 2, quota := byteAt b 3, repeatThreshold := word16At b 4, pairedThreshold := word16At b 6,
    directives := word24At b 8, matcher0 := decodeMatcherBody b 11, matcher1 := decodeMatcherBody b 24,
    matcher2 := decodeMatcherBody b 37, matcher3 := decodeMatcherBody b 50 }

/-- The body length the catalogue gives for a request code; `none` for a code it does not list. -/
def bodyLength (code : Byte) : Option Nat :=
  if code = 0x10 then some 14
  else if code = 0x11 then some 13
  else if code = 0x12 then some 4
  else if code = 0x13 then some 3
  else if code = 0x14 then some 8
  else if code = 0x15 then some 8
  else if code = 0x16 then some 4
  else if code = 0x17 then some 4
  else if code = 0x20 then some 63
  else if code = 0x21 then some 2
  else if code = 0x22 then some 2
  else if code = 0x23 then some 3
  else if code = 0x28 then some 3
  else if code = 0x29 then some 1
  else if code = 0x30 then some 8
  else if code = 0x31 then some 2
  else if code = 0x38 then some 8
  else if code = 0x39 then some 7
  else if code = 0x3A then some 3
  else if code = 0x3B then some 3
  else if code = 0x40 then some 1
  else if code = 0x41 then some 2
  else if code = 0x42 then some 5
  else if code = 0x50 then some 1
  else if code = 0x51 then some 1
  else none

/-- The request of a body whose first byte is a code of the catalogue. -/
def bodyRequest (b : List Byte) : Instr :=
  let code := byteAt b 0
  if code = 0x10 then .entryAdd (word32At b 1) (word24At b 5) (word24At b 8) (word24At b 11)
  else if code = 0x11 then
    .entryAmend (word16At b 1) (byteAt b 3) (word24At b 4) (word24At b 7) (word24At b 10)
  else if code = 0x12 then .entryRetire (word16At b 1) (byteAt b 3)
  else if code = 0x13 then .entryRead (word16At b 1)
  else if code = 0x14 then .entryFind (word32At b 1) (word24At b 5)
  else if code = 0x15 then .entryNext (word32At b 1) (word24At b 5)
  else if code = 0x16 then .proposalConfirm (word16At b 1) (byteAt b 3)
  else if code = 0x17 then .proposalReject (word16At b 1) (byteAt b 3)
  else if code = 0x20 then .channelSet (byteAt b 1) (decodeConfigBody b)
  else if code = 0x21 then .channelStart (byteAt b 1)
  else if code = 0x22 then .channelHalt (byteAt b 1)
  else if code = 0x23 then .channelRead (byteAt b 1) (byteAt b 2)
  else if code = 0x28 then .syncSnapshot (byteAt b 1) (byteAt b 2)
  else if code = 0x29 then .syncRead
  else if code = 0x30 then .profileWrite (byteAt b 1) (word48At b 2)
  else if code = 0x31 then .profileRead (byteAt b 1)
  else if code = 0x38 then .laneSet (byteAt b 1) (word48At b 2)
  else if code = 0x39 then .cueAdd (byteAt b 1) (byteAt b 2) (byteAt b 3) (word24At b 4)
  else if code = 0x3A then .cueAbort (byteAt b 1) (byteAt b 2)
  else if code = 0x3B then .laneRead (byteAt b 1) (byteAt b 2)
  else if code = 0x40 then .attnRead
  else if code = 0x41 then .attnAck (byteAt b 1)
  else if code = 0x42 then .attnSet (byteAt b 1) (byteAt b 2) (word16At b 3)
  else if code = 0x50 then .unitRead
  else .unitReset

/-- The request a staged body spells: its first byte is a code of the catalogue and its length is the one the
catalogue gives (R166, checks 2 and 3). -/
def decodeBody (b : List Byte) : Option Instr :=
  match b with
  | [] => none
  | code :: _ => if bodyLength code = some b.length then some (bodyRequest b) else none

/-! ## Writing a body -/

/-- The 13 bytes of a matcher. -/
def encodeMatcherBody (m : MatcherBody) : List Byte :=
  m.flags :: (bytes32 m.code ++ bytes32 m.mask ++ bytes32 m.aliasKey)

/-- The 61 bytes of a configuration record. -/
def encodeConfigBody (c : ConfigBody) : List Byte :=
  [c.flags, c.quota] ++ bytes16 c.repeatThreshold ++ bytes16 c.pairedThreshold ++ bytes24 c.directives
    ++ encodeMatcherBody c.matcher0 ++ encodeMatcherBody c.matcher1 ++ encodeMatcherBody c.matcher2
    ++ encodeMatcherBody c.matcher3

/-- The body of a request, code first (10, The request catalogue); `none` for a command that no body carries. -/
def encodeBody : Instr → Option (List Byte)
  | .entryAdd key first last d => some (0x10 :: (bytes32 key ++ bytes24 first ++ bytes24 last ++ bytes24 d))
  | .entryAmend h g first last d => some (0x11 :: (bytes16 h ++ [g] ++ bytes24 first ++ bytes24 last ++ bytes24 d))
  | .entryRetire h g => some (0x12 :: (bytes16 h ++ [g]))
  | .entryRead h => some (0x13 :: bytes16 h)
  | .entryFind key f => some (0x14 :: (bytes32 key ++ bytes24 f))
  | .entryNext key f => some (0x15 :: (bytes32 key ++ bytes24 f))
  | .proposalConfirm h g => some (0x16 :: (bytes16 h ++ [g]))
  | .proposalReject h g => some (0x17 :: (bytes16 h ++ [g]))
  | .channelSet mask record => some (0x20 :: mask :: encodeConfigBody record)
  | .channelStart mask => some [0x21, mask]
  | .channelHalt mask => some [0x22, mask]
  | .channelRead channel flags => some [0x23, channel, flags]
  | .syncSnapshot mask lane => some [0x28, mask, lane]
  | .syncRead => some [0x29]
  | .profileWrite index record => some (0x30 :: index :: bytes48 record)
  | .profileRead index => some [0x31, index]
  | .laneSet lane record => some (0x38 :: lane :: bytes48 record)
  | .cueAdd lane target trigger f => some (0x39 :: lane :: target :: trigger :: bytes24 f)
  | .cueAbort lane cue => some [0x3A, lane, cue]
  | .laneRead lane flags => some [0x3B, lane, flags]
  | .attnRead => some [0x40]
  | .attnAck sources => some [0x41, sources]
  | .attnSet enables modes threshold => some (0x42 :: enables :: modes :: bytes16 threshold)
  | .unitRead => some [0x50]
  | .unitReset => some [0x51]
  | _ => none

end Sys2Proof
end

