-- ==== Sys2Proof/Machine/Link.lean ====
section
/-! DEFINITION. The management link: addressing (R161), the command byte (R162), pieces and their check (R163 to
R165), launch or refusal at LAST (R166), completion (R167), result reads (R168 to R170) and the link reset (R171).
A transfer is one command: its complete bytes, the milliseconds of low clock it took, and the way it ended. -/

namespace Sys2Proof.Machine

/-! ## Busy, reset, address bytes -/

/-- BUSY: a launched request has not completed (R167). -/
def Flight.busy : Flight → Bool
  | .idle => false
  | _ => true

/-- A link reset (R171): the transaction is abandoned, the staging buffer emptied, the overflow mark cleared. -/
def Link.clockReset (k : Link) : Link := { k with transaction := none, staging := [], overflow := false }

/-- The address byte of a write transfer as it travels: direction bit 0 (R165). -/
def writeAddress (address : BitVec 7) : Byte := address ++ 0#1

/-- The address byte of a read transfer: direction bit 1. -/
def readAddress (address : BitVec 7) : Byte := address ++ 1#1

/-- A transaction that has carried no command byte. -/
def Transaction.bare (low : Nat) : Transaction :=
  { command := none, received := [], readPending := none, clockLow := low }

/-- The transaction record after a transfer: a repeated start keeps it, and it ends at a stop condition and at a start or
stop condition within a byte (R161). The transaction that a start within a byte begins has no record before its first
transfer, and its low clock counts from there (DEDUCED from R161 and R171, log 42). -/
def transactionAfter (e : Ending) (t : Transaction) : Option Transaction :=
  match e with
  | .stop => none
  | .repeatedStart => some t
  | .stopWithinByte => none
  | .startWithinByte => none

/-- The acknowledge bits of a transfer whose bytes are all refused after its address. -/
def refuseAll (bytes : List Byte) : List Bool := true :: bytes.map fun _ => false

/-! ## The command byte (R162) -/

/-- FIRST: bit 7 of the command byte. -/
def isFirst (c : Byte) : Bool := c.getLsbD 7

/-- LAST: bit 6. -/
def isLast (c : Byte) : Bool := c.getLsbD 6

/-- CHECKED: bit 5. -/
def isChecked (c : Byte) : Bool := c.getLsbD 5

/-- RESULT: bit 4. -/
def isResult (c : Byte) : Bool := c.getLsbD 4

/-- Whether a command byte is refused with NACK (R162). -/
def commandRefused (c : Byte) (busy : Bool) : Bool :=
  c.extractLsb' 0 4 != 0 || (isResult c && (isFirst c || isLast c)) || (busy && !isResult c)

/-! ## Pieces (R163, R164) -/

/-- FIRST empties the staging buffer and clears the overflow mark when the command byte is accepted. -/
def Link.first (k : Link) (c : Byte) : Link := if isFirst c then { k with staging := [], overflow := false } else k

/-- The payload of an unchecked piece: bytes are appended while the buffer has room; the first one without room
sets the overflow mark, and it and the rest are refused (R163). -/
def Link.stageUnchecked (k : Link) (payload : List Byte) : Link :=
  let room := Config.stagingSize - k.staging.length
  { k with
    staging := k.staging ++ payload.take room
    overflow := k.overflow || decide (room < payload.length)
    acks := true :: true :: ((payload.take room).map fun _ => true) ++ (payload.drop room).map fun _ => false }

/-- What a checked piece comes to at its end (R164). -/
inductive CheckOutcome where
  /-- its check byte matched -/
  | stands
  /-- its count byte was refused: judged by the overflow mark at LAST -/
  | countRefused
  /-- its check byte differed, or was not received -/
  | failed
  deriving DecidableEq, Repr

/-- The bytes of a checked piece after its command byte: the link after them, and the piece's outcome. A count above
64 is refused without the overflow mark (DEDUCED from R164, log 21). Bytes that follow a differing check byte are
refused and discarded, which R164 says of a matching one only (DESIGN CHOICE, log 43). -/
def Link.stageChecked (k : Link) (c : Byte) (rest : List Byte) : Link × CheckOutcome :=
  match rest with
  | [] => ({ k with acks := [true, true] }, .failed)
  | count :: more =>
    if Config.stagingSize < count.toNat then ({ k with acks := true :: true :: rest.map fun _ => false }, .countRefused)
    else if Config.stagingSize < count.toNat + k.staging.length then
      ({ k with overflow := true, acks := true :: true :: rest.map fun _ => false }, .countRefused)
    else
      let payload := more.take count.toNat
      let k1 := { k with staging := k.staging ++ payload }
      let acked := true :: true :: true :: payload.map fun _ => true
      match more.drop count.toNat with
      | [] => ({ k1 with acks := acked }, .failed)
      | check :: extra =>
        if check = crc8 (writeAddress k.address :: c :: count :: payload) then
          ({ k1 with acks := acked ++ true :: extra.map fun _ => false }, .stands)
        else ({ k1 with acks := acked ++ false :: extra.map fun _ => false }, .failed)

/-- A result written without a launch: the staging buffer is emptied, the overflow mark cleared, and REQUEST
attention latched (R164, R166, R167). -/
def State.writeRefusal (s : State) (code : ResultCode) : State :=
  (s.modLink fun k => { k with staging := [], overflow := false, lastResult := { code := code, bytes := [] } }).modAttn
    Attn.latchRequest

/-- The link hands a staged request to the executor (R166). -/
def State.launchStaged (s : State) (r : Instr) : State :=
  s.modLink fun k =>
    { k with staging := [], flight := .launched r, lastResult := { code := .noRequest, bytes := [] } }

/-- The judgement at the end of a piece with LAST (R166). -/
def State.judgeLast (s : State) : State :=
  if s.link.overflow then s.writeRefusal .badRequest
  else
    match decodeBody s.link.staging with
    | none => s.writeRefusal .badRequest
    | some r => s.launchStaged r

/-- The end of a piece: a failed check writes CHECK_FAIL, else LAST is judged. -/
def State.endPiece (s : State) (c : Byte) (outcome : CheckOutcome) : State :=
  if outcome = .failed then s.writeRefusal .checkFail else if isLast c then s.judgeLast else s

/-- The bytes of a piece with an accepted command byte, to the end of its transfer. -/
def State.piece (s : State) (c : Byte) (rest : List Byte) : State :=
  let k := s.link.first c
  if isChecked c then
    { s with link := (k.stageChecked c rest).1 }.endPiece c (k.stageChecked c rest).2
  else { s with link := k.stageUnchecked rest }.endPiece c .stands

/-! ## Write transfers -/

/-- The transaction record of an accepted command byte; RESULT sets the read pending mark, which notes CHECKED
(R168). -/
def Transaction.opened (c : Byte) (received : List Byte) (low : Nat) : Transaction :=
  { command := some c, received := received, readPending := if isResult c then some (isChecked c) else none,
    clockLow := low }

/-- A write transfer that opens a transaction (R162 to R166, R168). -/
def State.openWrite (s : State) (bytes : List Byte) (low : Nat) (ending : Ending) : State :=
  match bytes with
  | [] => s.modLink fun k => { k with acks := [true], transaction := transactionAfter ending (Transaction.bare low) }
  | c :: rest =>
    if commandRefused c s.link.flight.busy then
      s.modLink fun k => { k with acks := refuseAll bytes, transaction := transactionAfter ending (Transaction.bare low) }
    else
      (if isResult c then s.modLink fun k => { k with acks := true :: true :: rest.map fun _ => false }
        else s.piece c rest).modLink fun k =>
        { k with transaction := transactionAfter ending (Transaction.opened c bytes low) }

/-- A write transfer after a repeated start: it carries no second command byte and changes nothing (R168). -/
def Link.laterWrite (k : Link) (t : Transaction) (bytes : List Byte) (low : Nat) (ending : Ending) : Link :=
  { k with acks := refuseAll bytes, transaction := transactionAfter ending { t with clockLow := t.clockLow + low } }

/-- A transfer that is addressed elsewhere: not acknowledged; a transaction in progress goes on or ends with it. One
that begins elsewhere leaves no record: a repeated start that then reaches the part opens the part's transaction, whose
first written byte is its command byte and whose clock-low time counts from there (DEDUCED from R161, log 30). -/
def Link.elsewhere (k : Link) (low : Nat) (ending : Ending) : Link :=
  { k with
    acks := [false]
    transaction :=
      match k.transaction with
      | some t => transactionAfter ending { t with clockLow := t.clockLow + low }
      | none => none }

/-- The clock-low time of the transaction in progress with a transfer's own added. -/
def Link.lowWith (k : Link) (low : Nat) : Nat :=
  match k.transaction with
  | some t => t.clockLow + low
  | none => low

/-- Whether a transfer reaches the clock-low limit: the part measures while a transaction it takes part in is in
progress (R171). -/
def Link.timesOut (k : Link) (address : BitVec 7) (low : Nat) : Bool :=
  (k.transaction.isSome || address == k.address) && Config.clockLowLimit ≤ k.lowWith low

/-- A write transfer on the management link. One whose clock-low time reaches the limit is abandoned whole
(R171, log 26). -/
def State.writeTransfer (s : State) (address : BitVec 7) (bytes : List Byte) (low : Nat) (ending : Ending) : State :=
  if s.link.timesOut address low then s.modLink fun k => { k.clockReset with acks := [] }
  else if address ≠ s.link.address then s.modLink fun k => k.elsewhere low ending
  else
    match s.link.transaction with
    | some t => s.modLink fun k => k.laterWrite t bytes low ending
    | none => s.openWrite bytes low ending

/-! ## Read transfers (R168, R169) -/

/-- The status byte (R169): BUSY, ATTN, result code. -/
def State.statusByte (s : State) : Byte :=
  bitAt 7 s.link.flight.busy ||| bitAt 6 s.attn.anySet ||| s.link.lastResult.code.code

/-- The status byte, the result length and the result bytes. -/
def State.plainResponse (s : State) : List Byte :=
  s.statusByte :: byte s.link.lastResult.bytes.length :: s.link.lastResult.bytes

/-- The command byte of a checked result read: its read pending mark is set and notes CHECKED (R168). -/
def Link.checkedRead (k : Link) : Option Byte :=
  match k.transaction with
  | some t => if t.readPending = some true then t.command else none
  | none => none

/-- What the link fixes at the read address (R168): with the check byte in a checked result read (R165). -/
def State.response (s : State) : List Byte :=
  match s.link.checkedRead with
  | some c =>
    s.plainResponse ++
      [crc8 (writeAddress s.link.address :: c :: readAddress s.link.address :: s.plainResponse)]
  | none => s.plainResponse

/-- The bytes sent when a number of bytes is clocked: FFh after the last one. -/
def padded (response : List Byte) (clocked : Nat) : List Byte :=
  response.take clocked ++ List.replicate (clocked - response.length) 0xFF

/-- The transaction record after a read transfer. -/
def Link.afterRead (k : Link) (low : Nat) (ending : Ending) : Option Transaction :=
  match k.transaction with
  | some t => transactionAfter ending { t with clockLow := t.clockLow + low }
  | none => transactionAfter ending (Transaction.bare low)

/-- A read transfer on the management link. It changes nothing but the transaction and what the wires show. -/
def State.readTransfer (s : State) (address : BitVec 7) (clocked low : Nat) (ending : Ending) : State :=
  if s.link.timesOut address low then s.modLink fun k => { k.clockReset with acks := [], sent := [] }
  else if address ≠ s.link.address then s.modLink fun k => { k.elsewhere low ending with sent := [] }
  else
    s.modLink fun k =>
      { k with acks := [true], sent := padded s.response clocked, transaction := k.afterRead low ending }

/-! ## Completion (R167) -/

/-- Whether the completion of a request latches REQUEST: every one but that of an ATTN_ACK naming REQUEST (R180). -/
def latchesRequest : Instr → Bool
  | .attnAck sources => !sources.getLsbD 6
  | _ => true

/-- The completion of a request whose owner has handed back its result. -/
def State.completeRequest (s : State) : State :=
  match s.link.flight with
  | .handedBack r res =>
    let s1 := s.modLink fun k => { k with flight := .idle, lastResult := res }
    if latchesRequest r then s1.modAttn Attn.latchRequest else s1
  | _ => s

/-! ## Commands of the link -/

/-- UNCHECKED_PIECE (R163): a write transfer; its bytes act as the wires carry them. -/
def execUncheckedPiece (address : BitVec 7) (bytes : List Byte) (low : Nat) (ending : Ending) (s : State) :
    Host.Outcome State Fault Refusal :=
  .next (s.writeTransfer address bytes low ending)

/-- CHECKED_PIECE (R164): a write transfer; its bytes act as the wires carry them. -/
def execCheckedPiece (address : BitVec 7) (bytes : List Byte) (low : Nat) (ending : Ending) (s : State) :
    Host.Outcome State Fault Refusal :=
  .next (s.writeTransfer address bytes low ending)

/-- RESULT_READ (R168): the bytes written before it, if any, in a write transfer that ends in a repeated start, then
the read transfer. -/
def execResultRead (address : BitVec 7) (written : List Byte) (clocked low : Nat) (ending : Ending) (s : State) :
    Host.Outcome State Fault Refusal :=
  .next ((if written.isEmpty then s else s.writeTransfer address written 0 .repeatedStart).readTransfer address clocked
    low ending)

/-- REQUEST_COMPLETION (R167). -/
def execRequestCompletion (s : State) : Host.Outcome State Fault Refusal := .next s.completeRequest

/-- LINK_RESET (R171): the clock has been low for 30 ms within the transaction in progress, or within one that has
carried no byte yet. -/
def execLinkReset (s : State) : Host.Outcome State Fault Refusal := .next (s.modLink Link.clockReset)

end Sys2Proof.Machine
end

