-- ==== Sys2Proof/Machine/Monitor.lean ====
section
/-! DEFINITION. The cadence monitor: film cycles, observation history, detector, settled state, transitions
and seeding (R95 to R105, R113, R115), as functions of one monitor. -/

namespace Sys2Proof.Machine

/-! ## Film cycles (R96, R97) -/

/-- The length of a film cycle. -/
def Film.cycle : Film → Nat
  | .film22 => 2
  | .film32 => 10

/-- The position of field `f` under an alignment (R96). -/
def Film.position (m : Film) (align : Nat) (f : FieldNum) : Nat := (align + f.toNat) % m.cycle

/-- The position counted from a phase at a first field; `f` may lie below it (R87). -/
def Film.positionFrom (m : Film) (phase : Nat) (first f : FieldNum) : Nat :=
  (((phase : Int) + (f.toNat : Int) - (first.toNat : Int)) % (m.cycle : Int)).toNat

/-- The alignment that puts a field at a phase: the phase less the field number, modulo the cycle. -/
def Film.alignOf (m : Film) (phase : Nat) (first : FieldNum) : Nat :=
  (((phase : Int) - (first.toNat : Int)) % (m.cycle : Int)).toNat

/-- Whether the weave partner at a position is the next field; else it is the previous one (R96). -/
def Film.partnerIsNext (m : Film) (pos : Nat) : Bool :=
  match m with
  | .film22 => pos == 0
  | .film32 => pos == 0 || pos == 3 || pos == 5 || pos == 8

/-- PAIRED expected at a position: false where the partner is the next field (R96). -/
def Film.pairedAt (m : Film) (pos : Nat) : Bool := !m.partnerIsNext pos

/-- REPEAT expected at a position (R96). -/
def Film.repeatAt (m : Film) (pos : Nat) : Bool :=
  match m with
  | .film22 => false
  | .film32 => pos == 2 || pos == 7

/-- A known observation of field `f` matches a mode and alignment (R97). -/
def Film.agrees (m : Film) (align : Nat) (f : FieldNum) (paired rep : Bool) : Bool :=
  paired == m.pairedAt (m.position align f) && rep == m.repeatAt (m.position align f)

/-- Two alignments of two modes are the same: FILM32 alignments that differ by 5 are (R97). -/
def sameAlignment (m : Film) (a : Nat) (m' : Film) (a' : Nat) : Bool :=
  m == m' && match m with
    | .film22 => a == a'
    | .film32 => a % 5 == a' % 5

/-- The match count at which a candidate locks (R100). -/
def Film.lockCount : Film → Nat
  | .film22 => 16
  | .film32 => 20

/-! ## Observation history (R98) -/

/-- A known observation is appended; an eleventh entry pushes out the oldest. -/
def appendHistory (h : List Observation) (o : Observation) : List Observation :=
  let l := h ++ [o]
  if 10 < l.length then l.tail else l

/-! ## Search (R99) -/

/-- The FILM32 test: the candidate's alignment, if all three conditions hold. -/
def film32Test (h : List Observation) : Option Nat :=
  if h.length = 10 then
    match h.filter fun o => o.rep with
    | [x, y] =>
      let align := Film.film32.alignOf 2 x.record.number
      if x.record.number.toNat + 5 = y.record.number.toNat
          ∧ h.all fun o => Film.film32.agrees align o.record.number o.paired o.rep then some align
      else none
    | _ => none
  else none

/-- Neighbouring entries rise by one in field number and alternate in PAIRED. -/
def alternating : List Observation → Bool
  | x :: y :: rest =>
    x.record.number.toNat + 1 == y.record.number.toNat && x.paired != y.paired && alternating (y :: rest)
  | _ => true

/-- The FILM22 test over the newest 8 entries: its alignment and its oldest entry. -/
def film22Test (h : List Observation) : Option (Nat × Observation) :=
  let newest := h.drop (h.length - 8)
  if newest.length = 8 ∧ alternating newest ∧ newest.all fun o => !o.rep then
    match newest.head?, newest.find? fun o => o.paired with
    | some oldest, some x => some (Film.film22.alignOf 1 x.record.number, oldest)
    | _, _ => none
  else none

/-- The search: FILM32 first, then FILM22, else SEARCHING. -/
def search (h : List Observation) : Detector :=
  match film32Test h, h.head? with
  | some align, some oldest => .candidate .film32 align 10 oldest.record
  | _, _ =>
    match film22Test h with
    | some (align, oldest) => .candidate .film22 align 8 oldest.record
    | none => .searching

/-! ## Observation -/

/-- What a shift tells the detector (R95): the field's record, PAIRED and REPEAT when known, and SLIP. -/
structure Seen where
  record : FieldRecord
  known : Option (Bool × Bool)
  slip : Bool
  deriving DecidableEq, Repr

/-- What an observation did beyond moving the detector: nothing, an entry into LOCKED, or the unlocked run
reaching 60. -/
inductive MonitorEvent | nothing | lock | expiry
  deriving DecidableEq, Repr

/-- The outcome of an observation: the monitor after it, its event, whether the settled state changed at it
(R115), and the start field of a transition decided at it (R105). -/
structure Observed where
  monitor : Monitor
  event : MonitorEvent
  changed : Bool
  start : Option FieldRecord
  deriving DecidableEq, Repr

/-- An entry into LOCKED from a candidate (R100, R103 to R105). -/
def Monitor.lockIn (m : Monitor) (mode : Film) (align : Nat) (start : FieldRecord) : Observed :=
  let settle (settled : Settled) (align : Nat) : Monitor :=
    { m with detector := .locked mode align 0 none, settled := settled, unlockedRun := 0, pending := none }
  match m.settled with
  | .film mode' align' =>
    if sameAlignment mode align mode' align' then
      { monitor := settle m.settled align', event := .lock, changed := false, start := none }
    else
      { monitor := settle (.film mode align) align, event := .lock, changed := true,
        start := m.pending.map Pending.breakField }
  | .video =>
    { monitor := settle (.film mode align) align, event := .lock, changed := true, start := some start }
  | .none =>
    { monitor := settle (.film mode align) align, event := .lock, changed := true, start := none }

/-- The unlocked run reaches 60: the settled state becomes VIDEO and a pending transition is decided (R103,
R104). -/
def Monitor.expire (m : Monitor) : Observed :=
  { monitor := { m with settled := .video, unlockedRun := 0, pending := none }, event := .expiry,
    changed := true, start := m.pending.map Pending.breakField }

/-- The unlocked run rises at an observation made while the detector is not LOCKED and the settled state is
none or FILM (R103). -/
def Monitor.countUnlocked (m : Monitor) : Observed :=
  if m.settled = .video then { monitor := m, event := .nothing, changed := false, start := none }
  else if Config.unlockedLimit ≤ m.unlockedRun + 1 then m.expire
  else
    { monitor := { m with unlockedRun := m.unlockedRun + 1 }, event := .nothing, changed := false,
      start := none }

/-- A candidate ends or SEARCHING goes on: the search over a history that has just gained an entry. -/
def searchIfKnown (o : Seen) (h : List Observation) : Detector :=
  if o.slip then .searching else if o.known.isSome then search h else .searching

/-- A miss while LOCKED (R101): the first is recorded, the second is a break. -/
def Monitor.miss (m : Monitor) (mode : Film) (align misses : Nat) (firstMiss : Option FieldRecord) (o : Seen) :
    Monitor :=
  if misses = 0 then { m with detector := .locked mode align 1 (some o.record) }
  else
    { m with
      detector := search m.history
      unlockedRun := 0
      pending := some { breakField := firstMiss.getD o.record, settled := m.settled } }

/-- The history after an observation that is not suspended (R98). -/
def Monitor.historyAfter (m : Monitor) (o : Seen) : List Observation :=
  if o.slip then []
  else match o.known with
    | some (p, r) => appendHistory m.history { record := o.record, paired := p, rep := r }
    | none => m.history

/-- An observation that is not suspended acts on the history, the detector and the settled state (R98 to
R105). A lock is judged before the unlocked run, and the observation of a break does not raise it (DEDUCED
from R103, log 14). -/
def Monitor.observe (m0 : Monitor) (o : Seen) : Observed :=
  let m := { m0 with history := m0.historyAfter o }
  match m.detector with
  | .searching => { m with detector := searchIfKnown o m.history }.countUnlocked
  | .candidate mode align count start =>
    if o.slip then { m with detector := .searching }.countUnlocked
    else
      match o.known with
      | none => m.countUnlocked
      | some (p, r) =>
        if mode.agrees align o.record.number p r then
          if mode.lockCount ≤ count + 1 then m.lockIn mode align start
          else { m with detector := .candidate mode align (count + 1) start }.countUnlocked
        else { m with detector := search m.history }.countUnlocked
  | .locked mode align misses firstMiss =>
    let kept (m : Monitor) : Observed := { monitor := m, event := .nothing, changed := false, start := none }
    if o.slip then kept (m.miss mode align misses firstMiss o)
    else
      match o.known with
      | none => kept m
      | some (p, r) =>
        if mode.agrees align o.record.number p r then kept { m with detector := .locked mode align 0 none }
        else kept (m.miss mode align misses firstMiss o)

/-! ## Seeding (R113) -/

/-- The film mode of a cadence. -/
def Cadence.film : Cadence → Option Film
  | .auto => none
  | .video => none
  | .film22 => some .film22
  | .film32 => some .film32

/-- Whether the detector is CANDIDATE or LOCKED. -/
def Detector.engaged : Detector → Bool
  | .searching => false
  | .candidate _ _ _ _ => true
  | .locked _ _ _ _ => true

/-- The monitor seeded from the directives and first field of a PROVISIONAL entry the channel enters. An
entry into SEARCHING from CANDIDATE or LOCKED makes the search of R99 (DEDUCED, log 13). -/
def Monitor.seed (m : Monitor) (d : Directives) (first : FieldNum) : Monitor :=
  match d.cadence, d.cadence.film, d.phase with
  | .video, _, _ =>
    { m with
      detector := if m.detector.engaged then search m.history else m.detector
      settled := .video
      unlockedRun := 0
      pending := none }
  | _, some mode, some phase =>
    { m with
      detector := .locked mode (mode.alignOf phase.val first) 0 none
      settled := .film mode (mode.alignOf phase.val first)
      unlockedRun := 0
      pending := none }
  | _, _, _ => m

/-! ## Disagreement (R115) -/

/-- Whether a new settled state disagrees with the set latched for the observed field. -/
def disagrees (set : LatchedSet) (settled : Settled) : Bool :=
  match set with
  | .default _ => false
  | .entry _ _ .provisional _ _ => false
  | .entry _ _ .active first d =>
    match d.cadence, d.cadence.film, settled with
    | .video, _, .film _ _ => true
    | _, some _, .video => true
    | _, some mode, .film mode' align =>
      if mode = mode' then
        match d.phase with
        | some phase => !sameAlignment mode' align mode (mode.alignOf phase.val first)
        | none => false
      else true
    | _, _, _ => false

/-! ## Proposal claims (R106, R107) -/

/-- A field's set was monitor-driven: an entry latched while PROVISIONAL, or cadence AUTO (R86, R106). -/
def LatchedSet.monitorDriven : LatchedSet → Bool
  | .entry _ _ .provisional _ _ => true
  | .entry _ _ .active _ d => d.cadence == .auto
  | .default d => d.cadence == .auto

/-- The basis of a claim: the handle and generation of the start field's set (R107). -/
def LatchedSet.basis : LatchedSet → Option (Handle × Gen)
  | .entry h g _ _ _ => some (h, g)
  | .default _ => none

/-- The directives of a claim: the start field's, with the cadence and phase of the new settled state
(R107). -/
def claimDirectives (start : FieldRecord) (settled : Settled) : Directives :=
  let d := start.set.directives
  match settled with
  | .film .film22 align =>
    { d with cadence := .film22, phase := some (Fin.ofNat 10 (Film.film22.position align start.number)) }
  | .film .film32 align =>
    { d with cadence := .film32, phase := some (Fin.ofNat 10 (Film.film32.position align start.number)) }
  | .video => { d with cadence := .video, phase := none }
  | .none => { d with cadence := .video, phase := none }

/-- The claim of a transition with start field `start`, decided at a field of key `key`: made if the start
field was monitor-driven and its key is the same (R106). -/
def transitionClaim (start : FieldRecord) (key : Key) (settled : Settled) : Option ProposalClaim :=
  if start.set.monitorDriven ∧ start.key = key then
    some
      { key := start.key, start := start.number, basis := start.set.basis,
        directives := claimDirectives start settled }
  else none

end Sys2Proof.Machine
end

