-- ==== Sys2Proof/Machine/Picture.lean ====
section
/-! DEFINITION. Field lines: the comparison measures of R94, the mask of R124, the pictures formed by the
recipes (R119 to R123), their placement on a raster (R125) and the slate (R147). -/

namespace Sys2Proof.Machine

/-! ## Lines of a field (10, The field packet) -/

/-- The first `k` lines of a field's line bytes, 1440 bytes each. -/
def linesOf : Nat → List Byte → List (List Byte)
  | 0, _ => []
  | k + 1, bs => bs.take Config.bytesPerLine :: linesOf k (bs.drop Config.bytesPerLine)

/-- The active lines of a field, from the top. -/
def Field.activeLines (f : Field) : List (List Byte) := linesOf (f.lines.length / Config.bytesPerLine) f.lines

/-- The luma values of a line: the second byte of each sample. -/
def lumaOf : List Byte → List Nat
  | _ :: y :: rest => y.toNat :: lumaOf rest
  | _ => []

/-- Lines less some at the top and some at the bottom. -/
def trim {α : Type} (top bottom : Nat) (l : List α) : List α := (l.drop top).take (l.length - top - bottom)

/-! ## Comparison measures (R94) -/

/-- The difference of two numbers. -/
def absDiff (x y : Nat) : Nat := (x - y) + (y - x)

/-- The luma lines of a field compared under a mask: the masked lines of every field are left out. -/
def Field.comparedLines (f : Field) (mask : Option Mask) : List (List Nat) :=
  match mask with
  | some m => trim m.top.val m.bottom.val (f.activeLines.map lumaOf)
  | none => f.activeLines.map lumaOf

/-- Four times the sum of differences between lines of the same number. -/
def sameLineSum (xs ys : List (List Nat)) : Nat :=
  (List.zipWith (fun x y => (List.zipWith (fun a b => 4 * absDiff a b) x y).sum) xs ys).sum

/-- Four times the sum of differences between each line of `xs` and the exact mean of two lines: twice the
difference between the doubled sample and the sum of its two neighbours (DEDUCED from R94, log 12). -/
def betweenLineSum (xs above below : List (List Nat)) : Nat :=
  (List.zipWith
    (fun x (ab : List Nat × List Nat) =>
      (List.zipWith (fun a (n : Nat × Nat) => 2 * absDiff (2 * a) (n.1 + n.2)) x (ab.1.zip ab.2)).sum)
    xs (above.zip below)).sum

/-- The lines above each place between lines: the first line stands in at the top edge. -/
def withTopEdge (ys : List (List Nat)) : List (List Nat) :=
  match ys with
  | [] => []
  | y :: _ => y :: ys

/-- The lines below each place between lines: the last line stands in at the bottom edge. -/
def withBottomEdge (ys : List (List Nat)) : List (List Nat) :=
  match ys.getLast? with
  | none => []
  | some y => ys.tail ++ [y]

/-- The paired measure of a new field against the field before it (R94). An UPPER line `k` lies between
lines `k - 1` and `k` of a LOWER field, a LOWER line `k` between lines `k` and `k + 1` of an UPPER one. -/
def pairedMeasure (newer current : Field) (mask : Option Mask) : Nat :=
  let xs := newer.comparedLines mask
  let ys := current.comparedLines mask
  let sum :=
    if newer.parity = current.parity then sameLineSum xs ys
    else match newer.parity with
      | .upper => betweenLineSum xs (withTopEdge ys) ys
      | .lower => betweenLineSum xs ys (withBottomEdge ys)
  sum / (xs.map List.length).sum

/-- The repeat measure of a new field against the field two before it (R94). -/
def repeatMeasure (newer older : Field) (mask : Option Mask) : Nat :=
  let xs := newer.comparedLines mask
  sameLineSum xs (older.comparedLines mask) / (xs.map List.length).sum

/-- A measure is made if both fields are present and undamaged (R94). -/
def measureMade (a b : Option WindowField) : Option (Field × Field) :=
  match a, b with
  | some x, some y => if x.field.damaged || y.field.damaged then none else some (x.field, y.field)
  | _, _ => none

/-- PAIRED and REPEAT of the NEWER field, known when both measures were made (R95). -/
def Window.observation (w : Window) (config : ChannelConfig) : Option (Bool × Bool) :=
  match measureMade w.newer w.current, measureMade w.newer w.older with
  | some (n, c), some (_, o) =>
    let mask := match w.newer with
      | some f => f.set.directives.mask
      | none => none
    some (decide (pairedMeasure n c mask ≤ config.pairedThreshold),
      decide (repeatMeasure n o mask ≤ config.repeatThreshold))
  | _, _ => none

/-! ## Mask (R124) -/

/-- A line of 720 black samples: chroma 128, luma 16. -/
def blackLine : List Byte := (List.replicate Config.samplesPerLine [128, 16]).flatten

/-- Whether row `i` of `height` lies within a band of `top` rows at the top or `bottom` rows at the bottom. -/
def inBands (top bottom height i : Nat) : Bool := i < top || height ≤ i + bottom

/-- The lines of a source field with the masked lines blanked (R124). -/
def maskedLines (mask : Option Mask) (lines : List (List Byte)) : List (List Byte) :=
  match mask with
  | none => lines
  | some m =>
    lines.zipIdx.map fun x => if inBands m.top.val m.bottom.val lines.length x.2 then blackLine else x.1

/-- A formed picture with the bands the mask blanks: twice its counts of picture lines, under every recipe (R124). -/
def maskedPicture (mask : Option Mask) (lines : List PictureLine) : List PictureLine :=
  match mask with
  | none => lines
  | some m =>
    lines.zipIdx.map fun x =>
      if inBands (2 * m.top.val) (2 * m.bottom.val) lines.length x.2 then .known blackLine else x.1

/-! ## Pictures (R119 to R123) -/

/-- The lines of two fields in turn. -/
def interleave (first second : List PictureLine) : List PictureLine :=
  match first, second with
  | x :: xs, y :: ys => x :: y :: interleave xs ys
  | xs, [] => xs
  | [], ys => ys

/-- The field's own lines above and below each place between its lines: an UPPER field has its lines at the odd picture
lines, a LOWER field at the even ones, and the one neighbouring line stands in at the edge (R119). -/
def neighbours (parity : Parity) (own : List (List Byte)) : List (List Byte × List Byte) :=
  match parity with
  | .upper => own.zip (own.tail ++ own.drop (own.length - 1))
  | .lower => (own.take 1 ++ own).zip own

/-- A field's lines at the picture lines of its parity, `others` at the rest (R119, R120). -/
def placeLines (parity : Parity) (own : List (List Byte)) (others : List PictureLine) : List PictureLine :=
  match parity with
  | .upper => interleave (own.map .known) others
  | .lower => interleave others (own.map .known)

/-- The interpolated lines of one field; at the top and bottom edge the one neighbouring line is repeated (R119). -/
def betweenLines (parity : Parity) (own : List (List Byte)) : List PictureLine :=
  match parity with
  | .upper =>
    List.zipWith PictureLine.between own own.tail ++ (own.drop (own.length - 1)).map .known
  | .lower => (own.take 1).map .known ++ List.zipWith PictureLine.between own own.tail

/-- A field doubled to 2L lines (R119, R122). -/
def doubled (parity : Parity) (own : List (List Byte)) : List PictureLine :=
  placeLines parity own (betweenLines parity own)

/-- MOTION's missing lines, from the own lines around each and the lines of OLDER and NEWER at its place (R121). -/
def motionLines (parity : Parity) (own older newer : List (List Byte)) : List PictureLine :=
  List.zipWith (fun (n : List Byte × List Byte) (r : List Byte × List Byte) => .motion n.1 n.2 r.1 r.2)
    (neighbours parity own) (older.zip newer)

/-- A source field's lines under the mask. -/
def Field.maskedLines (f : Field) (mask : Option Mask) : List (List Byte) := Machine.maskedLines mask f.activeLines

/-- The picture a recipe forms from its copied fields, primary first. What an absent source would determine is
unspecified (log 18). -/
def recipePicture (kind : RecipeKind) (mask : Option Mask) (lineCount : Nat) (fields : List (Option Field)) :
    List PictureLine :=
  match kind, fields with
  | .lineDouble, some f :: _ => doubled f.parity (f.maskedLines mask)
  | .weave, [some f, some p] => placeLines f.parity (f.maskedLines mask) ((p.maskedLines mask).map .known)
  | .motion, [some f, some o, some n] =>
    placeLines f.parity (f.maskedLines mask)
      (motionLines f.parity (f.maskedLines mask) (o.maskedLines mask) (n.maskedLines mask))
  | .blend, [some f, some p] =>
    List.zipWith PictureLine.mixed (doubled f.parity (f.maskedLines mask)) (doubled p.parity (p.maskedLines mask))
  | .blend, _ => List.replicate (2 * lineCount) .unspecified
  | _, some f :: _ => placeLines f.parity (f.maskedLines mask) (List.replicate lineCount .unspecified)
  | _, _ => List.replicate (2 * lineCount) .unspecified

/-- The formed picture of 2L lines: each source field is masked by CURRENT's mask before it is placed, and the mask
blanks twice its lines of the picture (R119 to R124). -/
def formPicture (kind : RecipeKind) (mask : Option Mask) (lineCount : Nat) (fields : List (Option Field)) :
    List PictureLine :=
  maskedPicture mask (recipePicture kind mask lineCount fields)

/-! ## Placement on the raster (R125) -/

/-- Width and height of a raster. -/
def Raster.size : Raster → Nat × Nat
  | .r1920x1080 => (1920, 1080)
  | .r1280x720 => (1280, 720)
  | .r3840x2160 => (3840, 2160)

/-- Where the region stands on the raster: the size it is scaled to, the columns of pillar colour on each
side, the rows cut at top and at bottom. -/
structure Placement where
  width : Nat
  height : Nat
  side : Nat
  cut : Nat
  deriving DecidableEq, Repr

/-- The placement of a frame (R125). -/
def Frame.placement (f : Frame) : Placement :=
  let (w, h) := f.raster.size
  match f.profile.aspect with
  | .pillarbox => { width := 4 * h / 3, height := h, side := (w - 4 * h / 3) / 2, cut := 0 }
  | .centreCrop => { width := w, height := 3 * w / 4, side := 0, cut := (3 * w / 4 - h) / 2 }
  | .stretch => { width := w, height := h, side := 0, cut := 0 }

/-- The picture line the trimmed region shows at its row `r`; `none` is black outside the picture (R125). -/
def Frame.regionLine (f : Frame) (r : Nat) : Option PictureLine :=
  let at' : Int := (r : Int) + 2 * f.profile.verticalTrim
  if 0 ≤ at' then f.picture[at'.toNat]? else none

/-- The sample column of the picture the trimmed region shows at its column `c`; `none` is black (R125). -/
def Frame.regionColumn (f : Frame) (c : Nat) : Option Nat :=
  let at' : Int := (c : Int) + f.profile.horizontalTrim
  if 0 ≤ at' ∧ at' < (Config.samplesPerLine : Int) then some at'.toNat else none

/-- What stands at a place of the region the trims select: a sample of a picture line, or a colour. -/
inductive RegionSample where
  | sample (line : PictureLine) (column : Nat)
  | colour (colour : Colour)
  deriving DecidableEq, Repr

/-- The region of the formed picture's size: black where it reaches beyond the picture; `none` outside it (R125). -/
def Frame.regionAt (f : Frame) (row column : Nat) : Option RegionSample :=
  if row < f.picture.length ∧ column < Config.samplesPerLine then
    match f.regionLine row, f.regionColumn column with
    | some line, some c => some (.sample line c)
    | _, _ => some (.colour Colour.black)
  else none

/-- What a lane's output shows at a place of its raster. -/
inductive Shown where
  /-- a colour -/
  | colour (colour : Colour)
  /-- a place of the region, scaled to the placement's width and height by kernel and detail, whose arithmetic the
  manual does not specify (log 19) -/
  | scaled (row column : Nat)
  deriving DecidableEq, Repr

/-- A frame on its raster: the scaled region, with the pillar colour in the columns to each side; `none` outside the
raster (R125). -/
def Frame.shownAt (f : Frame) (row column : Nat) : Option Shown :=
  if row < f.raster.size.2 ∧ column < f.raster.size.1 then
    if column < f.placement.side ∨ f.placement.side + f.placement.width ≤ column then
      some (.colour f.profile.pillar)
    else some (.scaled (row + f.placement.cut) (column - f.placement.side))
  else none

/-! ## The slate (R147) -/

/-- The fixed sequence of bar colours. -/
def barColour : Nat → Colour
  | 0 => { y := 235, cb := 128, cr := 128 }
  | 1 => { y := 210, cb := 16, cr := 146 }
  | 2 => { y := 170, cb := 166, cr := 16 }
  | 3 => { y := 145, cb := 54, cr := 34 }
  | 4 => { y := 106, cb := 202, cr := 222 }
  | 5 => { y := 81, cb := 90, cr := 240 }
  | 6 => { y := 41, cb := 240, cr := 110 }
  | _ => { y := 16, cb := 128, cr := 128 }

/-- The colour of a slate at a column: bars from the left edge, the last bar's colour in the width left
over. -/
def SlateRecord.colourAt (s : SlateRecord) (column : Nat) : Colour :=
  match s with
  | .flat c => c
  | .bars count width => barColour (min (column / width) (count - 1))

/-- What an output carries at a place of its raster; `none` when it is quiet and outside the raster (R125, R147). -/
def Emission.shownAt (e : Emission) (row column : Nat) : Option Shown :=
  match e with
  | .quiet => none
  | .frame f => f.shownAt row column
  | .slate record raster =>
    if row < raster.size.2 ∧ column < raster.size.1 then some (.colour (record.colourAt column)) else none

end Sys2Proof.Machine
end

