-- ==== Sys2Proof/Machine/Pool.lean ====
section
/-! DEFINITION. The scaler pool: arbiter, start, completion, deadlines, withdrawal and cancellation of jobs
(R128 to R136), the reports on which a HALTING channel becomes HALTED (R73), and the Profile Bank (R126,
R127). -/

namespace Sys2Proof.Machine

/-! ## HALTING to HALTED (R73, R78) -/

/-- A pending CHANNEL_HALT completes when every masked channel is HALTED (R78). -/
def State.haltCheck (s : State) : State :=
  match s.link.flight with
  | .carried (.channelHalt mask) =>
    if (maskChannels mask).all fun n => (s.chan n).state == .halted then s.handBack (done []) else s
  | _ => s

/-- The pool's report that channel `n` has no job in flight: a HALTING channel becomes HALTED, unless a
release of it still waits, which makes that judgement at its taking (R73). -/
def State.report (s : State) (n : Channel) : State :=
  if (s.chan n).state = .halting ∧ (s.chan n).releaseWaits = false then
    (s.modChan n fun c => { c with state := .halted }).haltCheck
  else s

/-- The reports for the channels whose last job in flight has ended since `before`. -/
def State.reportEnded (s before : State) : State :=
  allChannels.foldl (fun s n => if before.inFlight n && !s.inFlight n then s.report n else s) s

/-! ## Arbiter (R129) -/

/-- PROGRAM goes before ARMED. -/
def Role.rank : Role → Nat
  | .program => 0
  | .armed => 1

/-- Whether request `a` is served before `b`: smaller distance, then PROGRAM, then the lower lane. -/
def RenderRequest.before (a b : RenderRequest) : Bool :=
  a.distance < b.distance
    || (a.distance == b.distance
      && (a.role.rank < b.role.rank || (a.role == b.role && a.lane.val < b.lane.val)))

/-- The request the arbiter chooses. -/
def chooseRequest : List RenderRequest → Option RenderRequest
  | [] => none
  | r :: rest =>
    match chooseRequest rest with
    | none => some r
    | some q => some (if q.before r then q else r)

/-- The lowest-numbered IDLE engine. -/
def State.idleEngine (s : State) : Option EngineId := allEngines.find? fun e => (s.engines.get e).isNone

/-- The field in a window slot. -/
def Window.slot (w : Window) : Slot → Option Field
  | .older => w.older.map WindowField.field
  | .current => w.current.map WindowField.field
  | .newer => w.newer.map WindowField.field

/-- The job a request becomes at its start: it copies its fields, its profile and its lane's raster as they
stand (R130). A field that has left the window by then is copied as absent (log 18). -/
def State.makeJob (s : State) (r : RenderRequest) : Job :=
  { request := r
    fields := (r.recipe.primary :: r.recipe.others).map (s.chan r.channel).window.slot
    lineCount := (s.chan r.channel).config.standard.lines
    profile := s.profiles.get r.profile
    raster := (s.lane r.lane).config.raster }

/-- The start of one job, if an engine is IDLE and the queue holds a request (R129, R130). -/
def State.startOne (s : State) : State :=
  match s.idleEngine, chooseRequest s.queue with
  | some e, some r => { s with queue := s.queue.erase r }.setEngine e (some (s.makeJob r))
  | _, _ => s

/-- The arbiter acts on every IDLE engine (R129). -/
def State.arbitrate (s : State) : State := s.startOne.startOne.startOne

/-! ## Removal and cancellation -/

/-- The requests that satisfy `p` leave the queue. -/
def State.dropQueued (s : State) (p : RenderRequest → Bool) : State :=
  { s with queue := s.queue.filter fun r => !p r }

/-- The jobs whose requests satisfy `p` are cancelled: their engines become IDLE and no completion follows. -/
def State.cancelJobs (s : State) (p : RenderRequest → Bool) : State :=
  { s with
    engines := s.engines.map fun j =>
      match j with
      | some j => if p j.request then none else some j
      | none => none }

/-- Whether a request is of a lane, a channel and a role. -/
def RenderRequest.isOf (l : LaneId) (n : Channel) (role : Role) (r : RenderRequest) : Bool :=
  r.lane == l && r.channel == n && r.role == role

/-- A lane's order cancel by role (R134). The arbiter acts on the freed engines at the end of the lane's
event. -/
def State.cancelByRole (s : State) (l : LaneId) (n : Channel) (role : Role) : State :=
  ((s.dropQueued (RenderRequest.isOf l n role)).cancelJobs (RenderRequest.isOf l n role)).reportEnded s

/-- A request takes role PROGRAM if it is the lane's ARMED request of the channel. -/
def RenderRequest.reRole (l : LaneId) (n : Channel) (r : RenderRequest) : RenderRequest :=
  if RenderRequest.isOf l n .armed r then { r with role := .program } else r

/-- A lane's order re-role (R134). -/
def State.reRole (s : State) (l : LaneId) (n : Channel) : State :=
  { s with
    queue := s.queue.map (RenderRequest.reRole l n)
    engines := s.engines.map fun j => j.map fun j => { j with request := j.request.reRole l n } }

/-- The pool takes a withdraw order of channel `n` (R133): its queued request leaves the queue, uncounted;
its jobs go on. -/
def State.takeWithdrawOrder (s : State) (n : Channel) : State :=
  (s.modChan n fun c => { c with withdrawOrder := false }).dropQueued fun r => r.channel == n

/-- The pool takes a cancel order of channel `n` (R133): queued request and jobs go, the report is always
sent, and the arbiter acts on the freed engines. -/
def State.takeCancelOrder (s : State) (n : Channel) : State :=
  ((((s.modChan n fun c => { c with cancelOrder := false }).dropQueued fun r => r.channel == n).cancelJobs
    fun r => r.channel == n).report n).arbitrate

/-- The orders of channel `n` still on their way are taken, in the order sent (log 17). -/
def State.takeOrders (s : State) (n : Channel) : State :=
  let s := if (s.chan n).withdrawOrder then s.takeWithdrawOrder n else s
  if (s.chan n).cancelOrder then s.takeCancelOrder n else s

/-! ## Delivery and completion (R131, R142) -/

/-- A frame put among the ready frames of a role: due at the next tick when the distance is 1, else at the
tick after it; a frame already due there is replaced. -/
def Ready.place (r : Ready) (distance : Nat) (f : Frame) : Ready :=
  if distance ≤ 1 then { r with next := some f } else { r with after := some f }

/-- The lane judges a delivered frame (R142): placed under its role, or discarded. -/
def Lane.accept (l : Lane) (role : Role) (distance : Nat) (f : Frame) : Lane :=
  match role with
  | .program =>
    if l.state ≠ .idle ∧ l.source = some f.channel then
      { l with programFrames := l.programFrames.place distance f }
    else l
  | .armed =>
    if l.cues.head?.map Cue.target = some (some f.channel) then
      { l with armedFrames := l.armedFrames.place distance f }
    else l

/-- The frame a job has formed. -/
def Job.frame (j : Job) : Frame :=
  { channel := j.request.channel
    number := j.request.number
    picture := formPicture j.request.recipe.kind j.request.mask j.lineCount j.fields
    profile := j.profile
    raster := j.raster }

/-- Whether a halt keeps the frames of a channel's jobs from their lane: it is HALTING (R131), or its cancel order is
still on its way, even if it is no longer HALTING by then (DEDUCED from R73 and R133, log 38). -/
def Chan.withholds (c : Chan) : Bool := c.state == .halting || c.cancelOrder

/-- Step 1 of a completion: the frame is delivered, unless a halt of its channel withholds it (R131). -/
def State.deliver (s : State) (j : Job) : State :=
  if (s.chan j.request.channel).withholds then s
  else s.modLane j.request.lane fun l => l.accept j.request.role j.request.distance j.frame

/-- A completion on engine `e` (R131): delivery, then the engine is IDLE and the arbiter acts, then the
report if the channel has no other job in flight. -/
def State.completeJob (s : State) (e : EngineId) : State :=
  match s.engines.get e with
  | none => s
  | some j =>
    let s1 := ((s.deliver j).setEngine e none).arbitrate
    if s1.inFlight j.request.channel then s1 else s1.report j.request.channel

/-! ## Deadlines (R132) -/

/-- A request of lane `l` whose deadline distance falls to 0 at the lane's tick. -/
def RenderRequest.dueOn (l : LaneId) (r : RenderRequest) : Bool := r.lane == l && r.distance ≤ 1

/-- A request after a tick of lane `l`: one tick nearer to its deadline if it is of that lane. -/
def RenderRequest.nearer (l : LaneId) (r : RenderRequest) : RenderRequest :=
  if r.lane = l then { r with distance := r.distance - 1 } else r

/-- Whether an engine's job reaches its deadline at a tick of lane `l`. -/
def jobDue (l : LaneId) (j : Option Job) : Bool :=
  match j with
  | some j => RenderRequest.dueOn l j.request
  | none => false

/-- The distances of lane `l` fall by one. -/
def State.advanceDeadlines (s : State) (l : LaneId) : State :=
  { s with
    queue := s.queue.map (RenderRequest.nearer l)
    engines := s.engines.map fun j => j.map fun j => { j with request := j.request.nearer l } }

/-- The pool's part of a tick of lane `l` (R132). -/
def State.poolTick (s : State) (l : LaneId) : State :=
  let late := s.queue.countP (RenderRequest.dueOn l)
  let cancelled := s.engines.toList.countP (jobDue l)
  let s1 := s.modLane l fun x =>
    { x with
      counters :=
        { x.counters with late := bump x.counters.late late, cancelled := bump x.counters.cancelled cancelled } }
  let s2 := (s1.dropQueued (RenderRequest.dueOn l)).cancelJobs (RenderRequest.dueOn l)
  ((s2.advanceDeadlines l).reportEnded s).arbitrate

/-! ## Commands of the pool -/

/-- JOB_START (R130). The arbiter acts inside every event that leaves an engine IDLE with the queue holding
a request, so a start is due on its own only where that has not been done (log 8). -/
def execJobStart (s : State) : Host.Outcome State Fault Refusal := .next s.startOne

/-- JOB_COMPLETION (R131). An IDLE engine completes nothing. -/
def execJobCompletion (e : EngineId) (s : State) : Host.Outcome State Fault Refusal := .next (s.completeJob e)

/-- WITHDRAW_ORDER (R133), if an order of the channel is on its way. -/
def execWithdrawOrder (n : Channel) (s : State) : Host.Outcome State Fault Refusal :=
  .next (if (s.chan n).withdrawOrder then s.takeWithdrawOrder n else s)

/-- CANCEL_ORDER (R133), if an order of the channel is on its way. -/
def execCancelOrder (n : Channel) (s : State) : Host.Outcome State Fault Refusal :=
  .next (if (s.chan n).cancelOrder then s.takeCancelOrder n else s)

/-- PROFILE_WRITE at the Profile Bank (R126). -/
def State.takeProfileWrite (s : State) (index : Byte) (record : BitVec 48) : State × Result :=
  match profileOf index, decodeProfile record with
  | some i, some p => ({ s with profiles := setAt s.profiles i p }, done [])
  | _, _ => (s, refuse .range)

/-- PROFILE_WRITE (R126). -/
def execProfileWrite (index : Byte) (record : BitVec 48) (s : State) : Host.Outcome State Fault Refusal :=
  .next (s.serve (.profileWrite index record) fun s => s.takeProfileWrite index record)

/-- PROFILE_READ at the Profile Bank (R127). -/
def State.takeProfileRead (s : State) (index : Byte) : State × Result :=
  match profileOf index with
  | some i => (s, done (bytes48 (encodeProfile (s.profiles.get i))))
  | none => (s, refuse .range)

/-- PROFILE_READ (R127). -/
def execProfileRead (index : Byte) (s : State) : Host.Outcome State Fault Refusal :=
  .next (s.serve (.profileRead index) fun s => s.takeProfileRead index)

end Sys2Proof.Machine
end

