-- ==== Sys2Proof/Machine/TableRequests.lean ====
section
/-! DEFINITION. The eight requests on the Treatment Table at their taking (R49 to R69), and the accounting
part of UNIT_READ. Each gives the state it leaves and the result it hands back. -/

namespace Sys2Proof.Machine

/-- A STALE result carries the entry's state and generation (R49). -/
def staleResult (e : Entry) : Result := { code := .stale, bytes := [e.state.code, e.gen] }

/-- An OVERLAP result carries the summary of the overlapping entry (R49). -/
def overlapResult (h : Handle) (e : Entry) : Result := { code := .overlap, bytes := entrySummary h e }

/-- ENTRY_ADD (R52). -/
def State.takeEntryAdd (s : State) (key : Key) (first last : FieldNum) (directives : BitVec 24) :
    State × Result :=
  match decodeDirectives directives with
  | none => (s, refuse .range)
  | some d =>
    if last.toNat < first.toNat then (s, refuse .range)
    else
      match s.overlapping key first last none with
      | some h => (s, overlapResult h (s.entry h))
      | none =>
        if s.sharedFree = 0 then (s, refuse .noRoom)
        else
          match s.lowestFree with
          | none => (s, refuse .noRoom)
          | some h =>
            (s.giveOut h
              { state := .active, key := key, first := first, last := last, gen := 0, origin := .operator,
                owner := none, charge := .shared, useCount := 0, directives := d, parent := none },
              done (num16 h.val ++ [(s.entry h).gen + 1]))

/-- ENTRY_AMEND (R54, R55). -/
def State.takeEntryAmend (s : State) (handle : BitVec 16) (expected : Gen) (first last : FieldNum)
    (directives : BitVec 24) : State × Result :=
  match handleOf handle with
  | none => (s, refuse .range)
  | some h =>
    let e := s.entry h
    if !e.live then (s, refuse .noEntry)
    else if e.gen ≠ expected then (s, staleResult e)
    else
      match decodeDirectives directives with
      | none => (s, refuse .range)
      | some d =>
        if last.toNat < first.toNat then (s, refuse .range)
        else
          match s.overlapping e.key first last (some h) with
          | some g => (s, overlapResult g (s.entry g))
          | none =>
            (s.setEntry h { e with first := first, last := last, directives := d, gen := e.gen + 1 },
              done [e.gen + 1])

/-- ENTRY_RETIRE (R57). -/
def State.takeEntryRetire (s : State) (handle : BitVec 16) (expected : Gen) : State × Result :=
  match handleOf handle with
  | none => (s, refuse .range)
  | some h =>
    let e := s.entry h
    if !e.live then (s, refuse .noEntry)
    else if e.gen ≠ expected then (s, staleResult e)
    else (s.withdrawEntry h, done [if e.useCount = 0 then 0 else 1, byte e.useCount])

/-- ENTRY_READ (R59). -/
def State.takeEntryRead (s : State) (handle : BitVec 16) : State × Result :=
  match handleOf handle with
  | none => (s, refuse .range)
  | some h => (s, done (entryRecord (s.entry h)))

/-- ENTRY_FIND (R60). -/
def State.takeEntryFind (s : State) (key : Key) (number : FieldNum) : State × Result :=
  match s.covering key number with
  | none => (s, refuse .noEntry)
  | some h => (s, done (entrySummary h (s.entry h)))

/-- ENTRY_NEXT (R61). -/
def State.takeEntryNext (s : State) (key : Key) (number : FieldNum) : State × Result :=
  match s.nextAfter key number with
  | none => (s, refuse .noEntry)
  | some h => (s, done (entrySummary h (s.entry h)))

/-- PROPOSAL_CONFIRM (R63, R64). -/
def State.takeProposalConfirm (s : State) (handle : BitVec 16) (expected : Gen) : State × Result :=
  match handleOf handle with
  | none => (s, refuse .range)
  | some h =>
    let e := s.entry h
    if e.state ≠ .provisional then (s, refuse .noEntry)
    else if e.gen ≠ expected then (s, staleResult e)
    else if s.sharedFree = 0 then (s, refuse .noRoom)
    else
      ((s.setEntry h { e with state := .active, parent := none, charge := .shared, gen := e.gen + 1 }).handOver,
        done [e.gen + 1])

/-- The five conditions of a reject merge: the parent's handle, if the proposal merges back (R67). -/
def State.mergeParent (s : State) (proposal : Entry) : Option Handle :=
  match proposal.parent with
  | none => none
  | some (p, g) =>
    let e := s.entry p
    if e.live ∧ e.key = proposal.key ∧ e.gen = g ∧ e.last.toNat + 1 = proposal.first.toNat then some p
    else none

/-- PROPOSAL_REJECT (R66 to R68): the merge is decided first, then the proposal leaves its index, then the
parent is extended. -/
def State.takeProposalReject (s : State) (handle : BitVec 16) (expected : Gen) : State × Result :=
  match handleOf handle with
  | none => (s, refuse .range)
  | some h =>
    let e := s.entry h
    if e.state ≠ .provisional then (s, refuse .noEntry)
    else if e.gen ≠ expected then (s, staleResult e)
    else
      let outcome : Byte := if e.useCount = 0 then 0 else 1
      match s.mergeParent e with
      | none => (s.withdrawEntry h, done [0, outcome])
      | some p =>
        let q := (s.withdrawEntry h).entry p
        ((s.withdrawEntry h).setEntry p { q with last := e.last, gen := q.gen + 1 },
          done ([1, outcome] ++ num16 p.val ++ [q.gen + 1]))

/-- UNIT_READ: identification, strap address and the accounting as it stands (R172). -/
def State.takeUnitRead (s : State) : State × Result :=
  (s, done (bytes16 Config.vendorCode ++ bytes16 Config.partCode ++ [Config.revision, 0#1 ++ s.link.address]
    ++ num16 s.freeCount ++ num16 s.outstanding ++ num16 s.sharedFree))

end Sys2Proof.Machine
end

