-- ==== Sys2Proof/Machine/Sequencer.lean ====
section
/-! DEFINITION. The field sequencer and the Table Controller's service of it: leaving RUNNING (R72, R73), the
window and its shift (R80 to R84), latching (R41, R42, R85), effective cadence (R86, R87), recipe choice
(R118 to R123), render requests (R88, R89), and the taking of lookups, releases and proposal claims (R38,
R40, R44, R109 to R111). -/

namespace Sys2Proof.Machine

/-! ## Leaving RUNNING -/

/-- The sequencer's window and marks as every departure from RUNNING leaves them (R72, R73). The latched generation and
the last latched set become none with them (R85, log 39). -/
def Chan.flush (c : Chan) : Chan :=
  { c with
    window := Window.empty
    relatch := false
    stepOpen := false
    tally := 0
    latchedGen := none
    lastSet := none }

/-- The effects of a departure to SEEKING or DETACHED: flush, withdraw order, monitor reset (R72, R133). -/
def Chan.departed (c : Chan) : Chan := { c.flush with monitor := Monitor.reset, withdrawOrder := true }

/-- The effects of the entry to HALTING: flush and cancel order; the monitor keeps its state (R73, R133). -/
def Chan.halted (c : Chan) : Chan := { c.flush with cancelOrder := true }

/-- A departure from RUNNING to SEEKING or DETACHED (R44, R72): with a current entry a release claim is made
and the effects wait for its taking, otherwise they take effect at once. -/
def Chan.depart (c : Chan) : Chan :=
  if c.releaseWaits then c
  else if c.currentEntry.isSome then { c with sequencerClaim := some (.release true) }
  else c.departed

/-- A HALTING channel with no job in flight and no release waiting becomes HALTED in the same event (R73). -/
def State.judgeHalted (s : State) (n : Channel) : State := if s.inFlight n then s else s.report n

/-- The controller takes a release of channel `n` (R44): the use count falls, the current entry is cleared,
and the departure's effects take place, the clearing of latched generation and last latched set among them (DEDUCED
from R72 and R85, log 39). A monitor reset that the departure carries is made even when a halt has come since (DEDUCED
from R44 and R117, log 16). -/
def State.takeRelease (s : State) (n : Channel) (resetsMonitor : Bool) : State :=
  let s1 := (s.moveUse (s.chan n).currentEntry none).modChan n fun c =>
    { c.flush with
      currentEntry := none
      sequencerClaim := none
      monitor := if resetsMonitor then Monitor.reset else c.monitor }
  if (s1.chan n).state = .halting then
    (s1.modChan n fun c => { c with cancelOrder := true }).judgeHalted n
  else s1.modChan n fun c => { c with withdrawOrder := true }

/-! ## Latching (R41, R42, R85) -/

/-- A field is dominant when its parity leads under a dominance (R41). -/
def dominant : Parity → Dominance → Bool
  | .upper, .upperFirst => true
  | .lower, .lowerFirst => true
  | _, _ => false

/-- The state a lookup answers for an entry (R40). -/
def Entry.liveState (e : Entry) : LiveState := if e.state = .provisional then .provisional else .active

/-- The set an answered entry gives a field. -/
def Entry.latchedSet (e : Entry) (h : Handle) : LatchedSet := .entry h e.gen e.liveState e.first e.directives

/-- The new NEWER field takes a set; the latched generation and the re-latch pending mark stand as given. -/
def Chan.withSet (c : Chan) (f : Field) (set : LatchedSet) (gen : Option Gen) (relatch : Bool) : Chan :=
  { c with
    window := { c.window with newer := some { field := f, set := set } }
    lastSet := some set
    latchedGen := gen
    relatch := relatch }

/-- The answer of a lookup applied to the new NEWER field, with the current entry as it was before (R41,
R42). A pending mark is served before an equal generation is (DEDUCED, log 15). -/
def Chan.latch (c : Chan) (f : Field) (answer : Option (Handle × Entry)) : Chan :=
  match answer with
  | none => c.withSet f (.default c.config.default) none false
  | some (h, e) =>
    if c.currentEntry ≠ some h then c.withSet f (e.latchedSet h) (some e.gen) false
    else
      match c.lastSet with
      | none => c.withSet f (e.latchedSet h) (some e.gen) false
      | some last =>
        if c.relatch = true ∨ c.latchedGen ≠ some e.gen then
          if dominant f.parity last.directives.dominance then
            c.withSet f (e.latchedSet h) (some e.gen) false
          else c.withSet f last c.latchedGen true
        else c.withSet f last c.latchedGen false

/-- The monitor is seeded when the answer makes the channel enter a PROVISIONAL entry, unless the port is
DEGRADED (R113, R114). -/
def Chan.seedFor (c : Chan) (answer : Option (Handle × Entry)) : Monitor :=
  match answer with
  | some (h, e) =>
    if c.currentEntry ≠ some h ∧ e.liveState = .provisional ∧ c.level ≠ .degraded then
      c.monitor.seed e.directives e.first
    else c.monitor
  | none => c.monitor

/-! ## Steps of a shift (R84) -/

/-- Step 1: the window moves (R82) or restarts (R83), a DISCONTINUITY resets the monitor, and the lookup
claim for the field that becomes NEWER is made. -/
def Chan.beginShift (c : Chan) (a : Arrived) : Chan :=
  { c with
    window :=
      if a.cls = .next then { older := c.window.current, current := c.window.newer, newer := none }
      else Window.empty
    port := { c.port with slot := none }
    monitor := if a.cls = .discontinuity then Monitor.reset else c.monitor
    sequencerClaim := some (.lookup a) }

/-- Step 2: the controller's answer moves the use counts and the current entry, and is applied to the new
NEWER field (R40 to R42, R113). -/
def State.answerLookup (s : State) (n : Channel) (a : Arrived) : State :=
  let answer := (s.covering a.field.key a.field.number).map fun h => (h, s.entry h)
  (s.moveUse (s.chan n).currentEntry (answer.map Prod.fst)).modChan n fun c =>
    { c.latch a.field answer with
      monitor := c.seedFor answer
      currentEntry := answer.map Prod.fst
      sequencerClaim := none }

/-- What the monitor sees of the new NEWER field (R95). -/
def Chan.seen (c : Chan) : Option Seen :=
  c.window.newer.map fun f =>
    { record := { number := f.field.number, key := f.field.key, set := f.set }
      known := c.window.observation c.config
      slip := f.field.slip }

/-- The observation of the new NEWER field; none while the level is DEGRADED (R114). -/
def Chan.observed (c : Chan) : Option Observed :=
  if c.level = .degraded then none else c.seen.map c.monitor.observe

/-- The claim of the transition decided at an observation, if one is made (R106). -/
def Chan.newClaim (c : Chan) (o : Observed) : Option ProposalClaim :=
  match o.start, c.window.newer with
  | some start, some f => transitionClaim start f.field.key o.monitor.settled
  | _, _ => none

/-- Whether the change of the settled state disagrees with the observed field's set (R115). -/
def Chan.disagreesAt (c : Chan) (o : Observed) : Bool :=
  match c.window.newer with
  | some f => o.changed && disagrees f.set o.monitor.settled
  | none => false

/-- Step 3: the monitor observes the new NEWER field, counts a disagreement and makes its claim; a claim
made while an earlier one waits replaces it, counted as abandoned (R38, R94 to R115). -/
def Chan.observeNewer (c : Chan) : Chan :=
  match c.observed with
  | none => c
  | some o =>
    let claim := c.newClaim o
    { c with
      monitor := o.monitor
      proposalClaim := claim.or c.proposalClaim
      monitorCounters :=
        { c.monitorCounters with
          disagreements := bump c.monitorCounters.disagreements (if c.disagreesAt o then 1 else 0)
          abandoned :=
            bump c.monitorCounters.abandoned (if claim.isSome && c.proposalClaim.isSome then 1 else 0) } }

/-- Step 4: the step tally rises by one, unless it stands at 255. -/
def Chan.countStep (c : Chan) : Chan := { c with tally := min 255 (c.tally + 1) }

/-! ## Effective cadence (R86, R87) -/

/-- The effective cadence of a field. -/
inductive Effective where
  | video
  | film (mode : Film) (pos : Nat)
  deriving DecidableEq, Repr

/-- The cadence of a monitor-driven field. -/
def Monitor.driven (m : Monitor) (f : FieldNum) : Effective :=
  match m.detector with
  | .locked mode align _ _ => .film mode (mode.position align f)
  | _ => .video

/-- The position of a field in a fixed mode with no phase: the monitor's if it is LOCKED in that mode, else
counted by `fallback` (case 5 of R87). -/
def Monitor.unphased (m : Monitor) (mode : Film) (f : FieldNum) (fallback : Nat) : Effective :=
  match m.detector with
  | .locked mode' align _ _ =>
    if mode' = mode then .film mode (mode.position align f) else .film mode fallback
  | _ => .film mode fallback

/-- The effective cadence of CURRENT field `f` (R86, R87). -/
def Monitor.effective (m : Monitor) (set : LatchedSet) (f : FieldNum) : Effective :=
  match set with
  | .entry _ _ .provisional _ _ => m.driven f
  | .entry _ _ .active first d =>
    match d.cadence, d.cadence.film, d.phase with
    | .auto, _, _ => m.driven f
    | _, some mode, some phase => .film mode (mode.positionFrom phase.val first f)
    | _, some mode, none => m.unphased mode f (mode.positionFrom 0 first f)
    | _, none, _ => .video
  | .default d =>
    match d.cadence, d.cadence.film with
    | .auto, _ => m.driven f
    | _, some mode => m.unphased mode f (mode.position 0 f)
    | _, none => .video

/-! ## Recipe choice (R118 to R123) -/

/-- LINE_DOUBLE of one slot. -/
def lineDouble (slot : Slot) : Recipe := { kind := .lineDouble, primary := slot, others := [] }

/-- A slot that holds a field without the damaged flag. -/
def sound (f : Option WindowField) : Bool :=
  match f with
  | some f => !f.field.damaged
  | none => false

/-- Whether a slot's field carries the slip flag. -/
def slipped (f : Option WindowField) : Bool :=
  match f with
  | some f => f.field.slip
  | none => false

/-- The repair recipe (R123). -/
def Window.repair (w : Window) : Recipe :=
  if sound w.older then lineDouble .older
  else if sound w.newer then lineDouble .newer
  else lineDouble .current

/-- WEAVE at a position, or its fallback (R120). -/
def Window.weave (w : Window) (mode : Film) (pos : Nat) : Recipe :=
  let slot : Slot := if mode.partnerIsNext pos then .newer else .older
  let partner := if mode.partnerIsNext pos then w.newer else w.older
  if sound partner && !slipped w.current && !slipped partner then
    { kind := .weave, primary := .current, others := [slot] }
  else lineDouble .current

/-- MOTION, or its fallback (R121). -/
def Window.motion (w : Window) : Recipe :=
  if sound w.older && sound w.newer && !slipped w.current && !slipped w.newer then
    { kind := .motion, primary := .current, others := [.older, .newer] }
  else lineDouble .current

/-- BLEND, or its fallback (R122). -/
def Window.blend (w : Window) : Recipe :=
  if sound w.newer && !slipped w.newer then { kind := .blend, primary := .current, others := [.newer] }
  else if sound w.older && !slipped w.current then
    { kind := .blend, primary := .current, others := [.older] }
  else lineDouble .current

/-- The recipe for CURRENT (R118). -/
def Window.recipe (w : Window) (current : WindowField) (cadence : Effective) : Recipe :=
  let d := current.set.directives
  if d.repair && current.field.damaged then w.repair
  else
    match cadence with
    | .film mode pos => w.weave mode pos
    | .video =>
      match d.method with
      | .motion => w.motion
      | .blend => w.blend
      | .lineDouble => lineDouble .current

/-! ## Render requests (R88, R89) -/

/-- The lane and role a channel renders for, read from its claim record as it stands (R88). -/
def State.roleOf (s : State) (n : Channel) : Option (LaneId × Role) :=
  match s.claims.get n with
  | none => none
  | some l =>
    if (s.lane l).source = some n then some (l, .program)
    else if (s.lane l).cues.head?.map Cue.target = some (some n) then some (l, .armed)
    else none

/-- The request for CURRENT (R89). -/
def Chan.request (c : Chan) (n : Channel) (l : LaneId) (role : Role) (current : WindowField) : RenderRequest :=
  { channel := n
    lane := l
    role := role
    number := current.field.number
    recipe := c.window.recipe current (c.monitor.effective current.set current.field.number)
    profile := current.set.directives.profile
    mask := current.set.directives.mask
    distance := Config.issueDistance }

/-- Step 5: a render request for CURRENT is issued if a lane claims the channel as source or armed target;
the arbiter acts on the issue (R88, R128, R129). -/
def State.issue (s : State) (n : Channel) : State :=
  match (s.chan n).window.current, s.roleOf n with
  | some current, some (l, role) =>
    let s1 := s.takeOrders n
    { s1 with queue := s1.queue ++ [(s.chan n).request n l role current] }.arbitrate
  | _, _ => s

/-- Steps 3 to 5 of a shift. -/
def State.finishShift (s : State) (n : Channel) : State :=
  (s.modChan n fun c => c.observeNewer.countStep).issue n

/-- The controller takes the lookup of channel `n` and the shift is completed (R40, R43, R84). -/
def State.takeLookup (s : State) (n : Channel) (a : Arrived) : State := (s.answerLookup n a).finishShift n

/-! ## The Table Controller's order (R38) -/

/-- The controller takes the waiting sequencer claim of channel `n`, if there is one. -/
def State.takeSequencerClaim (s : State) (n : Channel) : State :=
  match (s.chan n).sequencerClaim with
  | none => s
  | some (.lookup a) => s.takeLookup n a
  | some (.release resetsMonitor) => s.takeRelease n resetsMonitor

/-- The waiting sequencer claims of the channels below `n` go first, lowest channel first. -/
def State.takeSequencerBelow (s : State) (n : Channel) : State :=
  (allChannels.filter fun m => m.val < n.val).foldl State.takeSequencerClaim s

/-- Every waiting sequencer claim is taken, lowest channel first. -/
def State.takeSequencerClaims (s : State) : State := allChannels.foldl State.takeSequencerClaim s

/-! ## Proposal claims (R109 to R111) -/

/-- Whether a claim is ABANDONED (R109). -/
def State.abandons (s : State) (p : ProposalClaim) : Bool :=
  match p.basis with
  | some (h, g) =>
    let e := s.entry h
    !e.live || e.key != p.key || e.gen != g || p.start.toNat ≤ e.first.toNat || e.last.toNat < p.start.toNat
  | none => (s.covering p.key p.start).isSome

/-- The last field of an accepted proposal: the basis's, or one below the next entry of the key, or the
largest field number (R110, R111). -/
def State.proposalLast (s : State) (p : ProposalClaim) : FieldNum :=
  match p.basis with
  | some (h, _) => (s.entry h).last
  | none =>
    match s.nextAfter p.key p.start with
    | some h => (s.entry h).first - 1
    | none => BitVec.allOnes 24

/-- The basis is truncated below the start field and its generation rises (R110). -/
def State.truncateBasis (s : State) (p : ProposalClaim) : State :=
  match p.basis with
  | some (h, _) => s.setEntry h { s.entry h with last := p.start - 1, gen := (s.entry h).gen + 1 }
  | none => s

/-- The PROVISIONAL entry an accepted claim of channel `n` makes (R110, R111). -/
def State.proposalEntry (s : State) (n : Channel) (p : ProposalClaim) : Entry :=
  { state := .provisional, key := p.key, first := p.start, last := s.proposalLast p, gen := 0,
    origin := .monitor, owner := some n, charge := .reserve n, useCount := 0, directives := p.directives,
    parent := p.basis.map fun b => (b.1, (s.entry b.1).gen + 1) }

/-- The state with a monitor counter of channel `n` changed. -/
def State.modMonitorCounters (s : State) (n : Channel) (f : MonitorCounters → MonitorCounters) : State :=
  s.modChan n fun c => { c with monitorCounters := f c.monitorCounters }

/-- An accepted claim: the basis is split, the new entry given out, the counter raised and PROPOSAL latched
(R45, R110, R111). -/
def State.acceptProposal (s : State) (n : Channel) (p : ProposalClaim) (h : Handle) : State :=
  (((s.truncateBasis p).giveOut h (s.proposalEntry n p)).modMonitorCounters n fun k =>
    { k with proposals := bump k.proposals 1 }).modAttn fun a => a.latchProposal n

/-- The controller decides a proposal claim (R109, R110): ABANDONED, SUPPRESSED or accepted. While the
reserve law of R34 holds, a claim that passes the reserve check finds a FREE handle (R35). -/
def State.decideProposal (s : State) (n : Channel) (p : ProposalClaim) : State :=
  if s.abandons p then s.modMonitorCounters n fun k => { k with abandoned := bump k.abandoned 1 }
  else if s.quota n ≤ s.reserveHeld n then
    s.modMonitorCounters n fun k => { k with suppressed := bump k.suppressed 1 }
  else
    match s.lowestFree with
    | none => s.modMonitorCounters n fun k => { k with suppressed := bump k.suppressed 1 }
    | some h => s.acceptProposal n p h

/-- The controller takes the waiting proposal claim of channel `n`, if there is one. -/
def State.takeProposal (s : State) (n : Channel) : State :=
  match (s.chan n).proposalClaim with
  | none => s
  | some p => (s.modChan n fun c => { c with proposalClaim := none }).decideProposal n p

/-- The waiting claims that go before a table request are taken in their order: sequencer claims, then
proposal claims, lowest channel first (R38). -/
def State.takeClaims (s : State) : State := allChannels.foldl State.takeProposal s.takeSequencerClaims

/-- A request the Table Controller takes in its turn (R38, R46). -/
def State.serveTable (s : State) (r : Instr) (owner : State → State × Result) : State :=
  s.serve r fun s => owner s.takeClaims

/-! ## Commands of the sequencer and the controller -/

/-- Whether the window of channel `n` may shift: RUNNING, a field in the arrival slot, no queued request,
no claim waiting (R81). -/
def State.shiftField (s : State) (n : Channel) : Option Arrived :=
  let c := s.chan n
  if c.state = .running ∧ s.queued n = false ∧ c.sequencerClaim = none then c.port.slot else none

/-- A whole shift of channel `n` for field `a`: the window moves, the lookup is taken in its turn among the
sequencer claims, and the shift is completed in the same event (R43, R84, log 9). -/
def State.shift (s : State) (n : Channel) (a : Arrived) : State :=
  ((s.modChan n fun c => c.beginShift a).takeSequencerBelow n).takeLookup n a

/-- What the observation of a shift of channel `n` does to its monitor. -/
def State.shiftEvent (s : State) (n : Channel) (a : Arrived) : MonitorEvent :=
  match ((((s.modChan n fun c => c.beginShift a).takeSequencerBelow n).answerLookup n a).chan n).observed with
  | some o => o.event
  | none => .nothing

/-- The shift of channel `n` whose observation has the event `e`; no other shift is made. -/
def State.shiftWith (s : State) (n : Channel) (e : MonitorEvent) : State :=
  match s.shiftField n with
  | some a => if s.shiftEvent n a = e then s.shift n a else s
  | none => s

/-- WINDOW_SHIFT (R84). -/
def execWindowShift (n : Channel) (s : State) : Host.Outcome State Fault Refusal :=
  .next (match s.shiftField n with
    | some a => s.shift n a
    | none => s)

/-- CADENCE_LOCK (R100, R103): the shift at whose observation the detector enters LOCKED (log 8). -/
def execCadenceLock (n : Channel) (s : State) : Host.Outcome State Fault Refusal := .next (s.shiftWith n .lock)

/-- UNLOCKED_RUN_EXPIRY (R103): the shift at whose observation the unlocked run reaches 60 (log 8). -/
def execUnlockedRunExpiry (n : Channel) (s : State) : Host.Outcome State Fault Refusal :=
  .next (s.shiftWith n .expiry)

/-- LOOKUP (R40): the controller takes a lookup that waits, in its turn, and the shift is completed. -/
def execLookup (n : Channel) (s : State) : Host.Outcome State Fault Refusal :=
  .next (match (s.chan n).sequencerClaim with
    | some (.lookup a) => (s.takeSequencerBelow n).takeLookup n a
    | _ => s)

/-- RELEASE (R44): the controller takes a release that waits, in its turn. -/
def execRelease (n : Channel) (s : State) : Host.Outcome State Fault Refusal :=
  .next (match (s.chan n).sequencerClaim with
    | some (.release resetsMonitor) => (s.takeSequencerBelow n).takeRelease n resetsMonitor
    | _ => s)

/-- PROPOSAL_CLAIM (R109 to R111): the controller takes a proposal claim that waits, in its turn: after
every sequencer claim and the proposal claims of lower channels. -/
def execProposalClaim (n : Channel) (s : State) : Host.Outcome State Fault Refusal :=
  .next (if (s.chan n).proposalClaim.isSome then
      ((allChannels.filter fun m => m.val ≤ n.val).foldl State.takeProposal s.takeSequencerClaims)
    else s)

/-- ENTRY_ADD (R52). -/
def execEntryAdd (key : Key) (first last : FieldNum) (directives : BitVec 24) (s : State) :
    Host.Outcome State Fault Refusal :=
  .next (s.serveTable (.entryAdd key first last directives) fun s => s.takeEntryAdd key first last directives)

/-- ENTRY_AMEND (R54). -/
def execEntryAmend (handle : BitVec 16) (expected : Gen) (first last : FieldNum) (directives : BitVec 24)
    (s : State) : Host.Outcome State Fault Refusal :=
  .next (s.serveTable (.entryAmend handle expected first last directives) fun s =>
    s.takeEntryAmend handle expected first last directives)

/-- ENTRY_RETIRE (R57). -/
def execEntryRetire (handle : BitVec 16) (expected : Gen) (s : State) : Host.Outcome State Fault Refusal :=
  .next (s.serveTable (.entryRetire handle expected) fun s => s.takeEntryRetire handle expected)

/-- ENTRY_READ (R59). -/
def execEntryRead (handle : BitVec 16) (s : State) : Host.Outcome State Fault Refusal :=
  .next (s.serveTable (.entryRead handle) fun s => s.takeEntryRead handle)

/-- ENTRY_FIND (R60). -/
def execEntryFind (key : Key) (number : FieldNum) (s : State) : Host.Outcome State Fault Refusal :=
  .next (s.serveTable (.entryFind key number) fun s => s.takeEntryFind key number)

/-- ENTRY_NEXT (R61). -/
def execEntryNext (key : Key) (number : FieldNum) (s : State) : Host.Outcome State Fault Refusal :=
  .next (s.serveTable (.entryNext key number) fun s => s.takeEntryNext key number)

/-- PROPOSAL_CONFIRM (R63). -/
def execProposalConfirm (handle : BitVec 16) (expected : Gen) (s : State) : Host.Outcome State Fault Refusal :=
  .next (s.serveTable (.proposalConfirm handle expected) fun s => s.takeProposalConfirm handle expected)

/-- PROPOSAL_REJECT (R66). -/
def execProposalReject (handle : BitVec 16) (expected : Gen) (s : State) : Host.Outcome State Fault Refusal :=
  .next (s.serveTable (.proposalReject handle expected) fun s => s.takeProposalReject handle expected)

/-- UNIT_READ (R172). -/
def execUnitRead (s : State) : Host.Outcome State Fault Refusal :=
  .next (s.serveTable .unitRead fun s => s.takeUnitRead)

end Sys2Proof.Machine
end

