-- ==== Sys2Proof/Machine/Port.lean ====
section
/-! DEFINITION. The ingest ports: finding and judging packets (R1 to R6, R184), gaining lock (R7, R8),
arrival and numbering (R9 to R11), fault count and confinement (R13, R14), detachment, silence and rejoining
(R15 to R19). -/

namespace Sys2Proof.Machine

/-! ## The packet header (10, The field packet; R184) -/

/-- The bytes after the first sync word 9Dh 62h, if there is one. -/
def afterSync : List Byte → Option (List Byte)
  | 0x9D#8 :: 0x62#8 :: rest => some rest
  | _ :: rest => afterSync rest
  | [] => none

/-- A header as received: its 11 header bytes and its check word. -/
structure HeaderBytes where
  bytes : List Byte
  check : BitVec 16
  deriving DecidableEq, Repr

/-- The header whose check word ends the searched bytes: 11 header bytes and the check word, most significant byte
first, after the first sync word (R1, R184). -/
def findHeader (searched : List Byte) : Option HeaderBytes :=
  match afterSync searched with
  | some rest => if rest.length = 13 then some { bytes := rest.take 11, check := word16At rest 11 } else none
  | none => none

/-- The standard code, as a number. -/
def HeaderBytes.standard (h : HeaderBytes) : Nat := (byteAt h.bytes 0).toNat

/-- The parity: bit 0 of its byte, the other bits ignored (R184). -/
def HeaderBytes.parity (h : HeaderBytes) : Parity := if (byteAt h.bytes 1).getLsbD 0 then .lower else .upper

/-- The reel tag. -/
def HeaderBytes.tag (h : HeaderBytes) : Key := word32At h.bytes 2

/-- The field number. -/
def HeaderBytes.number (h : HeaderBytes) : FieldNum := word24At h.bytes 6

/-- The announced active line count. -/
def HeaderBytes.lineCount (h : HeaderBytes) : Nat := (word16At h.bytes 9).toNat

/-! ## Reel matchers (R5, R6) -/

/-- Whether a matcher matches a reel tag: enabled, and agreeing wherever its mask holds 0. -/
def Matcher.hits (m : Matcher) (tag : Key) : Bool := m.enabled && ((tag ^^^ m.code) &&& ~~~m.mask) == 0

/-- The lookup key of a tag: the hit matcher's second key, or the tag itself; `none` is a rejection. -/
def ChannelConfig.lookupKey (c : ChannelConfig) (tag : Key) : Option Key :=
  (c.matchers.toList.find? fun m => m.hits tag).map fun m => m.aliasKey.getD tag

/-! ## Fault count (R13, R14) -/

/-- The fault count becomes `v`; a change of level latches PORT attention. -/
def State.setFaults (s : State) (n : Channel) (v : Nat) : State :=
  let s1 := s.modPort n fun p => { p with faultCount := v }
  if levelOf v = (s.chan n).level then s1 else s1.modAttn fun a => a.latchPort n .levelChange

/-- The state with a port counter of channel `n` changed. -/
def State.modPortCounters (s : State) (n : Channel) (f : PortCounters → PortCounters) : State :=
  s.modPort n fun p => { p with counters := f p.counters }

/-- The lock run or the rejoin run ends: the count is 0 and the previous field absent (R7, R17). -/
def Port.breakRun (p : Port) (state : ChannelState) : Port :=
  match state with
  | .seeking => { p with lockCount := 0, previous := none }
  | .detached => { p with rejoinCount := 0, previous := none }
  | _ => p

/-! ## Detachment (R15) -/

/-- Channel `n` becomes DETACHED. -/
def State.detach (s : State) (n : Channel) : State :=
  let s1 := s.setFaults n 255
  let s2 := s1.modChan n fun c =>
    { c with
      state := .detached
      port :=
        { c.port with
          slot := none
          silence := .stopped
          rejoinCount := 0
          previous := none
          counters := { c.port.counters with detachments := bump c.port.counters.detachments 1 } } }
  (s2.modChan n Chan.depart).modAttn fun a => a.beginDetached n

/-- Whether a fault carries the count of channel `n` past 255 (R13). -/
def State.faultDetaches (s : State) (n : Channel) : Bool :=
  255 < (s.chan n).port.faultCount + Config.faultWeight

/-- A fault while RUNNING adds 8; past 255 the channel is detached (R13, R15). -/
def State.addFault (s : State) (n : Channel) : State :=
  if s.faultDetaches n then s.detach n
  else s.setFaults n ((s.chan n).port.faultCount + Config.faultWeight)

/-- A bad packet before completion: it adds a fault in RUNNING and ends the run in SEEKING and DETACHED (R2,
R3). -/
def State.badPacket (s : State) (n : Channel) : State :=
  if (s.chan n).state = .running then s.addFault n
  else s.modPort n fun p => p.breakRun (s.chan n).state

/-! ## Header completion (R2, R3, R6) -/

/-- Whether a port judges packets in a channel state (R1). -/
def ChannelState.judges : ChannelState → Bool
  | .seeking => true
  | .running => true
  | .detached => true
  | _ => false

/-- What a header completion makes of a packet. -/
inductive HeaderVerdict where
  | badCheck
  | mismatch
  | rejected
  | accepted (key : Key)
  deriving DecidableEq, Repr

/-- The checks at header completion, in order: header check, source standard and line count, matchers. -/
def ChannelConfig.judgeHeader (c : ChannelConfig) (h : HeaderBytes) : HeaderVerdict :=
  if crc16 h.bytes ≠ h.check then .badCheck
  else if h.standard ≠ c.standard.code ∨ h.lineCount ≠ c.standard.lines then .mismatch
  else
    match c.lookupKey h.tag with
    | none => .rejected
    | some key => .accepted key

/-- Where the receiver stands after a header completion (R1). -/
def HeaderBytes.receiver (h : HeaderBytes) : HeaderVerdict → Receiver
  | .badCheck => .searching
  | .mismatch => .skipping h.lineCount
  | .rejected => .skipping h.lineCount
  | .accepted key =>
    .reading { number := h.number, parity := h.parity, key := key, lineCount := h.lineCount }

/-- A header completion of a port that judges packets. -/
def State.judgeHeader (s : State) (n : Channel) (h : HeaderBytes) : State :=
  let verdict := (s.chan n).config.judgeHeader h
  let s := s.modPort n fun p => { p with receiver := h.receiver verdict }
  match verdict with
  | .badCheck =>
    (s.modPortCounters n fun k => { k with headerFaults := bump k.headerFaults 1 }).badPacket n
  | .mismatch => (s.modPortCounters n fun k => { k with mismatches := bump k.mismatches 1 }).badPacket n
  | .rejected =>
    (s.modPortCounters n fun k => { k with rejected := bump k.rejected 1 }).modPort n fun p =>
      p.breakRun (s.chan n).state
  | .accepted _ => s

/-- The bytes a port reads after a header that announces `lineCount` lines, 1440 bytes each. -/
def lineBytes (lineCount : Nat) : Nat := Config.bytesPerLine * lineCount

/-- The received bytes in which a port looks for a sync word: all of them, or those after the announced lines and the
body check word of a discarded packet; none while it reads a packet's lines (R1, R3, R6). -/
def Receiver.searched (r : Receiver) (received : List Byte) : Option (List Byte) :=
  match r with
  | .searching => some received
  | .skipping lineCount => some (received.drop (lineBytes lineCount + 2))
  | .reading _ => none

/-- The header that completes at port `n` with the last of the received bytes: none in HALTED and HALTING, where the
bytes are discarded, nor while the port reads a packet's lines (R1). -/
def State.headerAt (s : State) (n : Channel) (received : List Byte) : Option HeaderBytes :=
  if (s.chan n).state.judges then ((s.chan n).port.receiver.searched received).bind findHeader else none

/-- A header completion at port `n`. The silence timer, running in RUNNING, goes on running from 0 (R16). -/
def State.headerCompletion (s : State) (n : Channel) (received : List Byte) : State :=
  match s.headerAt n received with
  | some h => s.judgeHeader n h
  | none => s

/-! ## Gaining lock (R7, R8) -/

/-- The field a packet has given, before its slip flag is judged. -/
def PacketHeader.field (h : PacketHeader) (lines : List Byte) (damaged : Bool) : Field :=
  { number := h.number, parity := h.parity, key := h.key, damaged := damaged, slip := false, lines := lines }

/-- Whether a field number continues the run of a previous field: exactly one more (R7, R17). -/
def continuesRun (previous : Option FieldNum) (number : FieldNum) : Bool :=
  match previous with
  | some p => number.toNat == p.toNat + 1
  | none => false

/-- Channel `n` enters RUNNING with the field that completed the run (R8). -/
def State.gainLock (s : State) (n : Channel) (f : Field) : State :=
  (s.modChan n fun c =>
    { c with
      state := .running
      port :=
        { c.port with
          lockCount := 0
          previous := none
          slot := some { field := f, cls := .start }
          silence := .running
          counters := { c.port.counters with taken := bump c.port.counters.taken 1 } } }).modAttn fun a =>
    a.latchPort n .lockGained

/-- The lock count a field of a SEEKING channel makes (R7). -/
def Port.lockCountWith (p : Port) (number : FieldNum) : Nat :=
  if continuesRun p.previous number then p.lockCount + 1 else 1

/-- A completed packet in SEEKING (R7, R8). -/
def State.seekField (s : State) (n : Channel) (f : Field) : State :=
  let count := (s.chan n).port.lockCountWith f.number
  if Config.lockRun ≤ count then s.gainLock n f
  else s.modPort n fun p => { p with lockCount := count, previous := some f.number }

/-! ## Arrival and numbering (R9 to R11) -/

/-- The classification of a field against the reference field (R9). -/
def classify (reference : Option WindowField) (f : Field) : FieldClass :=
  match reference with
  | none => .start
  | some r =>
    let a := r.field.number.toNat
    let b := f.number.toNat
    if r.field.key = f.key ∧ b = a + 1 then .next
    else if r.field.key = f.key ∧ a + 2 ≤ b ∧ b ≤ a + 8 then .gap
    else .discontinuity

/-- The number of missing fields of a GAP (R9). -/
def missingFields (reference : Option WindowField) (f : Field) : Nat :=
  match reference with
  | some r => f.number.toNat - r.field.number.toNat - 1
  | none => 0

/-- Whether a NEXT field has the parity of the reference field (R10). -/
def slips (reference : Option WindowField) (f : Field) : Bool :=
  match reference with
  | some r => r.field.parity == f.parity
  | none => false

/-- A field is taken into the arrival slot of a RUNNING channel (R9 to R11). -/
def Chan.take (c : Chan) (f : Field) : Chan :=
  let cls := classify c.window.newer f
  let slip := cls == .next && slips c.window.newer f
  let k := c.port.counters
  { c with
    port :=
      { c.port with
        slot := some { field := { f with slip := slip }, cls := cls }
        counters :=
          { k with
            taken := bump k.taken 1
            overruns := bump k.overruns (if c.port.slot.isSome then 1 else 0)
            missing := bump k.missing (if cls = .gap then missingFields c.window.newer f else 0)
            discontinuities := bump k.discontinuities (if cls = .discontinuity then 1 else 0)
            slips := bump k.slips (if slip then 1 else 0) } } }

/-- A completed packet in RUNNING: the fault count first; a damaged field whose fault detaches the channel is
discarded and not judged (R13, R15, log 10). -/
def State.runField (s : State) (n : Channel) (f : Field) : State :=
  if f.damaged then
    if s.faultDetaches n then s.detach n
    else (s.addFault n).modChan n fun c => c.take f
  else (s.setFaults n ((s.chan n).port.faultCount - 1)).modChan n fun c => c.take f

/-! ## Rejoining (R17, R18) -/

/-- The port's part of an entry to SEEKING (R19). -/
def Port.enterSeeking (p : Port) : Port :=
  { p with lockCount := 0, previous := none, receiver := .searching, slot := none, silence := .stopped }

/-- The rejoin count a clean field of a DETACHED channel makes (R17). -/
def Port.rejoinCountWith (p : Port) (number : FieldNum) : Nat :=
  if continuesRun p.previous number then min Config.rejoinRun (p.rejoinCount + 1) else 1

/-- Channel `n` leaves DETACHED for SEEKING: the condition ends first, then the count becomes 0 (R18, R178).
The rejoin count is not mentioned there and is kept (log 11). Where a release still waits, the window, the marks and the
current entry stand until its taking (R44, R72); R19 has them gone at the entry (DESIGN CHOICE, log 44). -/
def State.rejoin (s : State) (n : Channel) : State :=
  ((s.modAttn fun a => a.endDetached n).setFaults n 0).modChan n fun c =>
    { c with state := .seeking, port := c.port.enterSeeking, monitor := Monitor.reset }

/-- A completed packet in DETACHED (R17, R18). -/
def State.detachedField (s : State) (n : Channel) (f : Field) : State :=
  if f.damaged then s.modPort n fun p => p.breakRun .detached
  else
    let count := (s.chan n).port.rejoinCountWith f.number
    let s1 := s.modPort n fun p => { p with rejoinCount := count, previous := some f.number }
    if count = Config.rejoinRun ∧ (s.chan n).config.autoRejoin = true then s1.rejoin n else s1

/-! ## Packet completion (R4) -/

/-- The field of a packet whose header has been accepted: exactly the announced lines and then the two bytes of the body
check word, most significant first; other bytes complete no packet (R1, R4, R184). -/
def PacketHeader.complete (h : PacketHeader) (lines check : List Byte) : Option Field :=
  if lines.length = lineBytes h.lineCount ∧ check.length = 2 then some (h.field lines (crc16 lines != word16At check 0))
  else none

/-- The field that completes at port `n` with the last of the received bytes: none unless the port is reading an
accepted packet. -/
def State.packetAt (s : State) (n : Channel) (lines check : List Byte) : Option Field :=
  if (s.chan n).state.judges then
    match (s.chan n).port.receiver with
    | .reading h => h.complete lines check
    | _ => none
  else none

/-- A completed packet of a port that judges packets. -/
def State.judgePacket (s : State) (n : Channel) (f : Field) : State :=
  let s := s.modPort n fun p =>
    { p with
      receiver := .searching
      counters := { p.counters with damaged := bump p.counters.damaged (if f.damaged then 1 else 0) } }
  match (s.chan n).state with
  | .seeking => s.seekField n f
  | .running => s.runField n f
  | .detached => s.detachedField n f
  | _ => s

/-- A packet completion at port `n`. -/
def State.packetCompletion (s : State) (n : Channel) (lines check : List Byte) : State :=
  match s.packetAt n lines check with
  | some f => s.judgePacket n f
  | none => s

/-! ## Silence (R16) -/

/-- The silence timeout of channel `n`: to SEEKING with PORT attention lock lost (R16, R19, R72). -/
def State.loseLock (s : State) (n : Channel) : State :=
  (s.modChan n fun c =>
    { c.depart with
      state := .seeking
      port :=
        { c.port.enterSeeking with
          counters :=
            { c.port.counters with silenceTimeouts := bump c.port.counters.silenceTimeouts 1 } } }).modAttn
    fun a => a.latchPort n .lockLost

/-! ## Commands of the ports -/

/-- HEADER_COMPLETION (R2, R3, R5, R6). -/
def execHeaderCompletion (n : Channel) (received : List Byte) (s : State) : Host.Outcome State Fault Refusal :=
  .next (s.headerCompletion n received)

/-- PACKET_COMPLETION (R4). -/
def execPacketCompletion (n : Channel) (lines check : List Byte) (s : State) :
    Host.Outcome State Fault Refusal :=
  .next (s.packetCompletion n lines check)

/-- Whether a field completed at channel `n` brings the lock count to 4 (R8). -/
def State.completesLock (s : State) (n : Channel) (f : Field) : Bool :=
  (s.chan n).state == .seeking && Config.lockRun ≤ (s.chan n).port.lockCountWith f.number

/-- LOCK_GAINED (R8): the packet completion at which the lock count reaches 4, whole; a packet that does not
bring it there gains no lock (log 8). -/
def execLockGained (n : Channel) (lines check : List Byte) (s : State) :
    Host.Outcome State Fault Refusal :=
  .next (match s.packetAt n lines check with
    | some f => if s.completesLock n f then s.judgePacket n f else s
    | none => s)

/-- Whether a port event of channel `n` detaches it: RUNNING, a fault, and a count that it carries past 255
(R13, R15). -/
def State.detaches (s : State) (n : Channel) (event : PortEvent) : Bool :=
  (s.chan n).state == .running && s.faultDetaches n &&
    match event with
    | .header received =>
      match s.headerAt n received with
      | some h =>
        match (s.chan n).config.judgeHeader h with
        | .badCheck => true
        | .mismatch => true
        | _ => false
      | none => false
    | .packet lines check =>
      match s.packetAt n lines check with
      | some f => f.damaged
      | none => false

/-- A port event of channel `n`. -/
def State.portEvent (s : State) (n : Channel) (event : PortEvent) : State :=
  match event with
  | .header received => s.headerCompletion n received
  | .packet lines check => s.packetCompletion n lines check

/-- DETACHMENT (R15): the port event whose fault would carry the fault count past 255, whole (log 8). -/
def execDetachment (n : Channel) (event : PortEvent) (s : State) : Host.Outcome State Fault Refusal :=
  .next (if s.detaches n event then s.portEvent n event else s)

/-- Whether a field completed at channel `n` completes the rejoin run with auto-rejoin set (R18). -/
def State.completesRejoin (s : State) (n : Channel) (f : Field) : Bool :=
  (s.chan n).state == .detached && !f.damaged && (s.chan n).config.autoRejoin
    && (s.chan n).port.rejoinCountWith f.number == Config.rejoinRun

/-- AUTO_REJOIN (R18): the packet completion at which the rejoin count reaches 64 with auto-rejoin set,
whole (log 8). -/
def execAutoRejoin (n : Channel) (lines check : List Byte) (s : State) :
    Host.Outcome State Fault Refusal :=
  .next (match s.packetAt n lines check with
    | some f => if s.completesRejoin n f then s.judgePacket n f else s
    | none => s)

/-- SILENCE_TIMEOUT (R16). The timer runs only while the channel is RUNNING; a stopped timer does not
expire. -/
def execSilenceTimeout (n : Channel) (s : State) : Host.Outcome State Fault Refusal :=
  .next (if (s.chan n).state = .running ∧ (s.chan n).port.silence = .running then s.loseLock n else s)

end Sys2Proof.Machine
end

