-- ==== Sys2Proof/Machine/Channels.lean ====
section
/-! DEFINITION. The requests on channels (R75 to R79, R21, R37) and the alignment snapshot (R91, R92). -/

namespace Sys2Proof.Machine

/-! ## CHANNEL_SET (R75, R76, R37) -/

/-- Check 3 of R75: every lane that claims a masked channel has the field rate of the new standard. -/
def State.ratesAgree (s : State) (mask : Byte) (standard : Standard) : Bool :=
  (maskChannels mask).all fun n =>
    match s.claims.get n with
    | some l => (s.lane l).config.rate == standard.rate
    | none => true

/-- The masked channels take a configuration record, each replaced in full. -/
def State.writeConfigs (s : State) (mask : Byte) (cfg : ChannelConfig) : State :=
  (maskChannels mask).foldl (fun s n => s.modChan n fun c => { c with config := cfg }) s

/-- Check 4 of R75: the two conditions of R37, the second with the new quotas of the masked channels. A mask that
names no channel passes. -/
def State.quotaFits (s : State) (mask : Byte) (cfg : ChannelConfig) : Bool :=
  (maskChannels mask).isEmpty ||
    ((maskChannels mask).all (fun n => s.reserveHeld n ≤ cfg.quota)
      && (s.writeConfigs mask cfg).outstanding ≤ s.freeCount)

/-- CHANNEL_SET at the Table Controller (R75): the new quotas take effect in the accounting, and the new shared
free is handed over (R34, R37). -/
def State.takeChannelSet (s : State) (mask : Byte) (record : ConfigBody) : State × Result :=
  if !(maskChannels mask).all fun n => (s.chan n).state == .halted then (s, refuse .wrongState)
  else
    match decodeConfig record with
    | none => (s, refuse .range)
    | some cfg =>
      if !s.ratesAgree mask cfg.standard then (s, refuse .range)
      else if !s.quotaFits mask cfg then (s, refuse .noRoom)
      else ((s.writeConfigs mask cfg).handOver, done [])

/-! ## CHANNEL_START (R77, R21) -/

/-- Whether CHANNEL_START may move a channel: HALTED, or DETACHED with its rejoin count at 64. -/
def Chan.mayStart (c : Chan) : Bool :=
  c.state == .halted || (c.state == .detached && c.port.rejoinCount == Config.rejoinRun)

/-- A channel as CHANNEL_START leaves it, its fault count apart (R19, R21, R77). Of a DETACHED channel whose release
still waits, the window and the marks are cleared here at once, while the current entry stands until the taking of the
release (R44, R72): R77 has both absent at the start, R44 and R72 at that taking (DESIGN CHOICE, log 44). -/
def Chan.started (c : Chan) : Chan :=
  { c.flush with
    state := .seeking
    port := { c.port.enterSeeking with rejoinCount := 0 }
    monitor := Monitor.reset }

/-- The DETACHED condition of a channel that is DETACHED ends (R178). -/
def State.endDetachedOf (s : State) (n : Channel) : State :=
  if (s.chan n).state = .detached then s.modAttn fun a => a.endDetached n else s

/-- Channel `n` is started: the end of its condition comes before the change of level (R178). -/
def State.startChannel (s : State) (n : Channel) : State :=
  ((s.endDetachedOf n).setFaults n 0).modChan n Chan.started

/-- CHANNEL_START at the executor (R77). -/
def State.takeChannelStart (s : State) (mask : Byte) : State × Result :=
  if (maskChannels mask).all fun n => (s.chan n).mayStart then
    ((maskChannels mask).foldl State.startChannel s, done [])
  else (s, refuse .wrongState)

/-! ## CHANNEL_HALT (R73, R78, R21) -/

/-- The port as an entry to HALTING leaves it (R21). -/
def Port.halt (p : Port) : Port :=
  { p with
    lockCount := 0
    rejoinCount := 0
    previous := none
    slot := none
    silence := .stopped
    receiver := .searching }

/-- The sequencer's part of an entry to HALTING (R73): a waiting release, made now or earlier, carries the effects;
otherwise they take place at once. `running` says whether the channel was RUNNING. -/
def State.haltSequencer (s : State) (n : Channel) (running : Bool) : State :=
  let c := s.chan n
  if c.releaseWaits then s
  else if running && c.currentEntry.isSome then
    s.modChan n fun c => { c with sequencerClaim := some (.release false) }
  else (s.modChan n Chan.halted).judgeHalted n

/-- Whether a halt acts on a channel in a state. -/
def ChannelState.halts : ChannelState → Bool
  | .seeking => true
  | .running => true
  | .detached => true
  | _ => false

/-- Channel `n` enters HALTING (R73). -/
def State.haltChannel (s : State) (n : Channel) : State :=
  if (s.chan n).state.halts then
    ((s.endDetachedOf n).modChan n fun c => { c with state := .halting, port := c.port.halt }).haltSequencer n
      ((s.chan n).state == .running)
  else s

/-- CHANNEL_HALT at the executor (R78): the request stays pending until every masked channel is HALTED. -/
def State.takeChannelHalt (s : State) (mask : Byte) : State :=
  ((maskChannels mask).foldl State.haltChannel (s.setCarried (.channelHalt mask))).haltCheck

/-! ## CHANNEL_READ (R79, R102) -/

/-- The bytes of a latched set, offsets 9 to 16: a DEFAULT has no handle, generation or state. -/
def latchedSetBytes : Option LatchedSet → List Byte
  | none => [0, 0, 0, 0, 0, 0, 0, 0]
  | some (.default d) => [1, 0, 0, 0, 0] ++ bytes24 (encodeDirectives d)
  | some (.entry h g st _ d) => 2 :: num16 h.val ++ [g, st.code] ++ bytes24 (encodeDirectives d)

/-- The field number of a slot, 0 when it is absent. -/
def slotBytes : Option WindowField → List Byte
  | none => [0, 0, 0]
  | some f => bytes24 f.field.number

/-- The detector state, its mode and the position of NEWER under its alignment, FFh when absent (R102). -/
def detectorBytes (d : Detector) (newer : Option WindowField) : List Byte :=
  let position (mode : Film) (align : Nat) : Byte :=
    match newer with
    | some f => byte (mode.position align f.field.number)
    | none => 0xFF
  match d with
  | .searching => [0, 0, 0xFF]
  | .candidate mode align _ _ => [1, mode.code, position mode align]
  | .locked mode align _ _ => [2, mode.code, position mode align]

/-- The settled state and its alignment. -/
def Settled.bytes : Settled → List Byte
  | .none => [0, 0]
  | .video => [1, 0]
  | .film mode align => [mode.code, byte align]

/-- The eleven port counters in the order of the table in R20. -/
def PortCounters.bytes (k : PortCounters) : List Byte :=
  num16 k.taken ++ num16 k.headerFaults ++ num16 k.mismatches ++ num16 k.rejected ++ num16 k.damaged
    ++ num16 k.overruns ++ num16 k.missing ++ num16 k.discontinuities ++ num16 k.slips
    ++ num16 k.silenceTimeouts ++ num16 k.detachments

/-- The four monitor counters. -/
def MonitorCounters.bytes (k : MonitorCounters) : List Byte :=
  num16 k.proposals ++ num16 k.suppressed ++ num16 k.abandoned ++ num16 k.disagreements

/-- The result bytes of CHANNEL_READ, 66 bytes (10, CHANNEL_READ result). -/
def Chan.readBytes (c : Chan) : List Byte :=
  let w := c.window
  [c.state.code, c.level.code, byte c.port.faultCount, byte c.port.lockCount, byte c.port.rejoinCount,
      bitAt 0 c.currentEntry.isSome ||| bitAt 1 c.relatch]
    ++ (match c.currentEntry with | some h => num16 h.val | none => [0, 0])
    ++ [c.latchedGen.getD 0]
    ++ latchedSetBytes (w.current.map WindowField.set)
    ++ [bitAt 0 w.older.isSome ||| bitAt 1 w.current.isSome ||| bitAt 2 w.newer.isSome]
    ++ slotBytes w.older ++ slotBytes w.current ++ slotBytes w.newer
    ++ detectorBytes c.monitor.detector w.newer ++ c.monitor.settled.bytes
    ++ c.port.counters.bytes ++ num16 c.noneSteps ++ num16 c.doubleSteps ++ c.monitorCounters.bytes

/-- Every counter of a channel is set to 0. -/
def Chan.clearCounters (c : Chan) : Chan :=
  { c with
    port := { c.port with counters := PortCounters.zero }
    noneSteps := 0
    doubleSteps := 0
    monitorCounters := MonitorCounters.zero }

/-- CHANNEL_READ at its sequencer (R79). Bit 0 of the flags is clear; the others are ignored, bits 2 and 1 too (DESIGN
CHOICE, log 40). -/
def State.takeChannelRead (s : State) (channel flags : Byte) : State × Result :=
  match channelOf channel with
  | none => (s, refuse .range)
  | some n =>
    (if flags.getLsbD 0 then s.modChan n Chan.clearCounters else s, done (s.chan n).readBytes)

/-! ## The alignment snapshot (R91, R92) -/

/-- SYNC_SNAPSHOT at the snapshot store (R91): refused, or waiting for the lane's next tick. -/
def State.takeSyncSnapshot (s : State) (mask lane : Byte) : State :=
  let r := Instr.syncSnapshot mask lane
  match laneOf lane with
  | none => s.setHandedBack r (refuse .range)
  | some l =>
    if (s.lane l).state = .idle then s.setHandedBack r (refuse .wrongState)
    else if s.store.snapshot.isSome then s.setHandedBack r (refuse .inUse)
    else { s with store := { s.store with waiting := some (mask, l) } }.setCarried r

/-- The 9 bytes of a snapshot item: the channel with bit 7 set when key and field are present, its state, its key
and its NEWER field number. -/
def SnapshotItem.bytes (i : SnapshotItem) : List Byte :=
  match i.position with
  | some (key, number) => [byte i.channel.val ||| 0x80, i.state.code] ++ bytes32 key ++ bytes24 number
  | none => [byte i.channel.val, i.state.code, 0, 0, 0, 0, 0, 0, 0]

/-- The result bytes of SYNC_READ. -/
def Snapshot.bytes (x : Snapshot) : List Byte :=
  [byte x.lane.val, byte x.items.length] ++ x.items.flatMap SnapshotItem.bytes

/-- SYNC_READ at the snapshot store (R92): the snapshot is returned and the store emptied. -/
def State.takeSyncRead (s : State) : State × Result :=
  match s.store.snapshot with
  | none => (s, refuse .noEntry)
  | some x => ({ s with store := { s.store with snapshot := none } }, done x.bytes)

/-! ## Commands -/

/-- CHANNEL_SET (R75), a table request. -/
def execChannelSet (mask : Byte) (record : ConfigBody) (s : State) : Host.Outcome State Fault Refusal :=
  .next (s.serveTable (.channelSet mask record) fun s => s.takeChannelSet mask record)

/-- CHANNEL_START (R77). -/
def execChannelStart (mask : Byte) (s : State) : Host.Outcome State Fault Refusal :=
  .next (s.serve (.channelStart mask) fun s => s.takeChannelStart mask)

/-- CHANNEL_HALT (R78). -/
def execChannelHalt (mask : Byte) (s : State) : Host.Outcome State Fault Refusal :=
  .next (match s.reachOwner (.channelHalt mask) with
    | some s => s.takeChannelHalt mask
    | none => s)

/-- CHANNEL_READ (R79). -/
def execChannelRead (channel flags : Byte) (s : State) : Host.Outcome State Fault Refusal :=
  .next (s.serve (.channelRead channel flags) fun s => s.takeChannelRead channel flags)

/-- SYNC_SNAPSHOT (R91). -/
def execSyncSnapshot (mask lane : Byte) (s : State) : Host.Outcome State Fault Refusal :=
  .next (match s.reachOwner (.syncSnapshot mask lane) with
    | some s => s.takeSyncSnapshot mask lane
    | none => s)

/-- SNAPSHOT_WAIT_EXPIRY (R91): the waiting request completes with WRONG_STATE and the store stays empty. -/
def execSnapshotWaitExpiry (s : State) : Host.Outcome State Fault Refusal :=
  .next (if s.store.waiting.isSome then
      { s with store := { s.store with waiting := none } }.handBackSnapshot (refuse .wrongState)
    else s)

/-- SYNC_READ (R92). -/
def execSyncRead (s : State) : Host.Outcome State Fault Refusal :=
  .next (s.serve .syncRead fun s => s.takeSyncRead)

end Sys2Proof.Machine
end

