-- ==== Sys2Proof/Machine/Lane.lean ====
section
/-! DEFINITION. The output lanes: claims on channels (R149), the take check and takes (R154 to R156), emission,
starvation and the slate (R145 to R148), ageing (R143), the tick with the parts it has in other blocks (R90, R91,
R132, R144), and the requests of a lane (R138 to R140, R152, R157, R158). -/

namespace Sys2Proof.Machine

/-! ## Claims (R149) -/

/-- The claim record of a channel changes: its step open mark is cleared and its step tally is 0 (R90). -/
def State.setClaim (s : State) (n : Channel) (claim : Option LaneId) : State :=
  { s with claims := setAt s.claims n claim }.modChan n fun c => { c with stepOpen := false, tally := 0 }

/-- The claim of lane `l` on channel `n` begins, unless the lane holds it already. -/
def State.beginClaim (s : State) (l : LaneId) (n : Channel) : State :=
  if s.claims.get n = some l then s else s.setClaim n (some l)

/-- Whether a lane needs its claim on a channel: its program source, or the target of a cue of its list. -/
def Lane.needs (x : Lane) (n : Channel) : Bool :=
  x.source == some n || x.cues.any fun c => c.target == some n

/-- The claim of lane `l` on channel `n` is released once the lane needs it no longer. -/
def State.releaseUnneeded (s : State) (l : LaneId) (n : Channel) : State :=
  if s.claims.get n = some l ∧ (s.lane l).needs n = false then s.setClaim n none else s

/-- The channels lane `l` claims, in ascending order. -/
def State.claimed (s : State) (l : LaneId) : List Channel := allChannels.filter fun n => s.claims.get n == some l

/-! ## The take check (R154 to R156) -/

/-- Whether an armed frame meets a trigger. -/
def Trigger.metBy (t : Trigger) (f : Frame) : Bool :=
  match t with
  | .nextTick => true
  | .atField number => number.toNat ≤ f.number.toNat

/-- Whether the condition of a head cue holds at a tick (R154). -/
def Lane.conditionHolds (x : Lane) (c : Cue) : Bool :=
  match c.target with
  | none => true
  | some n =>
    x.source == some n ||
      match x.armedFrames.next with
      | some f => c.trigger.metBy f
      | none => false

/-- The starved condition of lane `l` ends if the lane is SLATE/STARVED (R178). -/
def State.endStarvedOf (s : State) (l : LaneId) : State :=
  if (s.lane l).state = .slateStarved then s.modAttn fun a => a.endStarved l else s

/-- A lane's order for the requests and jobs of its program source, if it has one. -/
def State.cancelSource (s : State) (l : LaneId) : State :=
  match (s.lane l).source with
  | some y => s.cancelByRole l y .program
  | none => s

/-- The claim on an old program source is released unless the lane still needs it. -/
def State.releaseOld (s : State) (l : LaneId) (old : Option Channel) : State :=
  match old with
  | some y => s.releaseUnneeded l y
  | none => s

/-- The lane after a take that makes `x` its program source (R155). -/
def Lane.afterTake (lane : Lane) (x : Channel) : Lane :=
  { lane with
    programFrames := lane.armedFrames
    armedFrames := Ready.empty
    source := some x
    state := .program
    sampledSlate := none
    cues := lane.cues.tail }

/-- A take whose target is a channel other than the program source (R155). -/
def State.takeChannel (s : State) (l : LaneId) (x : Channel) : State :=
  let old := (s.lane l).source
  ((((s.cancelSource l).reRole l x).endStarvedOf l).modLane l (fun lane => lane.afterTake x)).releaseOld l old

/-- The lane after a take of a SLATE cue (R156): the slate is sampled at an entry into SLATE/NO_PROGRAM only
(R148). -/
def Lane.afterSlateTake (lane : Lane) : Lane :=
  { lane with
    programFrames := Ready.empty
    source := none
    lastFrame := none
    holdCount := 0
    state := .slateNoProgram
    sampledSlate := if lane.state = .slateNoProgram then lane.sampledSlate else some lane.config.slate
    cues := lane.cues.tail }

/-- A take whose target is SLATE (R156). -/
def State.takeSlate (s : State) (l : LaneId) : State :=
  let old := (s.lane l).source
  (((s.cancelSource l).endStarvedOf l).modLane l Lane.afterSlateTake).releaseOld l old

/-- A take whose target is the program source: only the cue leaves (R156). -/
def State.takeSource (s : State) (l : LaneId) : State :=
  s.modLane l fun lane => { lane with cues := lane.cues.tail }

/-- The effects of taking cue `c`, CUE attention included. -/
def State.takeCue (s : State) (l : LaneId) (c : Cue) : State :=
  (match c.target with
    | none => s.takeSlate l
    | some x => if (s.lane l).source = some x then s.takeSource l else s.takeChannel l x).modAttn
    fun a => a.latchTaken l

/-- The take check of a tick: the head cue is tested once (R151, R154). -/
def State.takeCheck (s : State) (l : LaneId) : State :=
  match (s.lane l).cues.head? with
  | some c => if (s.lane l).conditionHolds c then s.takeCue l c else s
  | none => s

/-! ## Emission (R145, R146) -/

/-- A fresh program frame is emitted. -/
def Lane.emitFresh (x : Lane) (f : Frame) : Lane :=
  { x with
    state := .program
    lastFrame := some f
    holdCount := 0
    programFrames := { x.programFrames with next := none }
    counters := { x.counters with emitted := bump x.counters.emitted 1 }
    output := .frame f }

/-- What the slate puts on the output. A lane in SLATE has sampled a slate (R148). -/
def Lane.slateOutput (x : Lane) : Emission :=
  match x.sampledSlate with
  | some r => .slate r x.config.raster
  | none => .quiet

/-- What a repeat puts on the output. A lane in PROGRAM has a last frame: it entered with a fresh one. -/
def Lane.repeatOutput (x : Lane) : Emission :=
  match x.lastFrame with
  | some f => .frame f
  | none => .quiet

/-- Whether a tick without a fresh frame starves a lane in PROGRAM (R145). -/
def Lane.starves (x : Lane) : Bool :=
  x.state == .program && x.programFrames.next.isNone && x.config.holdLimit ≤ x.holdCount + 1

/-- A tick in PROGRAM without a fresh frame (R145). -/
def Lane.hold (x : Lane) : Lane :=
  { x with
    state := if x.starves then .slateStarved else x.state
    sampledSlate := if x.starves then some x.config.slate else x.sampledSlate
    holdCount := x.holdCount + 1
    counters := { x.counters with held := bump x.counters.held 1 }
    output := x.repeatOutput }

/-- The emission of one tick by a lane's state (R145, R146). -/
def Lane.emit (x : Lane) : Lane :=
  match x.state, x.programFrames.next with
  | .idle, _ => x
  | .slateNoProgram, _ => { x with output := x.slateOutput }
  | .program, some f => x.emitFresh f
  | .program, none => x.hold
  | .slateStarved, some f => x.emitFresh f
  | .slateStarved, none =>
    { x with counters := { x.counters with held := bump x.counters.held 1 }, output := x.slateOutput }

/-- The emission of lane `l`, with the begin or the end of its starved condition. -/
def State.emit (s : State) (l : LaneId) : State :=
  let x := s.lane l
  let s1 := s.modLane l Lane.emit
  if x.starves then s1.modAttn fun a => a.beginStarved l
  else if x.state = .slateStarved ∧ x.programFrames.next.isSome = true then s1.modAttn fun a => a.endStarved l
  else s1

/-! ## Ageing (R143) -/

/-- The frames due at the tick leave; the frames due at the tick after become due at the next. -/
def Ready.age (r : Ready) : Ready := { next := r.after, after := none }

/-- The ageing of both roles. -/
def Lane.age (x : Lane) : Lane :=
  { x with programFrames := x.programFrames.age, armedFrames := x.armedFrames.age }

/-! ## The tick (R144) -/

/-- The take check of a tick; an IDLE lane makes none. -/
def State.takePart (s : State) (l : LaneId) : State := if (s.lane l).state = .idle then s else s.takeCheck l

/-- The lane's part of a tick: take check, emission, ageing. An IDLE lane ignores the tick. -/
def State.lanePart (s : State) (l : LaneId) : State :=
  if (s.lane l).state = .idle then s else ((s.takeCheck l).emit l).modLane l Lane.age

/-- The step judgement of channel `n` (R90). That the NONE and DOUBLE steps counters stay at 65,535 once they have reached
it is the model's choice: the spec gives their range only (DESIGN CHOICE, log 41). -/
def State.judgeStep (s : State) (n : Channel) : State :=
  let c := s.chan n
  let s1 := s.modChan n fun c => { c with stepOpen := true, tally := 0 }
  if c.stepOpen = false then s1
  else if c.tally = 0 then
    (s1.modChan n fun c => { c with noneSteps := bump c.noneSteps 1 }).modAttn fun a => a.latchNone n
  else if 2 ≤ c.tally then
    (s1.modChan n fun c => { c with doubleSteps := bump c.doubleSteps 1 }).modAttn fun a => a.latchDouble n
  else s1

/-- The step judgements of the RUNNING channels that lane `l` claims. -/
def State.judgeSteps (s : State) (l : LaneId) : State :=
  (s.claimed l).foldl (fun s n => if (s.chan n).state = .running then s.judgeStep n else s) s

/-- What a snapshot records of channel `n` (R91). -/
def State.snapshotItem (s : State) (n : Channel) : SnapshotItem :=
  { channel := n
    state := (s.chan n).state
    position :=
      if (s.chan n).state = .running then
        (s.chan n).window.newer.map fun f => (f.field.key, f.field.number)
      else none }

/-- A SYNC_SNAPSHOT that waits on lane `l` is recorded and completes with DONE (R91). -/
def State.recordSnapshot (s : State) (l : LaneId) : State :=
  match s.store.waiting with
  | some (mask, l') =>
    if l' = l then
      { s with
        store :=
          { snapshot := some { lane := l, items := (maskChannels mask).map s.snapshotItem }
            waiting := none } }.handBackSnapshot (done [])
    else s
  | none => s

/-- A tick of lane `l`: the lane's part, then the pool's part, then the step judgements, and last the record of a
waiting snapshot (R144, log 27). -/
def State.tick (s : State) (l : LaneId) : State :=
  (((s.lanePart l).poolTick l).judgeSteps l).recordSnapshot l

/-! ## LANE_SET (R138 to R140) -/

/-- A lane as an enable leaves it (R139). -/
def Lane.enable (x : Lane) : Lane :=
  { x with
    state := .slateNoProgram
    source := none
    programFrames := Ready.empty
    armedFrames := Ready.empty
    lastFrame := none
    holdCount := 0
    sampledSlate := some x.config.slate
    cues := [] }

/-- A lane as a disable leaves it (R140). -/
def Lane.disable (x : Lane) : Lane :=
  { x with
    state := .idle
    source := none
    programFrames := Ready.empty
    armedFrames := Ready.empty
    lastFrame := none
    holdCount := 0
    sampledSlate := none
    cues := []
    output := .quiet }

/-- The lane's orders for every channel it claims, in both roles. -/
def State.cancelClaimed (s : State) (l : LaneId) : State :=
  (s.claimed l).foldl (fun s n => (s.cancelByRole l n .program).cancelByRole l n .armed) s

/-- Every claim of lane `l` is released. -/
def State.releaseClaims (s : State) (l : LaneId) : State := (s.claimed l).foldl (fun s n => s.setClaim n none) s

/-- A lane that is not IDLE is disabled (R140); the arbiter acts on the engines the orders freed. -/
def State.disableLane (s : State) (l : LaneId) : State :=
  let s1 := if (s.lane l).cues.isEmpty then s else s.modAttn fun a => a.latchAborted l
  ((((s1.endStarvedOf l).cancelClaimed l).releaseClaims l).modLane l Lane.disable).arbitrate

/-- LANE_SET at its lane (R138). -/
def State.takeLaneSet (s : State) (lane : Byte) (record : BitVec 48) : State × Result :=
  match laneOf lane, decodeLaneConfig record with
  | some l, some cfg =>
    let x := s.lane l
    if (cfg.raster ≠ x.config.raster ∨ cfg.rate ≠ x.config.rate) ∧ x.state ≠ .idle then (s, refuse .wrongState)
    else
      let s1 := s.modLane l fun x => { x with config := cfg }
      if cfg.enabled = true ∧ x.state = .idle then (s1.modLane l Lane.enable, done [])
      else if cfg.enabled = false ∧ x.state ≠ .idle then (s1.disableLane l, done [])
      else (s1, done [])
  | _, _ => (s, refuse .range)

/-! ## CUE_ADD (R152) -/

/-- The cue a CUE_ADD gives a lane. -/
def Lane.newCue (x : Lane) (target : Option Channel) (trigger : Trigger) : Cue :=
  { number := x.cueCounter, target := target, trigger := trigger }

/-- Checks 4 and 5 of R152: a channel target is not claimed by another lane and has the lane's rate. -/
def State.targetCheck (s : State) (l : LaneId) (target : Option Channel) : Option ResultCode :=
  match target with
  | none => none
  | some n =>
    if s.claims.get n ≠ none ∧ s.claims.get n ≠ some l then some .inUse
    else if (s.chan n).config.standard.rate ≠ (s.lane l).config.rate then some .range
    else none

/-- The claim of a channel target begins. -/
def State.claimTarget (s : State) (l : LaneId) (target : Option Channel) : State :=
  match target with
  | some n => s.beginClaim l n
  | none => s

/-- CUE_ADD at its lane (R152). -/
def State.takeCueAdd (s : State) (lane target trigger : Byte) (number : FieldNum) : State × Result :=
  match laneOf lane, targetOf target, triggerOf trigger number with
  | some l, some t, some g =>
    let x := s.lane l
    if x.state = .idle then (s, refuse .wrongState)
    else if Config.cueListSize ≤ x.cues.length then (s, refuse .noRoom)
    else
      match s.targetCheck l t with
      | some code => (s, refuse code)
      | none =>
        ((s.claimTarget l t).modLane l fun x =>
            { x with cues := x.cues ++ [x.newCue t g], cueCounter := x.cueCounter + 1 },
          done [x.cueCounter])
  | _, _, _ => (s, refuse .range)

/-! ## CUE_ABORT (R157) -/

/-- The cue of a number, nearest the head (log 28). -/
def Lane.findCue (x : Lane) (number : Byte) : Option Cue := x.cues.find? fun c => c.number == number

/-- The pool's order at the abort of a head cue: for a target other than the program source (R157). -/
def State.cancelArmed (s : State) (l : LaneId) (c : Cue) : State :=
  match c.target with
  | some n => if (s.lane l).source = some n then s else s.cancelByRole l n .armed
  | none => s

/-- What the abort of a head cue does besides removing it. -/
def State.disarm (s : State) (l : LaneId) (c : Cue) : State :=
  (s.cancelArmed l c).modLane l fun x => { x with armedFrames := Ready.empty }

/-- The abort of cue `c` of lane `l` (R157). -/
def State.abortCue (s : State) (l : LaneId) (c : Cue) : State :=
  let s1 := if (s.lane l).cues.head? = some c then s.disarm l c else s
  (((s1.modLane l fun x => { x with cues := x.cues.erase c }).releaseOld l c.target).modAttn
    fun a => a.latchAborted l).arbitrate

/-- CUE_ABORT at its lane (R157). -/
def State.takeCueAbort (s : State) (lane cue : Byte) : State × Result :=
  match laneOf lane with
  | none => (s, refuse .range)
  | some l =>
    match (s.lane l).findCue cue with
    | none => (s, refuse .noEntry)
    | some c => (s.abortCue l c, done [])

/-! ## LANE_READ (R158) -/

/-- The result bytes of LANE_READ (10, LANE_READ result). -/
def Lane.readBytes (x : Lane) : List Byte :=
  [x.state.code, (match x.source with | some n => byte n.val | none => 0xFF), byte x.holdCount, x.cueCounter,
      byte x.cues.length]
    ++ x.cues.flatMap encodeCue
    ++ num16 x.counters.emitted ++ num16 x.counters.held ++ num16 x.counters.late ++ num16 x.counters.cancelled

/-- LANE_READ at its lane (R158). Bit 0 of the flags is clear; the others are ignored, bits 2 and 1 too (DESIGN
CHOICE, log 40). -/
def State.takeLaneRead (s : State) (lane flags : Byte) : State × Result :=
  match laneOf lane with
  | none => (s, refuse .range)
  | some l =>
    (if flags.getLsbD 0 then s.modLane l fun x => { x with counters := LaneCounters.zero } else s,
      done (s.lane l).readBytes)

/-! ## Commands of the lanes -/

/-- LANE_TICK (R144). -/
def execLaneTick (l : LaneId) (s : State) : Host.Outcome State Fault Refusal := .next (s.tick l)

/-- STARVATION (R145): the tick of lane `l` at which its hold count reaches or passes the hold limit, whole
(log 8). -/
def execStarvation (l : LaneId) (s : State) : Host.Outcome State Fault Refusal :=
  .next (if ((s.takePart l).lane l).starves then s.tick l else s)

/-- DEADLINE_WITHDRAWAL (R132): the tick of lane `l` at which the queued request of channel `n` reaches its
deadline, whole (log 8). -/
def execDeadlineWithdrawal (l : LaneId) (n : Channel) (s : State) : Host.Outcome State Fault Refusal :=
  .next (if (s.takePart l).queue.any fun r => r.channel == n && r.dueOn l then s.tick l else s)

/-- DEADLINE_CANCELLATION (R132): the tick of lane `l` at which the job of engine `e` reaches its deadline, whole
(log 8). -/
def execDeadlineCancellation (l : LaneId) (e : EngineId) (s : State) : Host.Outcome State Fault Refusal :=
  .next (if jobDue l ((s.takePart l).engines.get e) then s.tick l else s)

/-- LANE_SET (R138). -/
def execLaneSet (lane : Byte) (record : BitVec 48) (s : State) : Host.Outcome State Fault Refusal :=
  .next (s.serve (.laneSet lane record) fun s => s.takeLaneSet lane record)

/-- CUE_ADD (R152). -/
def execCueAdd (lane target trigger : Byte) (number : FieldNum) (s : State) : Host.Outcome State Fault Refusal :=
  .next (s.serve (.cueAdd lane target trigger number) fun s => s.takeCueAdd lane target trigger number)

/-- CUE_ABORT (R157). -/
def execCueAbort (lane cue : Byte) (s : State) : Host.Outcome State Fault Refusal :=
  .next (s.serve (.cueAbort lane cue) fun s => s.takeCueAbort lane cue)

/-- LANE_READ (R158). -/
def execLaneRead (lane flags : Byte) (s : State) : Host.Outcome State Fault Refusal :=
  .next (s.serve (.laneRead lane flags) fun s => s.takeLaneRead lane flags)

end Sys2Proof.Machine
end

