-- ==== Sys2Proof/Machine/Unit.lean ====
section
/-! DEFINITION. The resets of the whole part: the pin reset (R22, R47, R93, R159, R174, R183) and the three stages
of a UNIT_RESET (R48, R93, R135, R160, R173, R183). -/

namespace Sys2Proof.Machine

/-! ## First stage: table and channels (R48, R93) -/

/-- An entry after the table part: no users, and FREE if it was RETIRING. -/
def Entry.unitReset (e : Entry) : Entry :=
  if e.state = .retiring then Entry.free e.gen else { e with useCount := 0 }

/-- A channel after a UNIT_RESET: as after a pin reset, with its configuration record kept. Its orders on their way
belong to the pool and wait for the pool's part (log 29). -/
def Chan.unitReset (c : Chan) : Chan :=
  { Chan.resetWith c.config with withdrawOrder := c.withdrawOrder, cancelOrder := c.cancelOrder }

/-- The DETACHED conditions end as their channels become HALTED (R178). -/
def State.endAllDetached (s : State) : State := allChannels.foldl State.endDetachedOf s

/-- The first stage, one taking of the Table Controller. It discards the waiting claims without answer, so none of
them goes before it (log 23). -/
def State.resetTableAndChannels (s : State) : State :=
  let s1 := s.endAllDetached
  { s1 with chans := s1.chans.map Chan.unitReset, table := s1.table.map Entry.unitReset }.handOver

/-- No part of the second stage is taken yet. -/
def ResetProgress.start : ResetProgress := { pool := false, lanes := Vector.replicate 4 false, store := false }

/-- Whether every part of the second stage has been taken. -/
def ResetProgress.complete (p : ResetProgress) : Bool := p.pool && p.lanes.toList.all id && p.store

/-! ## Second stage: pool, lanes, snapshot store (R135, R160, R173) -/

/-- The pool's part: queue and engines are emptied, with no report and no count (R135). -/
def State.resetPool (s : State) : State :=
  { s with
    queue := []
    engines := Vector.replicate 3 none
    chans := s.chans.map fun c => { c with withdrawOrder := false, cancelOrder := false } }

/-- A lane after its part of a UNIT_RESET (R160): an enabled lane is SLATE/NO_PROGRAM, an IDLE lane stays IDLE.
What the output carries changes at the next tick. -/
def Lane.unitReset (x : Lane) : Lane :=
  { x with
    state := if x.state = .idle then .idle else .slateNoProgram
    source := none
    programFrames := Ready.empty
    armedFrames := Ready.empty
    lastFrame := none
    holdCount := 0
    sampledSlate := if x.state = .idle then none else some x.config.slate
    cues := []
    counters := LaneCounters.zero }

/-- The part of lane `l` (R160). -/
def State.resetLane (s : State) (l : LaneId) : State :=
  (((s.endStarvedOf l).releaseClaims l).modLane l Lane.unitReset)

/-! ## Commands -/

/-- PIN_RESET (R93, R161): every block is set to its pin-reset state and the straps are sampled. The commands not
yet taken stay in the model's queue. -/
def execPinReset (straps : BitVec 3) (s : State) : Host.Outcome State Fault Refusal :=
  .next { State.resetWith straps with pending := s.pending }

/-- UNIT_RESET (R173), first stage. -/
def execUnitReset (s : State) : Host.Outcome State Fault Refusal :=
  .next (match s.reachOwner .unitReset with
    | some s => { s.resetTableAndChannels with unitReset := some ResetProgress.start }.setCarried .unitReset
    | none => s)

/-- UNIT_RESET_POOL_PART (R135), once, in the second stage. -/
def execUnitResetPoolPart (s : State) : Host.Outcome State Fault Refusal :=
  .next (match s.unitReset with
    | some p => if p.pool then s else { s.resetPool with unitReset := some { p with pool := true } }
    | none => s)

/-- UNIT_RESET_LANE_PART (R160), once for each lane, in the second stage. -/
def execUnitResetLanePart (l : LaneId) (s : State) : Host.Outcome State Fault Refusal :=
  .next (match s.unitReset with
    | some p =>
      if p.lanes.get l then s else { s.resetLane l with unitReset := some { p with lanes := setAt p.lanes l true } }
    | none => s)

/-- UNIT_RESET_SNAPSHOT_STORE_PART (R92, R173), once, in the second stage. -/
def execUnitResetSnapshotStorePart (s : State) : Host.Outcome State Fault Refusal :=
  .next (match s.unitReset with
    | some p =>
      if p.store then s
      else { s with store := { snapshot := none, waiting := none }, unitReset := some { p with store := true } }
    | none => s)

/-- UNIT_RESET_ATTENTION_PART (R183): the third stage, when every part of the second has been taken. The request's
result is handed back, and the link completes it (R167, R173). -/
def execUnitResetAttentionPart (s : State) : Host.Outcome State Fault Refusal :=
  .next (match s.unitReset with
    | some p =>
      if p.complete then { s.modAttn Attn.clearLatches with unitReset := none }.handBack (done []) else s
    | none => s)

end Sys2Proof.Machine
end

