-- ==== Sys2Proof/Machine/Dispatch.lean ====
section
/-! DEFINITION. The meaning of every command: one arm for each constructor of Instr, in the table's order. -/

namespace Sys2Proof.Machine

/-- What a command does to everything but the queue of commands. -/
def exec (i : Instr) (s : State) : Host.Outcome State Fault Refusal :=
  match i with
  | .pinReset straps => Sys2Proof.Machine.execPinReset straps s
  | .headerCompletion n received => Sys2Proof.Machine.execHeaderCompletion n received s
  | .packetCompletion n lines check => Sys2Proof.Machine.execPacketCompletion n lines check s
  | .lockGained n lines check => Sys2Proof.Machine.execLockGained n lines check s
  | .detachment n event => Sys2Proof.Machine.execDetachment n event s
  | .autoRejoin n lines check => Sys2Proof.Machine.execAutoRejoin n lines check s
  | .silenceTimeout n => Sys2Proof.Machine.execSilenceTimeout n s
  | .windowShift n => Sys2Proof.Machine.execWindowShift n s
  | .cadenceLock n => Sys2Proof.Machine.execCadenceLock n s
  | .unlockedRunExpiry n => Sys2Proof.Machine.execUnlockedRunExpiry n s
  | .lookup n => Sys2Proof.Machine.execLookup n s
  | .release n => Sys2Proof.Machine.execRelease n s
  | .proposalClaim n => Sys2Proof.Machine.execProposalClaim n s
  | .entryAdd key first last directives => Sys2Proof.Machine.execEntryAdd key first last directives s
  | .entryAmend handle expected first last directives => Sys2Proof.Machine.execEntryAmend handle expected first last directives s
  | .entryRetire handle expected => Sys2Proof.Machine.execEntryRetire handle expected s
  | .entryRead handle => Sys2Proof.Machine.execEntryRead handle s
  | .entryFind key number => Sys2Proof.Machine.execEntryFind key number s
  | .entryNext key number => Sys2Proof.Machine.execEntryNext key number s
  | .proposalConfirm handle expected => Sys2Proof.Machine.execProposalConfirm handle expected s
  | .proposalReject handle expected => Sys2Proof.Machine.execProposalReject handle expected s
  | .channelSet mask record => Sys2Proof.Machine.execChannelSet mask record s
  | .channelStart mask => Sys2Proof.Machine.execChannelStart mask s
  | .channelHalt mask => Sys2Proof.Machine.execChannelHalt mask s
  | .channelRead channel flags => Sys2Proof.Machine.execChannelRead channel flags s
  | .syncSnapshot mask lane => Sys2Proof.Machine.execSyncSnapshot mask lane s
  | .snapshotWaitExpiry => Sys2Proof.Machine.execSnapshotWaitExpiry s
  | .syncRead => Sys2Proof.Machine.execSyncRead s
  | .profileWrite index record => Sys2Proof.Machine.execProfileWrite index record s
  | .profileRead index => Sys2Proof.Machine.execProfileRead index s
  | .jobStart => Sys2Proof.Machine.execJobStart s
  | .jobCompletion e => Sys2Proof.Machine.execJobCompletion e s
  | .deadlineWithdrawal l n => Sys2Proof.Machine.execDeadlineWithdrawal l n s
  | .deadlineCancellation l e => Sys2Proof.Machine.execDeadlineCancellation l e s
  | .withdrawOrder n => Sys2Proof.Machine.execWithdrawOrder n s
  | .cancelOrder n => Sys2Proof.Machine.execCancelOrder n s
  | .laneTick l => Sys2Proof.Machine.execLaneTick l s
  | .starvation l => Sys2Proof.Machine.execStarvation l s
  | .laneSet lane record => Sys2Proof.Machine.execLaneSet lane record s
  | .cueAdd lane target trigger number => Sys2Proof.Machine.execCueAdd lane target trigger number s
  | .cueAbort lane cue => Sys2Proof.Machine.execCueAbort lane cue s
  | .laneRead lane flags => Sys2Proof.Machine.execLaneRead lane flags s
  | .attnRead => Sys2Proof.Machine.execAttnRead s
  | .attnAck sources => Sys2Proof.Machine.execAttnAck sources s
  | .attnSet enables modes threshold => Sys2Proof.Machine.execAttnSet enables modes threshold s
  | .unitRead => Sys2Proof.Machine.execUnitRead s
  | .unitReset => Sys2Proof.Machine.execUnitReset s
  | .unitResetPoolPart => Sys2Proof.Machine.execUnitResetPoolPart s
  | .unitResetLanePart l => Sys2Proof.Machine.execUnitResetLanePart l s
  | .unitResetAttentionPart => Sys2Proof.Machine.execUnitResetAttentionPart s
  | .uncheckedPiece address bytes low ending => Sys2Proof.Machine.execUncheckedPiece address bytes low ending s
  | .checkedPiece address bytes low ending => Sys2Proof.Machine.execCheckedPiece address bytes low ending s
  | .resultRead address written clocked low ending => Sys2Proof.Machine.execResultRead address written clocked low ending s
  | .requestCompletion => Sys2Proof.Machine.execRequestCompletion s
  | .linkReset => Sys2Proof.Machine.execLinkReset s
  | .unitResetSnapshotStorePart => Sys2Proof.Machine.execUnitResetSnapshotStorePart s

end Sys2Proof.Machine
end

