-- ==== Sys2Proof/Safety.lean ====
section
/-! DEFINITION. The laws the manual states of every reachable state, as properties of one state. -/

namespace Sys2Proof.Machine

/-- The law of the link (R163, R167): at most 64 staged bytes; while BUSY nothing is staged, the overflow mark is
clear and the last result is NO_REQUEST without bytes. -/
def State.LinkLaw (s : State) : Prop :=
  s.link.staging.length ≤ Config.stagingSize ∧
    (s.link.flight.busy = true →
      s.link.staging = [] ∧ s.link.overflow = false ∧ s.link.lastResult = { code := .noRequest, bytes := [] })

/-- The law of the pool (R129, R136): while the queue holds a request, no engine is IDLE. -/
def State.PoolLaw (s : State) : Prop := s.queue ≠ [] → ∀ e : EngineId, (s.engines.get e).isSome = true

/-- The reserve law of R34: H_c ≤ Q_c for every channel, and at least as many FREE entries as the sum of the Q_c
less the H_c. -/
def State.ReserveLaw (s : State) : Prop :=
  (∀ c : Channel, s.reserveHeld c ≤ s.quota c) ∧ s.outstanding ≤ s.freeCount

/-- The use counts (R32): an entry's use count is the number of channels whose current entry it is; a FREE entry has
none. -/
def State.UseLaw (s : State) : Prop :=
  ∀ h : Handle, (s.entry h).useCount = allChannels.countP (fun n => (s.chan n).currentEntry == some h) ∧
    ((s.entry h).state = .free → (s.entry h).useCount = 0)

/-- The spans of the index (R30): an ACTIVE or PROVISIONAL entry's first field is at or below its last, and two such
entries of one key have no field in common. -/
def State.SpanLaw (s : State) : Prop :=
  ∀ h : Handle, (s.entry h).live = true → (s.entry h).first.toNat ≤ (s.entry h).last.toNat ∧
    ∀ g : Handle, g ≠ h → (s.entry g).live = true → (s.entry g).key = (s.entry h).key →
      (s.entry g).last.toNat < (s.entry h).first.toNat ∨ (s.entry h).last.toNat < (s.entry g).first.toNat

/-- The law of the claims (R149): a claim record names the one lane whose program source or cue target the channel
is, a claimed channel has its lane's rate, and an IDLE lane has neither source nor cues. -/
def State.ClaimLaw (s : State) : Prop :=
  (∀ (n : Channel) (l : LaneId), s.claims.get n = some l ↔ (s.lane l).needs n = true) ∧
    (∀ (n : Channel) (l : LaneId), s.claims.get n = some l →
      (s.chan n).config.standard.rate = (s.lane l).config.rate) ∧
    ∀ l : LaneId, (s.lane l).state = .idle → (s.lane l).source = none ∧ (s.lane l).cues = []

/-- The ranges of the port's counts and of the step tally (R7, R13, R17, R90). -/
def Chan.InRange (c : Chan) : Prop :=
  c.port.faultCount ≤ 255 ∧ c.port.lockCount ≤ Config.lockRun ∧ c.port.rejoinCount ≤ Config.rejoinRun
    ∧ c.tally ≤ 255

/-- Every channel's counts are in range. -/
def State.CountLaw (s : State) : Prop := ∀ n : Channel, (s.chan n).InRange

/-- A lane's cue list holds at most 4 cues (R151). -/
def State.CueLaw (s : State) : Prop := ∀ l : LaneId, (s.lane l).cues.length ≤ Config.cueListSize

end Sys2Proof.Machine
end

