-- ==== Sys2Proof/WellFormed.lean ====
section
/-! DEFINITION. Which commands the wires can carry: the byte strings of the port and link commands have the form
their rules give them. The items of a request body have no condition here: any values of the catalogue's widths can
be sent, and the owner judges them (R186). -/

namespace Sys2Proof

open Machine

/-- The bytes received up to a header completion: they end with a sync word, a header and its check word. Which sync
word opens the packet depends on what the port has to skip, so the port judges that (R1, R184). -/
def headerBytesFit (received : List Byte) : Bool :=
  15 ≤ received.length && (received.drop (received.length - 15)).take 2 == [0x9D, 0x62]

/-- The bytes of a packet after its header: whole lines, as many as a source standard has, and the body check word
(R1, R3). -/
def packetBytesFit (lines check : List Byte) : Bool :=
  ([Standard.std625, .std525, .std405, .std819].any fun st => lines.length == lineBytes st.lines) && check.length == 2

/-- The bytes of an unchecked piece: none, or a command byte with neither RESULT nor CHECKED first (R163). -/
def uncheckedFit (bytes : List Byte) : Bool :=
  match bytes with
  | [] => true
  | c :: _ => !isResult c && !isChecked c

/-- The bytes of a checked piece: a command byte with CHECKED and without RESULT first (R164). -/
def checkedFit (bytes : List Byte) : Bool :=
  match bytes with
  | [] => false
  | c :: _ => isChecked c && !isResult c

/-- The bytes written before a result read: none, or a command byte with RESULT first (R168). -/
def resultFit (written : List Byte) : Bool :=
  match written with
  | [] => true
  | c :: _ => isResult c

/-- A command the wires can carry. -/
def Instr.wellFormed : Instr → Bool
  | .headerCompletion _ received => headerBytesFit received
  | .packetCompletion _ lines check => packetBytesFit lines check
  | .lockGained _ lines check => packetBytesFit lines check
  | .detachment _ (.header received) => headerBytesFit received
  | .detachment _ (.packet lines check) => packetBytesFit lines check
  | .autoRejoin _ lines check => packetBytesFit lines check
  | .uncheckedPiece _ bytes _ _ => uncheckedFit bytes
  | .checkedPiece _ bytes _ _ => checkedFit bytes
  | .resultRead _ written _ _ _ => resultFit written
  | _ => true

end Sys2Proof
end

