-- ==== Sys2Proof/Certificates/Slice0/Obligations.lean ====
section
/-! DEFINITION. The statements about the model that are to be proved. In a statement about a request, `s` is a state
in which the request waits at its owner: the link launched it (R166) and the owner has not taken it (`Waits`). -/

namespace Sys2Proof.Machine

/-- Request `r` has been launched and waits at its owner. -/
def State.Waits (s : State) (r : Instr) : Prop := s.link.flight = .launched r

/-- No lookup, release or proposal claim waits at the Table Controller. -/
def State.NoClaims (s : State) : Prop :=
  ∀ n : Channel, (s.chan n).sequencerClaim = none ∧ (s.chan n).proposalClaim = none

/-- No sequencer claim waits that the Table Controller takes before those of channel `n` (R38). -/
def State.TurnOf (s : State) (n : Channel) : Prop := ∀ m : Channel, m < n → (s.chan m).sequencerClaim = none

/-- Nothing but channel `n` and the attention unit differs. -/
def OnlyChannel (s t : State) (n : Channel) : Prop :=
  t = { s with chans := t.chans, attn := t.attn } ∧ ∀ m : Channel, m ≠ n → t.chan m = s.chan m

/-- The received bytes complete header `h` at port `n` with their last byte: after what a discarded packet leaves to skip
and bytes without a sync word come the sync word, the 11 header bytes and the check word, most significant byte first
(R1, R3, R6, R184). -/
def HeaderArrives (s : State) (n : Channel) (received : List Byte) (h : HeaderBytes) : Prop :=
  ∃ skipped before : List Byte,
    ((s.chan n).port.receiver = .searching ∧ skipped = [] ∨
      ∃ k : Nat, (s.chan n).port.receiver = .skipping k ∧ skipped.length = 1440 * k + 2) ∧
    afterSync before = none ∧ h.bytes.length = 11 ∧
    received = skipped ++ before ++ [0x9D, 0x62] ++ h.bytes ++ bytes16 h.check

/-- What an event in which channels may become HALTED does to the request in flight (R78): a CHANNEL_HALT that waits
completes with DONE once all of its channels are HALTED; until then, and for every other request, it is as it was. -/
def HaltAnswered (s t : State) : Prop :=
  (t.link.flight = s.link.flight ∨ ∃ mask : Byte, s.link.flight = .carried (.channelHalt mask) ∧
    (∀ n : Channel, mask.getLsbD n.val = true → (t.chan n).state = .halted) ∧
    t.link.flight = .handedBack (.channelHalt mask) { code := .done, bytes := [] }) ∧
  ∀ (mask : Byte) (n : Channel), s.link.flight = .carried (.channelHalt mask) → mask.getLsbD n.val = true →
    (s.chan n).state ≠ .halted → (∀ m : Channel, mask.getLsbD m.val = true → (t.chan m).state = .halted) →
    t.link.flight = .handedBack (.channelHalt mask) { code := .done, bytes := [] }

/-- What a request that takes the masked channels out of DETACHED does to the attention unit (R178, R179): the condition
of each that was DETACHED ends, and takes a marked channel out of the PORT latch; `latch` says what it does to the latch
then. All else is as it was. -/
def LeavesDetached (s t : State) (mask : Byte) (latch : Channel → PortLatch → PortLatch) : Prop :=
  t.attn = { s.attn with port := t.attn.port, detachedCond := t.attn.detachedCond } ∧
  ∀ n : Channel,
    (mask.getLsbD n.val = false →
      t.attn.port.get n = s.attn.port.get n ∧ t.attn.detachedCond.get n = s.attn.detachedCond.get n) ∧
    (mask.getLsbD n.val = true →
      t.attn.detachedCond.get n = (s.attn.detachedCond.get n && decide ((s.chan n).state ≠ .detached)) ∧
      t.attn.port.get n = latch n
        (if (s.chan n).state = .detached ∧ (s.attn.port.get n).mark = true then PortLatch.clear
        else s.attn.port.get n))

/-- What a tick of lane `l` leaves unchanged (R144): table, profiles, the other lanes and their members of the latches,
the claims of other lanes, the channels that the lane does not claim but for the state of a HALTING one, the state of
every channel that is not HALTING, the snapshot store unless a SYNC_SNAPSHOT waits for this lane, and the request in
flight but for that SYNC_SNAPSHOT, which completes, and a CHANNEL_HALT whose last channel becomes HALTED (R78, R91). -/
def TickFrame (s t : State) (l : LaneId) : Prop :=
  t = { s with
    chans := t.chans, claims := t.claims, queue := t.queue, engines := t.engines, lanes := t.lanes, store := t.store
    link := { s.link with flight := t.link.flight }, attn := t.attn } ∧
    (∀ m : LaneId, m ≠ l → t.lane m = s.lane m) ∧
    (∀ n : Channel, s.claims.get n ≠ some l →
      t.claims.get n = s.claims.get n ∧ t.chan n = { s.chan n with state := (t.chan n).state }) ∧
    (∀ n : Channel, (s.chan n).state ≠ .halting → (t.chan n).state = (s.chan n).state) ∧
    (s.store.waiting.map Prod.snd ≠ some l → t.store = s.store) ∧
    t.attn = { s.attn with
      starved := t.attn.starved, starvedCond := t.attn.starvedCond, cue := t.attn.cue, step := t.attn.step } ∧
    (∀ m : LaneId, m ≠ l → t.attn.starved.get m = s.attn.starved.get m ∧
      t.attn.starvedCond.get m = s.attn.starvedCond.get m ∧ t.attn.cue.get m = s.attn.cue.get m) ∧
    (∀ n : Channel, s.claims.get n ≠ some l → t.attn.step.get n = s.attn.step.get n) ∧
    (∀ mask lane : Byte, s.link.flight = .carried (.syncSnapshot mask lane) → t.link.flight =
      if s.store.waiting.map Prod.snd = some l then
        .handedBack (.syncSnapshot mask lane) { code := .done, bytes := [] }
      else s.link.flight) ∧
    ((∀ mask lane : Byte, s.link.flight ≠ .carried (.syncSnapshot mask lane)) → HaltAnswered s t)

/-- The attention unit after the fault count of channel `n` went from `a` to `b` (R14). -/
def levelNews (attn : Attn) (n : Channel) (a b : Nat) : Attn :=
  if levelOf a = levelOf b then attn else attn.latchPort n .levelChange

/-- What the answer to the lookup for field `a` does to the table, to channel `n` and to the attention unit (R28, R34,
R40, R41, R42): the covering entry becomes current; the use counts move when it was not; a RETIRING entry left without
users becomes FREE, with which the shared free is handed over, and no other member of the attention unit differs in
either case; the field takes the entered entry's set or the default; under the same entry it takes the last set again,
but for a dominant field after a change of generation, which takes the new one. -/
def Answered (s t : State) (n : Channel) (a : Arrived) : Prop :=
  (t.chan n).currentEntry = s.covering a.field.key a.field.number ∧
  (∀ g : Handle, (s.chan n).currentEntry ≠ some g → s.covering a.field.key a.field.number ≠ some g →
    t.entry g = s.entry g) ∧
  (s.covering a.field.key a.field.number = none →
    (t.chan n).window.newer = some { field := a.field, set := .default (s.chan n).config.default } ∧
    (t.chan n).latchedGen = none ∧ (t.chan n).relatch = false) ∧
  (∀ o : Handle, (s.chan n).currentEntry = some o → s.covering a.field.key a.field.number ≠ some o →
    t.entry o = if (s.entry o).state = .retiring ∧ (s.entry o).useCount ≤ 1 then Entry.free (s.entry o).gen
      else { s.entry o with useCount := (s.entry o).useCount - 1 }) ∧
  (∀ o : Handle, (s.chan n).currentEntry = some o → s.covering a.field.key a.field.number ≠ some o →
    (s.entry o).state = .retiring → (s.entry o).useCount ≤ 1 → t.attn = s.attn.handOver t.sharedFree) ∧
  ((∀ o : Handle, (s.chan n).currentEntry = some o → s.covering a.field.key a.field.number = some o ∨
      (s.entry o).state ≠ .retiring ∨ 1 < (s.entry o).useCount) → t.attn = s.attn) ∧
  (∀ h : Handle, s.covering a.field.key a.field.number = some h → (s.chan n).currentEntry ≠ some h →
    t.entry h = { s.entry h with useCount := (s.entry h).useCount + 1 } ∧
    (t.chan n).latchedGen = some (s.entry h).gen ∧ (t.chan n).relatch = false ∧
    (t.chan n).window.newer = some { field := a.field, set := (s.entry h).latchedSet h }) ∧
  ∀ (h : Handle) (last : LatchedSet), s.covering a.field.key a.field.number = some h →
    (s.chan n).currentEntry = some h → (s.chan n).lastSet = some last →
    t.entry h = s.entry h ∧
    ((s.chan n).relatch = false → (s.chan n).latchedGen = some (s.entry h).gen →
      (t.chan n).window.newer = some { field := a.field, set := last } ∧ (t.chan n).relatch = false ∧
      (t.chan n).latchedGen = (s.chan n).latchedGen) ∧
    ((s.chan n).latchedGen ≠ some (s.entry h).gen →
      ((a.field.parity = .upper ↔ last.directives.dominance = .upperFirst) →
        (t.chan n).window.newer = some { field := a.field, set := (s.entry h).latchedSet h } ∧
        (t.chan n).relatch = false ∧ (t.chan n).latchedGen = some (s.entry h).gen) ∧
      (¬(a.field.parity = .upper ↔ last.directives.dominance = .upperFirst) →
        (t.chan n).window.newer = some { field := a.field, set := last } ∧ (t.chan n).relatch = true ∧
        (t.chan n).latchedGen = (s.chan n).latchedGen))

/-- The window and latching marks of channel `n` after step 2 of a shift for field `a` (R41, R42, R82, R83). -/
def State.latchedAt (s : State) (n : Channel) (a : Arrived) : Chan :=
  ((s.chan n).beginShift a).latch a.field ((s.covering a.field.key a.field.number).map fun h => (h, s.entry h))

/-- The answer for field `a` makes channel `n` enter the PROVISIONAL entry `h` (R113). -/
def EntersProposal (s : State) (n : Channel) (a : Arrived) (h : Handle) : Prop :=
  s.covering a.field.key a.field.number = some h ∧ (s.chan n).currentEntry ≠ some h ∧ (s.entry h).state = .provisional

/-- A shift of channel `n` for field `a` may be made, and its monitor observes the field as it stands: no earlier claim
waits, the port is not DEGRADED, the field neither resets nor seeds the monitor (R81, R83, R113, R114). -/
def PlainShift (s : State) (n : Channel) (a : Arrived) : Prop :=
  (s.chan n).state = .running ∧ (s.chan n).port.slot = some a ∧ s.queued n = false ∧
    (s.chan n).sequencerClaim = none ∧ s.TurnOf n ∧ a.cls ≠ .discontinuity ∧ (s.chan n).level ≠ .degraded ∧
    ∀ h : Handle, ¬EntersProposal s n a h

/-- `e` is the effective cadence of field `f` under a latched set, by the monitor's state (R86, R87). A position counted
from a first field is the number below the cycle length that fits it. -/
def EffectiveIs (m : Monitor) (set : LatchedSet) (f : FieldNum) (e : Effective) : Prop :=
  (set.monitorDriven = true →
    (∀ (mode : Film) (align misses : Nat) (r : Option FieldRecord), m.detector = .locked mode align misses r →
      e = .film mode ((align + f.toNat) % mode.cycle)) ∧
    ((∀ (mode : Film) (align misses : Nat) (r : Option FieldRecord), m.detector ≠ .locked mode align misses r) →
      e = .video)) ∧
  (set.monitorDriven = false → set.directives.cadence = .video → e = .video) ∧
  (∀ (h : Handle) (g : Gen) (first : FieldNum) (d : Directives) (mode : Film) (phase : Fin 10),
    set = .entry h g .active first d → d.cadence.film = some mode → d.phase = some phase →
    ∃ pos : Nat, e = .film mode pos ∧ pos < mode.cycle ∧
      (pos + first.toNat) % mode.cycle = (phase.val + f.toNat) % mode.cycle) ∧
  ∀ (d : Directives) (mode : Film) (first : Nat), d.cadence.film = some mode → d.phase = none →
    (set = .default d ∧ first = 0 ∨
      ∃ (h : Handle) (g : Gen) (b : FieldNum), set = .entry h g .active b d ∧ first = b.toNat) →
    (∀ (align misses : Nat) (r : Option FieldRecord), m.detector = .locked mode align misses r →
      e = .film mode ((align + f.toNat) % mode.cycle)) ∧
    ((∀ (align misses : Nat) (r : Option FieldRecord), m.detector ≠ .locked mode align misses r) →
      ∃ pos : Nat, e = .film mode pos ∧ pos < mode.cycle ∧ (pos + first) % mode.cycle = f.toNat % mode.cycle)

/-- A latched set left the cadence to the monitor: an entry latched while PROVISIONAL, or cadence AUTO (R86, R106). -/
def LeftToMonitor (set : LatchedSet) : Prop :=
  (∃ (h : Handle) (g : Gen) (first : FieldNum) (d : Directives), set = .entry h g .provisional first d) ∨
    set.directives.cadence = .auto

/-- The contents of the claim of a transition to `settled` that began at the start field (R96, R107). -/
def Proposes (p : ProposalClaim) (start : FieldRecord) (settled : Settled) : Prop :=
  p.key = start.key ∧ p.start = start.number ∧
  (∀ (h : Handle) (g : Gen) (st : LiveState) (first : FieldNum) (d : Directives),
    start.set = .entry h g st first d → p.basis = some (h, g)) ∧
  (∀ d : Directives, start.set = .default d → p.basis = none) ∧
  (settled = .video → p.directives = { start.set.directives with cadence := .video, phase := none }) ∧
  ∀ (mode : Film) (align : Nat), settled = .film mode align → ∃ (cadence : Cadence) (phase : Fin 10),
    cadence.film = some mode ∧ phase.val = (align + start.number.toNat) % mode.cycle ∧
    p.directives = { start.set.directives with cadence := cadence, phase := some phase }

/-- The settled state disagrees with the fixed cadence latched for the observed field. The alignment of an entry with a
phase is the number below the cycle length that puts its first field at the phase (R97, R115). -/
def Disagrees (set : LatchedSet) (settled : Settled) : Prop :=
  ∃ (h : Handle) (g : Gen) (first : FieldNum) (d : Directives), set = .entry h g .active first d ∧
    (d.cadence = .video ∧ (∃ (mode : Film) (align : Nat), settled = .film mode align) ∨
      ∃ fixed : Film, d.cadence.film = some fixed ∧
        (settled = .video ∨ ∃ (mode : Film) (align : Nat), settled = .film mode align ∧
          (mode ≠ fixed ∨ ∃ (phase : Fin 10) (e : Nat), d.phase = some phase ∧ e < fixed.cycle ∧
            (e + first.toNat) % fixed.cycle = phase.val % fixed.cycle ∧ sameAlignment mode align fixed e = false)))

/-- What a change of the settled state to `settled`, made at the observation of a field of a key, does besides to channel
`c`, which it leaves as `d` (R105, R106, R108, R115, R116): a transition with a start field of that key, left to the
monitor, makes a claim, and a claim that waited is replaced and counted as abandoned; without such a start field no claim
is made; a disagreement with the observed field's set is counted. -/
def SettledChange (c d : Chan) (key : Key) (start : Option FieldRecord) (settled : Settled) : Prop :=
  (∀ r : FieldRecord, start = some r → LeftToMonitor r.set → r.key = key →
    (∃ p : ProposalClaim, d.proposalClaim = some p ∧ Proposes p r settled) ∧
    d.monitorCounters.abandoned = bump c.monitorCounters.abandoned (if c.proposalClaim = none then 0 else 1)) ∧
  ((∀ r : FieldRecord, start = some r → ¬LeftToMonitor r.set ∨ r.key ≠ key) →
    d.proposalClaim = c.proposalClaim ∧ d.monitorCounters.abandoned = c.monitorCounters.abandoned) ∧
  (∀ f : WindowField, d.window.newer = some f →
    (Disagrees f.set settled →
      d.monitorCounters.disagreements = bump c.monitorCounters.disagreements 1) ∧
    (¬Disagrees f.set settled → d.monitorCounters.disagreements = c.monitorCounters.disagreements)) ∧
  d.monitorCounters.proposals = c.monitorCounters.proposals ∧
  d.monitorCounters.suppressed = c.monitorCounters.suppressed

/-- No claim is made and nothing is counted. -/
def NothingClaimed (c d : Chan) : Prop :=
  d.proposalClaim = c.proposalClaim ∧ d.monitorCounters = c.monitorCounters

/-- The luma of sample `j` of line `k` of a field: the second byte of the sample (10, The field packet). -/
def lumaAt (f : Field) (k j : Nat) : Nat := (f.lines.getD (1440 * k + 2 * j + 1) 0).toNat

/-- Four times the mean absolute difference, rounded down, between `rows` lines of field `n`, from line `first` on, and
the exact mean of two lines of field `f` (R94). -/
def meanDifference (n f : Field) (first rows : Nat) (above below : Nat → Nat) : Nat :=
  ((List.range rows).map fun i => ((List.range 720).map fun j =>
    2 * (2 * (lumaAt n (first + i) j : Int) - lumaAt f (above (first + i)) j
      - lumaAt f (below (first + i)) j).natAbs).sum).sum / (720 * rows)

/-- The requests the Table Controller takes in their turn (R46). The table part of UNIT_RESET discards the waiting claims
(R48). -/
def tableRequest : Instr → Bool
  | .entryAdd _ _ _ _ | .entryAmend _ _ _ _ _ | .entryRetire _ _ | .entryRead _ | .entryFind _ _ | .entryNext _ _
  | .proposalConfirm _ _ | .proposalReject _ _ | .channelSet _ _ | .unitRead => true
  | _ => false

/-- A slot holds a field without the damaged flag. -/
def Sound (x : Option WindowField) : Prop := ∃ f : WindowField, x = some f ∧ f.field.damaged = false

/-- A slot holds a field without the damaged and the slip flag. -/
def Clean (x : Option WindowField) : Prop := ∃ f : WindowField, x = some f ∧ f.field.damaged = false ∧ f.field.slip = false

/-- `r` is the recipe for CURRENT field `c` of a window under effective cadence `e` (R118 to R123). -/
def RecipeIs (w : Window) (c : WindowField) (e : Effective) (r : Recipe) : Prop :=
  let double : Slot → Recipe := fun x => { kind := .lineDouble, primary := x, others := [] }
  let repaired : Bool := c.set.directives.repair && c.field.damaged
  (repaired = true →
    (Sound w.older → r = double .older) ∧ (¬Sound w.older → Sound w.newer → r = double .newer) ∧
      (¬Sound w.older → ¬Sound w.newer → r = double .current)) ∧
  (∀ (mode : Film) (pos : Nat), repaired = false → e = .film mode pos →
    ((mode = .film22 ∧ pos = 0 ∨ mode = .film32 ∧ (pos = 0 ∨ pos = 3 ∨ pos = 5 ∨ pos = 8)) →
      (c.field.slip = false ∧ Clean w.newer → r = { kind := .weave, primary := .current, others := [.newer] }) ∧
      (¬(c.field.slip = false ∧ Clean w.newer) → r = double .current)) ∧
    (¬(mode = .film22 ∧ pos = 0 ∨ mode = .film32 ∧ (pos = 0 ∨ pos = 3 ∨ pos = 5 ∨ pos = 8)) →
      (c.field.slip = false ∧ Clean w.older → r = { kind := .weave, primary := .current, others := [.older] }) ∧
      (¬(c.field.slip = false ∧ Clean w.older) → r = double .current))) ∧
  (repaired = false → e = .video →
    (c.set.directives.method = .lineDouble → r = double .current) ∧
    (c.set.directives.method = .motion →
      (c.field.slip = false ∧ Sound w.older ∧ Clean w.newer →
        r = { kind := .motion, primary := .current, others := [.older, .newer] }) ∧
      (¬(c.field.slip = false ∧ Sound w.older ∧ Clean w.newer) → r = double .current)) ∧
    (c.set.directives.method = .blend →
      (Clean w.newer → r = { kind := .blend, primary := .current, others := [.newer] }) ∧
      (¬Clean w.newer → Sound w.older ∧ c.field.slip = false →
        r = { kind := .blend, primary := .current, others := [.older] }) ∧
      (¬Clean w.newer → ¬(Sound w.older ∧ c.field.slip = false) → r = double .current)))

/-- Request `r` is in the pool: queued, or the request of a job. -/
def InPool (t : State) (r : RenderRequest) : Prop :=
  r ∈ t.queue ∨ ∃ (e : EngineId) (j : Job), t.engines.get e = some j ∧ j.request = r

/-- Request `a` goes before request `b` at the arbiter: the smaller deadline distance, then PROGRAM before ARMED, then
the lower lane (R129). -/
def Sooner (a b : RenderRequest) : Prop :=
  a.distance < b.distance ∨ a.distance = b.distance ∧
    (a.role = .program ∧ b.role = .armed ∨ a.role = b.role ∧ a.lane < b.lane)

/-- The job of request `r` started in state `s`: the fields of its window slots, its profile, its lane's raster and the
line count of its channel, copied as they stand (R119, R130). -/
def State.startCopy (s : State) (r : RenderRequest) : Job :=
  { request := r
    fields := (r.recipe.primary :: r.recipe.others).map (s.chan r.channel).window.slot
    lineCount := (s.chan r.channel).config.standard.lines
    profile := s.profiles.get r.profile
    raster := (s.lane r.lane).config.raster }

/-- The pool of `t` is that of `s` without the requests and jobs that `gone` picks, each request that stays changed by
`moved`, and then served by the arbiter (R129, R130, R134). A request is in the pool exactly when it stayed. The jobs
that stayed are on their engines, as they were otherwise. A job on another engine is a queued request of `s` that
stayed, with the copies of its start, and no request left in the queue goes before it. While an engine is IDLE nothing
is queued. -/
def PoolAfter (s t : State) (gone : RenderRequest → Bool) (moved : RenderRequest → RenderRequest) : Prop :=
  (∀ q : RenderRequest, InPool t q ↔ ∃ r : RenderRequest, InPool s r ∧ gone r = false ∧ q = moved r) ∧
  t.queue.Sublist ((s.queue.filter fun r => !gone r).map moved) ∧
  (∀ (e : EngineId) (j : Job), s.engines.get e = some j → gone j.request = false →
    t.engines.get e = some { j with request := moved j.request }) ∧
  (∀ (e : EngineId) (j : Job), t.engines.get e = some j →
    (∀ i : Job, s.engines.get e = some i → gone i.request = true) →
    ∃ r : RenderRequest, r ∈ s.queue ∧ gone r = false ∧ j = s.startCopy (moved r) ∧
      ∀ q : RenderRequest, q ∈ t.queue → ¬Sooner q j.request) ∧
  ∀ e : EngineId, t.engines.get e = none → t.queue = []

/-- The requests of lane `l` that reach their deadline at its tick (R132). -/
def dueAt (l : LaneId) (r : RenderRequest) : Bool := r.lane == l && decide (r.distance ≤ 1)

/-- The requests an order of lane `l` names by a channel and a role (R134). Without a channel it names none. -/
def namedBy (l : LaneId) (n : Option Channel) (role : Role) (r : RenderRequest) : Bool :=
  r.lane == l && some r.channel == n && r.role == role

/-- Channel `n` has jobs in flight, and they are all among those that `gone` picks. -/
def State.LastJobs (s : State) (n : Channel) (gone : RenderRequest → Bool) : Prop :=
  s.inFlight n = true ∧
    ∀ (e : EngineId) (j : Job), s.engines.get e = some j → j.request.channel = n → gone j.request = true

/-- What cancelling the jobs that `gone` picks does to the states of the channels (R73, R134): a HALTING channel of which
no release waits becomes HALTED with its last job; every other channel keeps its state. -/
def HaltsOnCancel (s t : State) (gone : RenderRequest → Bool) : Prop :=
  ∀ n : Channel,
    ((s.chan n).state = .halting → (s.chan n).releaseWaits = false → s.LastJobs n gone →
      (t.chan n).state = .halted) ∧
    (¬((s.chan n).state = .halting ∧ (s.chan n).releaseWaits = false ∧ s.LastJobs n gone) →
      (t.chan n).state = (s.chan n).state)

/-- Channel `n` where a claim on it is released (R90, R149): its step open mark and its step tally are cleared, and
nothing else of it differs, but for the state of a HALTING channel that becomes HALTED. -/
def Released (s t : State) (n : Channel) : Prop :=
  t.chan n = { s.chan n with stepOpen := false, tally := 0, state := (t.chan n).state }

/-- The starved condition of lane `l` ends if the lane is SLATE/STARVED, and takes a marked member out of the latch; else
both stand (R178, R179). -/
def StarvedEnds (s t : State) (l : LaneId) : Prop :=
  t.attn.starvedCond.get l = (s.attn.starvedCond.get l && decide ((s.lane l).state ≠ .slateStarved)) ∧
  t.attn.starved.get l =
    if (s.lane l).state = .slateStarved ∧ (s.attn.starved.get l).mark = true then MarkedLatch.clear
    else s.attn.starved.get l

/-- The members of lane `l` in the attention unit are as they were. -/
def LaneLatchesKept (s t : State) (l : LaneId) : Prop :=
  t.attn.cue.get l = s.attn.cue.get l ∧ t.attn.starved.get l = s.attn.starved.get l ∧
    t.attn.starvedCond.get l = s.attn.starvedCond.get l

/-- What a tick of lane `l`, not IDLE, does to the channels it claimed (R90, R144). The claims are read after the take
check. A channel released by it is not judged. A channel that is not RUNNING is not judged. A RUNNING one judges its
step: with the step open mark clear the tick sets it; with it set, a tally of 0 counts and latches a NONE step and a
tally of 2 or more a DOUBLE step; the tally becomes 0.That the step counters stay at 65,535 is the model's choice (log
41). -/
def StepsJudged (s t : State) (l : LaneId) : Prop :=
  ∀ n : Channel, s.claims.get n = some l →
    (t.claims.get n ≠ some l → Released s t n ∧ t.attn.step.get n = s.attn.step.get n) ∧
    (t.claims.get n = some l → (s.chan n).state ≠ .running →
      t.chan n = { s.chan n with state := (t.chan n).state } ∧ t.attn.step.get n = s.attn.step.get n) ∧
    (t.claims.get n = some l → (s.chan n).state = .running →
      ((s.chan n).stepOpen = false ∨ (s.chan n).tally = 1 →
        t.chan n = { s.chan n with stepOpen := true, tally := 0 } ∧ t.attn.step.get n = s.attn.step.get n) ∧
      ((s.chan n).stepOpen = true → (s.chan n).tally = 0 →
        t.chan n = { s.chan n with noneSteps := bump (s.chan n).noneSteps 1 } ∧
        t.attn.step.get n = { s.attn.step.get n with none := true }) ∧
      ((s.chan n).stepOpen = true → 2 ≤ (s.chan n).tally →
        t.chan n = { s.chan n with tally := 0, doubleSteps := bump (s.chan n).doubleSteps 1 } ∧
        t.attn.step.get n = { s.attn.step.get n with double := true }))

/-- The late and cancelled counters of lane `l` at a tick that takes a cue to another channel or to SLATE: the requests
and jobs that reach their deadline are counted, but for those that the take's own order has cancelled (R132, R134,
R155, R156). -/
def CountsAtTake (s t : State) (l : LaneId) : Prop :=
  (t.lane l).counters.late = bump (s.lane l).counters.late
    (s.queue.countP fun r => dueAt l r && !namedBy l (s.lane l).source .program r) ∧
  (t.lane l).counters.cancelled = bump (s.lane l).counters.cancelled
    (s.engines.toList.countP fun o => o.any fun j =>
      dueAt l j.request && !namedBy l (s.lane l).source .program j.request)

/-- The requests and jobs of other channels than `n` are in the pool as they were, the jobs on their engines; jobs of `n`
go on too unless a cancel order of it is on its way (R133). -/
def OthersInPool (s t : State) (n : Channel) : Prop :=
  (∀ q : RenderRequest, q.channel ≠ n → (InPool t q ↔ InPool s q)) ∧
  ∀ (e : EngineId) (j : Job), s.engines.get e = some j →
    j.request.channel ≠ n ∨ (s.chan n).cancelOrder = false → t.engines.get e = some j

/-- What a piece with LAST comes to, its staged bytes and its overflow mark being given (R166, R167): the request they
spell is launched; with the mark set, or where they spell none, BAD_REQUEST is written with REQUEST attention. -/
def LastJudged (s t : State) (staged : List Byte) (overflowed : Bool) : Prop :=
  (overflowed = false → ∀ r : Instr, decodeBody staged = some r →
    t = { s with link := { s.link with
      staging := []
      overflow := false
      flight := .launched r
      lastResult := { code := .noRequest, bytes := [] }
      acks := t.link.acks
      transaction := t.link.transaction } }) ∧
  (overflowed = true ∨ decodeBody staged = none →
    t = { s with
      attn := { s.attn with request := true }
      link := { s.link with
        staging := []
        overflow := false
        lastResult := { code := .badRequest, bytes := [] }
        acks := t.link.acks
        transaction := t.link.transaction } })

/-- The checked piece that `s` receives comes to CHECK_FAIL, with REQUEST attention (R164, R167). -/
def CheckFails (s t : State) : Prop :=
  t = { s with
    attn := { s.attn with request := true }
    link := { s.link with
      staging := []
      overflow := false
      lastResult := { code := .checkFail, bytes := [] }
      acks := t.link.acks
      transaction := t.link.transaction } }

/-! ## The records of results, item by item at their offsets (10; absent items are sent as 0, R185) -/

/-- The three bytes of a directives record. -/
def DirectivesAre (v : BitVec 24) (d : Directives) : Prop :=
  v.getLsbD 23 = decide (d.dominance = .lowerFirst) ∧
  v.extractLsb' 21 2 = (match d.cadence with | .auto => 0 | .video => 1 | .film22 => 2 | .film32 => 3) ∧
  v.getLsbD 20 = d.phase.isSome ∧
  v.extractLsb' 18 2 = (match d.method with | .motion => 0 | .lineDouble => 1 | .blend => 2) ∧
  v.getLsbD 17 = d.repair ∧ v.getLsbD 16 = d.mask.isSome ∧
  (v.extractLsb' 12 4).toNat = (d.phase.map Fin.val).getD 0 ∧ (v.extractLsb' 8 4).toNat = d.profile.val ∧
  (v.extractLsb' 4 4).toNat = (d.mask.map fun m => m.top.val).getD 0 ∧
  (v.extractLsb' 0 4).toNat = (d.mask.map fun m => m.bottom.val).getD 0

/-- The entry record of an entry that is not FREE. -/
def EntryRecordIs (e : Entry) (b : List Byte) : Prop :=
  b.length = 20 ∧
  byteAt b 0 = (match e.state with | .free => 0 | .active => 1 | .provisional => 2 | .retiring => 3) ∧
  byteAt b 1 = e.gen ∧ word32At b 2 = e.key ∧ word24At b 6 = e.first ∧ word24At b 9 = e.last ∧
  (byteAt b 12).getLsbD 7 = decide (e.origin = .monitor) ∧ (byteAt b 12).getLsbD 6 = e.owner.isSome ∧
  (byteAt b 12).getLsbD 5 = decide (e.charge ≠ .shared) ∧ (byteAt b 12).getLsbD 4 = e.parent.isSome ∧
  (byteAt b 12).getLsbD 3 = false ∧ ((byteAt b 12).extractLsb' 0 3).toNat = (e.owner.map Fin.val).getD 0 ∧
  byteAt b 13 = BitVec.ofNat 8 e.useCount ∧ DirectivesAre (word24At b 14) e.directives ∧
  (word16At b 17).toNat = (e.parent.map fun p => p.1.val).getD 0 ∧ byteAt b 19 = (e.parent.map Prod.snd).getD 0

/-- The field number of a window slot, 0 where it is absent. -/
def slotNumber (x : Option WindowField) : FieldNum := (x.map fun f => f.field.number).getD 0

/-- Offsets 27 to 29 of a CHANNEL_READ result for a detector that has a mode and an alignment (R96, R102). -/
def DetectorIs (b : List Byte) (newer : Option WindowField) (detector : Byte) (mode : Film) (align : Nat) : Prop :=
  byteAt b 27 = detector ∧ byteAt b 28 = (match mode with | .film22 => 2 | .film32 => 3) ∧
  (newer = none → byteAt b 29 = 0xFF) ∧
  ∀ f : WindowField, newer = some f → (byteAt b 29).toNat = (align + f.field.number.toNat) % mode.cycle

/-- The result of CHANNEL_READ. -/
def ChannelReadIs (c : Chan) (b : List Byte) : Prop :=
  b.length = 66 ∧
  byteAt b 0 = (match c.state with | .halted => 0 | .seeking => 1 | .running => 2 | .halting => 3 | .detached => 4) ∧
  byteAt b 1 = (match c.level with | .normal => 0 | .caution => 1 | .degraded => 2) ∧
  byteAt b 2 = BitVec.ofNat 8 c.port.faultCount ∧ byteAt b 3 = BitVec.ofNat 8 c.port.lockCount ∧
  byteAt b 4 = BitVec.ofNat 8 c.port.rejoinCount ∧
  byteAt b 5 = 0#6 ++ BitVec.ofBool c.relatch ++ BitVec.ofBool c.currentEntry.isSome ∧
  (word16At b 6).toNat = (c.currentEntry.map Fin.val).getD 0 ∧ byteAt b 8 = c.latchedGen.getD 0 ∧
  (c.window.current = none → byteAt b 9 = 0 ∧ word32At b 10 = 0 ∧ word24At b 14 = 0) ∧
  (∀ (f : WindowField) (d : Directives), c.window.current = some f → f.set = .default d →
    byteAt b 9 = 1 ∧ word32At b 10 = 0 ∧ DirectivesAre (word24At b 14) d) ∧
  (∀ (f : WindowField) (h : Handle) (g : Gen) (st : LiveState) (first : FieldNum) (d : Directives),
    c.window.current = some f → f.set = .entry h g st first d →
    byteAt b 9 = 2 ∧ (word16At b 10).toNat = h.val ∧ byteAt b 12 = g ∧
    byteAt b 13 = (match st with | .active => 1 | .provisional => 2) ∧ DirectivesAre (word24At b 14) d) ∧
  byteAt b 17 = 0#5 ++ BitVec.ofBool c.window.newer.isSome ++ BitVec.ofBool c.window.current.isSome
    ++ BitVec.ofBool c.window.older.isSome ∧
  word24At b 18 = slotNumber c.window.older ∧ word24At b 21 = slotNumber c.window.current ∧
  word24At b 24 = slotNumber c.window.newer ∧
  (c.monitor.detector = .searching → byteAt b 27 = 0 ∧ byteAt b 28 = 0 ∧ byteAt b 29 = 0xFF) ∧
  (∀ (mode : Film) (align count : Nat) (start : FieldRecord), c.monitor.detector = .candidate mode align count start →
    DetectorIs b c.window.newer 1 mode align) ∧
  (∀ (mode : Film) (align misses : Nat) (miss : Option FieldRecord),
    c.monitor.detector = .locked mode align misses miss → DetectorIs b c.window.newer 2 mode align) ∧
  byteAt b 30 = (match c.monitor.settled with | .none => 0 | .video => 1 | .film .film22 _ => 2 | .film .film32 _ => 3) ∧
  byteAt b 31 = (match c.monitor.settled with | .none => 0 | .video => 0 | .film _ align => BitVec.ofNat 8 align) ∧
  (List.range 11).map (fun k => word16At b (32 + 2 * k)) =
    [c.port.counters.taken, c.port.counters.headerFaults, c.port.counters.mismatches, c.port.counters.rejected,
      c.port.counters.damaged, c.port.counters.overruns, c.port.counters.missing, c.port.counters.discontinuities,
      c.port.counters.slips, c.port.counters.silenceTimeouts, c.port.counters.detachments].map (BitVec.ofNat 16) ∧
  (List.range 6).map (fun k => word16At b (54 + 2 * k)) =
    [c.noneSteps, c.doubleSteps, c.monitorCounters.proposals, c.monitorCounters.suppressed,
      c.monitorCounters.abandoned, c.monitorCounters.disagreements].map (BitVec.ofNat 16)

/-- The result of LANE_READ. The number of a NEXT_TICK cue as 0 is the model's inference (log 24). -/
def LaneReadIs (x : Lane) (b : List Byte) : Prop :=
  b.length = 13 + 6 * x.cues.length ∧
  byteAt b 0 = (match x.state with | .idle => 0 | .slateNoProgram => 1 | .slateStarved => 2 | .program => 3) ∧
  byteAt b 1 = (match x.source with | some n => BitVec.ofNat 8 n.val | none => 0xFF) ∧
  byteAt b 2 = BitVec.ofNat 8 x.holdCount ∧ byteAt b 3 = x.cueCounter ∧
  byteAt b 4 = BitVec.ofNat 8 x.cues.length ∧
  (∀ (i : Nat) (c : Cue), x.cues[i]? = some c →
    byteAt b (5 + 6 * i) = c.number ∧
    byteAt b (6 + 6 * i) = (match c.target with | some n => BitVec.ofNat 8 n.val | none => 8) ∧
    (c.trigger = .nextTick → byteAt b (7 + 6 * i) = 0 ∧ word24At b (8 + 6 * i) = 0) ∧
    ∀ number : FieldNum, c.trigger = .atField number →
      byteAt b (7 + 6 * i) = 1 ∧ word24At b (8 + 6 * i) = number) ∧
  (List.range 4).map (fun k => word16At b (5 + 6 * x.cues.length + 2 * k)) =
    [x.counters.emitted, x.counters.held, x.counters.late, x.counters.cancelled].map (BitVec.ofNat 16)

/-- The result of ATTN_READ. -/
def AttnReadIs (a : Attn) (b : List Byte) : Prop :=
  b.length = 36 ∧
  ((byteAt b 0).getLsbD 0 = true ↔ ∃ n : Channel, (a.port.get n).levelChange = true ∨ (a.port.get n).lockLost = true ∨
    (a.port.get n).lockGained = true ∨ (a.port.get n).detached = true) ∧
  ((byteAt b 0).getLsbD 1 = true ↔ ∃ l : LaneId, (a.starved.get l).set = true) ∧
  (byteAt b 0).getLsbD 2 = a.tableLow.set ∧
  ((byteAt b 0).getLsbD 3 = true ↔ ∃ n : Channel, a.proposal.get n = true) ∧
  ((byteAt b 0).getLsbD 4 = true ↔ ∃ l : LaneId, (a.cue.get l).taken = true ∨ (a.cue.get l).aborted = true) ∧
  ((byteAt b 0).getLsbD 5 = true ↔ ∃ n : Channel, (a.step.get n).none = true ∨ (a.step.get n).double = true) ∧
  (byteAt b 0).getLsbD 6 = a.request ∧ (byteAt b 0).getLsbD 7 = false ∧
  byteAt b 1 = 0#1 ++ a.enables ∧
  byteAt b 2 = 0#3 ++ BitVec.ofBool (decide (a.tableLowMode = .level)) ++ 0#1
    ++ BitVec.ofBool (decide (a.starvedMode = .level)) ++ 0#1 ++ BitVec.ofBool (decide (a.portMode = .level)) ∧
  word16At b 3 = BitVec.ofNat 16 a.threshold ∧ word16At b 5 = BitVec.ofNat 16 a.lastSharedFree ∧
  (∀ n : Channel, (byteAt b 7).getLsbD n.val = a.detachedCond.get n) ∧
  (∀ l : LaneId, (byteAt b 8).getLsbD l.val = a.starvedCond.get l) ∧
  (byteAt b 8).extractLsb' 4 3 = 0 ∧ (byteAt b 8).getLsbD 7 = a.tableLowCond ∧
  (∀ k : Fin 7, (byteAt b 0).getLsbD k.val = true → a.enables.getLsbD k.val = true →
    (∀ j : Fin 7, j < k → (byteAt b 0).getLsbD j.val = false ∨ a.enables.getLsbD j.val = false) →
    byteAt b 9 = BitVec.ofNat 8 k.val) ∧
  ((∀ k : Fin 7, (byteAt b 0).getLsbD k.val = false ∨ a.enables.getLsbD k.val = false) → byteAt b 9 = 0xFF) ∧
  (∀ n : Channel, byteAt b (10 + n.val) = BitVec.ofBool (a.port.get n).mark ++ 0#3
    ++ BitVec.ofBool (a.port.get n).detached ++ BitVec.ofBool (a.port.get n).lockGained
    ++ BitVec.ofBool (a.port.get n).lockLost ++ BitVec.ofBool (a.port.get n).levelChange) ∧
  (∀ n : Channel, (byteAt b 18).getLsbD n.val = a.proposal.get n) ∧
  (∀ n : Channel, byteAt b (19 + n.val) =
    0#6 ++ BitVec.ofBool (a.step.get n).double ++ BitVec.ofBool (a.step.get n).none) ∧
  (∀ l : LaneId, byteAt b (27 + l.val) =
    BitVec.ofBool (a.starved.get l).mark ++ 0#6 ++ BitVec.ofBool (a.starved.get l).set) ∧
  (∀ l : LaneId, byteAt b (31 + l.val) =
    0#6 ++ BitVec.ofBool (a.cue.get l).aborted ++ BitVec.ofBool (a.cue.get l).taken) ∧
  byteAt b 35 = BitVec.ofBool a.tableLow.mark ++ 0#7

end Sys2Proof.Machine

open Sys2Proof Sys2Proof.Machine

/-! ## Step and resets -/

/-- A step is the front command's meaning on the state with the rest of the queue. On an empty queue the block idles:
the model's choice (log 5). -/
def Obligations.StepTakesFrontCommand : Prop :=
  (∀ (s : State) (c : Instr) (rest : List Instr), s.pending = c :: rest →
    step s = exec c { s with pending := rest }) ∧
    ∀ s : State, s.pending = [] → step s = .next s

/-- A pin reset leaves ports, channels, monitors, the table, the profiles, the pool, the lanes, the snapshot store, the
link and the attention unit at the listed values, and samples the straps as the last three address bits (R22, R47, R93,
R117, R127, R135, R159, R174, R183). -/
def Obligations.PinResetLeavesResetValues : Prop :=
  ∀ (k : BitVec 3) (s : State), ∃ t : State, exec (.pinReset k) s = .next t ∧
    (∀ n : Channel, (t.chan n).state = .halted ∧ (t.chan n).window = Window.empty ∧ (t.chan n).currentEntry = none
      ∧ (t.chan n).latchedGen = none ∧ (t.chan n).relatch = false ∧ (t.chan n).tally = 0
      ∧ (t.chan n).stepOpen = false ∧ (t.chan n).noneSteps = 0 ∧ (t.chan n).doubleSteps = 0
      ∧ (t.chan n).sequencerClaim = none ∧ (t.chan n).proposalClaim = none
      ∧ t.queued n = false ∧ t.inFlight n = false ∧ t.claims.get n = none) ∧
    (∀ n : Channel, (t.chan n).port.faultCount = 0 ∧ (t.chan n).level = .normal ∧ (t.chan n).port.lockCount = 0
      ∧ (t.chan n).port.rejoinCount = 0 ∧ (t.chan n).port.previous = none ∧ (t.chan n).port.slot = none
      ∧ (t.chan n).port.silence = .stopped ∧ (t.chan n).port.counters = PortCounters.zero) ∧
    (∀ n : Channel, (t.chan n).config.standard = .std625 ∧ (t.chan n).config.quota = 0
      ∧ (t.chan n).config.repeatThreshold = 64 ∧ (t.chan n).config.pairedThreshold = 256
      ∧ (t.chan n).config.autoRejoin = false
      ∧ (t.chan n).config.default = { dominance := .upperFirst, cadence := .auto, phase := none, method := .motion,
                                      repair := false, profile := 0, mask := none }
      ∧ ∀ i : Fin 4, ((t.chan n).config.matchers.get i).enabled = false
          ∧ ((t.chan n).config.matchers.get i).aliasKey = none) ∧
    (∀ n : Channel, (t.chan n).monitor.history = [] ∧ (t.chan n).monitor.detector = .searching
      ∧ (t.chan n).monitor.settled = .none ∧ (t.chan n).monitor.pending = none ∧ (t.chan n).monitor.unlockedRun = 0
      ∧ (t.chan n).monitorCounters = MonitorCounters.zero) ∧
    (∀ h : Handle, (t.entry h).state = .free ∧ (t.entry h).gen = 0 ∧ (t.entry h).useCount = 0) ∧
    t.freeCount = 1024 ∧ t.outstanding = 0 ∧ t.sharedFree = 1024 ∧
    (∀ i : ProfileIdx, t.profiles.get i = { aspect := .pillarbox, kernel := .taps6, detail := 2, verticalTrim := 0,
                                            horizontalTrim := 0, pillar := { y := 16, cb := 128, cr := 128 } }) ∧
    t.queue = [] ∧ (∀ e : EngineId, t.engines.get e = none) ∧ t.store = { snapshot := none, waiting := none } ∧
    (∀ l : LaneId, (t.lane l).state = .idle ∧ (t.lane l).sampledSlate = none ∧ (t.lane l).source = none
      ∧ (t.lane l).lastFrame = none ∧ (t.lane l).holdCount = 0 ∧ (t.lane l).programFrames = Ready.empty
      ∧ (t.lane l).armedFrames = Ready.empty ∧ (t.lane l).cues = [] ∧ (t.lane l).cueCounter = 0
      ∧ (t.lane l).counters = LaneCounters.zero
      ∧ (t.lane l).config =
          { enabled := false, raster := .r1920x1080, rate := .r50, holdLimit := 25, slate := .bars 8 240 }) ∧
    t.link.address = 0b0111#4 ++ k ∧ t.link.staging = [] ∧ t.link.overflow = false ∧ t.link.flight = .idle ∧
    t.link.lastResult = { code := .noRequest, bytes := [] } ∧ t.link.transaction = none ∧
    t.attn.setSources = 0 ∧ t.attn.enables = 0 ∧ t.attn.line = false ∧ t.attn.portMode = .edge ∧
    t.attn.starvedMode = .edge ∧ t.attn.tableLowMode = .edge ∧ t.attn.threshold = 0 ∧
    t.attn.lastSharedFree = 1024 ∧ t.attn.tableLowCond = false ∧ t.attn.tableLow.mark = false ∧
    (∀ n : Channel, (t.attn.port.get n).mark = false ∧ t.attn.detachedCond.get n = false) ∧
    ∀ l : LaneId, (t.attn.starved.get l).mark = false ∧ t.attn.starvedCond.get l = false

/-! ## Ingest ports -/

/-- A matcher matches by its code where its mask holds 0, and the lowest-numbered match is the hit (R5, R6). -/
def Obligations.MatcherHitsByMaskedCode : Prop :=
  (∀ (m : Matcher) (tag : Key), m.hits tag = true ↔
    m.enabled = true ∧ ∀ i : Nat, i < 32 → m.mask.getLsbD i = false → tag.getLsbD i = m.code.getLsbD i) ∧
    (∀ (c : ChannelConfig) (tag : Key) (i : Fin 4), (c.matchers.get i).hits tag = true →
      (∀ j : Fin 4, j < i → (c.matchers.get j).hits tag = false) →
      c.lookupKey tag = some ((c.matchers.get i).aliasKey.getD tag)) ∧
    ∀ (c : ChannelConfig) (tag : Key), (∀ i : Fin 4, (c.matchers.get i).hits tag = false) → c.lookupKey tag = none

/-- A header that passes its checks: with a matcher hit the port reads the packet under the lookup key; without one
the packet is rejected and counted, its lines and check word are skipped before the next search, and in SEEKING and
DETACHED the run ends. While the port reads a packet's lines no header is looked for. In HALTED and HALTING headers and
packets change nothing. That a command's bytes reach from the port's last completion to the header's is the model's
choice (log 32; R1, R3, R6, R184). -/
def Obligations.HeaderCompletionAcceptsOrRejects : Prop :=
  (∀ (s : State) (n : Channel) (received : List Byte) (h : HeaderBytes),
    (s.chan n).state.judges = true → HeaderArrives s n received h → crc16 h.bytes = h.check → h.standard = (s.chan n).config.standard.code →
    h.lineCount = (s.chan n).config.standard.lines →
    (∀ key : Key, (s.chan n).config.lookupKey h.tag = some key →
      exec (.headerCompletion n received) s = .next (s.modPort n fun p =>
        { p with receiver := .reading { number := h.number, parity := h.parity, key := key,
                                        lineCount := h.lineCount } })) ∧
    ((s.chan n).config.lookupKey h.tag = none →
      exec (.headerCompletion n received) s = .next (s.modPort n fun p =>
        { p with
          receiver := .skipping h.lineCount
          counters := { p.counters with rejected := bump p.counters.rejected 1 }
          lockCount := if (s.chan n).state = .seeking then 0 else p.lockCount
          rejoinCount := if (s.chan n).state = .detached then 0 else p.rejoinCount
          previous := if (s.chan n).state = .running then p.previous else none }))) ∧
    (∀ (s : State) (n : Channel) (received : List Byte) (p : PacketHeader), (s.chan n).port.receiver = .reading p →
      exec (.headerCompletion n received) s = .next s) ∧
    ∀ (s : State) (n : Channel) (received lines check : List Byte),
      (s.chan n).state = .halted ∨ (s.chan n).state = .halting →
      exec (.headerCompletion n received) s = .next s ∧ exec (.packetCompletion n lines check) s = .next s

/-- A header check failure or a standard mismatch is counted. In RUNNING it adds 8 to the fault count, as long as that
does not pass 255; in SEEKING and DETACHED it ends the run (R2, R3, R7, R13, R14, R17). -/
def Obligations.HeaderFaultAddsEight : Prop :=
  (∀ (s : State) (n : Channel) (received : List Byte) (h : HeaderBytes),
    (s.chan n).state = .running → HeaderArrives s n received h → (s.chan n).port.faultCount + 8 ≤ 255 →
    (crc16 h.bytes ≠ h.check →
      ∃ t : State, exec (.headerCompletion n received) s = .next t ∧ OnlyChannel s t n ∧
        t.chan n = { s.chan n with
          port := { (s.chan n).port with
            receiver := .searching
            faultCount := (s.chan n).port.faultCount + 8
            counters := { (s.chan n).port.counters with
              headerFaults := bump (s.chan n).port.counters.headerFaults 1 } } } ∧
        t.attn = levelNews s.attn n (s.chan n).port.faultCount ((s.chan n).port.faultCount + 8)) ∧
    (crc16 h.bytes = h.check →
      h.standard ≠ (s.chan n).config.standard.code ∨ h.lineCount ≠ (s.chan n).config.standard.lines →
      ∃ t : State, exec (.headerCompletion n received) s = .next t ∧ OnlyChannel s t n ∧
        t.chan n = { s.chan n with
          port := { (s.chan n).port with
            receiver := .skipping h.lineCount
            faultCount := (s.chan n).port.faultCount + 8
            counters := { (s.chan n).port.counters with
              mismatches := bump (s.chan n).port.counters.mismatches 1 } } } ∧
        t.attn = levelNews s.attn n (s.chan n).port.faultCount ((s.chan n).port.faultCount + 8))) ∧
    ∀ (s : State) (n : Channel) (received : List Byte) (h : HeaderBytes),
      (s.chan n).state = .seeking ∨ (s.chan n).state = .detached →
      HeaderArrives s n received h →
      (crc16 h.bytes ≠ h.check →
        exec (.headerCompletion n received) s = .next (s.modPort n fun p =>
          { p with
            receiver := .searching
            lockCount := if (s.chan n).state = .seeking then 0 else p.lockCount
            rejoinCount := if (s.chan n).state = .detached then 0 else p.rejoinCount
            previous := none
            counters := { p.counters with headerFaults := bump p.counters.headerFaults 1 } })) ∧
      (crc16 h.bytes = h.check →
        h.standard ≠ (s.chan n).config.standard.code ∨ h.lineCount ≠ (s.chan n).config.standard.lines →
        exec (.headerCompletion n received) s = .next (s.modPort n fun p =>
          { p with
            receiver := .skipping h.lineCount
            lockCount := if (s.chan n).state = .seeking then 0 else p.lockCount
            rejoinCount := if (s.chan n).state = .detached then 0 else p.rejoinCount
            previous := none
            counters := { p.counters with mismatches := bump p.counters.mismatches 1 } }))

/-- A header fault or a damaged field that would carry the fault count past 255 detaches a channel of which no earlier
release still waits: at once when it has no current entry, with a release claim that carries the sequencer's effects when
it has one. The DETACHED condition begins and the cause DETACHED is latched, with nothing else of the attention unit
changed: the level was DEGRADED and stays so. The row is that port event, whole: the model's choice (log 8; R13 to R15,
R44, R72, R176, R178). -/
def Obligations.DetachmentPastLimit : Prop :=
  ∀ (s : State) (n : Channel) (event : PortEvent), (s.chan n).state = .running →
    (match event with
      | .header received => ∃ h : HeaderBytes, HeaderArrives s n received h ∧ (crc16 h.bytes ≠ h.check ∨
          h.standard ≠ (s.chan n).config.standard.code ∨ h.lineCount ≠ (s.chan n).config.standard.lines)
      | .packet lines check => ∃ (p : PacketHeader) (w : BitVec 16), (s.chan n).port.receiver = .reading p ∧
          lines.length = 1440 * p.lineCount ∧ check = bytes16 w ∧ crc16 lines ≠ w) →
    255 < (s.chan n).port.faultCount + 8 → (s.chan n).releaseWaits = false →
    ∃ t : State, exec (.detachment n event) s = .next t ∧
      exec (match event with
        | .header received => .headerCompletion n received
        | .packet lines check => .packetCompletion n lines check) s = .next t ∧ OnlyChannel s t n ∧
      (t.chan n).state = .detached ∧ (t.chan n).config = (s.chan n).config ∧
      (t.chan n).port.faultCount = 255 ∧ (t.chan n).port.slot = none ∧ (t.chan n).port.silence = .stopped ∧
      (t.chan n).port.rejoinCount = 0 ∧ (t.chan n).port.previous = none ∧
      (t.chan n).port.counters.detachments = bump (s.chan n).port.counters.detachments 1 ∧
      t.attn = { s.attn with
        port := setAt s.attn.port n { s.attn.port.get n with detached := true, mark := false }
        detachedCond := setAt s.attn.detachedCond n true } ∧
      ((s.chan n).currentEntry = none →
        (t.chan n).window = Window.empty ∧ (t.chan n).monitor = Monitor.reset ∧ (t.chan n).withdrawOrder = true ∧
        (t.chan n).tally = 0 ∧ (t.chan n).stepOpen = false ∧ (t.chan n).relatch = false) ∧
      ∀ e : Handle, (s.chan n).currentEntry = some e →
        (t.chan n).sequencerClaim = some (.release true) ∧ (t.chan n).currentEntry = some e ∧
        (t.chan n).window = (s.chan n).window ∧ (t.chan n).monitor = (s.chan n).monitor

/-- In RUNNING a completed packet, exactly the announced lines and the body check word, is judged against the NEWER
field and taken into the arrival slot, damaged or clean, with the fault count up by 8 or down by 1; a damaged field that
would detach is left to DetachmentPastLimit's rule. Another number of bytes completes no packet and changes nothing, as
the model reads R1 (log 32; R1, R4, R9, R10, R11, R13, R184). -/
def Obligations.PacketCompletionTakesField : Prop :=
  (∀ (s : State) (n : Channel) (lines check : List Byte) (h : PacketHeader), (s.chan n).port.receiver = .reading h →
    lines.length ≠ 1440 * h.lineCount ∨ check.length ≠ 2 → exec (.packetCompletion n lines check) s = .next s) ∧
  ∀ (s : State) (n : Channel) (lines : List Byte) (check : BitVec 16) (h : PacketHeader) (damaged : Bool)
    (faults : Nat),
    (s.chan n).state = .running → (s.chan n).port.receiver = .reading h → lines.length = 1440 * h.lineCount →
    damaged = (crc16 lines != check) →
    (damaged = true → (s.chan n).port.faultCount + 8 ≤ 255 ∧ faults = (s.chan n).port.faultCount + 8) →
    (damaged = false → faults = (s.chan n).port.faultCount - 1) →
    ∃ (t : State) (cls : FieldClass) (slip : Bool),
      exec (.packetCompletion n lines (bytes16 check)) s = .next t ∧ OnlyChannel s t n ∧
      t.attn = levelNews s.attn n (s.chan n).port.faultCount faults ∧
      t.chan n = { s.chan n with port := (t.chan n).port } ∧
      (t.chan n).port.faultCount = faults ∧ (t.chan n).port.receiver = .searching ∧
      (t.chan n).port.slot = some { cls := cls, field :=
        { number := h.number, parity := h.parity, key := h.key, damaged := damaged, slip := slip, lines := lines } } ∧
      (t.chan n).port.counters.taken = bump (s.chan n).port.counters.taken 1 ∧
      (t.chan n).port.counters.damaged = bump (s.chan n).port.counters.damaged (if damaged then 1 else 0) ∧
      (t.chan n).port.counters.overruns =
        bump (s.chan n).port.counters.overruns (if (s.chan n).port.slot.isSome then 1 else 0) ∧
      (t.chan n).port.counters.slips = bump (s.chan n).port.counters.slips (if slip then 1 else 0) ∧
      ((s.chan n).window.newer = none → cls = .start ∧ slip = false) ∧
      ∀ r : WindowField, (s.chan n).window.newer = some r →
        (r.field.key = h.key ∧ h.number.toNat = r.field.number.toNat + 1 →
          cls = .next ∧ slip = decide (r.field.parity = h.parity)) ∧
        (r.field.key = h.key ∧ r.field.number.toNat + 2 ≤ h.number.toNat ∧
            h.number.toNat ≤ r.field.number.toNat + 8 →
          cls = .gap ∧ slip = false ∧ (t.chan n).port.counters.missing =
            bump (s.chan n).port.counters.missing (h.number.toNat - r.field.number.toNat - 1)) ∧
        (r.field.key ≠ h.key ∨ h.number.toNat ≤ r.field.number.toNat ∨ r.field.number.toNat + 8 < h.number.toNat →
          cls = .discontinuity ∧ slip = false ∧ (t.chan n).port.counters.discontinuities =
            bump (s.chan n).port.counters.discontinuities 1)

/-- The packet that brings the lock count to 4 starts RUNNING with its field as START, clean or damaged; any other
completed packet in SEEKING moves the lock count and the previous field. That both rows run the whole event is the
model's choice (log 8; R4, R7, R8). -/
def Obligations.LockGainedStartsRunning : Prop :=
  (∀ (s : State) (n : Channel) (lines : List Byte) (check : BitVec 16) (h : PacketHeader) (p : FieldNum),
    (s.chan n).state = .seeking → (s.chan n).port.receiver = .reading h → lines.length = 1440 * h.lineCount →
    (s.chan n).port.lockCount = 3 → (s.chan n).port.previous = some p → h.number.toNat = p.toNat + 1 →
    ∃ t : State, exec (.lockGained n lines (bytes16 check)) s = .next t ∧
      exec (.packetCompletion n lines (bytes16 check)) s = .next t ∧
      OnlyChannel s t n ∧ t.attn = s.attn.latchPort n .lockGained ∧
      t.chan n = { s.chan n with
        state := .running
        port := { (s.chan n).port with
          lockCount := 0
          previous := none
          silence := .running
          receiver := .searching
          slot := some { cls := .start, field :=
            { number := h.number, parity := h.parity, key := h.key, damaged := crc16 lines != check, slip := false,
              lines := lines } }
          counters := { (s.chan n).port.counters with
            taken := bump (s.chan n).port.counters.taken 1
            damaged := bump (s.chan n).port.counters.damaged (if crc16 lines != check then 1 else 0) } } }) ∧
    ∀ (s : State) (n : Channel) (lines : List Byte) (check : BitVec 16) (h : PacketHeader) (count : Nat),
      (s.chan n).state = .seeking → (s.chan n).port.receiver = .reading h → lines.length = 1440 * h.lineCount →
      (∀ p : FieldNum, (s.chan n).port.previous = some p → h.number.toNat = p.toNat + 1 →
        count = (s.chan n).port.lockCount + 1) →
      ((∀ p : FieldNum, (s.chan n).port.previous = some p → h.number.toNat ≠ p.toNat + 1) → count = 1) → count < 4 →
      exec (.packetCompletion n lines (bytes16 check)) s = .next (s.modPort n fun p =>
        { p with
          receiver := .searching
          lockCount := count
          previous := some h.number
          counters := { p.counters with
            damaged := bump p.counters.damaged (if crc16 lines != check then 1 else 0) } })

/-- The clean packet that brings the rejoin count to 64 with auto-rejoin set moves the channel to SEEKING: its DETACHED
condition ends and the level change is latched; its window and current entry are as they were, none already, or, where
a release still waits, standing till its taking (the model's choice, log 44). Without auto-rejoin, or below 64, a clean
packet in DETACHED moves the rejoin count and the previous field, and a damaged one ends the run. That both rows run
the whole event is the model's choice (log 8; R4, R17, R18, R19, R178). -/
def Obligations.AutoRejoinSeeksLock : Prop :=
  (∀ (s : State) (n : Channel) (lines : List Byte) (check : BitVec 16) (h : PacketHeader) (p : FieldNum),
    (s.chan n).state = .detached → (s.chan n).port.receiver = .reading h → lines.length = 1440 * h.lineCount →
    crc16 lines = check →
    (s.chan n).config.autoRejoin = true → (s.chan n).port.rejoinCount = 63 → (s.chan n).port.previous = some p →
    h.number.toNat = p.toNat + 1 → (s.chan n).port.faultCount = 255 →
    ∃ t : State, exec (.autoRejoin n lines (bytes16 check)) s = .next t ∧
      exec (.packetCompletion n lines (bytes16 check)) s = .next t ∧
      OnlyChannel s t n ∧ t.attn = (s.attn.endDetached n).latchPort n .levelChange ∧
      t.chan n = { s.chan n with state := .seeking, port := (t.chan n).port, monitor := Monitor.reset } ∧
      (t.chan n).port.faultCount = 0 ∧ (t.chan n).port.lockCount = 0 ∧
      (t.chan n).port.previous = none ∧ (t.chan n).port.slot = none ∧ (t.chan n).port.silence = .stopped ∧
      (t.chan n).port.receiver = .searching ∧ (t.chan n).port.counters = (s.chan n).port.counters) ∧
    ∀ (s : State) (n : Channel) (lines : List Byte) (check : BitVec 16) (h : PacketHeader),
      (s.chan n).state = .detached → (s.chan n).port.receiver = .reading h → lines.length = 1440 * h.lineCount →
      (crc16 lines ≠ check →
        exec (.packetCompletion n lines (bytes16 check)) s = .next (s.modPort n fun p =>
          { p with
            receiver := .searching
            rejoinCount := 0
            previous := none
            counters := { p.counters with damaged := bump p.counters.damaged 1 } })) ∧
      ∀ count : Nat, crc16 lines = check →
        (∀ p : FieldNum, (s.chan n).port.previous = some p → h.number.toNat = p.toNat + 1 →
          count = min 64 ((s.chan n).port.rejoinCount + 1)) →
        ((∀ p : FieldNum, (s.chan n).port.previous = some p → h.number.toNat ≠ p.toNat + 1) → count = 1) →
        count < 64 ∨ (s.chan n).config.autoRejoin = false →
        exec (.packetCompletion n lines (bytes16 check)) s = .next (s.modPort n fun p =>
          { p with receiver := .searching, rejoinCount := count, previous := some h.number })

/-- A silence timeout returns a channel of which no earlier release still waits to SEEKING with lock lost: at once
without a current entry, with a release claim when it has one (R16, R19, R44, R72). -/
def Obligations.SilenceTimeoutReturnsToSeeking : Prop :=
  ∀ (s : State) (n : Channel), (s.chan n).state = .running → (s.chan n).port.silence = .running →
    (s.chan n).releaseWaits = false →
    ∃ t : State, exec (.silenceTimeout n) s = .next t ∧ OnlyChannel s t n ∧
      t.attn = s.attn.latchPort n .lockLost ∧ (t.chan n).state = .seeking ∧
      (t.chan n).port = { (s.chan n).port with
        lockCount := 0
        previous := none
        receiver := .searching
        slot := none
        silence := .stopped
        counters := { (s.chan n).port.counters with
          silenceTimeouts := bump (s.chan n).port.counters.silenceTimeouts 1 } } ∧
      ((s.chan n).currentEntry = none →
        (t.chan n).window = Window.empty ∧ (t.chan n).monitor = Monitor.reset ∧ (t.chan n).withdrawOrder = true ∧
        (t.chan n).tally = 0 ∧ (t.chan n).stepOpen = false ∧ (t.chan n).relatch = false) ∧
      ∀ e : Handle, (s.chan n).currentEntry = some e →
        (t.chan n).sequencerClaim = some (.release true) ∧ (t.chan n).currentEntry = some e ∧
        (t.chan n).window = (s.chan n).window ∧ (t.chan n).monitor = (s.chan n).monitor

/-! ## Window, monitor and the controller's claims -/

/-- A shift moves the window for a NEXT field and restarts it for any other, with the arrival field as NEWER; the slot
becomes empty and the step tally rises. With no earlier claim waiting, the lookup answers the covering entry, the
monitor observes the new NEWER field (after a reset at a DISCONTINUITY and a seeding by an entered proposal, and not
while DEGRADED), and a render request is issued for CURRENT if a lane claims the channel as source or armed target,
with the recipe of its effective cadence and deadline distance 2, which takes no other channel's request or job out of
the pool; nothing differs but the channel, the entries it leaves and enters, the pool, and the attention unit where an
entry left becomes FREE, whose other fields than state and generation are blank (log 3). The lookup is taken within the
shift, as the model reads R43, and the observation and the seeding are the model's, with its inferences (logs 9, 12, 13
and 14; R40 to R42, R81 to R90, R113, R114, R118 to R123). -/
def Obligations.WindowShiftMovesFields : Prop :=
  ∀ (s : State) (n : Channel) (a : Arrived), (s.chan n).state = .running → (s.chan n).port.slot = some a →
    s.queued n = false → (s.chan n).sequencerClaim = none →
    ∃ t : State, exec (.windowShift n) s = .next t ∧ (t.chan n).port = { (s.chan n).port with slot := none } ∧
      (t.chan n).window.newer.map WindowField.field = some a.field ∧
      (t.chan n).window.current = (if a.cls = .next then (s.chan n).window.newer else none) ∧
      (t.chan n).window.older = (if a.cls = .next then (s.chan n).window.current else none) ∧
      (t.chan n).tally = min 255 ((s.chan n).tally + 1) ∧ (t.chan n).sequencerClaim = none ∧
      (t.chan n).state = .running ∧ (t.chan n).config = (s.chan n).config ∧
      (s.TurnOf n → (∀ m : Channel, m ≠ n → t.chan m = s.chan m) ∧
        t = { s with chans := t.chans, table := t.table, queue := t.queue, engines := t.engines, attn := t.attn } ∧
        Answered s t n a ∧
        (∀ (m : Monitor) (f : WindowField), (t.chan n).window.newer = some f →
          ((∀ h : Handle, EntersProposal s n a h → (s.chan n).level ≠ .degraded →
              m = (if a.cls = .discontinuity then Monitor.reset else (s.chan n).monitor).seed
                (s.entry h).directives (s.entry h).first) ∧
            ((∀ h : Handle, ¬EntersProposal s n a h) ∨ (s.chan n).level = .degraded →
              m = if a.cls = .discontinuity then Monitor.reset else (s.chan n).monitor)) →
          (t.chan n).monitor =
            if (s.chan n).level = .degraded then m
            else (m.observe
              { record := { number := a.field.number, key := a.field.key, set := f.set }
                known := (t.chan n).window.observation (s.chan n).config
                slip := a.field.slip }).monitor) ∧
        OthersInPool s t n ∧
        (∀ (c : WindowField) (l : LaneId) (role : Role), (t.chan n).window.current = some c →
          s.claims.get n = some l →
          ((s.lane l).source = some n ∧ role = .program ∨ (s.lane l).source ≠ some n ∧
            (s.lane l).cues.head?.map Cue.target = some (some n) ∧ role = .armed) →
          ∃ (e : Effective) (r : Recipe), EffectiveIs (t.chan n).monitor c.set c.field.number e ∧
            RecipeIs (t.chan n).window c e r ∧
            InPool t { channel := n, lane := l, role := role, number := c.field.number, recipe := r,
                       profile := c.set.directives.profile, mask := c.set.directives.mask, distance := 2 }) ∧
        ((t.chan n).window.current = none ∨ (∀ l : LaneId, s.claims.get n = some l → (s.lane l).source ≠ some n ∧
            (s.lane l).cues.head?.map Cue.target ≠ some (some n)) →
          t.queue = s.queue ∧ t.engines = s.engines))

/-- The monitor at the observation of a shift. Lock: a FILM32 candidate at 19 or a FILM22 candidate at 15 with a
matching known observation enters LOCKED; the settled state becomes FILM with the detector's mode and alignment, which
is the settled alignment where that is the same. Expiry: at an unlocked run of 59 with a settled state other than
VIDEO, an observation that neither locks nor is made while LOCKED makes the settled state VIDEO. A change of the
settled state from one judgement to another makes a proposal claim for its start field, and a disagreement is counted;
a shift that leaves the settled state as it was, one while DEGRADED and one of a DISCONTINUITY claim and count nothing.
Break: a second miss in a row records the pending transition at the first and searches. Search: in SEARCHING a known
observation is appended to the history of 10 and searched. Measures: PAIRED and REPEAT are known when the three fields
are present and undamaged, and true when their measures, over the lines that are not masked, are at or below their
thresholds. The rows CADENCE_LOCK and UNLOCKED_RUN_EXPIRY are their shift, whole: the model's choice (log 8). That a
lock is judged before the unlocked run, at a run of 59 too, that the observation of a break leaves the run at 0, and
that the mean of two lines is exact, masked lines left out first, are the model's inferences (logs 12 and 14; R94 to
R101, R103 to R108, R114 to R116). -/
def Obligations.MonitorEventsOfShift : Prop :=
  (∀ (s : State) (n : Channel) (a : Arrived) (mode : Film) (align count : Nat) (start : FieldRecord)
    (paired rep : Bool), PlainShift s n a → a.field.slip = false →
    (s.chan n).monitor.detector = .candidate mode align count start →
    mode = .film32 ∧ count = 19 ∨ mode = .film22 ∧ count = 15 →
    (s.latchedAt n a).window.observation (s.chan n).config = some (paired, rep) →
    paired = mode.pairedAt (mode.position align a.field.number) →
    rep = mode.repeatAt (mode.position align a.field.number) →
    ∃ (t : State) (settled : Nat), exec (.cadenceLock n) s = .next t ∧ exec (.windowShift n) s = .next t ∧
      (t.chan n).monitor.detector = .locked mode settled 0 none ∧
      (t.chan n).monitor.settled = .film mode settled ∧
      (t.chan n).monitor.unlockedRun = 0 ∧ (t.chan n).monitor.pending = none ∧
      (∀ old : Nat, (s.chan n).monitor.settled = .film mode old → sameAlignment mode align mode old = true →
        settled = old ∧ NothingClaimed (s.chan n) (t.chan n)) ∧
      ((∀ old : Nat, (s.chan n).monitor.settled = .film mode old → sameAlignment mode align mode old = false) →
        settled = align ∧ ∀ began : Option FieldRecord,
          ((s.chan n).monitor.settled = .none → began = none) →
          ((s.chan n).monitor.settled = .video → began = some start) →
          (∀ (m : Film) (old : Nat), (s.chan n).monitor.settled = .film m old →
            began = (s.chan n).monitor.pending.map Pending.breakField) →
          SettledChange (s.chan n) (t.chan n) a.field.key began (.film mode align))) ∧
  (∀ (s : State) (n : Channel) (a : Arrived), PlainShift s n a → (s.chan n).monitor.unlockedRun = 59 →
    (s.chan n).monitor.settled ≠ .video →
    ((s.chan n).monitor.detector = .searching ∨
      ∃ (mode : Film) (align count : Nat) (start : FieldRecord),
        (s.chan n).monitor.detector = .candidate mode align count start ∧
        (a.field.slip = true ∨ mode = .film32 ∧ count < 19 ∨ mode = .film22 ∧ count < 15 ∨
          ∀ paired rep : Bool, (s.latchedAt n a).window.observation (s.chan n).config = some (paired, rep) →
            paired ≠ mode.pairedAt (mode.position align a.field.number) ∨
            rep ≠ mode.repeatAt (mode.position align a.field.number))) →
    ∃ t : State, exec (.unlockedRunExpiry n) s = .next t ∧ exec (.windowShift n) s = .next t ∧
      (t.chan n).monitor.settled = .video ∧ (t.chan n).monitor.unlockedRun = 0 ∧
      (t.chan n).monitor.pending = none ∧
      (((s.chan n).monitor.settled = .none → (s.chan n).monitor.pending = none) →
        SettledChange (s.chan n) (t.chan n) a.field.key ((s.chan n).monitor.pending.map Pending.breakField)
          .video)) ∧
  (∀ (s : State) (n : Channel) (a : Arrived), (s.chan n).state = .running → (s.chan n).port.slot = some a →
    s.queued n = false → (s.chan n).sequencerClaim = none → s.TurnOf n →
    ∃ t : State, exec (.windowShift n) s = .next t ∧
      ((s.chan n).level = .degraded ∨ a.cls = .discontinuity ∨
          PlainShift s n a ∧ (t.chan n).monitor.settled = (s.chan n).monitor.settled →
        NothingClaimed (s.chan n) (t.chan n))) ∧
  (∀ (s : State) (n : Channel) (a : Arrived) (mode : Film) (align : Nat) (miss : FieldRecord), PlainShift s n a →
    (s.chan n).monitor.detector = .locked mode align 1 (some miss) →
    (a.field.slip = true ∨
      ∃ paired rep : Bool, (s.latchedAt n a).window.observation (s.chan n).config = some (paired, rep) ∧
        (paired ≠ mode.pairedAt (mode.position align a.field.number) ∨
          rep ≠ mode.repeatAt (mode.position align a.field.number))) →
    ∃ t : State, exec (.windowShift n) s = .next t ∧
      (t.chan n).monitor.detector = search (t.chan n).monitor.history ∧
      (a.field.slip = true → (t.chan n).monitor.history = []) ∧
      (t.chan n).monitor.unlockedRun = 0 ∧ (t.chan n).monitor.settled = (s.chan n).monitor.settled ∧
      (t.chan n).monitor.pending = some { breakField := miss, settled := (s.chan n).monitor.settled }) ∧
  (∀ (s : State) (n : Channel) (a : Arrived) (paired rep : Bool), PlainShift s n a → a.field.slip = false →
    (s.chan n).monitor.detector = .searching → (s.chan n).monitor.history.length ≤ 10 →
    (s.chan n).monitor.settled = .video ∨ (s.chan n).monitor.unlockedRun < 59 →
    (s.latchedAt n a).window.observation (s.chan n).config = some (paired, rep) →
    ∃ (t : State) (o : Observation), exec (.windowShift n) s = .next t ∧
      o.record.number = a.field.number ∧ o.record.key = a.field.key ∧ o.paired = paired ∧ o.rep = rep ∧
      (t.chan n).monitor.history =
        (if (s.chan n).monitor.history.length = 10 then (s.chan n).monitor.history.tail
          else (s.chan n).monitor.history) ++ [o] ∧
      (t.chan n).monitor.detector = search (t.chan n).monitor.history ∧
      (t.chan n).monitor.settled = (s.chan n).monitor.settled ∧
      (t.chan n).monitor.unlockedRun = (s.chan n).monitor.unlockedRun +
        (if (s.chan n).monitor.settled = .video then 0 else 1)) ∧
  (∀ (first x y : Observation) (rest : List Observation) (align : Nat), rest.length = 9 →
    (first :: rest).filter (fun o => o.rep) = [x, y] → x.record.number.toNat + 5 = y.record.number.toNat →
    align < 10 → (align + x.record.number.toNat) % 10 = 2 →
    (∀ o : Observation, o ∈ first :: rest → o.paired = Film.film32.pairedAt ((align + o.record.number.toNat) % 10) ∧
      o.rep = Film.film32.repeatAt ((align + o.record.number.toNat) % 10)) →
    search (first :: rest) = .candidate .film32 align 10 first.record) ∧
  (∀ (config : ChannelConfig) (x c o : WindowField) (count top bottom paired : Nat),
    x.field.lines.length = 1440 * count → c.field.lines.length = 1440 * count →
    o.field.lines.length = 1440 * count →
    (x.set.directives.mask = none → top = 0 ∧ bottom = 0) →
    (∀ m : Mask, x.set.directives.mask = some m → top = m.top.val ∧ bottom = m.bottom.val) → top + bottom < count →
    (x.field.parity = c.field.parity →
      paired = meanDifference x.field c.field top (count - top - bottom) id id) →
    (x.field.parity = .upper → c.field.parity = .lower →
      paired = meanDifference x.field c.field top (count - top - bottom) (fun k => max top (k - 1)) id) →
    (x.field.parity = .lower → c.field.parity = .upper →
      paired = meanDifference x.field c.field top (count - top - bottom) id
        (fun k => min (k + 1) (count - bottom - 1))) →
    Window.observation { older := some o, current := some c, newer := some x } config =
      if x.field.damaged = true ∨ c.field.damaged = true ∨ o.field.damaged = true then none
      else some (decide (paired ≤ config.pairedThreshold),
        decide (meanDifference x.field o.field top (count - top - bottom) id id ≤ config.repeatThreshold))) ∧
  (∀ (config : ChannelConfig) (w : Window), w.older = none ∨ w.current = none ∨ w.newer = none →
    w.observation config = none) ∧
  ∀ (before newest : List Observation) (first x : Observation) (rest : List Observation) (align : Nat),
    (∀ o : Observation, o ∈ before → o.rep = false) → newest = first :: rest → rest.length = 7 →
    (∀ i : Nat, ∀ u v : Observation, newest[i]? = some u → newest[i + 1]? = some v →
      u.record.number.toNat + 1 = v.record.number.toNat ∧ u.paired ≠ v.paired) →
    (∀ o : Observation, o ∈ newest → o.rep = false) → x ∈ newest → x.paired = true → align < 2 →
    (align + x.record.number.toNat) % 2 = 1 →
    search (before ++ newest) = .candidate .film22 align 8 first.record

/-- A lookup that waits, of a RUNNING channel, is answered with the covering entry, which becomes the current entry;
the use counts, the new NEWER field's set and the latching marks follow the answer, an entry that becomes FREE has its
other fields blank (log 3) and its shared free handed over, and the other channels' requests and jobs stay in the pool
(R28, R34, R40, R41, R42, R133). Where claims wait, a claim or a table request is taken as after the claims before it
in R38's order: waiting sequencer claims, then proposal claims, each lowest channel first, then the table request. That
its command takes those claims too is the model's reading (log 7; R38, R46). -/
def Obligations.LookupAnswersCoveringEntry : Prop :=
  (∀ (s : State) (n : Channel) (a : Arrived), (s.chan n).state = .running →
    (s.chan n).sequencerClaim = some (.lookup a) → s.TurnOf n →
    ∃ t : State, exec (.lookup n) s = .next t ∧ (t.chan n).sequencerClaim = none ∧ Answered s t n a ∧
      OthersInPool s t n ∧ (∀ m : Channel, m ≠ n → t.chan m = s.chan m) ∧
      t = { s with chans := t.chans, table := t.table, queue := t.queue, engines := t.engines, attn := t.attn }) ∧
  (∀ (s u : State) (r : Instr) (m : Channel), s.TurnOf m →
    (∃ a : Arrived, (s.chan m).sequencerClaim = some (.lookup a) ∧ exec (.lookup m) s = .next u) ∨
      (∃ b : Bool, (s.chan m).sequencerClaim = some (.release b) ∧ exec (.release m) s = .next u) →
    tableRequest r = true ∧ s.Waits r ∨
      (∃ n : Channel, r = .proposalClaim n ∧ (s.chan n).proposalClaim ≠ none) ∨
      (∃ (n : Channel) (a : Arrived), m < n ∧ r = .lookup n ∧ (s.chan n).sequencerClaim = some (.lookup a)) ∨
      (∃ (n : Channel) (b : Bool), m < n ∧ r = .release n ∧ (s.chan n).sequencerClaim = some (.release b)) →
    exec r s = exec r u) ∧
  ∀ (s u : State) (r : Instr) (m : Channel), (∀ k : Channel, (s.chan k).sequencerClaim = none) →
    (∀ k : Channel, k < m → (s.chan k).proposalClaim = none) → (s.chan m).proposalClaim ≠ none →
    exec (.proposalClaim m) s = .next u →
    tableRequest r = true ∧ s.Waits r ∨
      (∃ n : Channel, m < n ∧ r = .proposalClaim n ∧ (s.chan n).proposalClaim ≠ none) →
    exec r s = exec r u

/-- A release that waits clears the current entry and lowers its use count; a RETIRING entry without users becomes FREE
with its generation kept, its other fields blank as the model keeps them (log 3), and the new shared free is handed
over; nothing else of the attention unit differs. The departure's effects take place. A CHANNEL_HALT that waits
completes when its last channel becomes HALTED by it; no other request in flight is changed. That a monitor reset is
made even when a halt has come since, and that the latched generation and the last latched set become none at the
taking, are the model's inferences (logs 16 and 39; R28, R34, R44, R72, R73, R78, R85). -/
def Obligations.ReleaseLowersUseCount : Prop :=
  ∀ (s : State) (n : Channel) (resetsMonitor : Bool) (h : Handle),
    (s.chan n).sequencerClaim = some (.release resetsMonitor) → s.TurnOf n → (s.chan n).currentEntry = some h →
    ∃ t : State, exec (.release n) s = .next t ∧ (t.chan n).sequencerClaim = none ∧ (t.chan n).currentEntry = none ∧
      (t.chan n).window = Window.empty ∧ (t.chan n).tally = 0 ∧ (t.chan n).stepOpen = false ∧
      (t.chan n).relatch = false ∧ (t.chan n).latchedGen = none ∧ (t.chan n).lastSet = none ∧
      (resetsMonitor = true → (t.chan n).monitor = Monitor.reset) ∧
      ((s.chan n).state ≠ .halting → (t.chan n).withdrawOrder = true ∧ (t.chan n).state = (s.chan n).state) ∧
      ((s.chan n).state = .halting → (t.chan n).cancelOrder = true ∧
        (t.chan n).state = if s.inFlight n then .halting else .halted) ∧
      (t.chan n).port = (s.chan n).port ∧ (t.chan n).config = (s.chan n).config ∧
      (∀ m : Channel, m ≠ n → t.chan m = s.chan m) ∧
      t = { s with
        chans := t.chans, table := t.table, attn := t.attn, link := { s.link with flight := t.link.flight } } ∧
      HaltAnswered s t ∧ (∀ g : Handle, g ≠ h → t.entry g = s.entry g) ∧
      t.attn = (if (s.entry h).state = .retiring ∧ (s.entry h).useCount ≤ 1 then s.attn.handOver t.sharedFree
        else s.attn) ∧
      t.entry h = (if (s.entry h).state = .retiring ∧ (s.entry h).useCount ≤ 1 then Entry.free (s.entry h).gen
        else { s.entry h with useCount := (s.entry h).useCount - 1 })

/-- An accepted proposal claim with a basis truncates the basis below the start field and places the new PROVISIONAL
entry after it at the lowest FREE handle, charged to the channel's reserve; one without a basis fills the gap from its
start field on. A claim whose basis has moved on, or whose start field lies at or below the basis' first field or above
its last, is ABANDONED, and so is one without a basis whose start field an entry of the key covers; one of either kind
that stands and finds its channel's reserve full is SUPPRESSED. Each of these is counted and changes nothing else (R26,
R35, R45, R109, R110, R111). -/
def Obligations.ProposalClaimSplitsOrRefused : Prop :=
  ((∀ (s : State) (n : Channel) (p : ProposalClaim) (h f : Handle) (g : Gen),
    (∀ m : Channel, (s.chan m).sequencerClaim = none) → (∀ m : Channel, m < n → (s.chan m).proposalClaim = none) →
    (s.chan n).proposalClaim = some p → p.basis = some (h, g) → (s.entry h).live = true →
    (s.entry h).key = p.key → (s.entry h).gen = g → (s.entry h).first.toNat < p.start.toNat →
    p.start.toNat ≤ (s.entry h).last.toNat → s.reserveHeld n < s.quota n → (s.entry f).state = .free →
    (∀ i : Handle, i < f → (s.entry i).state ≠ .free) →
    ∃ t : State, exec (.proposalClaim n) s = .next t ∧
      t = { s with chans := t.chans, table := t.table, attn := t.attn } ∧
      (∀ m : Channel, m ≠ n → t.chan m = s.chan m) ∧
      t.chan n = { s.chan n with
        proposalClaim := none
        monitorCounters := { (s.chan n).monitorCounters with
          proposals := bump (s.chan n).monitorCounters.proposals 1 } } ∧
      t.entry h = { s.entry h with last := p.start - 1, gen := g + 1 } ∧
      t.entry f =
        { state := .provisional, key := p.key, first := p.start, last := (s.entry h).last,
          gen := (s.entry f).gen + 1, origin := .monitor, owner := some n, charge := .reserve n, useCount := 0,
          directives := p.directives, parent := some (h, g + 1) } ∧
      (∀ i : Handle, i ≠ h → i ≠ f → t.entry i = s.entry i) ∧
      t.attn = (s.attn.handOver t.sharedFree).latchProposal n) ∧
    ∀ (s : State) (n : Channel) (p : ProposalClaim) (f : Handle) (last : FieldNum),
      (∀ m : Channel, (s.chan m).sequencerClaim = none) → (∀ m : Channel, m < n → (s.chan m).proposalClaim = none) →
      (s.chan n).proposalClaim = some p → p.basis = none → s.reserveHeld n < s.quota n →
      (s.entry f).state = .free → (∀ i : Handle, i < f → (s.entry i).state ≠ .free) →
      (∀ i : Handle, (s.entry i).live = true → (s.entry i).key = p.key →
        (s.entry i).first.toNat ≤ p.start.toNat ∧ (s.entry i).last.toNat < p.start.toNat ∨
          last.toNat < (s.entry i).first.toNat) →
      p.start.toNat ≤ last.toNat →
      (last.toNat = 16777215 ∨ ∃ i : Handle, (s.entry i).live = true ∧ (s.entry i).key = p.key ∧
        (s.entry i).first.toNat = last.toNat + 1) →
      ∃ t : State, exec (.proposalClaim n) s = .next t ∧
        t = { s with chans := t.chans, table := t.table, attn := t.attn } ∧
        (∀ m : Channel, m ≠ n → t.chan m = s.chan m) ∧
        t.chan n = { s.chan n with
          proposalClaim := none
          monitorCounters := { (s.chan n).monitorCounters with
            proposals := bump (s.chan n).monitorCounters.proposals 1 } } ∧
        t.entry f =
          { state := .provisional, key := p.key, first := p.start, last := last, gen := (s.entry f).gen + 1,
            origin := .monitor, owner := some n, charge := .reserve n, useCount := 0, directives := p.directives,
            parent := none } ∧
        (∀ i : Handle, i ≠ f → t.entry i = s.entry i) ∧
        t.attn = (s.attn.handOver t.sharedFree).latchProposal n) ∧
    (∀ (s : State) (n : Channel) (p : ProposalClaim) (h : Handle) (g : Gen),
      (∀ m : Channel, (s.chan m).sequencerClaim = none) → (∀ m : Channel, m < n → (s.chan m).proposalClaim = none) →
      (s.chan n).proposalClaim = some p → p.basis = some (h, g) →
      ((s.entry h).gen ≠ g ∨ (s.entry h).key ≠ p.key ∨ (s.entry h).live = false ∨
          p.start.toNat ≤ (s.entry h).first.toNat ∨ (s.entry h).last.toNat < p.start.toNat →
        exec (.proposalClaim n) s = .next (s.modChan n fun c =>
          { c with
            proposalClaim := none
            monitorCounters := { c.monitorCounters with abandoned := bump c.monitorCounters.abandoned 1 } })) ∧
      ((s.entry h).live = true → (s.entry h).key = p.key → (s.entry h).gen = g →
        (s.entry h).first.toNat < p.start.toNat → p.start.toNat ≤ (s.entry h).last.toNat →
        s.quota n ≤ s.reserveHeld n →
        exec (.proposalClaim n) s = .next (s.modChan n fun c =>
          { c with
            proposalClaim := none
            monitorCounters := { c.monitorCounters with suppressed := bump c.monitorCounters.suppressed 1 } }))) ∧
    ∀ (s : State) (n : Channel) (p : ProposalClaim),
      (∀ m : Channel, (s.chan m).sequencerClaim = none) → (∀ m : Channel, m < n → (s.chan m).proposalClaim = none) →
      (s.chan n).proposalClaim = some p → p.basis = none →
      (∀ i : Handle, (s.entry i).live = true → (s.entry i).key = p.key →
        (s.entry i).first.toNat ≤ p.start.toNat → p.start.toNat ≤ (s.entry i).last.toNat →
        exec (.proposalClaim n) s = .next (s.modChan n fun c =>
          { c with
            proposalClaim := none
            monitorCounters := { c.monitorCounters with abandoned := bump c.monitorCounters.abandoned 1 } })) ∧
      ((∀ i : Handle, (s.entry i).live = true → (s.entry i).key = p.key →
          p.start.toNat < (s.entry i).first.toNat ∨ (s.entry i).last.toNat < p.start.toNat) →
        s.quota n ≤ s.reserveHeld n →
        exec (.proposalClaim n) s = .next (s.modChan n fun c =>
          { c with
            proposalClaim := none
            monitorCounters := { c.monitorCounters with suppressed := bump c.monitorCounters.suppressed 1 } }))

/-- The film cycles: a field's position under an alignment, the weave partner and the expected observations at each
position (R96). -/
def Obligations.FilmCyclesPredict : Prop :=
  (∀ (a : Nat) (f : FieldNum), Film.film32.position a f = (a + f.toNat) % 10
    ∧ Film.film22.position a f = (a + f.toNat) % 2) ∧
    (List.range 10).map (fun p => (Film.film32.partnerIsNext p, Film.film32.pairedAt p, Film.film32.repeatAt p)) =
      [(true, false, false), (false, true, false), (false, true, true), (true, false, false), (false, true, false),
        (true, false, false), (false, true, false), (false, true, true), (true, false, false),
        (false, true, false)] ∧
    (List.range 2).map (fun p => (Film.film22.partnerIsNext p, Film.film22.pairedAt p, Film.film22.repeatAt p)) =
      [(true, false, false), (false, true, false)]

/-- A known observation matches when PAIRED and REPEAT equal the values expected at its position; FILM32 alignments
that differ by 5 predict the same for every field and are the same, FILM22 alignments only when equal, and never one
of each (R97). -/
def Obligations.ObservationMatchesPosition : Prop :=
  (∀ (m : Film) (a : Nat) (f : FieldNum) (paired rep : Bool), m.agrees a f paired rep = true ↔
    paired = m.pairedAt (m.position a f) ∧ rep = m.repeatAt (m.position a f)) ∧
    (∀ (a : Nat) (f : FieldNum) (paired rep : Bool),
      Film.film32.agrees (a + 5) f paired rep = Film.film32.agrees a f paired rep ∧
      Film.film32.partnerIsNext (Film.film32.position (a + 5) f) =
        Film.film32.partnerIsNext (Film.film32.position a f)) ∧
    (∀ a b : Nat, a < 10 → b < 10 →
      (sameAlignment .film32 a .film32 b = true ↔ a = b ∨ a = b + 5 ∨ b = a + 5)) ∧
    (∀ a b : Nat, a < 2 → b < 2 → (sameAlignment .film22 a .film22 b = true ↔ a = b)) ∧
    ∀ a b : Nat, sameAlignment .film22 a .film32 b = false ∧ sameAlignment .film32 a .film22 b = false

/-! ## Requests on the table -/

/-- An accepted ENTRY_ADD writes an ACTIVE entry at the lowest FREE handle, its generation one above the one it bore,
hands over the shared free and answers handle and generation; nothing else changes. A
directives record that is not well formed or a reversed span gives RANGE, an overlapped span OVERLAP with the summary of
the overlapping entry of smallest first field, no shared free NO_ROOM, and then nothing changes (R26, R49, R51, R52). -/
def Obligations.EntryAddAcceptsOrRefuses : Prop :=
  (∀ (s : State) (key : Key) (first last : FieldNum) (record : BitVec 24) (d : Directives) (h : Handle),
    s.Waits (.entryAdd key first last record) → s.NoClaims → decodeDirectives record = some d →
    first.toNat ≤ last.toNat →
    (∀ g : Handle, (s.entry g).live = true → (s.entry g).key = key →
      last.toNat < (s.entry g).first.toNat ∨ (s.entry g).last.toNat < first.toNat) →
    1 ≤ s.sharedFree → (s.entry h).state = .free → (∀ g : Handle, g < h → (s.entry g).state ≠ .free) →
    exec (.entryAdd key first last record) s = .next
      ((s.setEntry h
          { state := .active, key := key, first := first, last := last, gen := (s.entry h).gen + 1,
            origin := .operator, owner := none, charge := .shared, useCount := 0, directives := d,
            parent := none }).handOver.setHandedBack (.entryAdd key first last record)
        { code := .done, bytes := bytes16 (BitVec.ofNat 16 h.val) ++ [(s.entry h).gen + 1] })) ∧
    (∀ (s : State) (key : Key) (first last : FieldNum) (record : BitVec 24),
      s.Waits (.entryAdd key first last record) → s.NoClaims → decodeDirectives record = none →
      exec (.entryAdd key first last record) s =
        .next (s.setHandedBack (.entryAdd key first last record) { code := .range, bytes := [] })) ∧
    ∀ (s : State) (key : Key) (first last : FieldNum) (record : BitVec 24) (d : Directives),
      s.Waits (.entryAdd key first last record) → s.NoClaims → decodeDirectives record = some d →
      (last.toNat < first.toNat → exec (.entryAdd key first last record) s =
        .next (s.setHandedBack (.entryAdd key first last record) { code := .range, bytes := [] })) ∧
      (first.toNat ≤ last.toNat → ∀ g : Handle, (s.entry g).live = true → (s.entry g).key = key →
        (s.entry g).first.toNat ≤ last.toNat → first.toNat ≤ (s.entry g).last.toNat →
        (∀ i : Handle, (s.entry i).live = true → (s.entry i).key = key → (s.entry i).first.toNat ≤ last.toNat →
          first.toNat ≤ (s.entry i).last.toNat → i ≠ g → (s.entry g).first.toNat < (s.entry i).first.toNat) →
        exec (.entryAdd key first last record) s =
          .next (s.setHandedBack (.entryAdd key first last record)
            { code := .overlap, bytes := bytes16 (BitVec.ofNat 16 g.val) ++ [(s.entry g).gen, (s.entry g).state.code]
                ++ bytes24 (s.entry g).first ++ bytes24 (s.entry g).last })) ∧
      (first.toNat ≤ last.toNat → (∀ g : Handle, (s.entry g).live = true → (s.entry g).key = key →
          last.toNat < (s.entry g).first.toNat ∨ (s.entry g).last.toNat < first.toNat) → s.sharedFree = 0 →
        exec (.entryAdd key first last record) s =
          .next (s.setHandedBack (.entryAdd key first last record) { code := .noRoom, bytes := [] }))

/-- An accepted ENTRY_AMEND replaces span and directives and raises the generation by one, all else kept. A handle above
1023 gives RANGE, an entry neither ACTIVE nor PROVISIONAL NO_ENTRY; where the generation agrees, a directives record that
is not well formed or a reversed span gives RANGE, and an overlap of another entry of the key OVERLAP with the summary of
the one of smallest first field; and then nothing changes. STALE is StaleGenerationRefused's (R50, R51, R54, R55). -/
def Obligations.EntryAmendRaisesGeneration : Prop :=
  (∀ (s : State) (handle : BitVec 16) (g : Gen) (first last : FieldNum) (record : BitVec 24) (d : Directives)
    (h : Handle),
    s.Waits (.entryAmend handle g first last record) → s.NoClaims → handle.toNat = h.val →
    (s.entry h).live = true → (s.entry h).gen = g → decodeDirectives record = some d → first.toNat ≤ last.toNat →
    (∀ i : Handle, i ≠ h → (s.entry i).live = true → (s.entry i).key = (s.entry h).key →
      last.toNat < (s.entry i).first.toNat ∨ (s.entry i).last.toNat < first.toNat) →
    exec (.entryAmend handle g first last record) s = .next
      ((s.setEntry h { s.entry h with first := first, last := last, directives := d, gen := g + 1 }).setHandedBack
        (.entryAmend handle g first last record) { code := .done, bytes := [g + 1] })) ∧
  ∀ (s : State) (handle : BitVec 16) (g : Gen) (first last : FieldNum) (record : BitVec 24),
    s.Waits (.entryAmend handle g first last record) → s.NoClaims →
    (1023 < handle.toNat → exec (.entryAmend handle g first last record) s =
      .next (s.setHandedBack (.entryAmend handle g first last record) { code := .range, bytes := [] })) ∧
    ∀ h : Handle, handle.toNat = h.val →
      ((s.entry h).live = false → exec (.entryAmend handle g first last record) s =
        .next (s.setHandedBack (.entryAmend handle g first last record) { code := .noEntry, bytes := [] })) ∧
      ((s.entry h).live = true → (s.entry h).gen = g → decodeDirectives record = none ∨ last.toNat < first.toNat →
        exec (.entryAmend handle g first last record) s =
          .next (s.setHandedBack (.entryAmend handle g first last record) { code := .range, bytes := [] })) ∧
      ∀ (d : Directives) (o : Handle), (s.entry h).live = true → (s.entry h).gen = g →
        decodeDirectives record = some d → first.toNat ≤ last.toNat → o ≠ h → (s.entry o).live = true →
        (s.entry o).key = (s.entry h).key → (s.entry o).first.toNat ≤ last.toNat →
        first.toNat ≤ (s.entry o).last.toNat →
        (∀ i : Handle, i ≠ h → i ≠ o → (s.entry i).live = true → (s.entry i).key = (s.entry h).key →
          (s.entry i).first.toNat ≤ last.toNat → first.toNat ≤ (s.entry i).last.toNat →
          (s.entry o).first.toNat < (s.entry i).first.toNat) →
        exec (.entryAmend handle g first last record) s =
          .next (s.setHandedBack (.entryAmend handle g first last record)
            { code := .overlap, bytes := bytes16 (BitVec.ofNat 16 o.val) ++ [(s.entry o).gen, (s.entry o).state.code]
                ++ bytes24 (s.entry o).first ++ bytes24 (s.entry o).last })

/-- An accepted ENTRY_RETIRE frees an entry without users, its generation kept and its other fields blank as the model
keeps them (log 3), and makes one with users RETIRING. A handle above 1023 gives RANGE, an entry neither ACTIVE nor
PROVISIONAL NO_ENTRY, whatever the generation, and then nothing changes (R27, R28, R50, R57). -/
def Obligations.EntryRetireFreesOrRetires : Prop :=
  (∀ (s : State) (handle : BitVec 16) (g : Gen) (h : Handle),
    s.Waits (.entryRetire handle g) → s.NoClaims → handle.toNat = h.val → (s.entry h).live = true →
    (s.entry h).gen = g →
    ((s.entry h).useCount = 0 → exec (.entryRetire handle g) s = .next
      ((s.setEntry h (Entry.free g)).handOver.setHandedBack (.entryRetire handle g)
        { code := .done, bytes := [0, 0] })) ∧
    ((s.entry h).useCount ≠ 0 → exec (.entryRetire handle g) s = .next
      ((s.setEntry h { s.entry h with state := .retiring }).setHandedBack (.entryRetire handle g)
        { code := .done, bytes := [1, BitVec.ofNat 8 (s.entry h).useCount] }))) ∧
  ∀ (s : State) (handle : BitVec 16) (g : Gen), s.Waits (.entryRetire handle g) → s.NoClaims →
    (1023 < handle.toNat → exec (.entryRetire handle g) s =
      .next (s.setHandedBack (.entryRetire handle g) { code := .range, bytes := [] })) ∧
    ∀ h : Handle, handle.toNat = h.val → (s.entry h).live = false → exec (.entryRetire handle g) s =
      .next (s.setHandedBack (.entryRetire handle g) { code := .noEntry, bytes := [] })

/-- ENTRY_FIND answers the one entry of the key that covers the field, which a lookup would answer too, or NO_ENTRY,
and changes nothing (R60). -/
def Obligations.EntryFindReportsCovering : Prop :=
  ∀ (s : State) (key : Key) (f : FieldNum), s.Waits (.entryFind key f) → s.NoClaims →
    (∀ h : Handle, (s.entry h).live = true → (s.entry h).key = key → (s.entry h).first.toNat ≤ f.toNat →
      f.toNat ≤ (s.entry h).last.toNat →
      (∀ i : Handle, (s.entry i).live = true → (s.entry i).key = key → (s.entry i).first.toNat ≤ f.toNat →
        f.toNat ≤ (s.entry i).last.toNat → i = h) →
      s.covering key f = some h ∧ exec (.entryFind key f) s = .next (s.setHandedBack (.entryFind key f)
        { code := .done, bytes := bytes16 (BitVec.ofNat 16 h.val) ++ [(s.entry h).gen, (s.entry h).state.code]
            ++ bytes24 (s.entry h).first ++ bytes24 (s.entry h).last })) ∧
    ((∀ i : Handle, (s.entry i).live = true → (s.entry i).key = key →
        f.toNat < (s.entry i).first.toNat ∨ (s.entry i).last.toNat < f.toNat) →
      s.covering key f = none ∧ exec (.entryFind key f) s = .next (s.setHandedBack (.entryFind key f)
        { code := .noEntry, bytes := [] }))

/-- ENTRY_NEXT answers the entry of the key with the smallest first field above the given one, or NO_ENTRY, and
changes nothing (R61). -/
def Obligations.EntryNextReportsFollowing : Prop :=
  ∀ (s : State) (key : Key) (f : FieldNum), s.Waits (.entryNext key f) → s.NoClaims →
    (∀ h : Handle, (s.entry h).live = true → (s.entry h).key = key → f.toNat < (s.entry h).first.toNat →
      (∀ i : Handle, (s.entry i).live = true → (s.entry i).key = key → f.toNat < (s.entry i).first.toNat → i ≠ h →
        (s.entry h).first.toNat < (s.entry i).first.toNat) →
      exec (.entryNext key f) s = .next (s.setHandedBack (.entryNext key f)
        { code := .done, bytes := bytes16 (BitVec.ofNat 16 h.val) ++ [(s.entry h).gen, (s.entry h).state.code]
            ++ bytes24 (s.entry h).first ++ bytes24 (s.entry h).last })) ∧
    ((∀ i : Handle, (s.entry i).live = true → (s.entry i).key = key → (s.entry i).first.toNat ≤ f.toNat) →
      exec (.entryNext key f) s = .next (s.setHandedBack (.entryNext key f) { code := .noEntry, bytes := [] })) ∧
    (f.toNat = 16777215 →
      exec (.entryNext key f) s = .next (s.setHandedBack (.entryNext key f) { code := .noEntry, bytes := [] }))

/-- ENTRY_READ returns state and generation of a FREE entry in 2 bytes, and the entry record of any other, 20 bytes with
every item at its offset; UNIT_READ returns the identification, the address and the accounting; ATTN_READ returns 36
bytes, every item of the attention unit at its offset. None of them changes anything else (R59, R172, R175, R181,
R185). -/
def Obligations.ReadsReportWithoutChange : Prop :=
  (∀ (s : State) (handle : BitVec 16) (h : Handle), s.Waits (.entryRead handle) → s.NoClaims →
    handle.toNat = h.val →
    ((s.entry h).state = .free → exec (.entryRead handle) s =
      .next (s.setHandedBack (.entryRead handle) { code := .done, bytes := [0, (s.entry h).gen] })) ∧
    ((s.entry h).state ≠ .free → ∃ bytes : List Byte, EntryRecordIs (s.entry h) bytes ∧
      exec (.entryRead handle) s = .next (s.setHandedBack (.entryRead handle) { code := .done, bytes := bytes }))) ∧
    (∀ (s : State) (handle : BitVec 16), s.Waits (.entryRead handle) → s.NoClaims → 1023 < handle.toNat →
      exec (.entryRead handle) s = .next (s.setHandedBack (.entryRead handle) { code := .range, bytes := [] })) ∧
    (∀ s : State, s.Waits .unitRead → s.NoClaims → exec .unitRead s =
      .next (s.setHandedBack .unitRead
        { code := .done, bytes := [0x1C, 0x6E, 0x48, 0x20, 1, 0#1 ++ s.link.address]
            ++ bytes16 (BitVec.ofNat 16 s.freeCount) ++ bytes16 (BitVec.ofNat 16 s.outstanding)
            ++ bytes16 (BitVec.ofNat 16 (s.freeCount - s.outstanding)) })) ∧
    ∀ s : State, s.Waits .attnRead → ∃ bytes : List Byte, AttnReadIs s.attn bytes ∧
      exec .attnRead s = .next (s.setHandedBack .attnRead { code := .done, bytes := bytes })

/-- An accepted PROPOSAL_CONFIRM makes the entry ACTIVE, charged SHARED, without parent, its generation one up, and
hands over the shared free; NO_ROOM without shared free. A handle above 1023 gives RANGE, an entry that is not
PROVISIONAL NO_ENTRY, whatever the generation, and then nothing changes (R29, R36, R50, R63, R64). -/
def Obligations.ProposalConfirmMakesActive : Prop :=
  (∀ (s : State) (handle : BitVec 16) (g : Gen) (h : Handle),
    s.Waits (.proposalConfirm handle g) → s.NoClaims → handle.toNat = h.val → (s.entry h).state = .provisional →
    (s.entry h).gen = g →
    (1 ≤ s.sharedFree → exec (.proposalConfirm handle g) s = .next
      ((s.setEntry h { s.entry h with state := .active, parent := none, charge := .shared,
                                      gen := g + 1 }).handOver.setHandedBack (.proposalConfirm handle g)
        { code := .done, bytes := [g + 1] })) ∧
    (s.sharedFree = 0 → exec (.proposalConfirm handle g) s =
      .next (s.setHandedBack (.proposalConfirm handle g) { code := .noRoom, bytes := [] }))) ∧
  ∀ (s : State) (handle : BitVec 16) (g : Gen), s.Waits (.proposalConfirm handle g) → s.NoClaims →
    (1023 < handle.toNat → exec (.proposalConfirm handle g) s =
      .next (s.setHandedBack (.proposalConfirm handle g) { code := .range, bytes := [] })) ∧
    ∀ h : Handle, handle.toNat = h.val → (s.entry h).state ≠ .provisional → exec (.proposalConfirm handle g) s =
      .next (s.setHandedBack (.proposalConfirm handle g) { code := .noEntry, bytes := [] })

/-- An accepted PROPOSAL_REJECT frees a proposal without users, blank but for its generation (log 3), and makes one
with users RETIRING, as its outcome byte says. When its parent stands as recorded and adjoins it, the parent's span is
extended over it and the parent's generation rises; a parent that is absent or has moved on stays as it is. A handle
above 1023 gives RANGE, an entry that is not PROVISIONAL NO_ENTRY, whatever the generation, and then nothing changes
(R27, R50, R66, R67, R68). -/
def Obligations.ProposalRejectMergesBack : Prop :=
  (∀ (s u : State) (handle : BitVec 16) (g : Gen) (h : Handle) (outcome : Byte),
    s.Waits (.proposalReject handle g) → s.NoClaims → handle.toNat = h.val → (s.entry h).state = .provisional →
    (s.entry h).gen = g →
    ((s.entry h).useCount = 0 → u = (s.setEntry h (Entry.free g)).handOver ∧ outcome = 0) →
    ((s.entry h).useCount ≠ 0 → u = s.setEntry h { s.entry h with state := .retiring } ∧ outcome = 1) →
    (∀ (p : Handle) (pg : Gen), p ≠ h → (s.entry h).parent = some (p, pg) → (s.entry p).live = true →
      (s.entry p).key = (s.entry h).key → (s.entry p).gen = pg →
      (s.entry p).last.toNat + 1 = (s.entry h).first.toNat →
      exec (.proposalReject handle g) s = .next
        ((u.setEntry p { s.entry p with last := (s.entry h).last, gen := pg + 1 }).setHandedBack
          (.proposalReject handle g)
          { code := .done, bytes := [1, outcome] ++ bytes16 (BitVec.ofNat 16 p.val) ++ [pg + 1] })) ∧
    ((∀ (p : Handle) (pg : Gen), (s.entry h).parent = some (p, pg) →
        (s.entry p).live = false ∨ (s.entry p).key ≠ (s.entry h).key ∨ (s.entry p).gen ≠ pg ∨
          (s.entry p).last.toNat + 1 ≠ (s.entry h).first.toNat) →
      exec (.proposalReject handle g) s = .next
        (u.setHandedBack (.proposalReject handle g) { code := .done, bytes := [0, outcome] }))) ∧
  ∀ (s : State) (handle : BitVec 16) (g : Gen), s.Waits (.proposalReject handle g) → s.NoClaims →
    (1023 < handle.toNat → exec (.proposalReject handle g) s =
      .next (s.setHandedBack (.proposalReject handle g) { code := .range, bytes := [] })) ∧
    ∀ h : Handle, handle.toNat = h.val → (s.entry h).state ≠ .provisional → exec (.proposalReject handle g) s =
      .next (s.setHandedBack (.proposalReject handle g) { code := .noEntry, bytes := [] })

/-- The four requests that carry an expected generation answer STALE, with the entry's state and generation, when
the entry's state passes and its generation differs, and change nothing (R49, R50). -/
def Obligations.StaleGenerationRefused : Prop :=
  ∀ (s : State) (handle : BitVec 16) (g : Gen) (h : Handle), handle.toNat = h.val → s.NoClaims →
    (s.entry h).gen ≠ g →
    (∀ (first last : FieldNum) (record : BitVec 24), (s.entry h).live = true →
      s.Waits (.entryAmend handle g first last record) →
      exec (.entryAmend handle g first last record) s = .next (s.setHandedBack
        (.entryAmend handle g first last record)
        { code := .stale, bytes := [(s.entry h).state.code, (s.entry h).gen] })) ∧
    ((s.entry h).live = true → s.Waits (.entryRetire handle g) →
      exec (.entryRetire handle g) s = .next (s.setHandedBack (.entryRetire handle g)
        { code := .stale, bytes := [(s.entry h).state.code, (s.entry h).gen] })) ∧
    ((s.entry h).state = .provisional → s.Waits (.proposalConfirm handle g) →
      exec (.proposalConfirm handle g) s = .next (s.setHandedBack (.proposalConfirm handle g)
        { code := .stale, bytes := [2, (s.entry h).gen] })) ∧
    ((s.entry h).state = .provisional → s.Waits (.proposalReject handle g) →
      exec (.proposalReject handle g) s = .next (s.setHandedBack (.proposalReject handle g)
        { code := .stale, bytes := [2, (s.entry h).gen] }))

/-! ## Requests on channels and the snapshot store -/

/-- An accepted CHANNEL_SET replaces the record of every masked channel and of no other, keeps all else of the
channels, and hands over the shared free under the new quotas. A masked channel that is not HALTED gives WRONG_STATE;
then a record that is not well formed or a claiming lane of another rate gives RANGE; then a quota that does not fit
gives NO_ROOM; and nothing changes (R37, R75, R76, R186). -/
def Obligations.ChannelSetReplacesRecords : Prop :=
  (∀ (s : State) (mask : Byte) (record : ConfigBody) (cfg : ChannelConfig),
    s.Waits (.channelSet mask record) → s.NoClaims →
    (∀ n : Channel, mask.getLsbD n.val = true → (s.chan n).state = .halted) → decodeConfig record = some cfg →
    (∀ (n : Channel) (l : LaneId), mask.getLsbD n.val = true → s.claims.get n = some l →
      (s.lane l).config.rate = cfg.standard.rate) →
    (∀ n : Channel, mask.getLsbD n.val = true → s.reserveHeld n ≤ cfg.quota) →
    (allChannels.map fun n => (if mask.getLsbD n.val then cfg.quota else s.quota n) - s.reserveHeld n).sum
      ≤ s.freeCount →
    ∃ t : State, exec (.channelSet mask record) s = .next t ∧
      t = { s with chans := t.chans, attn := t.attn }.setHandedBack (.channelSet mask record)
        { code := .done, bytes := [] } ∧
      (∀ n : Channel, t.chan n = if mask.getLsbD n.val then { s.chan n with config := cfg } else s.chan n) ∧
      t.attn = s.attn.handOver (s.freeCount
        - (allChannels.map fun n => (if mask.getLsbD n.val then cfg.quota else s.quota n) - s.reserveHeld n).sum)) ∧
    (∀ (s : State) (mask : Byte) (record : ConfigBody) (n : Channel), s.Waits (.channelSet mask record) →
      s.NoClaims → mask.getLsbD n.val = true → (s.chan n).state ≠ .halted →
      exec (.channelSet mask record) s =
        .next (s.setHandedBack (.channelSet mask record) { code := .wrongState, bytes := [] })) ∧
    ∀ (s : State) (mask : Byte) (record : ConfigBody), s.Waits (.channelSet mask record) → s.NoClaims →
      (∀ n : Channel, mask.getLsbD n.val = true → (s.chan n).state = .halted) →
      (decodeConfig record = none → exec (.channelSet mask record) s =
        .next (s.setHandedBack (.channelSet mask record) { code := .range, bytes := [] })) ∧
      ∀ cfg : ChannelConfig, decodeConfig record = some cfg →
        (∀ (n : Channel) (l : LaneId), mask.getLsbD n.val = true → s.claims.get n = some l →
          (s.lane l).config.rate ≠ cfg.standard.rate → exec (.channelSet mask record) s =
            .next (s.setHandedBack (.channelSet mask record) { code := .range, bytes := [] })) ∧
        ((∀ (n : Channel) (l : LaneId), mask.getLsbD n.val = true → s.claims.get n = some l →
            (s.lane l).config.rate = cfg.standard.rate) →
          ∀ n : Channel, mask.getLsbD n.val = true →
          cfg.quota < s.reserveHeld n ∨ s.freeCount
            < (allChannels.map fun n => (if mask.getLsbD n.val then cfg.quota else s.quota n) - s.reserveHeld n).sum →
          exec (.channelSet mask record) s =
            .next (s.setHandedBack (.channelSet mask record) { code := .noRoom, bytes := [] }))

/-- CHANNEL_START moves every masked channel to SEEKING, its counts and the marks of its sequencer cleared, its window
empty and its monitor reset, when all of them may start, and changes nothing when one may not. The DETACHED condition
of a masked channel that was DETACHED ends, and then a level that was not NORMAL latches the level change. That window
and marks are cleared at once, and a current entry stands, where a release of a DETACHED channel still waits is the
model's choice (log 44; R14, R18, R19, R21, R77, R178, R179). -/
def Obligations.ChannelStartSeeksLock : Prop :=
  ∀ (s : State) (mask : Byte), s.Waits (.channelStart mask) →
    ((∀ n : Channel, mask.getLsbD n.val = true →
        (s.chan n).state = .halted ∨ (s.chan n).state = .detached ∧ (s.chan n).port.rejoinCount = 64) →
      ∃ t : State, exec (.channelStart mask) s = .next t ∧
        t = { s with chans := t.chans, attn := t.attn }.setHandedBack (.channelStart mask)
          { code := .done, bytes := [] } ∧
        (∀ n : Channel, (mask.getLsbD n.val = false → t.chan n = s.chan n) ∧
          (mask.getLsbD n.val = true → t.chan n = { s.chan n with
            state := .seeking
            port := { (s.chan n).port with
              faultCount := 0, lockCount := 0, rejoinCount := 0, previous := none, slot := none
              silence := .stopped, receiver := .searching }
            window := Window.empty
            relatch := false
            stepOpen := false
            tally := 0
            latchedGen := none
            lastSet := none
            monitor := Monitor.reset })) ∧
        LeavesDetached s t mask fun n latch =>
          if (s.chan n).level = .normal then latch else { latch with levelChange := true, mark := false }) ∧
    ∀ n : Channel, mask.getLsbD n.val = true →
      ¬((s.chan n).state = .halted ∨ (s.chan n).state = .detached ∧ (s.chan n).port.rejoinCount = 64) →
      exec (.channelStart mask) s =
        .next (s.setHandedBack (.channelStart mask) { code := .wrongState, bytes := [] })

/-- CHANNEL_HALT completes at its taking when no masked channel has a job in flight or a release to wait for: all of
them are HALTED, their records, counters and monitors kept. A masked channel with a job in flight stays HALTING, and
the request stays with its owner. A masked RUNNING channel with a current entry makes a release claim and waits HALTING
for it, its window, marks and current entry as they were; that its latched generation and last latched set stand with
them till the taking is the model's inference (log 39). The DETACHED condition of a masked channel that was DETACHED ends
at the taking, and no PORT event is latched (R21, R44, R73, R78, R85, R178, R179). -/
def Obligations.ChannelHaltCompletesOrWaits : Prop :=
  (∀ (s : State) (mask : Byte), s.Waits (.channelHalt mask) →
    (∀ n : Channel, mask.getLsbD n.val = true → s.inFlight n = false ∧ (s.chan n).currentEntry = none ∧
      (s.chan n).releaseWaits = false ∧ (s.chan n).state ≠ .halting) →
    ∃ t : State, exec (.channelHalt mask) s = .next t ∧
      t = { s with chans := t.chans, attn := t.attn }.setHandedBack (.channelHalt mask)
        { code := .done, bytes := [] } ∧
      LeavesDetached s t mask (fun _ latch => latch) ∧
      ∀ n : Channel, (mask.getLsbD n.val = false ∨ (s.chan n).state = .halted → t.chan n = s.chan n) ∧
        (mask.getLsbD n.val = true → (s.chan n).state ≠ .halted → t.chan n = { s.chan n with
          state := .halted
          port := { (s.chan n).port with
            lockCount := 0, rejoinCount := 0, previous := none, slot := none, silence := .stopped
            receiver := .searching }
          window := Window.empty
          relatch := false
          stepOpen := false
          tally := 0
          latchedGen := none
          lastSet := none
          cancelOrder := true })) ∧
    (∀ (s : State) (mask : Byte) (n : Channel), s.Waits (.channelHalt mask) → mask.getLsbD n.val = true →
      s.inFlight n = true → (s.chan n).state = .seeking ∨ (s.chan n).state = .running ∨ (s.chan n).state = .detached →
      ∃ t : State, exec (.channelHalt mask) s = .next t ∧ (t.chan n).state = .halting ∧
        t = { s with
          chans := t.chans, attn := t.attn, link := { s.link with flight := .carried (.channelHalt mask) } } ∧
        LeavesDetached s t mask (fun _ latch => latch) ∧ ∀ m : Channel, mask.getLsbD m.val = false → t.chan m = s.chan m) ∧
    ∀ (s : State) (mask : Byte) (n : Channel) (e : Handle), s.Waits (.channelHalt mask) → mask.getLsbD n.val = true →
      (s.chan n).state = .running → (s.chan n).currentEntry = some e → (s.chan n).releaseWaits = false →
      ∃ t : State, exec (.channelHalt mask) s = .next t ∧
        t.chan n = { s.chan n with
          state := .halting
          sequencerClaim := some (.release false)
          port := { (s.chan n).port with
            lockCount := 0, rejoinCount := 0, previous := none, slot := none, silence := .stopped
            receiver := .searching } } ∧
        t = { s with
          chans := t.chans, attn := t.attn, link := { s.link with flight := .carried (.channelHalt mask) } } ∧
        LeavesDetached s t mask (fun _ latch => latch) ∧ ∀ m : Channel, mask.getLsbD m.val = false → t.chan m = s.chan m

/-- CHANNEL_READ and LANE_READ report the items of their channel or lane, each at its offset in 66 and 13 + 6k bytes,
and, with the clear flag, then set every counter to 0; nothing else changes. It holds for every flags byte: that bits 2
and 1, which the spec names nowhere, are ignored is the model's choice, and that a NEXT_TICK cue has the number 0 its
inference (logs 40 and 24; R79, R102, R158, R185). -/
def Obligations.CounterReadsReportAndClear : Prop :=
  (∀ (s : State) (channel flags : Byte) (n : Channel), s.Waits (.channelRead channel flags) →
    channel.toNat = n.val →
    ∃ bytes : List Byte, ChannelReadIs (s.chan n) bytes ∧ exec (.channelRead channel flags) s = .next
      ((if flags.getLsbD 0 then s.modChan n fun c =>
          { c with
            port := { c.port with counters := PortCounters.zero }
            noneSteps := 0
            doubleSteps := 0
            monitorCounters := MonitorCounters.zero }
        else s).setHandedBack (.channelRead channel flags) { code := .done, bytes := bytes })) ∧
    (∀ (s : State) (lane flags : Byte) (l : LaneId), s.Waits (.laneRead lane flags) → lane.toNat = l.val →
      ∃ bytes : List Byte, LaneReadIs (s.lane l) bytes ∧ exec (.laneRead lane flags) s = .next
        ((if flags.getLsbD 0 then s.modLane l fun x => { x with counters := LaneCounters.zero }
          else s).setHandedBack (.laneRead lane flags) { code := .done, bytes := bytes })) ∧
    (∀ (s : State) (channel flags : Byte), s.Waits (.channelRead channel flags) → 7 < channel.toNat →
      exec (.channelRead channel flags) s =
        .next (s.setHandedBack (.channelRead channel flags) { code := .range, bytes := [] })) ∧
    ∀ (s : State) (lane flags : Byte), s.Waits (.laneRead lane flags) → 3 < lane.toNat →
      exec (.laneRead lane flags) s =
        .next (s.setHandedBack (.laneRead lane flags) { code := .range, bytes := [] })

/-- A SYNC_SNAPSHOT for a lane that is not IDLE, with the store empty, waits with the link BUSY; its refusals, RANGE
for a lane above 3, WRONG_STATE and IN_USE, change nothing. The end of its wait completes it with WRONG_STATE and
leaves the store empty. At the tick of its lane it is recorded, for each masked channel in ascending order, and
completes with DONE; that it is recorded after the tick's other parts is the model's inference (log 27; R91). -/
def Obligations.SyncSnapshotWaitsAndRecords : Prop :=
  ((∀ (s : State) (mask lane : Byte) (l : LaneId), s.Waits (.syncSnapshot mask lane) → lane.toNat = l.val →
    ((s.lane l).state = .idle → exec (.syncSnapshot mask lane) s =
      .next (s.setHandedBack (.syncSnapshot mask lane) { code := .wrongState, bytes := [] })) ∧
    ((s.lane l).state ≠ .idle → s.store.snapshot ≠ none → exec (.syncSnapshot mask lane) s =
      .next (s.setHandedBack (.syncSnapshot mask lane) { code := .inUse, bytes := [] })) ∧
    ((s.lane l).state ≠ .idle → s.store.snapshot = none → exec (.syncSnapshot mask lane) s =
      .next { s with
        store := { snapshot := none, waiting := some (mask, l) }
        link := { s.link with flight := .carried (.syncSnapshot mask lane) } })) ∧
    (∀ (s : State) (mask lane : Byte), s.Waits (.syncSnapshot mask lane) → 3 < lane.toNat →
      exec (.syncSnapshot mask lane) s =
        .next (s.setHandedBack (.syncSnapshot mask lane) { code := .range, bytes := [] })) ∧
    ∀ (s : State) (mask lane : Byte) (l : LaneId), s.store = { snapshot := none, waiting := some (mask, l) } →
      s.link.flight = .carried (.syncSnapshot mask lane) →
      exec .snapshotWaitExpiry s = .next { s with
        store := { snapshot := none, waiting := none }
        link := { s.link with
          flight := .handedBack (.syncSnapshot mask lane) { code := .wrongState, bytes := [] } } }) ∧
    ∀ (s : State) (mask lane : Byte) (l : LaneId), s.store.waiting = some (mask, l) →
      s.link.flight = .carried (.syncSnapshot mask lane) →
      ∃ (t : State) (x : Snapshot), exec (.laneTick l) s = .next t ∧ t.store = { snapshot := some x, waiting := none } ∧
        t.link.flight = .handedBack (.syncSnapshot mask lane) { code := .done, bytes := [] } ∧ x.lane = l ∧
        x.items.map SnapshotItem.channel = allChannels.filter (fun n => mask.getLsbD n.val) ∧
        ∀ i : SnapshotItem, i ∈ x.items → i.state = (t.chan i.channel).state ∧
          i.position = if (t.chan i.channel).state = .running then
              (t.chan i.channel).window.newer.map fun f => (f.field.key, f.field.number)
            else none

/-- SYNC_READ returns the snapshot and empties the store, or answers NO_ENTRY. No other command but a pin reset and
the store's part of a UNIT_RESET changes a snapshot that is held, and both of these empty the store. A link reset
leaves the store and a pending SYNC_SNAPSHOT unchanged (R92). -/
def Obligations.SyncReadEmptiesStore : Prop :=
  (∀ (s : State) (x : Snapshot), s.Waits .syncRead → s.store.snapshot = some x → exec .syncRead s =
    .next ({ s with store := { s.store with snapshot := none } }.setHandedBack .syncRead
      { code := .done, bytes := [byte x.lane.val, byte x.items.length] ++ x.items.flatMap SnapshotItem.bytes })) ∧
    (∀ i : SnapshotItem, i.bytes =
      match i.position with
      | some (key, number) => [byte i.channel.val ||| 0x80, i.state.code] ++ bytes32 key ++ bytes24 number
      | none => [byte i.channel.val, i.state.code, 0, 0, 0, 0, 0, 0, 0]) ∧
    (∀ s : State, s.Waits .syncRead → s.store.snapshot = none → exec .syncRead s =
      .next (s.setHandedBack .syncRead { code := .noEntry, bytes := [] })) ∧
    (∀ (s t : State) (c : Instr) (x : Snapshot), s.store = { snapshot := some x, waiting := none } →
      exec c s = .next t → c ≠ .syncRead → (∀ k : BitVec 3, c ≠ .pinReset k) →
      c ≠ .unitResetSnapshotStorePart → t.store = s.store) ∧
    (∀ (s : State) (k : BitVec 3), ∃ t : State, exec (.pinReset k) s = .next t ∧ t.store.snapshot = none) ∧
    (∀ (s : State) (p : ResetProgress), s.unitReset = some p → p.store = false →
      ∃ t : State, exec .unitResetSnapshotStorePart s = .next t ∧ t.store.snapshot = none) ∧
    ∀ s : State, ∃ t : State, exec .linkReset s = .next t ∧ t.store = s.store ∧ t.link.flight = s.link.flight

/-! ## Profile Bank and scaler pool -/

/-- PROFILE_WRITE replaces the indexed profile in full, PROFILE_READ reports it; an index above 15 or a record out of
range gives RANGE and changes nothing (R126, R127). -/
def Obligations.ProfileRequests : Prop :=
  (∀ (s : State) (index : Byte) (record : BitVec 48) (i : ProfileIdx) (p : Profile),
    s.Waits (.profileWrite index record) → index.toNat = i.val → decodeProfile record = some p →
    exec (.profileWrite index record) s =
      .next ({ s with profiles := setAt s.profiles i p }.setHandedBack (.profileWrite index record)
        { code := .done, bytes := [] })) ∧
    (∀ (s : State) (index : Byte) (record : BitVec 48), s.Waits (.profileWrite index record) →
      15 < index.toNat ∨ decodeProfile record = none →
      exec (.profileWrite index record) s =
        .next (s.setHandedBack (.profileWrite index record) { code := .range, bytes := [] })) ∧
    (∀ (s : State) (index : Byte) (i : ProfileIdx), s.Waits (.profileRead index) → index.toNat = i.val →
      exec (.profileRead index) s = .next (s.setHandedBack (.profileRead index)
        { code := .done, bytes := bytes48 (encodeProfile (s.profiles.get i)) })) ∧
    ∀ (s : State) (index : Byte), s.Waits (.profileRead index) → 15 < index.toNat →
      exec (.profileRead index) s = .next (s.setHandedBack (.profileRead index) { code := .range, bytes := [] })

/-- A start takes the request with the smallest deadline distance, PROGRAM before ARMED, then the lower lane, onto the
lowest-numbered IDLE engine, which copies fields, profile and raster (R129, R130). -/
def Obligations.JobStartTakesChosenRequest : Prop :=
  ∀ (s : State) (e : EngineId) (r : RenderRequest), s.engines.get e = none →
    (∀ f : EngineId, f < e → s.engines.get f ≠ none) → r ∈ s.queue →
    (∀ q : RenderRequest, q ∈ s.queue → q ≠ r → Sooner r q) →
    exec .jobStart s = .next { s with
      queue := s.queue.erase r
      engines := setAt s.engines e (some (s.startCopy r)) }

/-- At a completion the frame is placed among its lane's ready frames of its role, by its deadline, or discarded; the
engine becomes IDLE and the arbiter acts: with nothing queued it stays IDLE, and with the other engines BUSY, as they
are in every state of the pool's law that has a request queued, the queued request that goes first by distance, role
and lane leaves the queue and starts on it, copying its fields, profile and raster. Every other request stays queued
and every other job on its engine. A HALTING channel without another job becomes HALTED, and a CHANNEL_HALT that waited
for it alone completes; no other state of a channel and no other request in flight is changed. A channel whose cancel
order is still on its way receives no frame either, halted or not, and the start comes before the report: the model's
inferences (logs 38 and 20; R73, R78, R129 to R131, R133, R142). -/
def Obligations.JobCompletionDeliversFrame : Prop :=
  ∀ (s : State) (e : EngineId) (j : Job), s.engines.get e = some j →
    ∃ t : State, exec (.jobCompletion e) s = .next t ∧
      t = { s with
        chans := t.chans, queue := t.queue, engines := t.engines, lanes := t.lanes
        link := { s.link with flight := t.link.flight } } ∧ HaltAnswered s t ∧
      (∀ m : Channel, m ≠ j.request.channel → t.chan m = s.chan m) ∧
      t.chan j.request.channel =
        { s.chan j.request.channel with state := (t.chan j.request.channel).state } ∧
      ((s.chan j.request.channel).state ≠ .halting → t.chans = s.chans) ∧
      (∀ f : EngineId, f ≠ e → s.engines.get f ≠ none → t.engines.get f = s.engines.get f) ∧
      (s.queue = [] → t.engines = setAt s.engines e none ∧ t.queue = []) ∧
      (∀ r : RenderRequest, r ∈ s.queue → (∀ f : EngineId, f ≠ e → s.engines.get f ≠ none) →
        (∀ q : RenderRequest, q ∈ s.queue → q ≠ r → Sooner r q) →
        t.engines = setAt s.engines e (some (s.startCopy r)) ∧ t.queue = s.queue.erase r) ∧
      PoolAfter { s with engines := setAt s.engines e none } t (fun _ => false) id ∧
      (∀ m : LaneId, m ≠ j.request.lane → t.lane m = s.lane m) ∧
      ((s.chan j.request.channel).state = .halting ∨ (s.chan j.request.channel).cancelOrder = true →
        t.lanes = s.lanes) ∧
      ((s.chan j.request.channel).state = .halting → (s.chan j.request.channel).releaseWaits = false →
        t.inFlight j.request.channel = false → (t.chan j.request.channel).state = .halted) ∧
      ((s.chan j.request.channel).releaseWaits = true ∨ t.inFlight j.request.channel = true → t.chans = s.chans) ∧
      ((s.chan j.request.channel).state ≠ .halting → (s.chan j.request.channel).cancelOrder = false →
        j.request.role = .program →
        (s.lane j.request.lane).state ≠ .idle → (s.lane j.request.lane).source = some j.request.channel →
        t.lane j.request.lane = { s.lane j.request.lane with
          programFrames :=
            if j.request.distance ≤ 1 then { (s.lane j.request.lane).programFrames with next := some j.frame }
            else { (s.lane j.request.lane).programFrames with after := some j.frame } }) ∧
      ((s.chan j.request.channel).state ≠ .halting → (s.chan j.request.channel).cancelOrder = false →
        j.request.role = .armed →
        (s.lane j.request.lane).cues.head?.map Cue.target = some (some j.request.channel) →
        t.lane j.request.lane = { s.lane j.request.lane with
          armedFrames :=
            if j.request.distance ≤ 1 then { (s.lane j.request.lane).armedFrames with next := some j.frame }
            else { (s.lane j.request.lane).armedFrames with after := some j.frame } }) ∧
      ((j.request.role = .program → (s.lane j.request.lane).source ≠ some j.request.channel) →
        (j.request.role = .armed →
          (s.lane j.request.lane).cues.head?.map Cue.target ≠ some (some j.request.channel)) →
        t.lanes = s.lanes)

/-- The pool takes a withdraw order: the channel's queued request leaves uncounted and its jobs go on. It takes a
cancel order: request and jobs of the channel go, all others stay, and the arbiter acts on the freed engines; a HALTING
channel with no release waiting becomes HALTED, with which a CHANNEL_HALT that waited for it alone completes; no other
request in flight is changed (R73, R78, R129, R130, R133). -/
def Obligations.SequencerOrdersTaken : Prop :=
  (∀ (s : State) (n : Channel), (s.chan n).withdrawOrder = true →
    exec (.withdrawOrder n) s = .next { s.modChan n fun c => { c with withdrawOrder := false } with
      queue := s.queue.filter fun r => r.channel ≠ n }) ∧
    ∀ (s : State) (n : Channel), (s.chan n).cancelOrder = true →
      ∃ t : State, exec (.cancelOrder n) s = .next t ∧ PoolAfter s t (fun r => r.channel == n) id ∧
        t.inFlight n = false ∧
        t = { s with
          chans := t.chans, queue := t.queue, engines := t.engines
          link := { s.link with flight := t.link.flight } } ∧ HaltAnswered s t ∧
        (∀ m : Channel, m ≠ n → t.chan m = s.chan m) ∧
        t.chan n = { s.chan n with cancelOrder := false, state := (t.chan n).state } ∧
        ((s.chan n).state = .halting → (s.chan n).releaseWaits = false → (t.chan n).state = .halted) ∧
        ((s.chan n).state ≠ .halting ∨ (s.chan n).releaseWaits = true → (t.chan n).state = (s.chan n).state)

/-- At a lane's tick, after its take check, each queued request of the lane at distance 1 is withdrawn and counted
late, and each job of the lane at distance 1 is cancelled and counted. Every other request and job of the lane comes
one nearer to its deadline, a job on its engine and as it was otherwise; those of other lanes are untouched. A HALTING
channel becomes HALTED with its last job. The arbiter acts at the end: the model's inference (log 20). A take check
that takes no cue changes nothing. The two deadline rows are that tick, whole: the model's choice (log 8; R73, R129,
R130, R132, R144, R158). -/
def Obligations.DeadlinesWithdrawAndCancel : Prop :=
  ((∀ (s : State) (l : LaneId) (r : RenderRequest), r ∈ (s.takePart l).queue → r.lane = l → r.distance ≤ 1 →
    ∃ t : State, exec (.deadlineWithdrawal l r.channel) s = .next t ∧ exec (.laneTick l) s = .next t ∧
      TickFrame s t l ∧ (t.lane l).counters.late = bump (s.lane l).counters.late
        ((s.takePart l).queue.countP fun q => q.lane == l && q.distance ≤ 1) ∧
      ∀ q : RenderRequest, q ∈ t.queue → q.lane = l → 1 ≤ q.distance) ∧
    ∀ (s : State) (l : LaneId) (e : EngineId) (j : Job), (s.takePart l).engines.get e = some j →
      j.request.lane = l → j.request.distance ≤ 1 →
      ∃ t : State, exec (.deadlineCancellation l e) s = .next t ∧ exec (.laneTick l) s = .next t ∧ TickFrame s t l ∧
        (t.lane l).counters.cancelled = bump (s.lane l).counters.cancelled
          ((s.takePart l).engines.toList.countP (jobDue l)) ∧
        ∀ (f : EngineId) (i : Job), t.engines.get f = some i → i.request.lane = l → 1 ≤ i.request.distance) ∧
  (∀ (s : State) (l : LaneId), ∃ t : State, exec (.laneTick l) s = .next t ∧
    PoolAfter (s.takePart l) t (dueAt l) (fun r => if r.lane = l then { r with distance := r.distance - 1 } else r) ∧
    HaltsOnCancel (s.takePart l) t (dueAt l)) ∧
  ∀ (s : State) (l : LaneId),
    (s.lane l).state = .idle ∨ (∀ c : Cue, (s.lane l).cues.head? = some c → (s.lane l).conditionHolds c = false) →
    s.takePart l = s

/-! ## Output lanes -/

/-- A tick of a lane in PROGRAM whose head cue is not taken emits the fresh frame due, or repeats the last frame and
counts the hold. An IDLE lane ignores its tick. Neither changes the lane's members of the CUE and STARVED latches. At
any tick of a lane that is not IDLE, each RUNNING channel that it claims after the take check judges its step, and a
channel released by the take has its step open mark and its tally cleared (`StepsJudged`). The field `output` is the
model's view of the lane's connection, and that the step counters stay at 65,535 is its choice (logs 4 and 41; R90,
R141, R143, R144, R145, R149). -/
def Obligations.TickEmitsOrHolds : Prop :=
  (∀ (s : State) (l : LaneId), (s.lane l).state = .program →
    (∀ c : Cue, (s.lane l).cues.head? = some c → (s.lane l).conditionHolds c = false) →
    (∀ f : Frame, (s.lane l).programFrames.next = some f →
      ∃ t : State, exec (.laneTick l) s = .next t ∧ TickFrame s t l ∧ LaneLatchesKept s t l ∧ t.claims = s.claims ∧
        t.lane l = { s.lane l with
          output := .frame f
          lastFrame := some f
          holdCount := 0
          programFrames := { next := (s.lane l).programFrames.after, after := none }
          armedFrames := { next := (s.lane l).armedFrames.after, after := none }
          counters := (t.lane l).counters } ∧
        (t.lane l).counters.emitted = bump (s.lane l).counters.emitted 1 ∧
        (t.lane l).counters.held = (s.lane l).counters.held) ∧
    ∀ f : Frame, (s.lane l).programFrames.next = none → (s.lane l).lastFrame = some f →
      (s.lane l).holdCount + 1 < (s.lane l).config.holdLimit →
      ∃ t : State, exec (.laneTick l) s = .next t ∧ TickFrame s t l ∧ LaneLatchesKept s t l ∧ t.claims = s.claims ∧
        t.lane l = { s.lane l with
          output := .frame f
          holdCount := (s.lane l).holdCount + 1
          programFrames := { next := (s.lane l).programFrames.after, after := none }
          armedFrames := { next := (s.lane l).armedFrames.after, after := none }
          counters := (t.lane l).counters } ∧
        (t.lane l).counters.held = bump (s.lane l).counters.held 1 ∧
        (t.lane l).counters.emitted = (s.lane l).counters.emitted) ∧
    (∀ (s : State) (l : LaneId), (s.lane l).state = .idle → ∃ t : State, exec (.laneTick l) s = .next t ∧
      TickFrame s t l ∧ LaneLatchesKept s t l ∧ t.claims = s.claims ∧
      t.lane l = { s.lane l with counters := (t.lane l).counters } ∧
      (t.lane l).counters.held = (s.lane l).counters.held ∧
      (t.lane l).counters.emitted = (s.lane l).counters.emitted) ∧
    ∀ (s : State) (l : LaneId), (s.lane l).state ≠ .idle →
      ∃ t : State, exec (.laneTick l) s = .next t ∧ TickFrame s t l ∧ StepsJudged s t l ∧
        ((∀ c : Cue, (s.lane l).cues.head? = some c → (s.lane l).conditionHolds c = false) → t.claims = s.claims)

/-- The tick at which the hold count reaches the hold limit repeats the last frame once more and enters
SLATE/STARVED: the slate is sampled, STARVED latched and its condition holds. The row is that tick, whole (the model's
choice, log 8). A tick in SLATE that takes no cue emits the sampled slate, but for a program frame due in SLATE/STARVED,
which returns the lane to PROGRAM and ends the condition. No other member of the lane in the attention unit is changed.
The field `output` is the model's view of the lane's connection (log 4; R145, R146, R148, R178, R179). -/
def Obligations.StarvationShowsSlate : Prop :=
  (∀ (s : State) (l : LaneId) (f : Frame), (s.lane l).state = .program →
    (∀ c : Cue, (s.lane l).cues.head? = some c → (s.lane l).conditionHolds c = false) →
    (s.lane l).programFrames.next = none → (s.lane l).lastFrame = some f →
    (s.lane l).config.holdLimit ≤ (s.lane l).holdCount + 1 →
    ∃ t : State, exec (.starvation l) s = .next t ∧ exec (.laneTick l) s = .next t ∧
      TickFrame s t l ∧ t.claims = s.claims ∧
      t.lane l = { s.lane l with
        state := .slateStarved
        output := .frame f
        sampledSlate := some (s.lane l).config.slate
        holdCount := (s.lane l).holdCount + 1
        programFrames := { next := (s.lane l).programFrames.after, after := none }
        armedFrames := { next := (s.lane l).armedFrames.after, after := none }
        counters := (t.lane l).counters } ∧
      (t.lane l).counters.held = bump (s.lane l).counters.held 1 ∧
      (t.lane l).counters.emitted = (s.lane l).counters.emitted ∧
      t.attn.starvedCond.get l = true ∧ t.attn.starved.get l = { set := true, mark := false } ∧
      t.attn.cue.get l = s.attn.cue.get l) ∧
    ∀ (s : State) (l : LaneId), (∀ c : Cue, (s.lane l).cues.head? = some c → (s.lane l).conditionHolds c = false) →
      (∀ r : SlateRecord, (s.lane l).state = .slateNoProgram → (s.lane l).sampledSlate = some r →
        ∃ t : State, exec (.laneTick l) s = .next t ∧ TickFrame s t l ∧ LaneLatchesKept s t l ∧ t.claims = s.claims ∧
          t.lane l = { s.lane l with
            output := .slate r (s.lane l).config.raster
            programFrames := { next := (s.lane l).programFrames.after, after := none }
            armedFrames := { next := (s.lane l).armedFrames.after, after := none }
            counters := (t.lane l).counters } ∧
          (t.lane l).counters.held = (s.lane l).counters.held ∧
          (t.lane l).counters.emitted = (s.lane l).counters.emitted) ∧
      (∀ f : Frame, (s.lane l).state = .slateStarved → (s.lane l).programFrames.next = some f →
        ∃ t : State, exec (.laneTick l) s = .next t ∧ TickFrame s t l ∧ t.claims = s.claims ∧
          t.lane l = { s.lane l with
            state := .program
            output := .frame f
            lastFrame := some f
            holdCount := 0
            sampledSlate := (t.lane l).sampledSlate
            programFrames := { next := (s.lane l).programFrames.after, after := none }
            armedFrames := { next := (s.lane l).armedFrames.after, after := none }
            counters := (t.lane l).counters } ∧
          (t.lane l).counters.held = (s.lane l).counters.held ∧
          (t.lane l).counters.emitted = bump (s.lane l).counters.emitted 1 ∧ StarvedEnds s t l ∧
          t.attn.cue.get l = s.attn.cue.get l) ∧
      ∀ r : SlateRecord, (s.lane l).state = .slateStarved → (s.lane l).programFrames.next = none →
        (s.lane l).sampledSlate = some r →
        ∃ t : State, exec (.laneTick l) s = .next t ∧ TickFrame s t l ∧ LaneLatchesKept s t l ∧ t.claims = s.claims ∧
          t.lane l = { s.lane l with
            output := .slate r (s.lane l).config.raster
            programFrames := { next := (s.lane l).programFrames.after, after := none }
            armedFrames := { next := (s.lane l).armedFrames.after, after := none }
            counters := (t.lane l).counters } ∧
          (t.lane l).counters.held = bump (s.lane l).counters.held 1 ∧
          (t.lane l).counters.emitted = (s.lane l).counters.emitted

/-- A tick that takes a cue to another channel emits that channel's armed frame, makes it the program source, releases
the old source unless a remaining cue names it, and latches the cue as taken; the old source's PROGRAM request and jobs
are cancelled, uncounted, and the new source's ARMED ones go on as PROGRAM. A cue to SLATE is always taken and shows
the slate, and the old source's PROGRAM request and jobs are cancelled, uncounted. Every other request and job is as at
a tick without a take. A HALTING channel becomes HALTED with its last job. A released channel has its step open mark
and its tally cleared, and nothing else of it changes. Each of these ends a starved condition of the lane. A cue to the
program source is always taken and only leaves the list: all else is as at a tick of the lane without cues. The field
`output` is the model's view of the lane's connection, that the arbiter acts at the end of the tick its inference, and
that the step counters stay at 65,535 its choice (logs 4, 20 and 41; R73, R90, R129, R130, R132, R134, R148, R149,
R154, R155, R156, R158, R178, R179). -/
def Obligations.TickTakesArmedCue : Prop :=
  (∀ (s : State) (l : LaneId) (c : Cue) (rest : List Cue) (x : Channel) (f : Frame), (s.lane l).state ≠ .idle →
    (s.lane l).cues = c :: rest → c.target = some x → (s.lane l).source ≠ some x →
    (s.lane l).armedFrames.next = some f →
    (∀ number : FieldNum, c.trigger = .atField number → number.toNat ≤ f.number.toNat) →
    ∃ t : State, exec (.laneTick l) s = .next t ∧ TickFrame s t l ∧
      t.lane l = { s.lane l with
        state := .program
        source := some x
        output := .frame f
        lastFrame := some f
        holdCount := 0
        cues := rest
        sampledSlate := none
        programFrames := { next := (s.lane l).armedFrames.after, after := none }
        armedFrames := { next := none, after := none }
        counters := (t.lane l).counters } ∧
      (t.lane l).counters.emitted = bump (s.lane l).counters.emitted 1 ∧
      (t.lane l).counters.held = (s.lane l).counters.held ∧ CountsAtTake s t l ∧
      t.attn.cue.get l = { s.attn.cue.get l with taken := true } ∧ StarvedEnds s t l ∧
      PoolAfter s t (fun r => namedBy l (s.lane l).source .program r || dueAt l r) (fun r =>
        if r.lane = l then
          { r with role := if r.channel = x then .program else r.role, distance := r.distance - 1 }
        else r) ∧
      HaltsOnCancel s t (fun r => namedBy l (s.lane l).source .program r || dueAt l r) ∧
      StepsJudged s t l ∧
      (∀ y : Channel, (s.lane l).source = some y → s.claims.get y = some l →
        t.claims.get y = if rest.any (fun c => c.target == some y) then some l else none) ∧
      ∀ n : Channel, (s.lane l).source ≠ some n → t.claims.get n = s.claims.get n) ∧
    ∀ (s : State) (l : LaneId) (c : Cue) (rest : List Cue), (s.lane l).state ≠ .idle → (s.lane l).cues = c :: rest →
      (c.target = none →
        ∃ t : State, exec (.laneTick l) s = .next t ∧ TickFrame s t l ∧
          t.lane l = { s.lane l with
            state := .slateNoProgram
            source := none
            lastFrame := none
            holdCount := 0
            cues := rest
            sampledSlate := if (s.lane l).state = .slateNoProgram then (s.lane l).sampledSlate
              else some (s.lane l).config.slate
            programFrames := { next := none, after := none }
            armedFrames := { next := (s.lane l).armedFrames.after, after := none }
            output := (t.lane l).output
            counters := (t.lane l).counters } ∧
          (∀ r : SlateRecord, (t.lane l).sampledSlate = some r →
            (t.lane l).output = .slate r (s.lane l).config.raster) ∧
          (t.lane l).counters.held = (s.lane l).counters.held ∧
          (t.lane l).counters.emitted = (s.lane l).counters.emitted ∧ CountsAtTake s t l ∧
          t.attn.cue.get l = { s.attn.cue.get l with taken := true } ∧ StarvedEnds s t l ∧
          PoolAfter s t (fun r => namedBy l (s.lane l).source .program r || dueAt l r)
            (fun r => if r.lane = l then { r with distance := r.distance - 1 } else r) ∧
          HaltsOnCancel s t (fun r => namedBy l (s.lane l).source .program r || dueAt l r) ∧
          StepsJudged s t l ∧
          (∀ y : Channel, (s.lane l).source = some y → s.claims.get y = some l →
            t.claims.get y = if rest.any (fun c => c.target == some y) then some l else none) ∧
          ∀ n : Channel, (s.lane l).source ≠ some n → t.claims.get n = s.claims.get n) ∧
      ∀ x : Channel, c.target = some x → (s.lane l).source = some x →
        ∃ t u : State, exec (.laneTick l) s = .next t ∧ TickFrame s t l ∧
          exec (.laneTick l) (s.modLane l fun lane => { lane with cues := [] }) = .next u ∧
          t = { u with lanes := t.lanes, attn := { u.attn with cue := t.attn.cue } } ∧
          t.lane l = { u.lane l with cues := rest } ∧ (t.lane l).source = some x ∧ t.claims = s.claims ∧
          t.attn.cue.get l = { s.attn.cue.get l with taken := true }

/-- LANE_SET that enables an IDLE lane leaves it SLATE/NO_PROGRAM with its slate sampled; one that changes the raster
or the rate of a lane that is not IDLE is refused; one that disables a lane removes its cues and frames, the requests
and jobs of the channels it claims with no count, and its claims, and the lane is IDLE and quiet with its cue counter
and counters kept. All other requests and jobs stay, a released channel has its step open mark and its tally cleared, a
HALTING one becomes HALTED with its last job, and of the attention unit only the aborted cause and the starved
condition of the lane change. One that leaves an enabled lane enabled, or an IDLE lane disabled, changes the stored
configuration only. A lane above 3 or a record out of range gives RANGE and changes nothing. The field `output` is the
model's view of the lane's connection, and that the arbiter acts after the lane's orders its inference (logs 4 and 20;
R73, R90, R129, R130, R134, R138, R139, R140, R148, R149, R178, R179). -/
def Obligations.LaneSetEnablesOrDisables : Prop :=
  (∀ (s : State) (lane : Byte) (record : BitVec 48) (l : LaneId) (cfg : LaneConfig),
    s.Waits (.laneSet lane record) → lane.toNat = l.val → decodeLaneConfig record = some cfg →
    ((s.lane l).state = .idle → cfg.enabled = true → exec (.laneSet lane record) s = .next
      ((s.modLane l fun x =>
        { x with
          config := cfg
          state := .slateNoProgram
          source := none
          programFrames := { next := none, after := none }
          armedFrames := { next := none, after := none }
          lastFrame := none
          holdCount := 0
          sampledSlate := some cfg.slate
          cues := [] }).setHandedBack (.laneSet lane record) { code := .done, bytes := [] })) ∧
    ((s.lane l).state ≠ .idle → cfg.raster ≠ (s.lane l).config.raster ∨ cfg.rate ≠ (s.lane l).config.rate →
      exec (.laneSet lane record) s =
        .next (s.setHandedBack (.laneSet lane record) { code := .wrongState, bytes := [] })) ∧
    (cfg.enabled = false ∧ (s.lane l).state = .idle ∨
        cfg.enabled = true ∧ (s.lane l).state ≠ .idle ∧ cfg.raster = (s.lane l).config.raster ∧
          cfg.rate = (s.lane l).config.rate →
      exec (.laneSet lane record) s = .next ((s.modLane l fun x => { x with config := cfg }).setHandedBack
        (.laneSet lane record) { code := .done, bytes := [] }))) ∧
    (∀ (s : State) (lane : Byte) (record : BitVec 48), s.Waits (.laneSet lane record) →
      3 < lane.toNat ∨ decodeLaneConfig record = none → exec (.laneSet lane record) s =
        .next (s.setHandedBack (.laneSet lane record) { code := .range, bytes := [] })) ∧
    ∀ (s : State) (lane : Byte) (record : BitVec 48) (l : LaneId) (cfg : LaneConfig),
      s.Waits (.laneSet lane record) → lane.toNat = l.val → decodeLaneConfig record = some cfg →
      cfg.enabled = false → (s.lane l).state ≠ .idle → cfg.raster = (s.lane l).config.raster →
      cfg.rate = (s.lane l).config.rate →
      ∃ t : State, exec (.laneSet lane record) s = .next t ∧
        t.lane l =
          { config := cfg, state := .idle, source := none, programFrames := { next := none, after := none },
            armedFrames := { next := none, after := none }, lastFrame := none, holdCount := 0, sampledSlate := none,
            cues := [], cueCounter := (s.lane l).cueCounter, counters := (s.lane l).counters, output := .quiet } ∧
        (∀ m : LaneId, m ≠ l → t.lane m = s.lane m) ∧
        (∀ n : Channel, t.claims.get n = if s.claims.get n = some l then none else s.claims.get n) ∧
        PoolAfter s t (fun r => r.lane == l && s.claims.get r.channel == some l) id ∧
        HaltsOnCancel s t (fun r => r.lane == l && s.claims.get r.channel == some l) ∧
        t.attn = { s.attn with
          cue := t.attn.cue, starved := t.attn.starved, starvedCond := t.attn.starvedCond } ∧
        (∀ m : LaneId, m ≠ l → LaneLatchesKept s t m) ∧
        t.attn.cue.get l = (if (s.lane l).cues = [] then s.attn.cue.get l
          else { s.attn.cue.get l with aborted := true }) ∧
        StarvedEnds s t l ∧
        (∀ n : Channel, s.claims.get n = some l → Released s t n) ∧
        (∀ n : Channel, s.claims.get n ≠ some l → t.chan n = s.chan n) ∧
        t = { s with
          chans := t.chans, claims := t.claims, queue := t.queue, engines := t.engines, lanes := t.lanes
          attn := t.attn }.setHandedBack (.laneSet lane record) { code := .done, bytes := [] }

/-- An accepted CUE_ADD puts the cue at the tail with the cue counter as its number, raises the counter, and begins
the lane's claim on a channel target it did not claim. Its refusals, in their order, change nothing: RANGE for lane,
target or trigger, WRONG_STATE, NO_ROOM, and for a channel target IN_USE and RANGE for the rate (R149, R151, R152). -/
def Obligations.CueAddJoinsTailOrRefuses : Prop :=
  (∀ (s : State) (lane target trigger : Byte) (number : FieldNum) (l : LaneId) (g : Trigger),
    s.Waits (.cueAdd lane target trigger number) → lane.toNat = l.val → triggerOf trigger number = some g →
    (s.lane l).state ≠ .idle → (s.lane l).cues.length < 4 →
    (target = 8 → exec (.cueAdd lane target trigger number) s = .next
      ((s.modLane l fun x =>
        { x with
          cues := x.cues ++ [{ number := x.cueCounter, target := none, trigger := g }]
          cueCounter := x.cueCounter + 1 }).setHandedBack (.cueAdd lane target trigger number)
        { code := .done, bytes := [(s.lane l).cueCounter] })) ∧
    ∀ n : Channel, target.toNat = n.val → s.claims.get n = none ∨ s.claims.get n = some l →
      (s.chan n).config.standard.rate = (s.lane l).config.rate →
      ∃ t : State, exec (.cueAdd lane target trigger number) s = .next t ∧
        t = { s with chans := t.chans, claims := t.claims, lanes := t.lanes }.setHandedBack
          (.cueAdd lane target trigger number) { code := .done, bytes := [(s.lane l).cueCounter] } ∧
        (∀ m : LaneId, m ≠ l → t.lane m = s.lane m) ∧ (∀ m : Channel, m ≠ n → t.chan m = s.chan m) ∧
        t.chan n = { s.chan n with stepOpen := (t.chan n).stepOpen, tally := (t.chan n).tally } ∧
        t.lane l = { s.lane l with
          cues := (s.lane l).cues ++ [{ number := (s.lane l).cueCounter, target := some n, trigger := g }]
          cueCounter := (s.lane l).cueCounter + 1 } ∧
        t.claims.get n = some l ∧ (∀ m : Channel, m ≠ n → t.claims.get m = s.claims.get m) ∧
        (s.claims.get n = none → (t.chan n).stepOpen = false ∧ (t.chan n).tally = 0) ∧
        (s.claims.get n = some l → t.chan n = s.chan n)) ∧
    (∀ (s : State) (lane target trigger : Byte) (number : FieldNum), s.Waits (.cueAdd lane target trigger number) →
      3 < lane.toNat ∨ 8 < target.toNat ∨ triggerOf trigger number = none →
      exec (.cueAdd lane target trigger number) s =
        .next (s.setHandedBack (.cueAdd lane target trigger number) { code := .range, bytes := [] })) ∧
    (∀ (s : State) (lane trigger : Byte) (number : FieldNum) (l : LaneId) (g : Trigger),
      s.Waits (.cueAdd lane 8 trigger number) → lane.toNat = l.val → triggerOf trigger number = some g →
      ((s.lane l).state = .idle → exec (.cueAdd lane 8 trigger number) s =
        .next (s.setHandedBack (.cueAdd lane 8 trigger number) { code := .wrongState, bytes := [] })) ∧
      ((s.lane l).state ≠ .idle → 4 ≤ (s.lane l).cues.length → exec (.cueAdd lane 8 trigger number) s =
        .next (s.setHandedBack (.cueAdd lane 8 trigger number) { code := .noRoom, bytes := [] }))) ∧
    ∀ (s : State) (lane target trigger : Byte) (number : FieldNum) (l : LaneId) (n : Channel) (g : Trigger),
      s.Waits (.cueAdd lane target trigger number) → lane.toNat = l.val → target.toNat = n.val →
      triggerOf trigger number = some g →
      exec (.cueAdd lane target trigger number) s =
          .next (s.setHandedBack (.cueAdd lane target trigger number) { code := .wrongState, bytes := [] }) ∧
          (s.lane l).state = .idle ∨
        (s.lane l).state ≠ .idle ∧
          (4 ≤ (s.lane l).cues.length → exec (.cueAdd lane target trigger number) s =
            .next (s.setHandedBack (.cueAdd lane target trigger number) { code := .noRoom, bytes := [] })) ∧
          ((s.lane l).cues.length < 4 → s.claims.get n ≠ none → s.claims.get n ≠ some l →
            exec (.cueAdd lane target trigger number) s =
              .next (s.setHandedBack (.cueAdd lane target trigger number) { code := .inUse, bytes := [] })) ∧
          ((s.lane l).cues.length < 4 → s.claims.get n = none ∨ s.claims.get n = some l →
            (s.chan n).config.standard.rate ≠ (s.lane l).config.rate →
            exec (.cueAdd lane target trigger number) s =
              .next (s.setHandedBack (.cueAdd lane target trigger number) { code := .range, bytes := [] }))

/-- CUE_ABORT removes the one cue that bears the number and latches it as aborted; at the head it discards the ARMED
frames and cancels the ARMED request and jobs of a channel target that is not the program source, all others staying in
the pool, with which a HALTING target becomes HALTED with its last job; elsewhere it gives the pool no order. The
target's claim is released unless the lane still needs it: its step open mark and its tally are then cleared, and
nothing else of a channel changes. A number that no cue of the lane bears gives NO_ENTRY, a lane above 3 RANGE, and
then nothing changes. That the arbiter acts at the end of the abort is the model's inference (log 20; R73, R90, R129,
R130, R134, R149, R157). -/
def Obligations.CueAbortRemovesCue : Prop :=
  (∀ (s : State) (lane cue : Byte) (l : LaneId) (before after : List Cue) (c : Cue),
    s.Waits (.cueAbort lane cue) → lane.toNat = l.val → (s.lane l).cues = before ++ c :: after → c.number = cue →
    (∀ d : Cue, d ∈ before → d.number ≠ cue) → (∀ d : Cue, d ∈ after → d.number ≠ cue) →
    ∃ t : State, exec (.cueAbort lane cue) s = .next t ∧
      t = { s with
        chans := t.chans, claims := t.claims, queue := t.queue, engines := t.engines, lanes := t.lanes
        attn := s.attn.latchAborted l }.setHandedBack (.cueAbort lane cue) { code := .done, bytes := [] } ∧
      (∀ m : LaneId, m ≠ l → t.lane m = s.lane m) ∧
      (∀ n : Channel, c.target ≠ some n → t.chan n = s.chan n) ∧
      t.lane l = { s.lane l with
        cues := before ++ after
        armedFrames := if before = [] then { next := none, after := none } else (s.lane l).armedFrames } ∧
      (∀ n : Channel, t.claims.get n =
        if c.target = some n ∧ s.claims.get n = some l ∧ (s.lane l).source ≠ some n
            ∧ (before ++ after).any (fun d => d.target == some n) = false then none
        else s.claims.get n) ∧
      (∀ n : Channel, t.claims.get n ≠ s.claims.get n → Released s t n) ∧
      (∀ n : Channel, t.claims.get n = s.claims.get n → t.chan n = { s.chan n with state := (t.chan n).state }) ∧
      (before = [] → (s.lane l).source ≠ c.target →
        PoolAfter s t (namedBy l c.target .armed) id ∧ HaltsOnCancel s t (namedBy l c.target .armed)) ∧
      (before ≠ [] ∨ (s.lane l).source = c.target ∨ c.target = none →
        (∀ n : Channel, (t.chan n).state = (s.chan n).state) ∧
        (s.PoolLaw → t.queue = s.queue ∧ t.engines = s.engines))) ∧
  (∀ (s : State) (lane cue : Byte) (l : LaneId), s.Waits (.cueAbort lane cue) → lane.toNat = l.val →
    (∀ c : Cue, c ∈ (s.lane l).cues → c.number ≠ cue) →
    exec (.cueAbort lane cue) s = .next (s.setHandedBack (.cueAbort lane cue) { code := .noEntry, bytes := [] })) ∧
  ∀ (s : State) (lane cue : Byte), s.Waits (.cueAbort lane cue) → 3 < lane.toNat →
    exec (.cueAbort lane cue) s = .next (s.setHandedBack (.cueAbort lane cue) { code := .range, bytes := [] })

/-- The pictures an output shows. A FLAT slate is its colour everywhere on the raster; BARS takes the first colours of
the fixed sequence from the left edge, bar by bar, and the last bar's colour in the width left over. A formed picture has
2L lines, and under every recipe CURRENT's mask makes twice its counts of lines black at the top and at the bottom; WEAVE
is the two fields line by line. The region is the picture moved by the trims, black where it reaches beyond it. PILLARBOX
shows the pillar colour in the columns to each side, CENTRE_CROP cuts the same rows at the top and at the bottom, STRETCH
shows the whole region. That a picture with absent fields has its lines and its black rows, and that a scaled place is
named by its row and column, are the model's choices (logs 18 and 19; R119 to R125, R147). -/
def Obligations.SlatePicture : Prop :=
  (∀ (c : Colour) (column : Nat), (SlateRecord.flat c).colourAt column = c) ∧
    (∀ (count width column : Nat), 0 < width → column < count * width →
      (SlateRecord.bars count width).colourAt column = barColour (column / width)) ∧
    (∀ (count width column : Nat), 0 < width → 0 < count → count * width ≤ column →
      (SlateRecord.bars count width).colourAt column = barColour (count - 1)) ∧
    (List.range 8).map (fun k => ((barColour k).y.toNat, (barColour k).cb.toNat, (barColour k).cr.toNat)) =
      [(235, 128, 128), (210, 16, 146), (170, 166, 16), (145, 54, 34), (106, 202, 222), (81, 90, 240),
        (41, 240, 110), (16, 128, 128)] ∧
    (∀ (record : SlateRecord) (raster : Raster) (row column : Nat), row < raster.size.2 → column < raster.size.1 →
      (Emission.slate record raster).shownAt row column = some (.colour (record.colourAt column))) ∧
    (∀ (kind : RecipeKind) (mask : Option Mask) (lineCount : Nat) (fields : List (Option Field)),
      (∀ f : Field, some f ∈ fields → f.activeLines.length = lineCount) →
      (formPicture kind mask lineCount fields).length = 2 * lineCount ∧
      ∀ (m : Mask) (i : Nat), mask = some m → i < 2 * lineCount →
        i < 2 * m.top.val ∨ 2 * lineCount ≤ i + 2 * m.bottom.val →
        (formPicture kind mask lineCount fields)[i]? = some (.known blackLine)) ∧
    (∀ (f p : Field) (lineCount k : Nat) (x y : List Byte), f.activeLines.length = lineCount →
      p.activeLines.length = lineCount → f.activeLines[k]? = some x → p.activeLines[k]? = some y →
      (formPicture .weave none lineCount [some f, some p])[2 * k]? =
          some (.known (if f.parity = .upper then x else y)) ∧
        (formPicture .weave none lineCount [some f, some p])[2 * k + 1]? =
          some (.known (if f.parity = .upper then y else x))) ∧
    (∀ (f : Frame) (row column : Nat), row < f.picture.length → column < 720 →
      (∀ (line : PictureLine) (r c : Nat), (r : Int) = row + 2 * f.profile.verticalTrim →
        (c : Int) = column + f.profile.horizontalTrim → c < 720 → f.picture[r]? = some line →
        f.regionAt row column = some (.sample line c)) ∧
      ((row : Int) + 2 * f.profile.verticalTrim < 0 ∨
          (f.picture.length : Int) ≤ row + 2 * f.profile.verticalTrim ∨
          (column : Int) + f.profile.horizontalTrim < 0 ∨ 720 ≤ (column : Int) + f.profile.horizontalTrim →
        f.regionAt row column = some (.colour { y := 16, cb := 128, cr := 128 }))) ∧
    ∀ (f : Frame) (width height side cut row column : Nat),
      (f.raster = .r1920x1080 ∧ width = 1920 ∧ height = 1080 ∧ side = 240 ∧ cut = 180 ∨
        f.raster = .r1280x720 ∧ width = 1280 ∧ height = 720 ∧ side = 160 ∧ cut = 120 ∨
        f.raster = .r3840x2160 ∧ width = 3840 ∧ height = 2160 ∧ side = 480 ∧ cut = 360) →
      row < height → column < width →
      (f.profile.aspect = .pillarbox →
        f.placement = { width := width - 2 * side, height := height, side := side, cut := 0 } ∧
        f.shownAt row column =
          if column < side ∨ width ≤ column + side then some (.colour f.profile.pillar)
          else some (.scaled row (column - side))) ∧
      (f.profile.aspect = .centreCrop →
        f.placement = { width := width, height := height + 2 * cut, side := 0, cut := cut } ∧
        f.shownAt row column = some (.scaled (row + cut) column)) ∧
      (f.profile.aspect = .stretch →
        f.placement = { width := width, height := height, side := 0, cut := 0 } ∧
        f.shownAt row column = some (.scaled row column))

/-! ## Attention unit -/

/-- ATTN_ACK clears every named source, but for the members of a LEVEL source whose condition holds: these stay,
marked. Sources not named and all else are unchanged. The completion latches REQUEST unless the acknowledgement named
it. The line is pulled low exactly while an enabled source is set (R167, R177, R180). -/
def Obligations.AttnAckClearsOrMarks : Prop :=
  (∀ (s : State) (sources : Byte), s.Waits (.attnAck sources) →
    ∃ t u : State, exec (.attnAck sources) s = .next t ∧
      t = { s with attn := t.attn }.setHandedBack (.attnAck sources) { code := .done, bytes := [] } ∧
      t.attn = { s.attn with
        port := t.attn.port
        starved := t.attn.starved
        tableLow := t.attn.tableLow
        proposal := if sources.getLsbD 3 then Vector.replicate 8 false else s.attn.proposal
        cue := if sources.getLsbD 4 then Vector.replicate 4 { taken := false, aborted := false } else s.attn.cue
        step := if sources.getLsbD 5 then Vector.replicate 8 { none := false, double := false } else s.attn.step
        request := !sources.getLsbD 6 && s.attn.request } ∧
      (∀ n : Channel, t.attn.port.get n =
        if sources.getLsbD 0 = false then s.attn.port.get n
        else if s.attn.portMode = .edge ∨ s.attn.detachedCond.get n = false then PortLatch.clear
        else if (s.attn.port.get n).inLatch then { s.attn.port.get n with mark := true }
        else s.attn.port.get n) ∧
      (∀ l : LaneId, t.attn.starved.get l =
        if sources.getLsbD 1 = false then s.attn.starved.get l
        else if s.attn.starvedMode = .edge ∨ s.attn.starvedCond.get l = false then MarkedLatch.clear
        else if (s.attn.starved.get l).set then { set := true, mark := true }
        else s.attn.starved.get l) ∧
      t.attn.tableLow =
        (if sources.getLsbD 2 = false then s.attn.tableLow
        else if s.attn.tableLowMode = .edge ∨ s.attn.tableLowCond = false then MarkedLatch.clear
        else if s.attn.tableLow.set then { set := true, mark := true }
        else s.attn.tableLow) ∧
      exec .requestCompletion t = .next u ∧
      u.attn = { t.attn with request := t.attn.request || !sources.getLsbD 6 }) ∧
    ∀ a : Attn, a.line = true ↔ ∃ k : Fin 7, a.setSources.getLsbD k.val = true ∧ a.enables.getLsbD k.val = true

/-- ATTN_SET replaces enables, modes and threshold, clears the marked members of a source that goes from LEVEL to
EDGE, and compares the last shared free with the new threshold; a threshold above 1023 or a reserved mode gives RANGE
and changes nothing. A hand-over of a shared free, at whatever event it comes, replaces the last shared free and compares
it with the threshold: below it the table is low, TABLE_LOW being latched where it was not low before; at or above it the
condition ends, with which a marked TABLE_LOW leaves its latch (R34, R178, R179, R182). -/
def Obligations.AttnSetReplacesSettings : Prop :=
  (∀ (a : Attn) (free : Nat), a.handOver free = { a with
    lastSharedFree := free
    tableLowCond := decide (free < a.threshold)
    tableLow :=
      if a.tableLowCond = false ∧ free < a.threshold then { set := true, mark := false }
      else if a.tableLowCond = true ∧ a.threshold ≤ free ∧ a.tableLow.mark = true then MarkedLatch.clear
      else a.tableLow }) ∧
  ∀ (s : State) (enables modes : Byte) (threshold : BitVec 16), s.Waits (.attnSet enables modes threshold) →
    (1023 < threshold.toNat ∨ modes.getLsbD 1 = true ∨ modes.getLsbD 3 = true ∨ modes.getLsbD 5 = true →
      exec (.attnSet enables modes threshold) s =
        .next (s.setHandedBack (.attnSet enables modes threshold) { code := .range, bytes := [] })) ∧
    (threshold.toNat ≤ 1023 → modes.getLsbD 1 = false → modes.getLsbD 3 = false → modes.getLsbD 5 = false →
      ∃ t : State, exec (.attnSet enables modes threshold) s = .next t ∧
        t = { s with attn := t.attn }.setHandedBack (.attnSet enables modes threshold)
          { code := .done, bytes := [] } ∧
        t.attn = { s.attn with
          enables := enables.extractLsb' 0 7
          portMode := if modes.getLsbD 0 then .level else .edge
          starvedMode := if modes.getLsbD 2 then .level else .edge
          tableLowMode := if modes.getLsbD 4 then .level else .edge
          threshold := threshold.toNat
          port := t.attn.port
          starved := t.attn.starved
          tableLow := t.attn.tableLow
          tableLowCond := decide (s.attn.lastSharedFree < threshold.toNat) } ∧
        (∀ n : Channel, t.attn.port.get n =
          if s.attn.portMode = .level ∧ modes.getLsbD 0 = false ∧ (s.attn.port.get n).mark = true then PortLatch.clear
          else s.attn.port.get n) ∧
        (∀ l : LaneId, t.attn.starved.get l =
          if s.attn.starvedMode = .level ∧ modes.getLsbD 2 = false ∧ (s.attn.starved.get l).mark = true then
            MarkedLatch.clear
          else s.attn.starved.get l) ∧
        (s.attn.tableLowCond = false → s.attn.lastSharedFree < threshold.toNat →
          t.attn.tableLow = { set := true, mark := false }) ∧
        (s.attn.tableLowCond = true → threshold.toNat ≤ s.attn.lastSharedFree → s.attn.tableLow.mark = true →
          t.attn.tableLow = MarkedLatch.clear) ∧
        (s.attn.tableLowCond = true → s.attn.lastSharedFree < threshold.toNat → s.attn.tableLow.mark = true →
          t.attn.tableLow = if s.attn.tableLowMode = .level ∧ modes.getLsbD 4 = false then MarkedLatch.clear
            else s.attn.tableLow) ∧
        (s.attn.tableLow.mark = false → (s.attn.lastSharedFree < threshold.toNat → s.attn.tableLowCond = true) →
          t.attn.tableLow = s.attn.tableLow))

/-! ## Management link -/

/-- An unchecked piece that opens a transaction, its command byte accepted: the payload is staged as far as 64 bytes
reach, the overflow mark is set by a byte beyond them, and LAST launches the staged request or writes BAD_REQUEST. A
piece without RESULT is refused while BUSY, and so are a reserved bit and RESULT with FIRST or LAST at any time. A
repeated start keeps the transaction; a stop condition, and a start or stop condition within a byte, end it after its
last complete byte, all alike. The field `acks` is the model's view of the wires (log 4), and that a condition within a
byte comes as the ending of the complete bytes before it its inference (log 42; R161, R162, R163, R166, R167, R171). -/
def Obligations.UncheckedPieceStagesAndLaunches : Prop :=
  (∀ (s : State) (address : BitVec 7) (bytes : List Byte) (low : Nat) (ending : Ending), ending ≠ .repeatedStart →
    ∃ t : State, exec (.uncheckedPiece address bytes low ending) s = .next t ∧
      exec (.uncheckedPiece address bytes low .stop) s = .next t ∧ t.link.transaction = none) ∧
  (∀ (s : State) (c : Byte) (payload staged : List Byte) (overflowed : Bool) (low : Nat) (ending : Ending),
    s.link.transaction = none → low < 30 → c.extractLsb' 0 4 = 0 → isChecked c = false → isResult c = false →
    s.link.flight = .idle → s.link.staging.length ≤ 64 →
    staged = (if isFirst c then [] else s.link.staging) →
    overflowed = (if isFirst c then false else s.link.overflow) →
    ∃ t : State, exec (.uncheckedPiece s.link.address (c :: payload) low ending) s = .next t ∧
      t.link.acks = [true, true] ++ (payload.take (64 - staged.length)).map (fun _ => true)
        ++ (payload.drop (64 - staged.length)).map (fun _ => false) ∧
      (ending = .repeatedStart → t.link.transaction =
        some { command := some c, received := c :: payload, readPending := none, clockLow := low }) ∧
      (isLast c = false →
        t = { s with link := { s.link with
          staging := staged ++ payload.take (64 - staged.length)
          overflow := overflowed || decide (64 < staged.length + payload.length)
          acks := t.link.acks
          transaction := t.link.transaction } }) ∧
      (isLast c = true → LastJudged s t (staged ++ payload.take (64 - staged.length))
        (overflowed || decide (64 < staged.length + payload.length)))) ∧
    ∀ (s : State) (c : Byte) (payload : List Byte) (low : Nat) (ending : Ending), s.link.transaction = none →
      low < 30 → isResult c = false ∧ s.link.flight ≠ .idle ∨ c.extractLsb' 0 4 ≠ 0 ∨
        isResult c = true ∧ (isFirst c = true ∨ isLast c = true) →
      ∃ t : State, exec (.uncheckedPiece s.link.address (c :: payload) low ending) s = .next t ∧
        t = { s with link := { s.link with acks := t.link.acks, transaction := t.link.transaction } } ∧
        t.link.acks = [true, false] ++ payload.map (fun _ => false)

/-- A checked piece that opens a transaction, its command byte accepted: with a right check byte its payload is staged,
and LAST launches the staged request or, after an overflow or where the bytes are no request, writes BAD_REQUEST; bytes
after that check byte are refused. With a wrong check byte, none, or no count byte, the partial request is discarded
and CHECK_FAIL is written. A count beyond the room is refused with the overflow mark set and nothing staged; a count
above 64 is refused without the mark, as the model reads R164 (log 21); LAST then judges what was staged before. A
command byte that is refused, without RESULT while BUSY, with a reserved bit, or with RESULT and FIRST or LAST, changes
nothing. A receiver that runs the check over the bytes and their check byte obtains 0 exactly when the check byte is
right. Every ending but a repeated start ends the transaction after its last complete byte. The field `acks` is the
model's view of the wires (log 4); that a repeated start before the check byte ends the piece, and that a condition
within a byte comes as the ending of the complete bytes before it, are its inferences (logs 31 and 42; R161, R162, R164
to R167). -/
def Obligations.CheckedPieceStandsOrFails : Prop :=
  (∀ (s : State) (address : BitVec 7) (bytes : List Byte) (low : Nat) (ending : Ending), ending ≠ .repeatedStart →
    ∃ t : State, exec (.checkedPiece address bytes low ending) s = .next t ∧
      exec (.checkedPiece address bytes low .stop) s = .next t ∧ t.link.transaction = none) ∧
  (∀ (s : State) (c : Byte) (staged : List Byte) (overflowed : Bool) (low : Nat) (ending : Ending),
    s.link.transaction = none → low < 30 → c.extractLsb' 0 4 = 0 → isChecked c = true → isResult c = false →
    s.link.flight = .idle →
    staged = (if isFirst c then [] else s.link.staging) →
    overflowed = (if isFirst c then false else s.link.overflow) →
    (∀ (count check : Byte) (payload extra : List Byte), count.toNat = payload.length →
      staged.length + payload.length ≤ 64 → check = crc8 (writeAddress s.link.address :: c :: count :: payload) →
      ∃ t : State,
        exec (.checkedPiece s.link.address (c :: count :: (payload ++ check :: extra)) low ending) s = .next t ∧
        t.link.acks = List.replicate (payload.length + 4) true ++ extra.map (fun _ => false) ∧
        (isLast c = false → t = { s with link := { s.link with
          staging := staged ++ payload, overflow := overflowed, acks := t.link.acks
          transaction := t.link.transaction } }) ∧
        (isLast c = true → LastJudged s t (staged ++ payload) overflowed)) ∧
    (∀ (count check : Byte) (payload : List Byte), count.toNat = payload.length →
      staged.length + payload.length ≤ 64 → check ≠ crc8 (writeAddress s.link.address :: c :: count :: payload) →
      ∃ t : State, exec (.checkedPiece s.link.address (c :: count :: (payload ++ [check])) low ending) s = .next t ∧
        CheckFails s t ∧ t.link.acks = List.replicate (payload.length + 3) true ++ [false]) ∧
    (∀ (count : Byte) (payload : List Byte), payload.length ≤ count.toNat → staged.length + count.toNat ≤ 64 →
      ∃ t : State, exec (.checkedPiece s.link.address (c :: count :: payload) low ending) s = .next t ∧
        CheckFails s t ∧ t.link.acks = List.replicate (payload.length + 3) true) ∧
    (∃ t : State, exec (.checkedPiece s.link.address [c] low ending) s = .next t ∧ CheckFails s t ∧
      t.link.acks = [true, true]) ∧
    (∀ (count : Byte) (rest : List Byte), count.toNat ≤ 64 → 64 < staged.length + count.toNat →
      ∃ t : State, exec (.checkedPiece s.link.address (c :: count :: rest) low ending) s = .next t ∧
        t.link.acks = [true, true, false] ++ rest.map (fun _ => false) ∧
        (isLast c = false → t = { s with link := { s.link with
          staging := staged, overflow := true, acks := t.link.acks, transaction := t.link.transaction } }) ∧
        (isLast c = true → LastJudged s t staged true)) ∧
    (∀ (count : Byte) (rest : List Byte), 64 < count.toNat →
      ∃ t : State, exec (.checkedPiece s.link.address (c :: count :: rest) low ending) s = .next t ∧
        t.link.acks = [true, true, false] ++ rest.map (fun _ => false) ∧
        (isLast c = false → t = { s with link := { s.link with
          staging := staged, overflow := overflowed, acks := t.link.acks
          transaction := t.link.transaction } }) ∧
        (isLast c = true → LastJudged s t staged overflowed)) ∧
    ∀ rest : List Byte, ∃ t : State,
      exec (.checkedPiece s.link.address (c :: rest) low .repeatedStart) s = .next t ∧ t.link.transaction =
        some { command := some c, received := c :: rest, readPending := none, clockLow := low }) ∧
  (∀ (s : State) (c : Byte) (rest : List Byte) (low : Nat) (ending : Ending), s.link.transaction = none →
    low < 30 → isResult c = false ∧ s.link.flight ≠ .idle ∨ c.extractLsb' 0 4 ≠ 0 ∨
      isResult c = true ∧ (isFirst c = true ∨ isLast c = true) →
    ∃ t : State, exec (.checkedPiece s.link.address (c :: rest) low ending) s = .next t ∧
      t = { s with link := { s.link with acks := t.link.acks, transaction := t.link.transaction } } ∧
      t.link.acks = [true, false] ++ rest.map (fun _ => false)) ∧
  ∀ (bytes : List Byte) (check : Byte), crc8 (bytes ++ [check]) = 0 ↔ check = crc8 bytes

/-- A result read sends the status byte, the result length and the result bytes, then the check byte when it was asked
for, then FFh; it changes nothing but the transaction and what the wires show. A read without a command byte is an
unchecked one. Every ending but a repeated start ends the transaction, as the model reads R161 (log 42). The fields
`acks` and `sent` are the model's view of the wires (log 4; R161, R165, R168, R169). -/
def Obligations.ResultReadSendsLastResult : Prop :=
  (∀ (s : State) (address : BitVec 7) (written : List Byte) (clocked low : Nat) (ending : Ending),
    ending ≠ .repeatedStart →
    ∃ t : State, exec (.resultRead address written clocked low ending) s = .next t ∧
      exec (.resultRead address written clocked low .stop) s = .next t ∧ t.link.transaction = none) ∧
  (∀ (s : State) (c : Byte) (extra plain : List Byte) (clocked low : Nat) (ending : Ending),
    s.link.transaction = none → low < 30 → c.extractLsb' 0 4 = 0 → isResult c = true → isFirst c = false →
    isLast c = false →
    plain = s.statusByte :: BitVec.ofNat 8 s.link.lastResult.bytes.length :: s.link.lastResult.bytes →
    ∃ t : State, exec (.resultRead s.link.address (c :: extra) clocked low ending) s = .next t ∧
      t = { s with link := { s.link with
        acks := t.link.acks, sent := t.link.sent, transaction := t.link.transaction } } ∧
      t.link.sent.length = clocked ∧
      ∀ i : Nat, i < clocked → t.link.sent[i]? = some
        (if i < plain.length then plain.getD i 0
        else if i = plain.length ∧ isChecked c = true then
          crc8 (writeAddress s.link.address :: c :: readAddress s.link.address :: plain)
        else 0xFF)) ∧
    (∀ (s : State) (clocked low : Nat) (ending : Ending) (plain : List Byte),
      s.link.transaction = none → low < 30 →
      plain = s.statusByte :: BitVec.ofNat 8 s.link.lastResult.bytes.length :: s.link.lastResult.bytes →
      ∃ t : State, exec (.resultRead s.link.address [] clocked low ending) s = .next t ∧
        t = { s with link := { s.link with
          acks := t.link.acks, sent := t.link.sent, transaction := t.link.transaction } } ∧
        t.link.sent.length = clocked ∧
        ∀ i : Nat, i < clocked → t.link.sent[i]? = some (if i < plain.length then plain.getD i 0 else 0xFF)) ∧
    ∀ s : State, (s.statusByte.getLsbD 7 = true ↔ s.link.flight ≠ .idle) ∧
      (s.statusByte.getLsbD 6 = true ↔ s.attn.setSources ≠ 0) ∧ s.statusByte.getLsbD 5 = false ∧
      s.statusByte.getLsbD 4 = false ∧ (s.statusByte.extractLsb' 0 4).zeroExtend 8 = s.link.lastResult.code.code

/-- A completion writes the result handed back, clears BUSY and latches REQUEST, except for an ATTN_ACK that names
REQUEST. A link reset abandons the transaction, empties the staging buffer and clears the overflow mark, and leaves
BUSY, the request in flight, the last result and everything outside the link unchanged. That a link reset acts where
State holds no transaction is the model's choice (log 36; R167, R171, R180). -/
def Obligations.CompletionWritesResult : Prop :=
  (∀ (s : State) (r : Instr) (res : Result), s.link.flight = .handedBack r res →
    (∀ sources : Byte, r = .attnAck sources → sources.getLsbD 6 = false) →
    exec .requestCompletion s = .next { s with
      link := { s.link with flight := .idle, lastResult := res }
      attn := { s.attn with request := true } }) ∧
    (∀ (s : State) (sources : Byte) (res : Result), s.link.flight = .handedBack (.attnAck sources) res →
      sources.getLsbD 6 = true →
      exec .requestCompletion s = .next { s with link := { s.link with flight := .idle, lastResult := res } }) ∧
    ∀ s : State, exec .linkReset s = .next { s with
      link := { s.link with transaction := none, staging := [], overflow := false } }

/-- The body of a request, read back by the link, is that request with every item as it was sent. -/
def Obligations.BodyDecodesToItsRequest : Prop :=
  ∀ (r : Instr) (body : List Byte), encodeBody r = some body →
    decodeBody body = some r ∧ body.length ≤ 64 ∧ bodyLength (byteAt body 0) = some body.length

/-! ## UNIT_RESET -/

/-- The stages of a UNIT_RESET. First table and channels: RETIRING entries become FREE, their fields but the generation
blank as the model keeps them (log 3), all others keep everything but their users, and channels keep their
configuration records. Then pool, lanes and store, each once: a lane's part releases its claims, with which the step
open mark and the tally of each released channel are cleared and nothing else of a channel changes, and ends a starved
condition of the lane; its output, the model's view of the connection (log 4), changes at the next tick. Then the
attention unit: latches and marks are cleared, and the result is handed back. That waiting claims are not taken first
and that orders on their way go with the pool's part are the model's inferences (logs 23 and 29; R48, R90, R93, R135,
R149, R160, R173, R178, R179, R183). -/
def Obligations.UnitResetRunsInStages : Prop :=
  (∀ s : State, s.Waits .unitReset →
    ∃ t : State, exec .unitReset s = .next t ∧
      t = { s with
        chans := t.chans, table := t.table, attn := t.attn
        link := { s.link with flight := .carried .unitReset }
        unitReset := some { pool := false, lanes := Vector.replicate 4 false, store := false } } ∧
      (∀ n : Channel, (t.chan n).state = .halted ∧ (t.chan n).config = (s.chan n).config ∧
        (t.chan n).window = Window.empty ∧ (t.chan n).currentEntry = none ∧ (t.chan n).relatch = false ∧
        (t.chan n).tally = 0 ∧ (t.chan n).stepOpen = false ∧ (t.chan n).port = Port.reset ∧
        (t.chan n).noneSteps = 0 ∧ (t.chan n).doubleSteps = 0 ∧ (t.chan n).monitor = Monitor.reset ∧
        (t.chan n).monitorCounters = MonitorCounters.zero ∧ (t.chan n).sequencerClaim = none ∧
        (t.chan n).proposalClaim = none ∧
        t.attn.detachedCond.get n = (s.attn.detachedCond.get n && decide ((s.chan n).state ≠ .detached))) ∧
      (∀ h : Handle, t.entry h =
        if (s.entry h).state = .retiring then Entry.free (s.entry h).gen else { s.entry h with useCount := 0 }) ∧
      t.attn.lastSharedFree = t.sharedFree) ∧
    (∀ (s : State) (p : ResetProgress), s.unitReset = some p → p.pool = false →
      ∃ t : State, exec .unitResetPoolPart s = .next t ∧ t.queue = [] ∧
        (∀ e : EngineId, t.engines.get e = none) ∧
        (∀ n : Channel, t.chan n = { s.chan n with withdrawOrder := false, cancelOrder := false }) ∧
        t = { s with
          chans := t.chans, queue := t.queue, engines := t.engines, unitReset := some { p with pool := true } }) ∧
    (∀ (s : State) (p : ResetProgress) (l : LaneId), s.unitReset = some p → p.lanes.get l = false →
      ∃ t : State, exec (.unitResetLanePart l) s = .next t ∧
        t.lane l = { s.lane l with
          state := if (s.lane l).state = .idle then .idle else .slateNoProgram
          source := none
          programFrames := { next := none, after := none }
          armedFrames := { next := none, after := none }
          lastFrame := none
          holdCount := 0
          sampledSlate := if (s.lane l).state = .idle then none else some (s.lane l).config.slate
          cues := []
          counters := { emitted := 0, held := 0, late := 0, cancelled := 0 } } ∧
        (∀ m : LaneId, m ≠ l → t.lane m = s.lane m) ∧
        (∀ n : Channel, t.claims.get n = if s.claims.get n = some l then none else s.claims.get n) ∧
        t.attn = { s.attn with starved := t.attn.starved, starvedCond := t.attn.starvedCond } ∧
        (∀ m : LaneId, m ≠ l → LaneLatchesKept s t m) ∧ StarvedEnds s t l ∧
        (∀ n : Channel, t.chan n =
          if s.claims.get n = some l then { s.chan n with stepOpen := false, tally := 0 } else s.chan n) ∧
        t = { s with
          chans := t.chans, claims := t.claims, lanes := t.lanes, attn := t.attn
          unitReset := some { p with lanes := setAt p.lanes l true } }) ∧
    (∀ (s : State) (p : ResetProgress), s.unitReset = some p → p.store = false →
      exec .unitResetSnapshotStorePart s = .next { s with
        store := { snapshot := none, waiting := none }, unitReset := some { p with store := true } }) ∧
    ∀ (s : State) (p : ResetProgress), s.unitReset = some p → p.pool = true → p.store = true →
      (∀ l : LaneId, p.lanes.get l = true) → s.link.flight = .carried .unitReset →
      ∃ t : State, exec .unitResetAttentionPart s = .next t ∧
        t = { s with attn := t.attn, unitReset := none }.setHandedBack .unitReset { code := .done, bytes := [] } ∧
        t.attn.setSources = 0 ∧
        t.attn = { s.attn with
          port := Vector.replicate 8 PortLatch.clear
          starved := Vector.replicate 4 MarkedLatch.clear
          tableLow := MarkedLatch.clear
          proposal := Vector.replicate 8 false
          cue := Vector.replicate 4 CueLatch.clear
          step := Vector.replicate 8 StepLatch.clear
          request := false }

/-! ## Laws every step keeps -/

/-- The laws of Safety.lean hold in the state after reset. -/
def Obligations.LawsHoldAtReset : Prop :=
  State.reset.LinkLaw ∧ State.reset.PoolLaw ∧ State.reset.ReserveLaw ∧ State.reset.UseLaw ∧ State.reset.SpanLaw ∧
    State.reset.ClaimLaw ∧ State.reset.CueLaw ∧ State.reset.CountLaw

/-- Every step keeps the law of the link: at most 64 staged bytes, and nothing staged while BUSY (R163, R167). -/
def Obligations.StepKeepsLinkLaw : Prop := ∀ s t : State, s.LinkLaw → step s = .next t → t.LinkLaw

/-- Every step keeps the law of the pool: no engine IDLE while a request is queued (R129, R136). -/
def Obligations.StepKeepsPoolLaw : Prop := ∀ s t : State, s.PoolLaw → step s = .next t → t.PoolLaw

/-- Every step keeps the reserve law: H_c at most Q_c, and the outstanding reserve at most F (R34, R37). -/
def Obligations.StepKeepsReserveLaw : Prop := ∀ s t : State, s.ReserveLaw → step s = .next t → t.ReserveLaw

/-- Every step keeps every use count equal to the number of channels whose current entry the entry is (R32). -/
def Obligations.StepKeepsUseLaw : Prop := ∀ s t : State, s.UseLaw → step s = .next t → t.UseLaw

/-- Every step keeps the spans of one key apart (R30, R51, R110). -/
def Obligations.StepKeepsSpanLaw : Prop := ∀ s t : State, s.SpanLaw → step s = .next t → t.SpanLaw

/-- Every step keeps the law of the claims: a channel is claimed by the one lane whose source or cue target it is, at
that lane's rate (R149, R150). -/
def Obligations.StepKeepsClaimLaw : Prop := ∀ s t : State, s.ClaimLaw → step s = .next t → t.ClaimLaw

/-- Every step keeps the port's counts and the step tally in their ranges, and every cue list at 4 cues at most (R7,
R13, R17, R90, R151). -/
def Obligations.StepKeepsCountsInRange : Prop :=
  ∀ s t : State, s.CountLaw ∧ s.CueLaw → step s = .next t → t.CountLaw ∧ t.CueLaw
end

