-- ==== Sys2Proof/Laws/State.lean ====
section
/-! SUPPORT. The small lemmas of State: each update of one part leaves every other field as it was, and reading back
an element gives what was written. -/

namespace Sys2Proof.Machine

/-! ## Elements of a fixed collection -/

theorem get_setAt_same {α : Type} {n : Nat} (v : Vector α n) (i : Fin n) (x : α) : (setAt v i x).get i = x := by
  simp [setAt, Vector.get_eq_getElem]

theorem get_setAt_ne {α : Type} {n : Nat} (v : Vector α n) {i j : Fin n} (x : α) (h : i ≠ j) :
    (setAt v i x).get j = v.get j := by
  have : i.val ≠ j.val := fun e => h (Fin.ext e)
  simp [setAt, Vector.get_eq_getElem, this]

theorem get_setAt {α : Type} {n : Nat} (v : Vector α n) (i j : Fin n) (x : α) :
    (setAt v i x).get j = if i = j then x else v.get j := by
  by_cases h : i = j
  · subst h; simp [get_setAt_same]
  · simp [h, get_setAt_ne]

theorem get_modifyAt {α : Type} {n : Nat} (v : Vector α n) (i j : Fin n) (f : α → α) :
    (modifyAt v i f).get j = if i = j then f (v.get j) else v.get j := by
  unfold modifyAt
  rw [get_setAt]
  by_cases h : i = j
  · subst h; simp
  · simp [h]

/-- Replacing an element by itself changes nothing. -/
theorem setAt_get {α : Type} {n : Nat} (v : Vector α n) (i : Fin n) : setAt v i (v.get i) = v := by
  apply Vector.ext
  intro k hk
  by_cases h : i.val = k
  · subst h; simp [setAt, Vector.get_eq_getElem]
  · simp [setAt, h]

/-! ## One lemma for each field and each update -/

@[simp] theorem modChan_straps (s : State) (n : Channel) (f : Chan → Chan) : (s.modChan n f).straps = s.straps := rfl
@[simp] theorem modChan_claims (s : State) (n : Channel) (f : Chan → Chan) : (s.modChan n f).claims = s.claims := rfl
@[simp] theorem modChan_table (s : State) (n : Channel) (f : Chan → Chan) : (s.modChan n f).table = s.table := rfl
@[simp] theorem modChan_profiles (s : State) (n : Channel) (f : Chan → Chan) : (s.modChan n f).profiles = s.profiles := rfl
@[simp] theorem modChan_queue (s : State) (n : Channel) (f : Chan → Chan) : (s.modChan n f).queue = s.queue := rfl
@[simp] theorem modChan_engines (s : State) (n : Channel) (f : Chan → Chan) : (s.modChan n f).engines = s.engines := rfl
@[simp] theorem modChan_lanes (s : State) (n : Channel) (f : Chan → Chan) : (s.modChan n f).lanes = s.lanes := rfl
@[simp] theorem modChan_store (s : State) (n : Channel) (f : Chan → Chan) : (s.modChan n f).store = s.store := rfl
@[simp] theorem modChan_link (s : State) (n : Channel) (f : Chan → Chan) : (s.modChan n f).link = s.link := rfl
@[simp] theorem modChan_attn (s : State) (n : Channel) (f : Chan → Chan) : (s.modChan n f).attn = s.attn := rfl
@[simp] theorem modChan_unitReset (s : State) (n : Channel) (f : Chan → Chan) : (s.modChan n f).unitReset = s.unitReset := rfl
@[simp] theorem modChan_pending (s : State) (n : Channel) (f : Chan → Chan) : (s.modChan n f).pending = s.pending := rfl

@[simp] theorem modPort_straps (s : State) (n : Channel) (f : Port → Port) : (s.modPort n f).straps = s.straps := rfl
@[simp] theorem modPort_claims (s : State) (n : Channel) (f : Port → Port) : (s.modPort n f).claims = s.claims := rfl
@[simp] theorem modPort_table (s : State) (n : Channel) (f : Port → Port) : (s.modPort n f).table = s.table := rfl
@[simp] theorem modPort_profiles (s : State) (n : Channel) (f : Port → Port) : (s.modPort n f).profiles = s.profiles := rfl
@[simp] theorem modPort_queue (s : State) (n : Channel) (f : Port → Port) : (s.modPort n f).queue = s.queue := rfl
@[simp] theorem modPort_engines (s : State) (n : Channel) (f : Port → Port) : (s.modPort n f).engines = s.engines := rfl
@[simp] theorem modPort_lanes (s : State) (n : Channel) (f : Port → Port) : (s.modPort n f).lanes = s.lanes := rfl
@[simp] theorem modPort_store (s : State) (n : Channel) (f : Port → Port) : (s.modPort n f).store = s.store := rfl
@[simp] theorem modPort_link (s : State) (n : Channel) (f : Port → Port) : (s.modPort n f).link = s.link := rfl
@[simp] theorem modPort_attn (s : State) (n : Channel) (f : Port → Port) : (s.modPort n f).attn = s.attn := rfl
@[simp] theorem modPort_unitReset (s : State) (n : Channel) (f : Port → Port) : (s.modPort n f).unitReset = s.unitReset := rfl
@[simp] theorem modPort_pending (s : State) (n : Channel) (f : Port → Port) : (s.modPort n f).pending = s.pending := rfl

@[simp] theorem modLane_straps (s : State) (l : LaneId) (f : Lane → Lane) : (s.modLane l f).straps = s.straps := rfl
@[simp] theorem modLane_chans (s : State) (l : LaneId) (f : Lane → Lane) : (s.modLane l f).chans = s.chans := rfl
@[simp] theorem modLane_claims (s : State) (l : LaneId) (f : Lane → Lane) : (s.modLane l f).claims = s.claims := rfl
@[simp] theorem modLane_table (s : State) (l : LaneId) (f : Lane → Lane) : (s.modLane l f).table = s.table := rfl
@[simp] theorem modLane_profiles (s : State) (l : LaneId) (f : Lane → Lane) : (s.modLane l f).profiles = s.profiles := rfl
@[simp] theorem modLane_queue (s : State) (l : LaneId) (f : Lane → Lane) : (s.modLane l f).queue = s.queue := rfl
@[simp] theorem modLane_engines (s : State) (l : LaneId) (f : Lane → Lane) : (s.modLane l f).engines = s.engines := rfl
@[simp] theorem modLane_store (s : State) (l : LaneId) (f : Lane → Lane) : (s.modLane l f).store = s.store := rfl
@[simp] theorem modLane_link (s : State) (l : LaneId) (f : Lane → Lane) : (s.modLane l f).link = s.link := rfl
@[simp] theorem modLane_attn (s : State) (l : LaneId) (f : Lane → Lane) : (s.modLane l f).attn = s.attn := rfl
@[simp] theorem modLane_unitReset (s : State) (l : LaneId) (f : Lane → Lane) : (s.modLane l f).unitReset = s.unitReset := rfl
@[simp] theorem modLane_pending (s : State) (l : LaneId) (f : Lane → Lane) : (s.modLane l f).pending = s.pending := rfl

@[simp] theorem setEntry_straps (s : State) (h : Handle) (e : Entry) : (s.setEntry h e).straps = s.straps := rfl
@[simp] theorem setEntry_chans (s : State) (h : Handle) (e : Entry) : (s.setEntry h e).chans = s.chans := rfl
@[simp] theorem setEntry_claims (s : State) (h : Handle) (e : Entry) : (s.setEntry h e).claims = s.claims := rfl
@[simp] theorem setEntry_profiles (s : State) (h : Handle) (e : Entry) : (s.setEntry h e).profiles = s.profiles := rfl
@[simp] theorem setEntry_queue (s : State) (h : Handle) (e : Entry) : (s.setEntry h e).queue = s.queue := rfl
@[simp] theorem setEntry_engines (s : State) (h : Handle) (e : Entry) : (s.setEntry h e).engines = s.engines := rfl
@[simp] theorem setEntry_lanes (s : State) (h : Handle) (e : Entry) : (s.setEntry h e).lanes = s.lanes := rfl
@[simp] theorem setEntry_store (s : State) (h : Handle) (e : Entry) : (s.setEntry h e).store = s.store := rfl
@[simp] theorem setEntry_link (s : State) (h : Handle) (e : Entry) : (s.setEntry h e).link = s.link := rfl
@[simp] theorem setEntry_attn (s : State) (h : Handle) (e : Entry) : (s.setEntry h e).attn = s.attn := rfl
@[simp] theorem setEntry_unitReset (s : State) (h : Handle) (e : Entry) : (s.setEntry h e).unitReset = s.unitReset := rfl
@[simp] theorem setEntry_pending (s : State) (h : Handle) (e : Entry) : (s.setEntry h e).pending = s.pending := rfl

@[simp] theorem setEngine_straps (s : State) (e : EngineId) (j : Option Job) : (s.setEngine e j).straps = s.straps := rfl
@[simp] theorem setEngine_chans (s : State) (e : EngineId) (j : Option Job) : (s.setEngine e j).chans = s.chans := rfl
@[simp] theorem setEngine_claims (s : State) (e : EngineId) (j : Option Job) : (s.setEngine e j).claims = s.claims := rfl
@[simp] theorem setEngine_table (s : State) (e : EngineId) (j : Option Job) : (s.setEngine e j).table = s.table := rfl
@[simp] theorem setEngine_profiles (s : State) (e : EngineId) (j : Option Job) : (s.setEngine e j).profiles = s.profiles := rfl
@[simp] theorem setEngine_queue (s : State) (e : EngineId) (j : Option Job) : (s.setEngine e j).queue = s.queue := rfl
@[simp] theorem setEngine_lanes (s : State) (e : EngineId) (j : Option Job) : (s.setEngine e j).lanes = s.lanes := rfl
@[simp] theorem setEngine_store (s : State) (e : EngineId) (j : Option Job) : (s.setEngine e j).store = s.store := rfl
@[simp] theorem setEngine_link (s : State) (e : EngineId) (j : Option Job) : (s.setEngine e j).link = s.link := rfl
@[simp] theorem setEngine_attn (s : State) (e : EngineId) (j : Option Job) : (s.setEngine e j).attn = s.attn := rfl
@[simp] theorem setEngine_unitReset (s : State) (e : EngineId) (j : Option Job) : (s.setEngine e j).unitReset = s.unitReset := rfl
@[simp] theorem setEngine_pending (s : State) (e : EngineId) (j : Option Job) : (s.setEngine e j).pending = s.pending := rfl

@[simp] theorem modLink_straps (s : State) (f : Link → Link) : (s.modLink f).straps = s.straps := rfl
@[simp] theorem modLink_chans (s : State) (f : Link → Link) : (s.modLink f).chans = s.chans := rfl
@[simp] theorem modLink_claims (s : State) (f : Link → Link) : (s.modLink f).claims = s.claims := rfl
@[simp] theorem modLink_table (s : State) (f : Link → Link) : (s.modLink f).table = s.table := rfl
@[simp] theorem modLink_profiles (s : State) (f : Link → Link) : (s.modLink f).profiles = s.profiles := rfl
@[simp] theorem modLink_queue (s : State) (f : Link → Link) : (s.modLink f).queue = s.queue := rfl
@[simp] theorem modLink_engines (s : State) (f : Link → Link) : (s.modLink f).engines = s.engines := rfl
@[simp] theorem modLink_lanes (s : State) (f : Link → Link) : (s.modLink f).lanes = s.lanes := rfl
@[simp] theorem modLink_store (s : State) (f : Link → Link) : (s.modLink f).store = s.store := rfl
@[simp] theorem modLink_attn (s : State) (f : Link → Link) : (s.modLink f).attn = s.attn := rfl
@[simp] theorem modLink_unitReset (s : State) (f : Link → Link) : (s.modLink f).unitReset = s.unitReset := rfl
@[simp] theorem modLink_pending (s : State) (f : Link → Link) : (s.modLink f).pending = s.pending := rfl

@[simp] theorem modAttn_straps (s : State) (f : Attn → Attn) : (s.modAttn f).straps = s.straps := rfl
@[simp] theorem modAttn_chans (s : State) (f : Attn → Attn) : (s.modAttn f).chans = s.chans := rfl
@[simp] theorem modAttn_claims (s : State) (f : Attn → Attn) : (s.modAttn f).claims = s.claims := rfl
@[simp] theorem modAttn_table (s : State) (f : Attn → Attn) : (s.modAttn f).table = s.table := rfl
@[simp] theorem modAttn_profiles (s : State) (f : Attn → Attn) : (s.modAttn f).profiles = s.profiles := rfl
@[simp] theorem modAttn_queue (s : State) (f : Attn → Attn) : (s.modAttn f).queue = s.queue := rfl
@[simp] theorem modAttn_engines (s : State) (f : Attn → Attn) : (s.modAttn f).engines = s.engines := rfl
@[simp] theorem modAttn_lanes (s : State) (f : Attn → Attn) : (s.modAttn f).lanes = s.lanes := rfl
@[simp] theorem modAttn_store (s : State) (f : Attn → Attn) : (s.modAttn f).store = s.store := rfl
@[simp] theorem modAttn_link (s : State) (f : Attn → Attn) : (s.modAttn f).link = s.link := rfl
@[simp] theorem modAttn_unitReset (s : State) (f : Attn → Attn) : (s.modAttn f).unitReset = s.unitReset := rfl
@[simp] theorem modAttn_pending (s : State) (f : Attn → Attn) : (s.modAttn f).pending = s.pending := rfl

@[simp] theorem modLink_link (s : State) (f : Link → Link) : (s.modLink f).link = f s.link := rfl
@[simp] theorem modAttn_attn (s : State) (f : Attn → Attn) : (s.modAttn f).attn = f s.attn := rfl

/-! ## Reading back an element -/

theorem chan_modChan (s : State) (n m : Channel) (f : Chan → Chan) :
    (s.modChan n f).chan m = if n = m then f (s.chan m) else s.chan m := get_modifyAt s.chans n m f

@[simp] theorem chan_modChan_same (s : State) (n : Channel) (f : Chan → Chan) :
    (s.modChan n f).chan n = f (s.chan n) := by simp [chan_modChan]

theorem chan_modChan_ne (s : State) {n m : Channel} (f : Chan → Chan) (h : n ≠ m) :
    (s.modChan n f).chan m = s.chan m := by simp [chan_modChan, h]

theorem chan_modPort (s : State) (n m : Channel) (f : Port → Port) :
    (s.modPort n f).chan m = if n = m then { s.chan m with port := f (s.chan m).port } else s.chan m :=
  get_modifyAt s.chans n m _

@[simp] theorem chan_modPort_same (s : State) (n : Channel) (f : Port → Port) :
    (s.modPort n f).chan n = { s.chan n with port := f (s.chan n).port } := by simp [chan_modPort]

theorem lane_modLane (s : State) (l m : LaneId) (f : Lane → Lane) :
    (s.modLane l f).lane m = if l = m then f (s.lane m) else s.lane m := get_modifyAt s.lanes l m f

@[simp] theorem lane_modLane_same (s : State) (l : LaneId) (f : Lane → Lane) :
    (s.modLane l f).lane l = f (s.lane l) := by simp [lane_modLane]

theorem lane_modLane_ne (s : State) {l m : LaneId} (f : Lane → Lane) (h : l ≠ m) :
    (s.modLane l f).lane m = s.lane m := by simp [lane_modLane, h]

theorem entry_setEntry (s : State) (h g : Handle) (e : Entry) :
    (s.setEntry h e).entry g = if h = g then e else s.entry g := get_setAt s.table h g e

@[simp] theorem entry_setEntry_same (s : State) (h : Handle) (e : Entry) : (s.setEntry h e).entry h = e := by
  simp [entry_setEntry]

theorem engine_setEngine (s : State) (e f : EngineId) (j : Option Job) :
    (s.setEngine e j).engines.get f = if e = f then j else s.engines.get f := get_setAt s.engines e f j

/-! ## Views of other parts are unchanged -/

@[simp] theorem lane_modChan_frame (s : State) (n : Channel) (f : Chan → Chan) (m : LaneId) : (s.modChan n f).lane m = s.lane m := rfl
@[simp] theorem entry_modChan_frame (s : State) (n : Channel) (f : Chan → Chan) (g : Handle) : (s.modChan n f).entry g = s.entry g := rfl
@[simp] theorem lane_modPort_frame (s : State) (n : Channel) (f : Port → Port) (m : LaneId) : (s.modPort n f).lane m = s.lane m := rfl
@[simp] theorem entry_modPort_frame (s : State) (n : Channel) (f : Port → Port) (g : Handle) : (s.modPort n f).entry g = s.entry g := rfl
@[simp] theorem chan_modLane_frame (s : State) (l : LaneId) (f : Lane → Lane) (m : Channel) : (s.modLane l f).chan m = s.chan m := rfl
@[simp] theorem entry_modLane_frame (s : State) (l : LaneId) (f : Lane → Lane) (g : Handle) : (s.modLane l f).entry g = s.entry g := rfl
@[simp] theorem chan_setEntry_frame (s : State) (h : Handle) (e : Entry) (m : Channel) : (s.setEntry h e).chan m = s.chan m := rfl
@[simp] theorem lane_setEntry_frame (s : State) (h : Handle) (e : Entry) (m : LaneId) : (s.setEntry h e).lane m = s.lane m := rfl
@[simp] theorem chan_setEngine_frame (s : State) (e : EngineId) (j : Option Job) (m : Channel) : (s.setEngine e j).chan m = s.chan m := rfl
@[simp] theorem lane_setEngine_frame (s : State) (e : EngineId) (j : Option Job) (m : LaneId) : (s.setEngine e j).lane m = s.lane m := rfl
@[simp] theorem entry_setEngine_frame (s : State) (e : EngineId) (j : Option Job) (g : Handle) : (s.setEngine e j).entry g = s.entry g := rfl
@[simp] theorem chan_modLink_frame (s : State) (f : Link → Link) (m : Channel) : (s.modLink f).chan m = s.chan m := rfl
@[simp] theorem lane_modLink_frame (s : State) (f : Link → Link) (m : LaneId) : (s.modLink f).lane m = s.lane m := rfl
@[simp] theorem entry_modLink_frame (s : State) (f : Link → Link) (g : Handle) : (s.modLink f).entry g = s.entry g := rfl
@[simp] theorem chan_modAttn_frame (s : State) (f : Attn → Attn) (m : Channel) : (s.modAttn f).chan m = s.chan m := rfl
@[simp] theorem lane_modAttn_frame (s : State) (f : Attn → Attn) (m : LaneId) : (s.modAttn f).lane m = s.lane m := rfl
@[simp] theorem entry_modAttn_frame (s : State) (f : Attn → Attn) (g : Handle) : (s.modAttn f).entry g = s.entry g := rfl

end Sys2Proof.Machine
end

