-- ==== Sys2Proof/Laws/Frames.lean ====
section
/-! SUPPORT. What each shared operation leaves as it was, in four relations between a state and one reached from it:
`Keeps` (what only resets, link commands, the snapshot store and CHANNEL_SET change), `KeepsTable`, `KeepsLanes` and
`KeepsPool`. A lemma `<operation>_<relation>` carries the relation over the operation. -/

set_option linter.unreachableTactic false
set_option linter.unusedTactic false
set_option Elab.async false

namespace Sys2Proof.Machine

/-- Straps, profiles, the stages of a UNIT_RESET and the command queue. -/
def State.fixed (s : State) : BitVec 3 × Vector Profile 16 × Option ResetProgress × List Instr :=
  (s.straps, s.profiles, s.unitReset, s.pending)

/-- The link without its request in flight. -/
def Link.core (k : Link) : Link := { k with flight := .idle }

/-- The later state has the fixed parts, the snapshot store, the link but for the progress of the request in flight,
BUSY, and every configuration record of the earlier one. -/
structure Keeps (s t : State) : Prop where
  fixed : t.fixed = s.fixed
  store : t.store = s.store
  core : t.link.core = s.link.core
  busy : t.link.flight.busy = s.link.flight.busy
  config : ∀ m : Channel, (t.chan m).config = (s.chan m).config

/-- The later state has the table of the earlier one. -/
structure KeepsTable (s t : State) : Prop where
  table : t.table = s.table

/-- The later state has the lanes and claim records of the earlier one. -/
structure KeepsLanes (s t : State) : Prop where
  lanes : t.lanes = s.lanes
  claims : t.claims = s.claims

/-- The later state has the render queue and the engines of the earlier one. -/
structure KeepsPool (s t : State) : Prop where
  queue : t.queue = s.queue
  engines : t.engines = s.engines

theorem Keeps.refl (s : State) : Keeps s s := ⟨rfl, rfl, rfl, rfl, fun _ => rfl⟩
theorem KeepsTable.refl (s : State) : KeepsTable s s := ⟨rfl⟩
theorem KeepsLanes.refl (s : State) : KeepsLanes s s := ⟨rfl, rfl⟩
theorem KeepsPool.refl (s : State) : KeepsPool s s := ⟨rfl, rfl⟩

/-- A relation that each step of a fold carries on is carried on by the fold. -/
theorem foldl_rel {α : Type} {R : State → State → Prop} {s t : State} (f : State → α → State) (l : List α)
    (h : R s t) (step : ∀ (u : State) (a : α), R s u → R s (f u a)) : R s (l.foldl f t) := by
  induction l generalizing t with
  | nil => exact h
  | cons a l ih => exact ih (step t a h)

/-! ## Parts of a channel that keep its configuration record -/

@[simp] theorem flush_config (c : Chan) : c.flush.config = c.config := rfl
@[simp] theorem departed_config (c : Chan) : c.departed.config = c.config := rfl
@[simp] theorem halted_config (c : Chan) : c.halted.config = c.config := rfl
@[simp] theorem depart_config (c : Chan) : c.depart.config = c.config := by
  unfold Chan.depart; repeat' split
  all_goals rfl
@[simp] theorem take_config (c : Chan) (f : Field) : (c.take f).config = c.config := rfl
@[simp] theorem beginShift_config (c : Chan) (a : Arrived) : (c.beginShift a).config = c.config := rfl
@[simp] theorem countStep_config (c : Chan) : c.countStep.config = c.config := rfl
@[simp] theorem latch_config (c : Chan) (f : Field) (x : Option (Handle × Entry)) :
    (c.latch f x).config = c.config := by
  unfold Chan.latch; repeat' split
  all_goals rfl
@[simp] theorem observeNewer_config (c : Chan) : c.observeNewer.config = c.config := by
  unfold Chan.observeNewer; split <;> rfl
@[simp] theorem started_config (c : Chan) : c.started.config = c.config := rfl
@[simp] theorem clearCounters_config (c : Chan) : c.clearCounters.config = c.config := rfl

/-! ## The plain updates -/

theorem modChan_keeps {s t : State} (h : Keeps s t) (n : Channel) {f : Chan → Chan}
    (hf : ∀ c : Chan, (f c).config = c.config) : Keeps s (t.modChan n f) :=
  ⟨h.fixed, h.store, h.core, h.busy, fun m => by rw [chan_modChan]; split <;> simp [hf, h.config m]⟩
theorem modPort_keeps {s t : State} (h : Keeps s t) (n : Channel) (f : Port → Port) : Keeps s (t.modPort n f) :=
  modChan_keeps h n fun _ => rfl
theorem modLane_keeps {s t : State} (h : Keeps s t) (l : LaneId) (f : Lane → Lane) : Keeps s (t.modLane l f) :=
  ⟨h.fixed, h.store, h.core, h.busy, h.config⟩
theorem setEntry_keeps {s t : State} (h : Keeps s t) (i : Handle) (e : Entry) : Keeps s (t.setEntry i e) :=
  ⟨h.fixed, h.store, h.core, h.busy, h.config⟩
theorem setEngine_keeps {s t : State} (h : Keeps s t) (e : EngineId) (j : Option Job) : Keeps s (t.setEngine e j) :=
  ⟨h.fixed, h.store, h.core, h.busy, h.config⟩
theorem modAttn_keeps {s t : State} (h : Keeps s t) (f : Attn → Attn) : Keeps s (t.modAttn f) :=
  ⟨h.fixed, h.store, h.core, h.busy, h.config⟩
theorem modChan_keepsTable {s t : State} (h : KeepsTable s t) (n : Channel) (f : Chan → Chan) : KeepsTable s (t.modChan n f) :=
  ⟨h.table⟩
theorem modPort_keepsTable {s t : State} (h : KeepsTable s t) (n : Channel) (f : Port → Port) : KeepsTable s (t.modPort n f) :=
  ⟨h.table⟩
theorem modLane_keepsTable {s t : State} (h : KeepsTable s t) (l : LaneId) (f : Lane → Lane) : KeepsTable s (t.modLane l f) :=
  ⟨h.table⟩
theorem setEngine_keepsTable {s t : State} (h : KeepsTable s t) (e : EngineId) (j : Option Job) : KeepsTable s (t.setEngine e j) :=
  ⟨h.table⟩
theorem modLink_keepsTable {s t : State} (h : KeepsTable s t) (f : Link → Link) : KeepsTable s (t.modLink f) :=
  ⟨h.table⟩
theorem modAttn_keepsTable {s t : State} (h : KeepsTable s t) (f : Attn → Attn) : KeepsTable s (t.modAttn f) :=
  ⟨h.table⟩
theorem modChan_keepsLanes {s t : State} (h : KeepsLanes s t) (n : Channel) (f : Chan → Chan) : KeepsLanes s (t.modChan n f) :=
  ⟨h.lanes, h.claims⟩
theorem modPort_keepsLanes {s t : State} (h : KeepsLanes s t) (n : Channel) (f : Port → Port) : KeepsLanes s (t.modPort n f) :=
  ⟨h.lanes, h.claims⟩
theorem setEntry_keepsLanes {s t : State} (h : KeepsLanes s t) (i : Handle) (e : Entry) : KeepsLanes s (t.setEntry i e) :=
  ⟨h.lanes, h.claims⟩
theorem setEngine_keepsLanes {s t : State} (h : KeepsLanes s t) (e : EngineId) (j : Option Job) : KeepsLanes s (t.setEngine e j) :=
  ⟨h.lanes, h.claims⟩
theorem modLink_keepsLanes {s t : State} (h : KeepsLanes s t) (f : Link → Link) : KeepsLanes s (t.modLink f) :=
  ⟨h.lanes, h.claims⟩
theorem modAttn_keepsLanes {s t : State} (h : KeepsLanes s t) (f : Attn → Attn) : KeepsLanes s (t.modAttn f) :=
  ⟨h.lanes, h.claims⟩
theorem modChan_keepsPool {s t : State} (h : KeepsPool s t) (n : Channel) (f : Chan → Chan) : KeepsPool s (t.modChan n f) :=
  ⟨h.queue, h.engines⟩
theorem modPort_keepsPool {s t : State} (h : KeepsPool s t) (n : Channel) (f : Port → Port) : KeepsPool s (t.modPort n f) :=
  ⟨h.queue, h.engines⟩
theorem modLane_keepsPool {s t : State} (h : KeepsPool s t) (l : LaneId) (f : Lane → Lane) : KeepsPool s (t.modLane l f) :=
  ⟨h.queue, h.engines⟩
theorem setEntry_keepsPool {s t : State} (h : KeepsPool s t) (i : Handle) (e : Entry) : KeepsPool s (t.setEntry i e) :=
  ⟨h.queue, h.engines⟩
theorem modLink_keepsPool {s t : State} (h : KeepsPool s t) (f : Link → Link) : KeepsPool s (t.modLink f) :=
  ⟨h.queue, h.engines⟩
theorem modAttn_keepsPool {s t : State} (h : KeepsPool s t) (f : Attn → Attn) : KeepsPool s (t.modAttn f) :=
  ⟨h.queue, h.engines⟩
theorem handBack_keeps {s t : State} (h : Keeps s t) (res : Result) : Keeps s (t.handBack res) := by
  unfold State.handBack
  split
  · rename_i r hf
    refine ⟨h.fixed, h.store, h.core, ?_, h.config⟩
    have := h.busy
    simp only [hf, Flight.busy] at this
    exact this
  · exact h

/-! ## The shared operations -/

theorem handBack_keepsTable {s t : State} (h : KeepsTable s t) (res : Result) : KeepsTable s (t.handBack res) := by
  unfold State.handBack; try dsimp only
  repeat' (first | with_reducible assumption | with_reducible apply modLink_keepsTable | split | dsimp only)
theorem handBack_keepsLanes {s t : State} (h : KeepsLanes s t) (res : Result) : KeepsLanes s (t.handBack res) := by
  unfold State.handBack; try dsimp only
  repeat' (first | with_reducible assumption | with_reducible apply modLink_keepsLanes | split | dsimp only)
theorem handBack_keepsPool {s t : State} (h : KeepsPool s t) (res : Result) : KeepsPool s (t.handBack res) := by
  unfold State.handBack; try dsimp only
  repeat' (first | with_reducible assumption | with_reducible apply modLink_keepsPool | split | dsimp only)
theorem handBackSnapshot_keeps {s t : State} (h : Keeps s t) (res : Result) : Keeps s (t.handBackSnapshot res) := by
  unfold State.handBackSnapshot; split; exacts [handBack_keeps h res, h]
theorem handBackSnapshot_keepsTable {s t : State} (h : KeepsTable s t) (res : Result) :
    KeepsTable s (t.handBackSnapshot res) := by
  unfold State.handBackSnapshot; split; exacts [handBack_keepsTable h res, h]
theorem handBackSnapshot_keepsLanes {s t : State} (h : KeepsLanes s t) (res : Result) :
    KeepsLanes s (t.handBackSnapshot res) := by
  unfold State.handBackSnapshot; split; exacts [handBack_keepsLanes h res, h]
theorem handBackSnapshot_keepsPool {s t : State} (h : KeepsPool s t) (res : Result) :
    KeepsPool s (t.handBackSnapshot res) := by
  unfold State.handBackSnapshot; split; exacts [handBack_keepsPool h res, h]
theorem handOver_keeps {s t : State} (h : Keeps s t) : Keeps s t.handOver := by
  unfold State.handOver; try dsimp only
  repeat' (first | with_reducible assumption | with_reducible apply modAttn_keeps | split | dsimp only)
theorem handOver_keepsTable {s t : State} (h : KeepsTable s t) : KeepsTable s t.handOver := by
  unfold State.handOver; try dsimp only
  repeat' (first | with_reducible assumption | with_reducible apply modAttn_keepsTable | split | dsimp only)
theorem handOver_keepsLanes {s t : State} (h : KeepsLanes s t) : KeepsLanes s t.handOver := by
  unfold State.handOver; try dsimp only
  repeat' (first | with_reducible assumption | with_reducible apply modAttn_keepsLanes | split | dsimp only)
theorem handOver_keepsPool {s t : State} (h : KeepsPool s t) : KeepsPool s t.handOver := by
  unfold State.handOver; try dsimp only
  repeat' (first | with_reducible assumption | with_reducible apply modAttn_keepsPool | split | dsimp only)
theorem freeEntry_keeps {s t : State} (h : Keeps s t) (h : Handle) : Keeps s (t.freeEntry h) := by
  unfold State.freeEntry; try dsimp only
  repeat' (first | with_reducible assumption | with_reducible apply handOver_keeps | with_reducible apply setEntry_keeps | split | dsimp only)
theorem freeEntry_keepsLanes {s t : State} (h : KeepsLanes s t) (h : Handle) : KeepsLanes s (t.freeEntry h) := by
  unfold State.freeEntry; try dsimp only
  repeat' (first | with_reducible assumption | with_reducible apply handOver_keepsLanes | with_reducible apply setEntry_keepsLanes | split | dsimp only)
theorem freeEntry_keepsPool {s t : State} (h : KeepsPool s t) (h : Handle) : KeepsPool s (t.freeEntry h) := by
  unfold State.freeEntry; try dsimp only
  repeat' (first | with_reducible assumption | with_reducible apply handOver_keepsPool | with_reducible apply setEntry_keepsPool | split | dsimp only)
theorem lowerUse_keeps {s t : State} (h : Keeps s t) (h : Handle) : Keeps s (t.lowerUse h) := by
  unfold State.lowerUse; try dsimp only
  repeat' (first | with_reducible assumption | with_reducible apply freeEntry_keeps | with_reducible apply setEntry_keeps | split | dsimp only)
theorem lowerUse_keepsLanes {s t : State} (h : KeepsLanes s t) (h : Handle) : KeepsLanes s (t.lowerUse h) := by
  unfold State.lowerUse; try dsimp only
  repeat' (first | with_reducible assumption | with_reducible apply freeEntry_keepsLanes | with_reducible apply setEntry_keepsLanes | split | dsimp only)
theorem lowerUse_keepsPool {s t : State} (h : KeepsPool s t) (h : Handle) : KeepsPool s (t.lowerUse h) := by
  unfold State.lowerUse; try dsimp only
  repeat' (first | with_reducible assumption | with_reducible apply freeEntry_keepsPool | with_reducible apply setEntry_keepsPool | split | dsimp only)
theorem raiseUse_keeps {s t : State} (h : Keeps s t) (h : Handle) : Keeps s (t.raiseUse h) := by
  unfold State.raiseUse; try dsimp only
  repeat' (first | with_reducible assumption | with_reducible apply setEntry_keeps | split | dsimp only)
theorem raiseUse_keepsLanes {s t : State} (h : KeepsLanes s t) (h : Handle) : KeepsLanes s (t.raiseUse h) := by
  unfold State.raiseUse; try dsimp only
  repeat' (first | with_reducible assumption | with_reducible apply setEntry_keepsLanes | split | dsimp only)
theorem raiseUse_keepsPool {s t : State} (h : KeepsPool s t) (h : Handle) : KeepsPool s (t.raiseUse h) := by
  unfold State.raiseUse; try dsimp only
  repeat' (first | with_reducible assumption | with_reducible apply setEntry_keepsPool | split | dsimp only)
theorem moveUse_keeps {s t : State} (h : Keeps s t) (old new : Option Handle) : Keeps s (t.moveUse old new) := by
  unfold State.moveUse; try dsimp only
  repeat' (first | with_reducible assumption | with_reducible apply raiseUse_keeps | with_reducible apply lowerUse_keeps | split | dsimp only)
theorem moveUse_keepsLanes {s t : State} (h : KeepsLanes s t) (old new : Option Handle) : KeepsLanes s (t.moveUse old new) := by
  unfold State.moveUse; try dsimp only
  repeat' (first | with_reducible assumption | with_reducible apply raiseUse_keepsLanes | with_reducible apply lowerUse_keepsLanes | split | dsimp only)
theorem moveUse_keepsPool {s t : State} (h : KeepsPool s t) (old new : Option Handle) : KeepsPool s (t.moveUse old new) := by
  unfold State.moveUse; try dsimp only
  repeat' (first | with_reducible assumption | with_reducible apply raiseUse_keepsPool | with_reducible apply lowerUse_keepsPool | split | dsimp only)
theorem withdrawEntry_keeps {s t : State} (h : Keeps s t) (h : Handle) : Keeps s (t.withdrawEntry h) := by
  unfold State.withdrawEntry; try dsimp only
  repeat' (first | with_reducible assumption | with_reducible apply freeEntry_keeps | with_reducible apply setEntry_keeps | split | dsimp only)
theorem withdrawEntry_keepsLanes {s t : State} (h : KeepsLanes s t) (h : Handle) : KeepsLanes s (t.withdrawEntry h) := by
  unfold State.withdrawEntry; try dsimp only
  repeat' (first | with_reducible assumption | with_reducible apply freeEntry_keepsLanes | with_reducible apply setEntry_keepsLanes | split | dsimp only)
theorem withdrawEntry_keepsPool {s t : State} (h : KeepsPool s t) (h : Handle) : KeepsPool s (t.withdrawEntry h) := by
  unfold State.withdrawEntry; try dsimp only
  repeat' (first | with_reducible assumption | with_reducible apply freeEntry_keepsPool | with_reducible apply setEntry_keepsPool | split | dsimp only)
theorem giveOut_keeps {s t : State} (h : Keeps s t) (h : Handle) (e : Entry) : Keeps s (t.giveOut h e) := by
  unfold State.giveOut; try dsimp only
  repeat' (first | with_reducible assumption | with_reducible apply handOver_keeps | with_reducible apply setEntry_keeps | split | dsimp only)
theorem giveOut_keepsLanes {s t : State} (h : KeepsLanes s t) (h : Handle) (e : Entry) : KeepsLanes s (t.giveOut h e) := by
  unfold State.giveOut; try dsimp only
  repeat' (first | with_reducible assumption | with_reducible apply handOver_keepsLanes | with_reducible apply setEntry_keepsLanes | split | dsimp only)
theorem giveOut_keepsPool {s t : State} (h : KeepsPool s t) (h : Handle) (e : Entry) : KeepsPool s (t.giveOut h e) := by
  unfold State.giveOut; try dsimp only
  repeat' (first | with_reducible assumption | with_reducible apply handOver_keepsPool | with_reducible apply setEntry_keepsPool | split | dsimp only)
theorem takeEntryAdd_keeps {s t : State} (h : Keeps s t) (key : Key) (first last : FieldNum) (directives : BitVec 24) : Keeps s (t.takeEntryAdd key first last directives).1 := by
  unfold State.takeEntryAdd; try dsimp only
  repeat' (first | with_reducible assumption | with_reducible apply giveOut_keeps | split | dsimp only)
theorem takeEntryAdd_keepsLanes {s t : State} (h : KeepsLanes s t) (key : Key) (first last : FieldNum) (directives : BitVec 24) : KeepsLanes s (t.takeEntryAdd key first last directives).1 := by
  unfold State.takeEntryAdd; try dsimp only
  repeat' (first | with_reducible assumption | with_reducible apply giveOut_keepsLanes | split | dsimp only)
theorem takeEntryAdd_keepsPool {s t : State} (h : KeepsPool s t) (key : Key) (first last : FieldNum) (directives : BitVec 24) : KeepsPool s (t.takeEntryAdd key first last directives).1 := by
  unfold State.takeEntryAdd; try dsimp only
  repeat' (first | with_reducible assumption | with_reducible apply giveOut_keepsPool | split | dsimp only)
theorem takeEntryAmend_keeps {s t : State} (h : Keeps s t) (handle : BitVec 16) (expected : Gen) (first last : FieldNum) (directives : BitVec 24) : Keeps s (t.takeEntryAmend handle expected first last directives).1 := by
  unfold State.takeEntryAmend; try dsimp only
  repeat' (first | with_reducible assumption | with_reducible apply setEntry_keeps | split | dsimp only)
theorem takeEntryAmend_keepsLanes {s t : State} (h : KeepsLanes s t) (handle : BitVec 16) (expected : Gen) (first last : FieldNum) (directives : BitVec 24) : KeepsLanes s (t.takeEntryAmend handle expected first last directives).1 := by
  unfold State.takeEntryAmend; try dsimp only
  repeat' (first | with_reducible assumption | with_reducible apply setEntry_keepsLanes | split | dsimp only)
theorem takeEntryAmend_keepsPool {s t : State} (h : KeepsPool s t) (handle : BitVec 16) (expected : Gen) (first last : FieldNum) (directives : BitVec 24) : KeepsPool s (t.takeEntryAmend handle expected first last directives).1 := by
  unfold State.takeEntryAmend; try dsimp only
  repeat' (first | with_reducible assumption | with_reducible apply setEntry_keepsPool | split | dsimp only)
theorem takeEntryRetire_keeps {s t : State} (h : Keeps s t) (handle : BitVec 16) (expected : Gen) : Keeps s (t.takeEntryRetire handle expected).1 := by
  unfold State.takeEntryRetire; try dsimp only
  repeat' (first | with_reducible assumption | with_reducible apply withdrawEntry_keeps | split | dsimp only)
theorem takeEntryRetire_keepsLanes {s t : State} (h : KeepsLanes s t) (handle : BitVec 16) (expected : Gen) : KeepsLanes s (t.takeEntryRetire handle expected).1 := by
  unfold State.takeEntryRetire; try dsimp only
  repeat' (first | with_reducible assumption | with_reducible apply withdrawEntry_keepsLanes | split | dsimp only)
theorem takeEntryRetire_keepsPool {s t : State} (h : KeepsPool s t) (handle : BitVec 16) (expected : Gen) : KeepsPool s (t.takeEntryRetire handle expected).1 := by
  unfold State.takeEntryRetire; try dsimp only
  repeat' (first | with_reducible assumption | with_reducible apply withdrawEntry_keepsPool | split | dsimp only)
theorem takeEntryRead_keeps {s t : State} (h : Keeps s t) (handle : BitVec 16) : Keeps s (t.takeEntryRead handle).1 := by
  unfold State.takeEntryRead; try dsimp only
  repeat' (first | with_reducible assumption | split | dsimp only)
theorem takeEntryRead_keepsTable {s t : State} (h : KeepsTable s t) (handle : BitVec 16) : KeepsTable s (t.takeEntryRead handle).1 := by
  unfold State.takeEntryRead; try dsimp only
  repeat' (first | with_reducible assumption | split | dsimp only)
theorem takeEntryRead_keepsLanes {s t : State} (h : KeepsLanes s t) (handle : BitVec 16) : KeepsLanes s (t.takeEntryRead handle).1 := by
  unfold State.takeEntryRead; try dsimp only
  repeat' (first | with_reducible assumption | split | dsimp only)
theorem takeEntryRead_keepsPool {s t : State} (h : KeepsPool s t) (handle : BitVec 16) : KeepsPool s (t.takeEntryRead handle).1 := by
  unfold State.takeEntryRead; try dsimp only
  repeat' (first | with_reducible assumption | split | dsimp only)
theorem takeEntryFind_keeps {s t : State} (h : Keeps s t) (key : Key) (number : FieldNum) : Keeps s (t.takeEntryFind key number).1 := by
  unfold State.takeEntryFind; try dsimp only
  repeat' (first | with_reducible assumption | split | dsimp only)
theorem takeEntryFind_keepsTable {s t : State} (h : KeepsTable s t) (key : Key) (number : FieldNum) : KeepsTable s (t.takeEntryFind key number).1 := by
  unfold State.takeEntryFind; try dsimp only
  repeat' (first | with_reducible assumption | split | dsimp only)
theorem takeEntryFind_keepsLanes {s t : State} (h : KeepsLanes s t) (key : Key) (number : FieldNum) : KeepsLanes s (t.takeEntryFind key number).1 := by
  unfold State.takeEntryFind; try dsimp only
  repeat' (first | with_reducible assumption | split | dsimp only)
theorem takeEntryFind_keepsPool {s t : State} (h : KeepsPool s t) (key : Key) (number : FieldNum) : KeepsPool s (t.takeEntryFind key number).1 := by
  unfold State.takeEntryFind; try dsimp only
  repeat' (first | with_reducible assumption | split | dsimp only)
theorem takeEntryNext_keeps {s t : State} (h : Keeps s t) (key : Key) (number : FieldNum) : Keeps s (t.takeEntryNext key number).1 := by
  unfold State.takeEntryNext; try dsimp only
  repeat' (first | with_reducible assumption | split | dsimp only)
theorem takeEntryNext_keepsTable {s t : State} (h : KeepsTable s t) (key : Key) (number : FieldNum) : KeepsTable s (t.takeEntryNext key number).1 := by
  unfold State.takeEntryNext; try dsimp only
  repeat' (first | with_reducible assumption | split | dsimp only)
theorem takeEntryNext_keepsLanes {s t : State} (h : KeepsLanes s t) (key : Key) (number : FieldNum) : KeepsLanes s (t.takeEntryNext key number).1 := by
  unfold State.takeEntryNext; try dsimp only
  repeat' (first | with_reducible assumption | split | dsimp only)
theorem takeEntryNext_keepsPool {s t : State} (h : KeepsPool s t) (key : Key) (number : FieldNum) : KeepsPool s (t.takeEntryNext key number).1 := by
  unfold State.takeEntryNext; try dsimp only
  repeat' (first | with_reducible assumption | split | dsimp only)
theorem takeProposalConfirm_keeps {s t : State} (h : Keeps s t) (handle : BitVec 16) (expected : Gen) : Keeps s (t.takeProposalConfirm handle expected).1 := by
  unfold State.takeProposalConfirm; try dsimp only
  repeat' (first | with_reducible assumption | with_reducible apply handOver_keeps | with_reducible apply setEntry_keeps | split | dsimp only)
theorem takeProposalConfirm_keepsLanes {s t : State} (h : KeepsLanes s t) (handle : BitVec 16) (expected : Gen) : KeepsLanes s (t.takeProposalConfirm handle expected).1 := by
  unfold State.takeProposalConfirm; try dsimp only
  repeat' (first | with_reducible assumption | with_reducible apply handOver_keepsLanes | with_reducible apply setEntry_keepsLanes | split | dsimp only)
theorem takeProposalConfirm_keepsPool {s t : State} (h : KeepsPool s t) (handle : BitVec 16) (expected : Gen) : KeepsPool s (t.takeProposalConfirm handle expected).1 := by
  unfold State.takeProposalConfirm; try dsimp only
  repeat' (first | with_reducible assumption | with_reducible apply handOver_keepsPool | with_reducible apply setEntry_keepsPool | split | dsimp only)
theorem takeProposalReject_keeps {s t : State} (h : Keeps s t) (handle : BitVec 16) (expected : Gen) : Keeps s (t.takeProposalReject handle expected).1 := by
  unfold State.takeProposalReject; try dsimp only
  repeat' (first | with_reducible assumption | with_reducible apply withdrawEntry_keeps | with_reducible apply setEntry_keeps | split | dsimp only)
theorem takeProposalReject_keepsLanes {s t : State} (h : KeepsLanes s t) (handle : BitVec 16) (expected : Gen) : KeepsLanes s (t.takeProposalReject handle expected).1 := by
  unfold State.takeProposalReject; try dsimp only
  repeat' (first | with_reducible assumption | with_reducible apply withdrawEntry_keepsLanes | with_reducible apply setEntry_keepsLanes | split | dsimp only)
theorem takeProposalReject_keepsPool {s t : State} (h : KeepsPool s t) (handle : BitVec 16) (expected : Gen) : KeepsPool s (t.takeProposalReject handle expected).1 := by
  unfold State.takeProposalReject; try dsimp only
  repeat' (first | with_reducible assumption | with_reducible apply withdrawEntry_keepsPool | with_reducible apply setEntry_keepsPool | split | dsimp only)
theorem takeUnitRead_keeps {s t : State} (h : Keeps s t) : Keeps s t.takeUnitRead.1 := by
  unfold State.takeUnitRead; try dsimp only
  repeat' (first | with_reducible assumption | split | dsimp only)
theorem takeUnitRead_keepsTable {s t : State} (h : KeepsTable s t) : KeepsTable s t.takeUnitRead.1 := by
  unfold State.takeUnitRead; try dsimp only
  repeat' (first | with_reducible assumption | split | dsimp only)
theorem takeUnitRead_keepsLanes {s t : State} (h : KeepsLanes s t) : KeepsLanes s t.takeUnitRead.1 := by
  unfold State.takeUnitRead; try dsimp only
  repeat' (first | with_reducible assumption | split | dsimp only)
theorem takeUnitRead_keepsPool {s t : State} (h : KeepsPool s t) : KeepsPool s t.takeUnitRead.1 := by
  unfold State.takeUnitRead; try dsimp only
  repeat' (first | with_reducible assumption | split | dsimp only)
theorem haltCheck_keeps {s t : State} (h : Keeps s t) : Keeps s t.haltCheck := by
  unfold State.haltCheck; try dsimp only
  repeat' (first | with_reducible assumption | with_reducible apply handBack_keeps | split | dsimp only)
theorem haltCheck_keepsTable {s t : State} (h : KeepsTable s t) : KeepsTable s t.haltCheck := by
  unfold State.haltCheck; try dsimp only
  repeat' (first | with_reducible assumption | with_reducible apply handBack_keepsTable | split | dsimp only)
theorem haltCheck_keepsLanes {s t : State} (h : KeepsLanes s t) : KeepsLanes s t.haltCheck := by
  unfold State.haltCheck; try dsimp only
  repeat' (first | with_reducible assumption | with_reducible apply handBack_keepsLanes | split | dsimp only)
theorem haltCheck_keepsPool {s t : State} (h : KeepsPool s t) : KeepsPool s t.haltCheck := by
  unfold State.haltCheck; try dsimp only
  repeat' (first | with_reducible assumption | with_reducible apply handBack_keepsPool | split | dsimp only)
theorem report_keeps {s t : State} (h : Keeps s t) (n : Channel) : Keeps s (t.report n) := by
  unfold State.report; try dsimp only
  repeat' (first | with_reducible assumption | with_reducible apply haltCheck_keeps | ((with_reducible apply modChan_keeps); rotate_left; focus (intro c; first | with_reducible rfl | (simp; done) | rfl | (split <;> rfl))) | split | dsimp only)
theorem report_keepsTable {s t : State} (h : KeepsTable s t) (n : Channel) : KeepsTable s (t.report n) := by
  unfold State.report; try dsimp only
  repeat' (first | with_reducible assumption | with_reducible apply haltCheck_keepsTable | with_reducible apply modChan_keepsTable | split | dsimp only)
theorem report_keepsLanes {s t : State} (h : KeepsLanes s t) (n : Channel) : KeepsLanes s (t.report n) := by
  unfold State.report; try dsimp only
  repeat' (first | with_reducible assumption | with_reducible apply haltCheck_keepsLanes | with_reducible apply modChan_keepsLanes | split | dsimp only)
theorem report_keepsPool {s t : State} (h : KeepsPool s t) (n : Channel) : KeepsPool s (t.report n) := by
  unfold State.report; try dsimp only
  repeat' (first | with_reducible assumption | with_reducible apply haltCheck_keepsPool | with_reducible apply modChan_keepsPool | split | dsimp only)
theorem reportEnded_keeps {s t : State} (h : Keeps s t) (before : State) : Keeps s (t.reportEnded before) := by
  unfold State.reportEnded; try dsimp only
  repeat' (first | with_reducible assumption | with_reducible apply report_keeps | with_reducible apply foldl_rel | (intro s a h) | split | dsimp only)
theorem reportEnded_keepsTable {s t : State} (h : KeepsTable s t) (before : State) : KeepsTable s (t.reportEnded before) := by
  unfold State.reportEnded; try dsimp only
  repeat' (first | with_reducible assumption | with_reducible apply report_keepsTable | with_reducible apply foldl_rel | (intro s a h) | split | dsimp only)
theorem reportEnded_keepsLanes {s t : State} (h : KeepsLanes s t) (before : State) : KeepsLanes s (t.reportEnded before) := by
  unfold State.reportEnded; try dsimp only
  repeat' (first | with_reducible assumption | with_reducible apply report_keepsLanes | with_reducible apply foldl_rel | (intro s a h) | split | dsimp only)
theorem reportEnded_keepsPool {s t : State} (h : KeepsPool s t) (before : State) : KeepsPool s (t.reportEnded before) := by
  unfold State.reportEnded; try dsimp only
  repeat' (first | with_reducible assumption | with_reducible apply report_keepsPool | with_reducible apply foldl_rel | (intro s a h) | split | dsimp only)
theorem startOne_keeps {s t : State} (h : Keeps s t) : Keeps s t.startOne := by
  unfold State.startOne; try dsimp only
  repeat' (first | with_reducible assumption | with_reducible apply setEngine_keeps | split | exact ⟨h.fixed, h.store, h.core, h.busy, h.config⟩)
theorem startOne_keepsTable {s t : State} (h : KeepsTable s t) : KeepsTable s t.startOne := by
  unfold State.startOne; try dsimp only
  repeat' (first | with_reducible assumption | with_reducible apply setEngine_keepsTable | split | exact ⟨h.table⟩)
theorem startOne_keepsLanes {s t : State} (h : KeepsLanes s t) : KeepsLanes s t.startOne := by
  unfold State.startOne; try dsimp only
  repeat' (first | with_reducible assumption | with_reducible apply setEngine_keepsLanes | split | exact ⟨h.lanes, h.claims⟩)
theorem arbitrate_keeps {s t : State} (h : Keeps s t) : Keeps s t.arbitrate := by
  unfold State.arbitrate; try dsimp only
  repeat' (first | with_reducible assumption | with_reducible apply startOne_keeps | split | dsimp only)
theorem arbitrate_keepsTable {s t : State} (h : KeepsTable s t) : KeepsTable s t.arbitrate := by
  unfold State.arbitrate; try dsimp only
  repeat' (first | with_reducible assumption | with_reducible apply startOne_keepsTable | split | dsimp only)
theorem arbitrate_keepsLanes {s t : State} (h : KeepsLanes s t) : KeepsLanes s t.arbitrate := by
  unfold State.arbitrate; try dsimp only
  repeat' (first | with_reducible assumption | with_reducible apply startOne_keepsLanes | split | dsimp only)
theorem dropQueued_keeps {s t : State} (h : Keeps s t) (p : RenderRequest → Bool) : Keeps s (t.dropQueued p) := ⟨h.fixed, h.store, h.core, h.busy, h.config⟩
theorem dropQueued_keepsTable {s t : State} (h : KeepsTable s t) (p : RenderRequest → Bool) : KeepsTable s (t.dropQueued p) := ⟨h.table⟩
theorem dropQueued_keepsLanes {s t : State} (h : KeepsLanes s t) (p : RenderRequest → Bool) : KeepsLanes s (t.dropQueued p) := ⟨h.lanes, h.claims⟩
theorem cancelJobs_keeps {s t : State} (h : Keeps s t) (p : RenderRequest → Bool) : Keeps s (t.cancelJobs p) := ⟨h.fixed, h.store, h.core, h.busy, h.config⟩
theorem cancelJobs_keepsTable {s t : State} (h : KeepsTable s t) (p : RenderRequest → Bool) : KeepsTable s (t.cancelJobs p) := ⟨h.table⟩
theorem cancelJobs_keepsLanes {s t : State} (h : KeepsLanes s t) (p : RenderRequest → Bool) : KeepsLanes s (t.cancelJobs p) := ⟨h.lanes, h.claims⟩
theorem cancelByRole_keeps {s t : State} (h : Keeps s t) (l : LaneId) (n : Channel) (role : Role) : Keeps s (t.cancelByRole l n role) := by
  unfold State.cancelByRole; try dsimp only
  repeat' (first | with_reducible assumption | with_reducible apply cancelJobs_keeps | with_reducible apply dropQueued_keeps | with_reducible apply reportEnded_keeps | split | dsimp only)
theorem cancelByRole_keepsTable {s t : State} (h : KeepsTable s t) (l : LaneId) (n : Channel) (role : Role) : KeepsTable s (t.cancelByRole l n role) := by
  unfold State.cancelByRole; try dsimp only
  repeat' (first | with_reducible assumption | with_reducible apply cancelJobs_keepsTable | with_reducible apply dropQueued_keepsTable | with_reducible apply reportEnded_keepsTable | split | dsimp only)
theorem cancelByRole_keepsLanes {s t : State} (h : KeepsLanes s t) (l : LaneId) (n : Channel) (role : Role) : KeepsLanes s (t.cancelByRole l n role) := by
  unfold State.cancelByRole; try dsimp only
  repeat' (first | with_reducible assumption | with_reducible apply cancelJobs_keepsLanes | with_reducible apply dropQueued_keepsLanes | with_reducible apply reportEnded_keepsLanes | split | dsimp only)
theorem reRole_keeps {s t : State} (h : Keeps s t) (l : LaneId) (n : Channel) : Keeps s (t.reRole l n) := ⟨h.fixed, h.store, h.core, h.busy, h.config⟩
theorem reRole_keepsTable {s t : State} (h : KeepsTable s t) (l : LaneId) (n : Channel) : KeepsTable s (t.reRole l n) := ⟨h.table⟩
theorem reRole_keepsLanes {s t : State} (h : KeepsLanes s t) (l : LaneId) (n : Channel) : KeepsLanes s (t.reRole l n) := ⟨h.lanes, h.claims⟩
theorem takeWithdrawOrder_keeps {s t : State} (h : Keeps s t) (n : Channel) : Keeps s (t.takeWithdrawOrder n) := by
  unfold State.takeWithdrawOrder; try dsimp only
  repeat' (first | with_reducible assumption | with_reducible apply dropQueued_keeps | ((with_reducible apply modChan_keeps); rotate_left; focus (intro c; first | with_reducible rfl | (simp; done) | rfl | (split <;> rfl))) | split | dsimp only)
theorem takeWithdrawOrder_keepsTable {s t : State} (h : KeepsTable s t) (n : Channel) : KeepsTable s (t.takeWithdrawOrder n) := by
  unfold State.takeWithdrawOrder; try dsimp only
  repeat' (first | with_reducible assumption | with_reducible apply dropQueued_keepsTable | with_reducible apply modChan_keepsTable | split | dsimp only)
theorem takeWithdrawOrder_keepsLanes {s t : State} (h : KeepsLanes s t) (n : Channel) : KeepsLanes s (t.takeWithdrawOrder n) := by
  unfold State.takeWithdrawOrder; try dsimp only
  repeat' (first | with_reducible assumption | with_reducible apply dropQueued_keepsLanes | with_reducible apply modChan_keepsLanes | split | dsimp only)
theorem takeCancelOrder_keeps {s t : State} (h : Keeps s t) (n : Channel) : Keeps s (t.takeCancelOrder n) := by
  unfold State.takeCancelOrder; try dsimp only
  repeat' (first | with_reducible assumption | with_reducible apply cancelJobs_keeps | with_reducible apply dropQueued_keeps | with_reducible apply arbitrate_keeps | with_reducible apply report_keeps | ((with_reducible apply modChan_keeps); rotate_left; focus (intro c; first | with_reducible rfl | (simp; done) | rfl | (split <;> rfl))) | split | dsimp only)
theorem takeCancelOrder_keepsTable {s t : State} (h : KeepsTable s t) (n : Channel) : KeepsTable s (t.takeCancelOrder n) := by
  unfold State.takeCancelOrder; try dsimp only
  repeat' (first | with_reducible assumption | with_reducible apply cancelJobs_keepsTable | with_reducible apply dropQueued_keepsTable | with_reducible apply arbitrate_keepsTable | with_reducible apply report_keepsTable | with_reducible apply modChan_keepsTable | split | dsimp only)
theorem takeCancelOrder_keepsLanes {s t : State} (h : KeepsLanes s t) (n : Channel) : KeepsLanes s (t.takeCancelOrder n) := by
  unfold State.takeCancelOrder; try dsimp only
  repeat' (first | with_reducible assumption | with_reducible apply cancelJobs_keepsLanes | with_reducible apply dropQueued_keepsLanes | with_reducible apply arbitrate_keepsLanes | with_reducible apply report_keepsLanes | with_reducible apply modChan_keepsLanes | split | dsimp only)
theorem takeOrders_keeps {s t : State} (h : Keeps s t) (n : Channel) : Keeps s (t.takeOrders n) := by
  unfold State.takeOrders; try dsimp only
  repeat' (first | with_reducible assumption | with_reducible apply takeCancelOrder_keeps | with_reducible apply takeWithdrawOrder_keeps | split | dsimp only)
theorem takeOrders_keepsTable {s t : State} (h : KeepsTable s t) (n : Channel) : KeepsTable s (t.takeOrders n) := by
  unfold State.takeOrders; try dsimp only
  repeat' (first | with_reducible assumption | with_reducible apply takeCancelOrder_keepsTable | with_reducible apply takeWithdrawOrder_keepsTable | split | dsimp only)
theorem takeOrders_keepsLanes {s t : State} (h : KeepsLanes s t) (n : Channel) : KeepsLanes s (t.takeOrders n) := by
  unfold State.takeOrders; try dsimp only
  repeat' (first | with_reducible assumption | with_reducible apply takeCancelOrder_keepsLanes | with_reducible apply takeWithdrawOrder_keepsLanes | split | dsimp only)
theorem deliver_keeps {s t : State} (h : Keeps s t) (j : Job) : Keeps s (t.deliver j) := by
  unfold State.deliver; try dsimp only
  repeat' (first | with_reducible assumption | with_reducible apply modLane_keeps | split | dsimp only)
theorem deliver_keepsTable {s t : State} (h : KeepsTable s t) (j : Job) : KeepsTable s (t.deliver j) := by
  unfold State.deliver; try dsimp only
  repeat' (first | with_reducible assumption | with_reducible apply modLane_keepsTable | split | dsimp only)
theorem deliver_keepsPool {s t : State} (h : KeepsPool s t) (j : Job) : KeepsPool s (t.deliver j) := by
  unfold State.deliver; try dsimp only
  repeat' (first | with_reducible assumption | with_reducible apply modLane_keepsPool | split | dsimp only)
theorem completeJob_keeps {s t : State} (h : Keeps s t) (e : EngineId) : Keeps s (t.completeJob e) := by
  unfold State.completeJob; try dsimp only
  repeat' (first | with_reducible assumption | with_reducible apply deliver_keeps | with_reducible apply arbitrate_keeps | with_reducible apply report_keeps | with_reducible apply setEngine_keeps | split | dsimp only)
theorem completeJob_keepsTable {s t : State} (h : KeepsTable s t) (e : EngineId) : KeepsTable s (t.completeJob e) := by
  unfold State.completeJob; try dsimp only
  repeat' (first | with_reducible assumption | with_reducible apply deliver_keepsTable | with_reducible apply arbitrate_keepsTable | with_reducible apply report_keepsTable | with_reducible apply setEngine_keepsTable | split | dsimp only)
theorem advanceDeadlines_keeps {s t : State} (h : Keeps s t) (l : LaneId) : Keeps s (t.advanceDeadlines l) := ⟨h.fixed, h.store, h.core, h.busy, h.config⟩
theorem advanceDeadlines_keepsTable {s t : State} (h : KeepsTable s t) (l : LaneId) : KeepsTable s (t.advanceDeadlines l) := ⟨h.table⟩
theorem advanceDeadlines_keepsLanes {s t : State} (h : KeepsLanes s t) (l : LaneId) : KeepsLanes s (t.advanceDeadlines l) := ⟨h.lanes, h.claims⟩
theorem poolTick_keeps {s t : State} (h : Keeps s t) (l : LaneId) : Keeps s (t.poolTick l) := by
  unfold State.poolTick; try dsimp only
  repeat' (first | with_reducible assumption | with_reducible apply advanceDeadlines_keeps | with_reducible apply cancelJobs_keeps | with_reducible apply dropQueued_keeps | with_reducible apply arbitrate_keeps | with_reducible apply reportEnded_keeps | with_reducible apply modLane_keeps | split | dsimp only)
theorem poolTick_keepsTable {s t : State} (h : KeepsTable s t) (l : LaneId) : KeepsTable s (t.poolTick l) := by
  unfold State.poolTick; try dsimp only
  repeat' (first | with_reducible assumption | with_reducible apply advanceDeadlines_keepsTable | with_reducible apply cancelJobs_keepsTable | with_reducible apply dropQueued_keepsTable | with_reducible apply arbitrate_keepsTable | with_reducible apply reportEnded_keepsTable | with_reducible apply modLane_keepsTable | split | dsimp only)
theorem takeProfileWrite_keepsTable {s t : State} (h : KeepsTable s t) (index : Byte) (record : BitVec 48) : KeepsTable s (t.takeProfileWrite index record).1 := by
  unfold State.takeProfileWrite; try dsimp only
  repeat' (first | with_reducible assumption | split | exact ⟨h.table⟩)
theorem takeProfileWrite_keepsLanes {s t : State} (h : KeepsLanes s t) (index : Byte) (record : BitVec 48) : KeepsLanes s (t.takeProfileWrite index record).1 := by
  unfold State.takeProfileWrite; try dsimp only
  repeat' (first | with_reducible assumption | split | exact ⟨h.lanes, h.claims⟩)
theorem takeProfileWrite_keepsPool {s t : State} (h : KeepsPool s t) (index : Byte) (record : BitVec 48) : KeepsPool s (t.takeProfileWrite index record).1 := by
  unfold State.takeProfileWrite; try dsimp only
  repeat' (first | with_reducible assumption | split | exact ⟨h.queue, h.engines⟩)
theorem takeProfileRead_keeps {s t : State} (h : Keeps s t) (index : Byte) : Keeps s (t.takeProfileRead index).1 := by
  unfold State.takeProfileRead; try dsimp only
  repeat' (first | with_reducible assumption | split | dsimp only)
theorem takeProfileRead_keepsTable {s t : State} (h : KeepsTable s t) (index : Byte) : KeepsTable s (t.takeProfileRead index).1 := by
  unfold State.takeProfileRead; try dsimp only
  repeat' (first | with_reducible assumption | split | dsimp only)
theorem takeProfileRead_keepsLanes {s t : State} (h : KeepsLanes s t) (index : Byte) : KeepsLanes s (t.takeProfileRead index).1 := by
  unfold State.takeProfileRead; try dsimp only
  repeat' (first | with_reducible assumption | split | dsimp only)
theorem takeProfileRead_keepsPool {s t : State} (h : KeepsPool s t) (index : Byte) : KeepsPool s (t.takeProfileRead index).1 := by
  unfold State.takeProfileRead; try dsimp only
  repeat' (first | with_reducible assumption | split | dsimp only)
theorem judgeHalted_keeps {s t : State} (h : Keeps s t) (n : Channel) : Keeps s (t.judgeHalted n) := by
  unfold State.judgeHalted; try dsimp only
  repeat' (first | with_reducible assumption | with_reducible apply report_keeps | split | dsimp only)
theorem judgeHalted_keepsTable {s t : State} (h : KeepsTable s t) (n : Channel) : KeepsTable s (t.judgeHalted n) := by
  unfold State.judgeHalted; try dsimp only
  repeat' (first | with_reducible assumption | with_reducible apply report_keepsTable | split | dsimp only)
theorem judgeHalted_keepsLanes {s t : State} (h : KeepsLanes s t) (n : Channel) : KeepsLanes s (t.judgeHalted n) := by
  unfold State.judgeHalted; try dsimp only
  repeat' (first | with_reducible assumption | with_reducible apply report_keepsLanes | split | dsimp only)
theorem judgeHalted_keepsPool {s t : State} (h : KeepsPool s t) (n : Channel) : KeepsPool s (t.judgeHalted n) := by
  unfold State.judgeHalted; try dsimp only
  repeat' (first | with_reducible assumption | with_reducible apply report_keepsPool | split | dsimp only)
theorem takeRelease_keeps {s t : State} (h : Keeps s t) (n : Channel) (resetsMonitor : Bool) : Keeps s (t.takeRelease n resetsMonitor) := by
  unfold State.takeRelease; try dsimp only
  repeat' (first | with_reducible assumption | with_reducible apply judgeHalted_keeps | with_reducible apply moveUse_keeps | ((with_reducible apply modChan_keeps); rotate_left; focus (intro c; first | with_reducible rfl | (simp; done) | rfl | (split <;> rfl))) | split | dsimp only)
theorem takeRelease_keepsLanes {s t : State} (h : KeepsLanes s t) (n : Channel) (resetsMonitor : Bool) : KeepsLanes s (t.takeRelease n resetsMonitor) := by
  unfold State.takeRelease; try dsimp only
  repeat' (first | with_reducible assumption | with_reducible apply judgeHalted_keepsLanes | with_reducible apply moveUse_keepsLanes | with_reducible apply modChan_keepsLanes | split | dsimp only)
theorem takeRelease_keepsPool {s t : State} (h : KeepsPool s t) (n : Channel) (resetsMonitor : Bool) : KeepsPool s (t.takeRelease n resetsMonitor) := by
  unfold State.takeRelease; try dsimp only
  repeat' (first | with_reducible assumption | with_reducible apply judgeHalted_keepsPool | with_reducible apply moveUse_keepsPool | with_reducible apply modChan_keepsPool | split | dsimp only)
theorem answerLookup_keeps {s t : State} (h : Keeps s t) (n : Channel) (a : Arrived) : Keeps s (t.answerLookup n a) := by
  unfold State.answerLookup; try dsimp only
  repeat' (first | with_reducible assumption | with_reducible apply moveUse_keeps | ((with_reducible apply modChan_keeps); rotate_left; focus (intro c; first | with_reducible rfl | (simp; done) | rfl | (split <;> rfl))) | split | dsimp only)
theorem answerLookup_keepsLanes {s t : State} (h : KeepsLanes s t) (n : Channel) (a : Arrived) : KeepsLanes s (t.answerLookup n a) := by
  unfold State.answerLookup; try dsimp only
  repeat' (first | with_reducible assumption | with_reducible apply moveUse_keepsLanes | with_reducible apply modChan_keepsLanes | split | dsimp only)
theorem answerLookup_keepsPool {s t : State} (h : KeepsPool s t) (n : Channel) (a : Arrived) : KeepsPool s (t.answerLookup n a) := by
  unfold State.answerLookup; try dsimp only
  repeat' (first | with_reducible assumption | with_reducible apply moveUse_keepsPool | with_reducible apply modChan_keepsPool | split | dsimp only)
theorem issue_keeps {s t : State} (h : Keeps s t) (n : Channel) : Keeps s (t.issue n) := by
  unfold State.issue; try dsimp only
  repeat' (first | with_reducible assumption | with_reducible apply takeOrders_keeps | with_reducible apply arbitrate_keeps | split | exact ⟨h.fixed, h.store, h.core, h.busy, h.config⟩ | (have h := takeOrders_keeps h n; exact ⟨h.fixed, h.store, h.core, h.busy, h.config⟩))
theorem issue_keepsTable {s t : State} (h : KeepsTable s t) (n : Channel) : KeepsTable s (t.issue n) := by
  unfold State.issue; try dsimp only
  repeat' (first | with_reducible assumption | with_reducible apply takeOrders_keepsTable | with_reducible apply arbitrate_keepsTable | split | exact ⟨h.table⟩ | (have h := takeOrders_keepsTable h n; exact ⟨h.table⟩))
theorem issue_keepsLanes {s t : State} (h : KeepsLanes s t) (n : Channel) : KeepsLanes s (t.issue n) := by
  unfold State.issue; try dsimp only
  repeat' (first | with_reducible assumption | with_reducible apply takeOrders_keepsLanes | with_reducible apply arbitrate_keepsLanes | split | exact ⟨h.lanes, h.claims⟩ | (have h := takeOrders_keepsLanes h n; exact ⟨h.lanes, h.claims⟩))
theorem finishShift_keeps {s t : State} (h : Keeps s t) (n : Channel) : Keeps s (t.finishShift n) := by
  unfold State.finishShift; try dsimp only
  repeat' (first | with_reducible assumption | with_reducible apply issue_keeps | ((with_reducible apply modChan_keeps); rotate_left; focus (intro c; first | with_reducible rfl | (simp; done) | rfl | (split <;> rfl))) | split | dsimp only)
theorem finishShift_keepsTable {s t : State} (h : KeepsTable s t) (n : Channel) : KeepsTable s (t.finishShift n) := by
  unfold State.finishShift; try dsimp only
  repeat' (first | with_reducible assumption | with_reducible apply issue_keepsTable | with_reducible apply modChan_keepsTable | split | dsimp only)
theorem finishShift_keepsLanes {s t : State} (h : KeepsLanes s t) (n : Channel) : KeepsLanes s (t.finishShift n) := by
  unfold State.finishShift; try dsimp only
  repeat' (first | with_reducible assumption | with_reducible apply issue_keepsLanes | with_reducible apply modChan_keepsLanes | split | dsimp only)
theorem takeLookup_keeps {s t : State} (h : Keeps s t) (n : Channel) (a : Arrived) : Keeps s (t.takeLookup n a) := by
  unfold State.takeLookup; try dsimp only
  repeat' (first | with_reducible assumption | with_reducible apply finishShift_keeps | with_reducible apply answerLookup_keeps | split | dsimp only)
theorem takeLookup_keepsLanes {s t : State} (h : KeepsLanes s t) (n : Channel) (a : Arrived) : KeepsLanes s (t.takeLookup n a) := by
  unfold State.takeLookup; try dsimp only
  repeat' (first | with_reducible assumption | with_reducible apply finishShift_keepsLanes | with_reducible apply answerLookup_keepsLanes | split | dsimp only)
theorem takeSequencerClaim_keeps {s t : State} (h : Keeps s t) (n : Channel) : Keeps s (t.takeSequencerClaim n) := by
  unfold State.takeSequencerClaim; try dsimp only
  repeat' (first | with_reducible assumption | with_reducible apply takeLookup_keeps | with_reducible apply takeRelease_keeps | split | dsimp only)
theorem takeSequencerClaim_keepsLanes {s t : State} (h : KeepsLanes s t) (n : Channel) : KeepsLanes s (t.takeSequencerClaim n) := by
  unfold State.takeSequencerClaim; try dsimp only
  repeat' (first | with_reducible assumption | with_reducible apply takeLookup_keepsLanes | with_reducible apply takeRelease_keepsLanes | split | dsimp only)
theorem takeSequencerBelow_keeps {s t : State} (h : Keeps s t) (n : Channel) : Keeps s (t.takeSequencerBelow n) := by
  unfold State.takeSequencerBelow; try dsimp only
  repeat' (first | with_reducible assumption | with_reducible apply takeSequencerClaim_keeps | with_reducible apply foldl_rel | (intro s a h) | split | dsimp only)
theorem takeSequencerBelow_keepsLanes {s t : State} (h : KeepsLanes s t) (n : Channel) : KeepsLanes s (t.takeSequencerBelow n) := by
  unfold State.takeSequencerBelow; try dsimp only
  repeat' (first | with_reducible assumption | with_reducible apply takeSequencerClaim_keepsLanes | with_reducible apply foldl_rel | (intro s a h) | split | dsimp only)
theorem takeSequencerClaims_keeps {s t : State} (h : Keeps s t) : Keeps s t.takeSequencerClaims := by
  unfold State.takeSequencerClaims; try dsimp only
  repeat' (first | with_reducible assumption | with_reducible apply takeSequencerClaim_keeps | with_reducible apply foldl_rel | (intro s a h) | split | dsimp only)
theorem takeSequencerClaims_keepsLanes {s t : State} (h : KeepsLanes s t) : KeepsLanes s t.takeSequencerClaims := by
  unfold State.takeSequencerClaims; try dsimp only
  repeat' (first | with_reducible assumption | with_reducible apply takeSequencerClaim_keepsLanes | with_reducible apply foldl_rel | (intro s a h) | split | dsimp only)
theorem truncateBasis_keeps {s t : State} (h : Keeps s t) (p : ProposalClaim) : Keeps s (t.truncateBasis p) := by
  unfold State.truncateBasis; try dsimp only
  repeat' (first | with_reducible assumption | with_reducible apply setEntry_keeps | split | dsimp only)
theorem truncateBasis_keepsLanes {s t : State} (h : KeepsLanes s t) (p : ProposalClaim) : KeepsLanes s (t.truncateBasis p) := by
  unfold State.truncateBasis; try dsimp only
  repeat' (first | with_reducible assumption | with_reducible apply setEntry_keepsLanes | split | dsimp only)
theorem truncateBasis_keepsPool {s t : State} (h : KeepsPool s t) (p : ProposalClaim) : KeepsPool s (t.truncateBasis p) := by
  unfold State.truncateBasis; try dsimp only
  repeat' (first | with_reducible assumption | with_reducible apply setEntry_keepsPool | split | dsimp only)
theorem modMonitorCounters_keeps {s t : State} (h : Keeps s t) (n : Channel) (f : MonitorCounters → MonitorCounters) : Keeps s (t.modMonitorCounters n f) := by
  unfold State.modMonitorCounters; try dsimp only
  repeat' (first | with_reducible assumption | ((with_reducible apply modChan_keeps); rotate_left; focus (intro c; first | with_reducible rfl | (simp; done) | rfl | (split <;> rfl))) | split | dsimp only)
theorem modMonitorCounters_keepsTable {s t : State} (h : KeepsTable s t) (n : Channel) (f : MonitorCounters → MonitorCounters) : KeepsTable s (t.modMonitorCounters n f) := by
  unfold State.modMonitorCounters; try dsimp only
  repeat' (first | with_reducible assumption | with_reducible apply modChan_keepsTable | split | dsimp only)
theorem modMonitorCounters_keepsLanes {s t : State} (h : KeepsLanes s t) (n : Channel) (f : MonitorCounters → MonitorCounters) : KeepsLanes s (t.modMonitorCounters n f) := by
  unfold State.modMonitorCounters; try dsimp only
  repeat' (first | with_reducible assumption | with_reducible apply modChan_keepsLanes | split | dsimp only)
theorem modMonitorCounters_keepsPool {s t : State} (h : KeepsPool s t) (n : Channel) (f : MonitorCounters → MonitorCounters) : KeepsPool s (t.modMonitorCounters n f) := by
  unfold State.modMonitorCounters; try dsimp only
  repeat' (first | with_reducible assumption | with_reducible apply modChan_keepsPool | split | dsimp only)
theorem acceptProposal_keeps {s t : State} (h : Keeps s t) (n : Channel) (p : ProposalClaim) (h : Handle) : Keeps s (t.acceptProposal n p h) := by
  unfold State.acceptProposal; try dsimp only
  repeat' (first | with_reducible assumption | with_reducible apply modMonitorCounters_keeps | with_reducible apply truncateBasis_keeps | with_reducible apply giveOut_keeps | with_reducible apply modAttn_keeps | split | dsimp only)
theorem acceptProposal_keepsLanes {s t : State} (h : KeepsLanes s t) (n : Channel) (p : ProposalClaim) (h : Handle) : KeepsLanes s (t.acceptProposal n p h) := by
  unfold State.acceptProposal; try dsimp only
  repeat' (first | with_reducible assumption | with_reducible apply modMonitorCounters_keepsLanes | with_reducible apply truncateBasis_keepsLanes | with_reducible apply giveOut_keepsLanes | with_reducible apply modAttn_keepsLanes | split | dsimp only)
theorem acceptProposal_keepsPool {s t : State} (h : KeepsPool s t) (n : Channel) (p : ProposalClaim) (h : Handle) : KeepsPool s (t.acceptProposal n p h) := by
  unfold State.acceptProposal; try dsimp only
  repeat' (first | with_reducible assumption | with_reducible apply modMonitorCounters_keepsPool | with_reducible apply truncateBasis_keepsPool | with_reducible apply giveOut_keepsPool | with_reducible apply modAttn_keepsPool | split | dsimp only)
theorem decideProposal_keeps {s t : State} (h : Keeps s t) (n : Channel) (p : ProposalClaim) : Keeps s (t.decideProposal n p) := by
  unfold State.decideProposal; try dsimp only
  repeat' (first | with_reducible assumption | with_reducible apply acceptProposal_keeps | with_reducible apply modMonitorCounters_keeps | split | dsimp only)
theorem decideProposal_keepsLanes {s t : State} (h : KeepsLanes s t) (n : Channel) (p : ProposalClaim) : KeepsLanes s (t.decideProposal n p) := by
  unfold State.decideProposal; try dsimp only
  repeat' (first | with_reducible assumption | with_reducible apply acceptProposal_keepsLanes | with_reducible apply modMonitorCounters_keepsLanes | split | dsimp only)
theorem decideProposal_keepsPool {s t : State} (h : KeepsPool s t) (n : Channel) (p : ProposalClaim) : KeepsPool s (t.decideProposal n p) := by
  unfold State.decideProposal; try dsimp only
  repeat' (first | with_reducible assumption | with_reducible apply acceptProposal_keepsPool | with_reducible apply modMonitorCounters_keepsPool | split | dsimp only)
theorem takeProposal_keeps {s t : State} (h : Keeps s t) (n : Channel) : Keeps s (t.takeProposal n) := by
  unfold State.takeProposal; try dsimp only
  repeat' (first | with_reducible assumption | with_reducible apply decideProposal_keeps | ((with_reducible apply modChan_keeps); rotate_left; focus (intro c; first | with_reducible rfl | (simp; done) | rfl | (split <;> rfl))) | split | dsimp only)
theorem takeProposal_keepsLanes {s t : State} (h : KeepsLanes s t) (n : Channel) : KeepsLanes s (t.takeProposal n) := by
  unfold State.takeProposal; try dsimp only
  repeat' (first | with_reducible assumption | with_reducible apply decideProposal_keepsLanes | with_reducible apply modChan_keepsLanes | split | dsimp only)
theorem takeProposal_keepsPool {s t : State} (h : KeepsPool s t) (n : Channel) : KeepsPool s (t.takeProposal n) := by
  unfold State.takeProposal; try dsimp only
  repeat' (first | with_reducible assumption | with_reducible apply decideProposal_keepsPool | with_reducible apply modChan_keepsPool | split | dsimp only)
theorem takeClaims_keeps {s t : State} (h : Keeps s t) : Keeps s t.takeClaims := by
  unfold State.takeClaims; try dsimp only
  repeat' (first | with_reducible assumption | with_reducible apply takeProposal_keeps | with_reducible apply takeSequencerClaims_keeps | with_reducible apply foldl_rel | (intro s a h) | split | dsimp only)
theorem takeClaims_keepsLanes {s t : State} (h : KeepsLanes s t) : KeepsLanes s t.takeClaims := by
  unfold State.takeClaims; try dsimp only
  repeat' (first | with_reducible assumption | with_reducible apply takeProposal_keepsLanes | with_reducible apply takeSequencerClaims_keepsLanes | with_reducible apply foldl_rel | (intro s a h) | split | dsimp only)
theorem shift_keeps {s t : State} (h : Keeps s t) (n : Channel) (a : Arrived) : Keeps s (t.shift n a) := by
  unfold State.shift; try dsimp only
  repeat' (first | with_reducible assumption | with_reducible apply takeSequencerBelow_keeps | with_reducible apply takeLookup_keeps | ((with_reducible apply modChan_keeps); rotate_left; focus (intro c; first | with_reducible rfl | (simp; done) | rfl | (split <;> rfl))) | split | dsimp only)
theorem shift_keepsLanes {s t : State} (h : KeepsLanes s t) (n : Channel) (a : Arrived) : KeepsLanes s (t.shift n a) := by
  unfold State.shift; try dsimp only
  repeat' (first | with_reducible assumption | with_reducible apply takeSequencerBelow_keepsLanes | with_reducible apply takeLookup_keepsLanes | with_reducible apply modChan_keepsLanes | split | dsimp only)
theorem shiftWith_keeps {s t : State} (h : Keeps s t) (n : Channel) (e : MonitorEvent) : Keeps s (t.shiftWith n e) := by
  unfold State.shiftWith; try dsimp only
  repeat' (first | with_reducible assumption | with_reducible apply shift_keeps | split | dsimp only)
theorem shiftWith_keepsLanes {s t : State} (h : KeepsLanes s t) (n : Channel) (e : MonitorEvent) : KeepsLanes s (t.shiftWith n e) := by
  unfold State.shiftWith; try dsimp only
  repeat' (first | with_reducible assumption | with_reducible apply shift_keepsLanes | split | dsimp only)
theorem setFaults_keeps {s t : State} (h : Keeps s t) (n : Channel) (v : Nat) : Keeps s (t.setFaults n v) := by
  unfold State.setFaults; try dsimp only
  repeat' (first | with_reducible assumption | with_reducible apply modAttn_keeps | with_reducible apply modPort_keeps | split | dsimp only)
theorem setFaults_keepsTable {s t : State} (h : KeepsTable s t) (n : Channel) (v : Nat) : KeepsTable s (t.setFaults n v) := by
  unfold State.setFaults; try dsimp only
  repeat' (first | with_reducible assumption | with_reducible apply modAttn_keepsTable | with_reducible apply modPort_keepsTable | split | dsimp only)
theorem setFaults_keepsLanes {s t : State} (h : KeepsLanes s t) (n : Channel) (v : Nat) : KeepsLanes s (t.setFaults n v) := by
  unfold State.setFaults; try dsimp only
  repeat' (first | with_reducible assumption | with_reducible apply modAttn_keepsLanes | with_reducible apply modPort_keepsLanes | split | dsimp only)
theorem setFaults_keepsPool {s t : State} (h : KeepsPool s t) (n : Channel) (v : Nat) : KeepsPool s (t.setFaults n v) := by
  unfold State.setFaults; try dsimp only
  repeat' (first | with_reducible assumption | with_reducible apply modAttn_keepsPool | with_reducible apply modPort_keepsPool | split | dsimp only)
theorem modPortCounters_keeps {s t : State} (h : Keeps s t) (n : Channel) (f : PortCounters → PortCounters) : Keeps s (t.modPortCounters n f) := by
  unfold State.modPortCounters; try dsimp only
  repeat' (first | with_reducible assumption | with_reducible apply modPort_keeps | split | dsimp only)
theorem modPortCounters_keepsTable {s t : State} (h : KeepsTable s t) (n : Channel) (f : PortCounters → PortCounters) : KeepsTable s (t.modPortCounters n f) := by
  unfold State.modPortCounters; try dsimp only
  repeat' (first | with_reducible assumption | with_reducible apply modPort_keepsTable | split | dsimp only)
theorem modPortCounters_keepsLanes {s t : State} (h : KeepsLanes s t) (n : Channel) (f : PortCounters → PortCounters) : KeepsLanes s (t.modPortCounters n f) := by
  unfold State.modPortCounters; try dsimp only
  repeat' (first | with_reducible assumption | with_reducible apply modPort_keepsLanes | split | dsimp only)
theorem modPortCounters_keepsPool {s t : State} (h : KeepsPool s t) (n : Channel) (f : PortCounters → PortCounters) : KeepsPool s (t.modPortCounters n f) := by
  unfold State.modPortCounters; try dsimp only
  repeat' (first | with_reducible assumption | with_reducible apply modPort_keepsPool | split | dsimp only)
theorem detach_keeps {s t : State} (h : Keeps s t) (n : Channel) : Keeps s (t.detach n) := by
  unfold State.detach; try dsimp only
  repeat' (first | with_reducible assumption | with_reducible apply setFaults_keeps | with_reducible apply modAttn_keeps | ((with_reducible apply modChan_keeps); rotate_left; focus (intro c; first | with_reducible rfl | (simp; done) | rfl | (split <;> rfl))) | split | dsimp only)
theorem detach_keepsTable {s t : State} (h : KeepsTable s t) (n : Channel) : KeepsTable s (t.detach n) := by
  unfold State.detach; try dsimp only
  repeat' (first | with_reducible assumption | with_reducible apply setFaults_keepsTable | with_reducible apply modAttn_keepsTable | with_reducible apply modChan_keepsTable | split | dsimp only)
theorem detach_keepsLanes {s t : State} (h : KeepsLanes s t) (n : Channel) : KeepsLanes s (t.detach n) := by
  unfold State.detach; try dsimp only
  repeat' (first | with_reducible assumption | with_reducible apply setFaults_keepsLanes | with_reducible apply modAttn_keepsLanes | with_reducible apply modChan_keepsLanes | split | dsimp only)
theorem detach_keepsPool {s t : State} (h : KeepsPool s t) (n : Channel) : KeepsPool s (t.detach n) := by
  unfold State.detach; try dsimp only
  repeat' (first | with_reducible assumption | with_reducible apply setFaults_keepsPool | with_reducible apply modAttn_keepsPool | with_reducible apply modChan_keepsPool | split | dsimp only)
theorem addFault_keeps {s t : State} (h : Keeps s t) (n : Channel) : Keeps s (t.addFault n) := by
  unfold State.addFault; try dsimp only
  repeat' (first | with_reducible assumption | with_reducible apply detach_keeps | with_reducible apply setFaults_keeps | split | dsimp only)
theorem addFault_keepsTable {s t : State} (h : KeepsTable s t) (n : Channel) : KeepsTable s (t.addFault n) := by
  unfold State.addFault; try dsimp only
  repeat' (first | with_reducible assumption | with_reducible apply detach_keepsTable | with_reducible apply setFaults_keepsTable | split | dsimp only)
theorem addFault_keepsLanes {s t : State} (h : KeepsLanes s t) (n : Channel) : KeepsLanes s (t.addFault n) := by
  unfold State.addFault; try dsimp only
  repeat' (first | with_reducible assumption | with_reducible apply detach_keepsLanes | with_reducible apply setFaults_keepsLanes | split | dsimp only)
theorem addFault_keepsPool {s t : State} (h : KeepsPool s t) (n : Channel) : KeepsPool s (t.addFault n) := by
  unfold State.addFault; try dsimp only
  repeat' (first | with_reducible assumption | with_reducible apply detach_keepsPool | with_reducible apply setFaults_keepsPool | split | dsimp only)
theorem badPacket_keeps {s t : State} (h : Keeps s t) (n : Channel) : Keeps s (t.badPacket n) := by
  unfold State.badPacket; try dsimp only
  repeat' (first | with_reducible assumption | with_reducible apply addFault_keeps | with_reducible apply modPort_keeps | split | dsimp only)
theorem badPacket_keepsTable {s t : State} (h : KeepsTable s t) (n : Channel) : KeepsTable s (t.badPacket n) := by
  unfold State.badPacket; try dsimp only
  repeat' (first | with_reducible assumption | with_reducible apply addFault_keepsTable | with_reducible apply modPort_keepsTable | split | dsimp only)
theorem badPacket_keepsLanes {s t : State} (h : KeepsLanes s t) (n : Channel) : KeepsLanes s (t.badPacket n) := by
  unfold State.badPacket; try dsimp only
  repeat' (first | with_reducible assumption | with_reducible apply addFault_keepsLanes | with_reducible apply modPort_keepsLanes | split | dsimp only)
theorem badPacket_keepsPool {s t : State} (h : KeepsPool s t) (n : Channel) : KeepsPool s (t.badPacket n) := by
  unfold State.badPacket; try dsimp only
  repeat' (first | with_reducible assumption | with_reducible apply addFault_keepsPool | with_reducible apply modPort_keepsPool | split | dsimp only)
theorem judgeHeader_keeps {s t : State} (h : Keeps s t) (n : Channel) (h : HeaderBytes) : Keeps s (t.judgeHeader n h) := by
  unfold State.judgeHeader; try dsimp only
  repeat' (first | with_reducible assumption | with_reducible apply badPacket_keeps | with_reducible apply modPortCounters_keeps | with_reducible apply modPort_keeps | split | dsimp only)
theorem judgeHeader_keepsTable {s t : State} (h : KeepsTable s t) (n : Channel) (h : HeaderBytes) : KeepsTable s (t.judgeHeader n h) := by
  unfold State.judgeHeader; try dsimp only
  repeat' (first | with_reducible assumption | with_reducible apply badPacket_keepsTable | with_reducible apply modPortCounters_keepsTable | with_reducible apply modPort_keepsTable | split | dsimp only)
theorem judgeHeader_keepsLanes {s t : State} (h : KeepsLanes s t) (n : Channel) (h : HeaderBytes) : KeepsLanes s (t.judgeHeader n h) := by
  unfold State.judgeHeader; try dsimp only
  repeat' (first | with_reducible assumption | with_reducible apply badPacket_keepsLanes | with_reducible apply modPortCounters_keepsLanes | with_reducible apply modPort_keepsLanes | split | dsimp only)
theorem judgeHeader_keepsPool {s t : State} (h : KeepsPool s t) (n : Channel) (h : HeaderBytes) : KeepsPool s (t.judgeHeader n h) := by
  unfold State.judgeHeader; try dsimp only
  repeat' (first | with_reducible assumption | with_reducible apply badPacket_keepsPool | with_reducible apply modPortCounters_keepsPool | with_reducible apply modPort_keepsPool | split | dsimp only)
theorem headerCompletion_keeps {s t : State} (h : Keeps s t) (n : Channel) (received : List Byte) : Keeps s (t.headerCompletion n received) := by
  unfold State.headerCompletion; try dsimp only
  repeat' (first | with_reducible assumption | with_reducible apply judgeHeader_keeps | split | dsimp only)
theorem headerCompletion_keepsTable {s t : State} (h : KeepsTable s t) (n : Channel) (received : List Byte) : KeepsTable s (t.headerCompletion n received) := by
  unfold State.headerCompletion; try dsimp only
  repeat' (first | with_reducible assumption | with_reducible apply judgeHeader_keepsTable | split | dsimp only)
theorem headerCompletion_keepsLanes {s t : State} (h : KeepsLanes s t) (n : Channel) (received : List Byte) : KeepsLanes s (t.headerCompletion n received) := by
  unfold State.headerCompletion; try dsimp only
  repeat' (first | with_reducible assumption | with_reducible apply judgeHeader_keepsLanes | split | dsimp only)
theorem headerCompletion_keepsPool {s t : State} (h : KeepsPool s t) (n : Channel) (received : List Byte) : KeepsPool s (t.headerCompletion n received) := by
  unfold State.headerCompletion; try dsimp only
  repeat' (first | with_reducible assumption | with_reducible apply judgeHeader_keepsPool | split | dsimp only)
theorem gainLock_keeps {s t : State} (h : Keeps s t) (n : Channel) (f : Field) : Keeps s (t.gainLock n f) := by
  unfold State.gainLock; try dsimp only
  repeat' (first | with_reducible assumption | with_reducible apply modAttn_keeps | ((with_reducible apply modChan_keeps); rotate_left; focus (intro c; first | with_reducible rfl | (simp; done) | rfl | (split <;> rfl))) | split | dsimp only)
theorem gainLock_keepsTable {s t : State} (h : KeepsTable s t) (n : Channel) (f : Field) : KeepsTable s (t.gainLock n f) := by
  unfold State.gainLock; try dsimp only
  repeat' (first | with_reducible assumption | with_reducible apply modAttn_keepsTable | with_reducible apply modChan_keepsTable | split | dsimp only)
theorem gainLock_keepsLanes {s t : State} (h : KeepsLanes s t) (n : Channel) (f : Field) : KeepsLanes s (t.gainLock n f) := by
  unfold State.gainLock; try dsimp only
  repeat' (first | with_reducible assumption | with_reducible apply modAttn_keepsLanes | with_reducible apply modChan_keepsLanes | split | dsimp only)
theorem gainLock_keepsPool {s t : State} (h : KeepsPool s t) (n : Channel) (f : Field) : KeepsPool s (t.gainLock n f) := by
  unfold State.gainLock; try dsimp only
  repeat' (first | with_reducible assumption | with_reducible apply modAttn_keepsPool | with_reducible apply modChan_keepsPool | split | dsimp only)
theorem seekField_keeps {s t : State} (h : Keeps s t) (n : Channel) (f : Field) : Keeps s (t.seekField n f) := by
  unfold State.seekField; try dsimp only
  repeat' (first | with_reducible assumption | with_reducible apply gainLock_keeps | with_reducible apply modPort_keeps | split | dsimp only)
theorem seekField_keepsTable {s t : State} (h : KeepsTable s t) (n : Channel) (f : Field) : KeepsTable s (t.seekField n f) := by
  unfold State.seekField; try dsimp only
  repeat' (first | with_reducible assumption | with_reducible apply gainLock_keepsTable | with_reducible apply modPort_keepsTable | split | dsimp only)
theorem seekField_keepsLanes {s t : State} (h : KeepsLanes s t) (n : Channel) (f : Field) : KeepsLanes s (t.seekField n f) := by
  unfold State.seekField; try dsimp only
  repeat' (first | with_reducible assumption | with_reducible apply gainLock_keepsLanes | with_reducible apply modPort_keepsLanes | split | dsimp only)
theorem seekField_keepsPool {s t : State} (h : KeepsPool s t) (n : Channel) (f : Field) : KeepsPool s (t.seekField n f) := by
  unfold State.seekField; try dsimp only
  repeat' (first | with_reducible assumption | with_reducible apply gainLock_keepsPool | with_reducible apply modPort_keepsPool | split | dsimp only)
theorem runField_keeps {s t : State} (h : Keeps s t) (n : Channel) (f : Field) : Keeps s (t.runField n f) := by
  unfold State.runField; try dsimp only
  repeat' (first | with_reducible assumption | with_reducible apply addFault_keeps | with_reducible apply detach_keeps | with_reducible apply setFaults_keeps | ((with_reducible apply modChan_keeps); rotate_left; focus (intro c; first | with_reducible rfl | (simp; done) | rfl | (split <;> rfl))) | split | dsimp only)
theorem runField_keepsTable {s t : State} (h : KeepsTable s t) (n : Channel) (f : Field) : KeepsTable s (t.runField n f) := by
  unfold State.runField; try dsimp only
  repeat' (first | with_reducible assumption | with_reducible apply addFault_keepsTable | with_reducible apply detach_keepsTable | with_reducible apply setFaults_keepsTable | with_reducible apply modChan_keepsTable | split | dsimp only)
theorem runField_keepsLanes {s t : State} (h : KeepsLanes s t) (n : Channel) (f : Field) : KeepsLanes s (t.runField n f) := by
  unfold State.runField; try dsimp only
  repeat' (first | with_reducible assumption | with_reducible apply addFault_keepsLanes | with_reducible apply detach_keepsLanes | with_reducible apply setFaults_keepsLanes | with_reducible apply modChan_keepsLanes | split | dsimp only)
theorem runField_keepsPool {s t : State} (h : KeepsPool s t) (n : Channel) (f : Field) : KeepsPool s (t.runField n f) := by
  unfold State.runField; try dsimp only
  repeat' (first | with_reducible assumption | with_reducible apply addFault_keepsPool | with_reducible apply detach_keepsPool | with_reducible apply setFaults_keepsPool | with_reducible apply modChan_keepsPool | split | dsimp only)
theorem rejoin_keeps {s t : State} (h : Keeps s t) (n : Channel) : Keeps s (t.rejoin n) := by
  unfold State.rejoin; try dsimp only
  repeat' (first | with_reducible assumption | with_reducible apply setFaults_keeps | with_reducible apply modAttn_keeps | ((with_reducible apply modChan_keeps); rotate_left; focus (intro c; first | with_reducible rfl | (simp; done) | rfl | (split <;> rfl))) | split | dsimp only)
theorem rejoin_keepsTable {s t : State} (h : KeepsTable s t) (n : Channel) : KeepsTable s (t.rejoin n) := by
  unfold State.rejoin; try dsimp only
  repeat' (first | with_reducible assumption | with_reducible apply setFaults_keepsTable | with_reducible apply modAttn_keepsTable | with_reducible apply modChan_keepsTable | split | dsimp only)
theorem rejoin_keepsLanes {s t : State} (h : KeepsLanes s t) (n : Channel) : KeepsLanes s (t.rejoin n) := by
  unfold State.rejoin; try dsimp only
  repeat' (first | with_reducible assumption | with_reducible apply setFaults_keepsLanes | with_reducible apply modAttn_keepsLanes | with_reducible apply modChan_keepsLanes | split | dsimp only)
theorem rejoin_keepsPool {s t : State} (h : KeepsPool s t) (n : Channel) : KeepsPool s (t.rejoin n) := by
  unfold State.rejoin; try dsimp only
  repeat' (first | with_reducible assumption | with_reducible apply setFaults_keepsPool | with_reducible apply modAttn_keepsPool | with_reducible apply modChan_keepsPool | split | dsimp only)
theorem detachedField_keeps {s t : State} (h : Keeps s t) (n : Channel) (f : Field) : Keeps s (t.detachedField n f) := by
  unfold State.detachedField; try dsimp only
  repeat' (first | with_reducible assumption | with_reducible apply rejoin_keeps | with_reducible apply modPort_keeps | split | dsimp only)
theorem detachedField_keepsTable {s t : State} (h : KeepsTable s t) (n : Channel) (f : Field) : KeepsTable s (t.detachedField n f) := by
  unfold State.detachedField; try dsimp only
  repeat' (first | with_reducible assumption | with_reducible apply rejoin_keepsTable | with_reducible apply modPort_keepsTable | split | dsimp only)
theorem detachedField_keepsLanes {s t : State} (h : KeepsLanes s t) (n : Channel) (f : Field) : KeepsLanes s (t.detachedField n f) := by
  unfold State.detachedField; try dsimp only
  repeat' (first | with_reducible assumption | with_reducible apply rejoin_keepsLanes | with_reducible apply modPort_keepsLanes | split | dsimp only)
theorem detachedField_keepsPool {s t : State} (h : KeepsPool s t) (n : Channel) (f : Field) : KeepsPool s (t.detachedField n f) := by
  unfold State.detachedField; try dsimp only
  repeat' (first | with_reducible assumption | with_reducible apply rejoin_keepsPool | with_reducible apply modPort_keepsPool | split | dsimp only)
theorem judgePacket_keeps {s t : State} (h : Keeps s t) (n : Channel) (f : Field) : Keeps s (t.judgePacket n f) := by
  unfold State.judgePacket; try dsimp only
  repeat' (first | with_reducible assumption | with_reducible apply detachedField_keeps | with_reducible apply runField_keeps | with_reducible apply seekField_keeps | with_reducible apply modPort_keeps | split | dsimp only)
theorem judgePacket_keepsTable {s t : State} (h : KeepsTable s t) (n : Channel) (f : Field) : KeepsTable s (t.judgePacket n f) := by
  unfold State.judgePacket; try dsimp only
  repeat' (first | with_reducible assumption | with_reducible apply detachedField_keepsTable | with_reducible apply runField_keepsTable | with_reducible apply seekField_keepsTable | with_reducible apply modPort_keepsTable | split | dsimp only)
theorem judgePacket_keepsLanes {s t : State} (h : KeepsLanes s t) (n : Channel) (f : Field) : KeepsLanes s (t.judgePacket n f) := by
  unfold State.judgePacket; try dsimp only
  repeat' (first | with_reducible assumption | with_reducible apply detachedField_keepsLanes | with_reducible apply runField_keepsLanes | with_reducible apply seekField_keepsLanes | with_reducible apply modPort_keepsLanes | split | dsimp only)
theorem judgePacket_keepsPool {s t : State} (h : KeepsPool s t) (n : Channel) (f : Field) : KeepsPool s (t.judgePacket n f) := by
  unfold State.judgePacket; try dsimp only
  repeat' (first | with_reducible assumption | with_reducible apply detachedField_keepsPool | with_reducible apply runField_keepsPool | with_reducible apply seekField_keepsPool | with_reducible apply modPort_keepsPool | split | dsimp only)
theorem packetCompletion_keeps {s t : State} (h : Keeps s t) (n : Channel) (lines check : List Byte) : Keeps s (t.packetCompletion n lines check) := by
  unfold State.packetCompletion; try dsimp only
  repeat' (first | with_reducible assumption | with_reducible apply judgePacket_keeps | split | dsimp only)
theorem packetCompletion_keepsTable {s t : State} (h : KeepsTable s t) (n : Channel) (lines check : List Byte) : KeepsTable s (t.packetCompletion n lines check) := by
  unfold State.packetCompletion; try dsimp only
  repeat' (first | with_reducible assumption | with_reducible apply judgePacket_keepsTable | split | dsimp only)
theorem packetCompletion_keepsLanes {s t : State} (h : KeepsLanes s t) (n : Channel) (lines check : List Byte) : KeepsLanes s (t.packetCompletion n lines check) := by
  unfold State.packetCompletion; try dsimp only
  repeat' (first | with_reducible assumption | with_reducible apply judgePacket_keepsLanes | split | dsimp only)
theorem packetCompletion_keepsPool {s t : State} (h : KeepsPool s t) (n : Channel) (lines check : List Byte) : KeepsPool s (t.packetCompletion n lines check) := by
  unfold State.packetCompletion; try dsimp only
  repeat' (first | with_reducible assumption | with_reducible apply judgePacket_keepsPool | split | dsimp only)
theorem loseLock_keeps {s t : State} (h : Keeps s t) (n : Channel) : Keeps s (t.loseLock n) := by
  unfold State.loseLock; try dsimp only
  repeat' (first | with_reducible assumption | with_reducible apply modAttn_keeps | ((with_reducible apply modChan_keeps); rotate_left; focus (intro c; first | with_reducible rfl | (simp; done) | rfl | (split <;> rfl))) | split | dsimp only)
theorem loseLock_keepsTable {s t : State} (h : KeepsTable s t) (n : Channel) : KeepsTable s (t.loseLock n) := by
  unfold State.loseLock; try dsimp only
  repeat' (first | with_reducible assumption | with_reducible apply modAttn_keepsTable | with_reducible apply modChan_keepsTable | split | dsimp only)
theorem loseLock_keepsLanes {s t : State} (h : KeepsLanes s t) (n : Channel) : KeepsLanes s (t.loseLock n) := by
  unfold State.loseLock; try dsimp only
  repeat' (first | with_reducible assumption | with_reducible apply modAttn_keepsLanes | with_reducible apply modChan_keepsLanes | split | dsimp only)
theorem loseLock_keepsPool {s t : State} (h : KeepsPool s t) (n : Channel) : KeepsPool s (t.loseLock n) := by
  unfold State.loseLock; try dsimp only
  repeat' (first | with_reducible assumption | with_reducible apply modAttn_keepsPool | with_reducible apply modChan_keepsPool | split | dsimp only)
theorem portEvent_keeps {s t : State} (h : Keeps s t) (n : Channel) (event : PortEvent) : Keeps s (t.portEvent n event) := by
  unfold State.portEvent; try dsimp only
  repeat' (first | with_reducible assumption | with_reducible apply packetCompletion_keeps | with_reducible apply headerCompletion_keeps | split | dsimp only)
theorem portEvent_keepsTable {s t : State} (h : KeepsTable s t) (n : Channel) (event : PortEvent) : KeepsTable s (t.portEvent n event) := by
  unfold State.portEvent; try dsimp only
  repeat' (first | with_reducible assumption | with_reducible apply packetCompletion_keepsTable | with_reducible apply headerCompletion_keepsTable | split | dsimp only)
theorem portEvent_keepsLanes {s t : State} (h : KeepsLanes s t) (n : Channel) (event : PortEvent) : KeepsLanes s (t.portEvent n event) := by
  unfold State.portEvent; try dsimp only
  repeat' (first | with_reducible assumption | with_reducible apply packetCompletion_keepsLanes | with_reducible apply headerCompletion_keepsLanes | split | dsimp only)
theorem portEvent_keepsPool {s t : State} (h : KeepsPool s t) (n : Channel) (event : PortEvent) : KeepsPool s (t.portEvent n event) := by
  unfold State.portEvent; try dsimp only
  repeat' (first | with_reducible assumption | with_reducible apply packetCompletion_keepsPool | with_reducible apply headerCompletion_keepsPool | split | dsimp only)
theorem setClaim_keeps {s t : State} (h : Keeps s t) (n : Channel) (claim : Option LaneId) : Keeps s (t.setClaim n claim) := by
  unfold State.setClaim; try dsimp only
  repeat' (first | with_reducible assumption | ((with_reducible apply modChan_keeps); rotate_left; focus (intro c; first | with_reducible rfl | (simp; done) | rfl | (split <;> rfl))) | split | exact ⟨h.fixed, h.store, h.core, h.busy, h.config⟩)
theorem setClaim_keepsTable {s t : State} (h : KeepsTable s t) (n : Channel) (claim : Option LaneId) : KeepsTable s (t.setClaim n claim) := by
  unfold State.setClaim; try dsimp only
  repeat' (first | with_reducible assumption | with_reducible apply modChan_keepsTable | split | exact ⟨h.table⟩)
theorem setClaim_keepsPool {s t : State} (h : KeepsPool s t) (n : Channel) (claim : Option LaneId) : KeepsPool s (t.setClaim n claim) := by
  unfold State.setClaim; try dsimp only
  repeat' (first | with_reducible assumption | with_reducible apply modChan_keepsPool | split | exact ⟨h.queue, h.engines⟩)
theorem beginClaim_keeps {s t : State} (h : Keeps s t) (l : LaneId) (n : Channel) : Keeps s (t.beginClaim l n) := by
  unfold State.beginClaim; try dsimp only
  repeat' (first | with_reducible assumption | with_reducible apply setClaim_keeps | split | dsimp only)
theorem beginClaim_keepsTable {s t : State} (h : KeepsTable s t) (l : LaneId) (n : Channel) : KeepsTable s (t.beginClaim l n) := by
  unfold State.beginClaim; try dsimp only
  repeat' (first | with_reducible assumption | with_reducible apply setClaim_keepsTable | split | dsimp only)
theorem beginClaim_keepsPool {s t : State} (h : KeepsPool s t) (l : LaneId) (n : Channel) : KeepsPool s (t.beginClaim l n) := by
  unfold State.beginClaim; try dsimp only
  repeat' (first | with_reducible assumption | with_reducible apply setClaim_keepsPool | split | dsimp only)
theorem releaseUnneeded_keeps {s t : State} (h : Keeps s t) (l : LaneId) (n : Channel) : Keeps s (t.releaseUnneeded l n) := by
  unfold State.releaseUnneeded; try dsimp only
  repeat' (first | with_reducible assumption | with_reducible apply setClaim_keeps | split | dsimp only)
theorem releaseUnneeded_keepsTable {s t : State} (h : KeepsTable s t) (l : LaneId) (n : Channel) : KeepsTable s (t.releaseUnneeded l n) := by
  unfold State.releaseUnneeded; try dsimp only
  repeat' (first | with_reducible assumption | with_reducible apply setClaim_keepsTable | split | dsimp only)
theorem releaseUnneeded_keepsPool {s t : State} (h : KeepsPool s t) (l : LaneId) (n : Channel) : KeepsPool s (t.releaseUnneeded l n) := by
  unfold State.releaseUnneeded; try dsimp only
  repeat' (first | with_reducible assumption | with_reducible apply setClaim_keepsPool | split | dsimp only)
theorem endStarvedOf_keeps {s t : State} (h : Keeps s t) (l : LaneId) : Keeps s (t.endStarvedOf l) := by
  unfold State.endStarvedOf; try dsimp only
  repeat' (first | with_reducible assumption | with_reducible apply modAttn_keeps | split | dsimp only)
theorem endStarvedOf_keepsTable {s t : State} (h : KeepsTable s t) (l : LaneId) : KeepsTable s (t.endStarvedOf l) := by
  unfold State.endStarvedOf; try dsimp only
  repeat' (first | with_reducible assumption | with_reducible apply modAttn_keepsTable | split | dsimp only)
theorem endStarvedOf_keepsLanes {s t : State} (h : KeepsLanes s t) (l : LaneId) : KeepsLanes s (t.endStarvedOf l) := by
  unfold State.endStarvedOf; try dsimp only
  repeat' (first | with_reducible assumption | with_reducible apply modAttn_keepsLanes | split | dsimp only)
theorem endStarvedOf_keepsPool {s t : State} (h : KeepsPool s t) (l : LaneId) : KeepsPool s (t.endStarvedOf l) := by
  unfold State.endStarvedOf; try dsimp only
  repeat' (first | with_reducible assumption | with_reducible apply modAttn_keepsPool | split | dsimp only)
theorem cancelSource_keeps {s t : State} (h : Keeps s t) (l : LaneId) : Keeps s (t.cancelSource l) := by
  unfold State.cancelSource; try dsimp only
  repeat' (first | with_reducible assumption | with_reducible apply cancelByRole_keeps | split | dsimp only)
theorem cancelSource_keepsTable {s t : State} (h : KeepsTable s t) (l : LaneId) : KeepsTable s (t.cancelSource l) := by
  unfold State.cancelSource; try dsimp only
  repeat' (first | with_reducible assumption | with_reducible apply cancelByRole_keepsTable | split | dsimp only)
theorem cancelSource_keepsLanes {s t : State} (h : KeepsLanes s t) (l : LaneId) : KeepsLanes s (t.cancelSource l) := by
  unfold State.cancelSource; try dsimp only
  repeat' (first | with_reducible assumption | with_reducible apply cancelByRole_keepsLanes | split | dsimp only)
theorem releaseOld_keeps {s t : State} (h : Keeps s t) (l : LaneId) (old : Option Channel) : Keeps s (t.releaseOld l old) := by
  unfold State.releaseOld; try dsimp only
  repeat' (first | with_reducible assumption | with_reducible apply releaseUnneeded_keeps | split | dsimp only)
theorem releaseOld_keepsTable {s t : State} (h : KeepsTable s t) (l : LaneId) (old : Option Channel) : KeepsTable s (t.releaseOld l old) := by
  unfold State.releaseOld; try dsimp only
  repeat' (first | with_reducible assumption | with_reducible apply releaseUnneeded_keepsTable | split | dsimp only)
theorem releaseOld_keepsPool {s t : State} (h : KeepsPool s t) (l : LaneId) (old : Option Channel) : KeepsPool s (t.releaseOld l old) := by
  unfold State.releaseOld; try dsimp only
  repeat' (first | with_reducible assumption | with_reducible apply releaseUnneeded_keepsPool | split | dsimp only)
theorem takeChannel_keeps {s t : State} (h : Keeps s t) (l : LaneId) (x : Channel) : Keeps s (t.takeChannel l x) := by
  unfold State.takeChannel; try dsimp only
  repeat' (first | with_reducible assumption | with_reducible apply releaseOld_keeps | with_reducible apply cancelSource_keeps | with_reducible apply endStarvedOf_keeps | with_reducible apply reRole_keeps | with_reducible apply modLane_keeps | split | dsimp only)
theorem takeChannel_keepsTable {s t : State} (h : KeepsTable s t) (l : LaneId) (x : Channel) : KeepsTable s (t.takeChannel l x) := by
  unfold State.takeChannel; try dsimp only
  repeat' (first | with_reducible assumption | with_reducible apply releaseOld_keepsTable | with_reducible apply cancelSource_keepsTable | with_reducible apply endStarvedOf_keepsTable | with_reducible apply reRole_keepsTable | with_reducible apply modLane_keepsTable | split | dsimp only)
theorem takeSlate_keeps {s t : State} (h : Keeps s t) (l : LaneId) : Keeps s (t.takeSlate l) := by
  unfold State.takeSlate; try dsimp only
  repeat' (first | with_reducible assumption | with_reducible apply releaseOld_keeps | with_reducible apply cancelSource_keeps | with_reducible apply endStarvedOf_keeps | with_reducible apply modLane_keeps | split | dsimp only)
theorem takeSlate_keepsTable {s t : State} (h : KeepsTable s t) (l : LaneId) : KeepsTable s (t.takeSlate l) := by
  unfold State.takeSlate; try dsimp only
  repeat' (first | with_reducible assumption | with_reducible apply releaseOld_keepsTable | with_reducible apply cancelSource_keepsTable | with_reducible apply endStarvedOf_keepsTable | with_reducible apply modLane_keepsTable | split | dsimp only)
theorem takeSource_keeps {s t : State} (h : Keeps s t) (l : LaneId) : Keeps s (t.takeSource l) := by
  unfold State.takeSource; try dsimp only
  repeat' (first | with_reducible assumption | with_reducible apply modLane_keeps | split | dsimp only)
theorem takeSource_keepsTable {s t : State} (h : KeepsTable s t) (l : LaneId) : KeepsTable s (t.takeSource l) := by
  unfold State.takeSource; try dsimp only
  repeat' (first | with_reducible assumption | with_reducible apply modLane_keepsTable | split | dsimp only)
theorem takeSource_keepsPool {s t : State} (h : KeepsPool s t) (l : LaneId) : KeepsPool s (t.takeSource l) := by
  unfold State.takeSource; try dsimp only
  repeat' (first | with_reducible assumption | with_reducible apply modLane_keepsPool | split | dsimp only)
theorem takeCue_keeps {s t : State} (h : Keeps s t) (l : LaneId) (c : Cue) : Keeps s (t.takeCue l c) := by
  unfold State.takeCue; try dsimp only
  repeat' (first | with_reducible assumption | with_reducible apply takeSource_keeps | with_reducible apply takeSlate_keeps | with_reducible apply takeChannel_keeps | with_reducible apply modAttn_keeps | split | dsimp only)
theorem takeCue_keepsTable {s t : State} (h : KeepsTable s t) (l : LaneId) (c : Cue) : KeepsTable s (t.takeCue l c) := by
  unfold State.takeCue; try dsimp only
  repeat' (first | with_reducible assumption | with_reducible apply takeSource_keepsTable | with_reducible apply takeSlate_keepsTable | with_reducible apply takeChannel_keepsTable | with_reducible apply modAttn_keepsTable | split | dsimp only)
theorem takeCheck_keeps {s t : State} (h : Keeps s t) (l : LaneId) : Keeps s (t.takeCheck l) := by
  unfold State.takeCheck; try dsimp only
  repeat' (first | with_reducible assumption | with_reducible apply takeCue_keeps | split | dsimp only)
theorem takeCheck_keepsTable {s t : State} (h : KeepsTable s t) (l : LaneId) : KeepsTable s (t.takeCheck l) := by
  unfold State.takeCheck; try dsimp only
  repeat' (first | with_reducible assumption | with_reducible apply takeCue_keepsTable | split | dsimp only)
theorem emit_keeps {s t : State} (h : Keeps s t) (l : LaneId) : Keeps s (t.emit l) := by
  unfold State.emit; try dsimp only
  repeat' (first | with_reducible assumption | with_reducible apply modAttn_keeps | with_reducible apply modLane_keeps | split | dsimp only)
theorem emit_keepsTable {s t : State} (h : KeepsTable s t) (l : LaneId) : KeepsTable s (t.emit l) := by
  unfold State.emit; try dsimp only
  repeat' (first | with_reducible assumption | with_reducible apply modAttn_keepsTable | with_reducible apply modLane_keepsTable | split | dsimp only)
theorem emit_keepsPool {s t : State} (h : KeepsPool s t) (l : LaneId) : KeepsPool s (t.emit l) := by
  unfold State.emit; try dsimp only
  repeat' (first | with_reducible assumption | with_reducible apply modAttn_keepsPool | with_reducible apply modLane_keepsPool | split | dsimp only)
theorem takePart_keeps {s t : State} (h : Keeps s t) (l : LaneId) : Keeps s (t.takePart l) := by
  unfold State.takePart; try dsimp only
  repeat' (first | with_reducible assumption | with_reducible apply takeCheck_keeps | split | dsimp only)
theorem takePart_keepsTable {s t : State} (h : KeepsTable s t) (l : LaneId) : KeepsTable s (t.takePart l) := by
  unfold State.takePart; try dsimp only
  repeat' (first | with_reducible assumption | with_reducible apply takeCheck_keepsTable | split | dsimp only)
theorem lanePart_keeps {s t : State} (h : Keeps s t) (l : LaneId) : Keeps s (t.lanePart l) := by
  unfold State.lanePart; try dsimp only
  repeat' (first | with_reducible assumption | with_reducible apply emit_keeps | with_reducible apply takeCheck_keeps | with_reducible apply modLane_keeps | split | dsimp only)
theorem lanePart_keepsTable {s t : State} (h : KeepsTable s t) (l : LaneId) : KeepsTable s (t.lanePart l) := by
  unfold State.lanePart; try dsimp only
  repeat' (first | with_reducible assumption | with_reducible apply emit_keepsTable | with_reducible apply takeCheck_keepsTable | with_reducible apply modLane_keepsTable | split | dsimp only)
theorem judgeStep_keeps {s t : State} (h : Keeps s t) (n : Channel) : Keeps s (t.judgeStep n) := by
  unfold State.judgeStep; try dsimp only
  repeat' (first | with_reducible assumption | with_reducible apply modAttn_keeps | ((with_reducible apply modChan_keeps); rotate_left; focus (intro c; first | with_reducible rfl | (simp; done) | rfl | (split <;> rfl))) | split | dsimp only)
theorem judgeStep_keepsTable {s t : State} (h : KeepsTable s t) (n : Channel) : KeepsTable s (t.judgeStep n) := by
  unfold State.judgeStep; try dsimp only
  repeat' (first | with_reducible assumption | with_reducible apply modAttn_keepsTable | with_reducible apply modChan_keepsTable | split | dsimp only)
theorem judgeStep_keepsLanes {s t : State} (h : KeepsLanes s t) (n : Channel) : KeepsLanes s (t.judgeStep n) := by
  unfold State.judgeStep; try dsimp only
  repeat' (first | with_reducible assumption | with_reducible apply modAttn_keepsLanes | with_reducible apply modChan_keepsLanes | split | dsimp only)
theorem judgeStep_keepsPool {s t : State} (h : KeepsPool s t) (n : Channel) : KeepsPool s (t.judgeStep n) := by
  unfold State.judgeStep; try dsimp only
  repeat' (first | with_reducible assumption | with_reducible apply modAttn_keepsPool | with_reducible apply modChan_keepsPool | split | dsimp only)
theorem judgeSteps_keeps {s t : State} (h : Keeps s t) (l : LaneId) : Keeps s (t.judgeSteps l) := by
  unfold State.judgeSteps; try dsimp only
  repeat' (first | with_reducible assumption | with_reducible apply judgeStep_keeps | with_reducible apply foldl_rel | (intro s a h) | split | dsimp only)
theorem judgeSteps_keepsTable {s t : State} (h : KeepsTable s t) (l : LaneId) : KeepsTable s (t.judgeSteps l) := by
  unfold State.judgeSteps; try dsimp only
  repeat' (first | with_reducible assumption | with_reducible apply judgeStep_keepsTable | with_reducible apply foldl_rel | (intro s a h) | split | dsimp only)
theorem judgeSteps_keepsLanes {s t : State} (h : KeepsLanes s t) (l : LaneId) : KeepsLanes s (t.judgeSteps l) := by
  unfold State.judgeSteps; try dsimp only
  repeat' (first | with_reducible assumption | with_reducible apply judgeStep_keepsLanes | with_reducible apply foldl_rel | (intro s a h) | split | dsimp only)
theorem judgeSteps_keepsPool {s t : State} (h : KeepsPool s t) (l : LaneId) : KeepsPool s (t.judgeSteps l) := by
  unfold State.judgeSteps; try dsimp only
  repeat' (first | with_reducible assumption | with_reducible apply judgeStep_keepsPool | with_reducible apply foldl_rel | (intro s a h) | split | dsimp only)
theorem recordSnapshot_keepsTable {s t : State} (h : KeepsTable s t) (l : LaneId) : KeepsTable s (t.recordSnapshot l) := by
  unfold State.recordSnapshot; try dsimp only
  repeat' (first | with_reducible assumption | with_reducible apply handBackSnapshot_keepsTable | split | exact ⟨h.table⟩)
theorem recordSnapshot_keepsLanes {s t : State} (h : KeepsLanes s t) (l : LaneId) : KeepsLanes s (t.recordSnapshot l) := by
  unfold State.recordSnapshot; try dsimp only
  repeat' (first | with_reducible assumption | with_reducible apply handBackSnapshot_keepsLanes | split | exact ⟨h.lanes, h.claims⟩)
theorem recordSnapshot_keepsPool {s t : State} (h : KeepsPool s t) (l : LaneId) : KeepsPool s (t.recordSnapshot l) := by
  unfold State.recordSnapshot; try dsimp only
  repeat' (first | with_reducible assumption | with_reducible apply handBackSnapshot_keepsPool | split | exact ⟨h.queue, h.engines⟩)
theorem tick_keepsTable {s t : State} (h : KeepsTable s t) (l : LaneId) : KeepsTable s (t.tick l) := by
  unfold State.tick; try dsimp only
  repeat' (first | with_reducible assumption | with_reducible apply recordSnapshot_keepsTable | with_reducible apply judgeSteps_keepsTable | with_reducible apply lanePart_keepsTable | with_reducible apply poolTick_keepsTable | split | dsimp only)
theorem cancelClaimed_keeps {s t : State} (h : Keeps s t) (l : LaneId) : Keeps s (t.cancelClaimed l) := by
  unfold State.cancelClaimed; try dsimp only
  repeat' (first | with_reducible assumption | with_reducible apply cancelByRole_keeps | with_reducible apply foldl_rel | (intro s a h) | split | dsimp only)
theorem cancelClaimed_keepsTable {s t : State} (h : KeepsTable s t) (l : LaneId) : KeepsTable s (t.cancelClaimed l) := by
  unfold State.cancelClaimed; try dsimp only
  repeat' (first | with_reducible assumption | with_reducible apply cancelByRole_keepsTable | with_reducible apply foldl_rel | (intro s a h) | split | dsimp only)
theorem cancelClaimed_keepsLanes {s t : State} (h : KeepsLanes s t) (l : LaneId) : KeepsLanes s (t.cancelClaimed l) := by
  unfold State.cancelClaimed; try dsimp only
  repeat' (first | with_reducible assumption | with_reducible apply cancelByRole_keepsLanes | with_reducible apply foldl_rel | (intro s a h) | split | dsimp only)
theorem releaseClaims_keeps {s t : State} (h : Keeps s t) (l : LaneId) : Keeps s (t.releaseClaims l) := by
  unfold State.releaseClaims; try dsimp only
  repeat' (first | with_reducible assumption | with_reducible apply setClaim_keeps | with_reducible apply foldl_rel | (intro s a h) | split | dsimp only)
theorem releaseClaims_keepsTable {s t : State} (h : KeepsTable s t) (l : LaneId) : KeepsTable s (t.releaseClaims l) := by
  unfold State.releaseClaims; try dsimp only
  repeat' (first | with_reducible assumption | with_reducible apply setClaim_keepsTable | with_reducible apply foldl_rel | (intro s a h) | split | dsimp only)
theorem releaseClaims_keepsPool {s t : State} (h : KeepsPool s t) (l : LaneId) : KeepsPool s (t.releaseClaims l) := by
  unfold State.releaseClaims; try dsimp only
  repeat' (first | with_reducible assumption | with_reducible apply setClaim_keepsPool | with_reducible apply foldl_rel | (intro s a h) | split | dsimp only)
theorem disableLane_keeps {s t : State} (h : Keeps s t) (l : LaneId) : Keeps s (t.disableLane l) := by
  unfold State.disableLane; try dsimp only
  repeat' (first | with_reducible assumption | with_reducible apply releaseClaims_keeps | with_reducible apply cancelClaimed_keeps | with_reducible apply endStarvedOf_keeps | with_reducible apply arbitrate_keeps | with_reducible apply modAttn_keeps | with_reducible apply modLane_keeps | split | dsimp only)
theorem disableLane_keepsTable {s t : State} (h : KeepsTable s t) (l : LaneId) : KeepsTable s (t.disableLane l) := by
  unfold State.disableLane; try dsimp only
  repeat' (first | with_reducible assumption | with_reducible apply releaseClaims_keepsTable | with_reducible apply cancelClaimed_keepsTable | with_reducible apply endStarvedOf_keepsTable | with_reducible apply arbitrate_keepsTable | with_reducible apply modAttn_keepsTable | with_reducible apply modLane_keepsTable | split | dsimp only)
theorem takeLaneSet_keeps {s t : State} (h : Keeps s t) (lane : Byte) (record : BitVec 48) : Keeps s (t.takeLaneSet lane record).1 := by
  unfold State.takeLaneSet; try dsimp only
  repeat' (first | with_reducible assumption | with_reducible apply disableLane_keeps | with_reducible apply modLane_keeps | split | dsimp only)
theorem takeLaneSet_keepsTable {s t : State} (h : KeepsTable s t) (lane : Byte) (record : BitVec 48) : KeepsTable s (t.takeLaneSet lane record).1 := by
  unfold State.takeLaneSet; try dsimp only
  repeat' (first | with_reducible assumption | with_reducible apply disableLane_keepsTable | with_reducible apply modLane_keepsTable | split | dsimp only)
theorem claimTarget_keeps {s t : State} (h : Keeps s t) (l : LaneId) (target : Option Channel) : Keeps s (t.claimTarget l target) := by
  unfold State.claimTarget; try dsimp only
  repeat' (first | with_reducible assumption | with_reducible apply beginClaim_keeps | split | dsimp only)
theorem claimTarget_keepsTable {s t : State} (h : KeepsTable s t) (l : LaneId) (target : Option Channel) : KeepsTable s (t.claimTarget l target) := by
  unfold State.claimTarget; try dsimp only
  repeat' (first | with_reducible assumption | with_reducible apply beginClaim_keepsTable | split | dsimp only)
theorem claimTarget_keepsPool {s t : State} (h : KeepsPool s t) (l : LaneId) (target : Option Channel) : KeepsPool s (t.claimTarget l target) := by
  unfold State.claimTarget; try dsimp only
  repeat' (first | with_reducible assumption | with_reducible apply beginClaim_keepsPool | split | dsimp only)
theorem takeCueAdd_keeps {s t : State} (h : Keeps s t) (lane target trigger : Byte) (number : FieldNum) : Keeps s (t.takeCueAdd lane target trigger number).1 := by
  unfold State.takeCueAdd; try dsimp only
  repeat' (first | with_reducible assumption | with_reducible apply claimTarget_keeps | with_reducible apply modLane_keeps | split | dsimp only)
theorem takeCueAdd_keepsTable {s t : State} (h : KeepsTable s t) (lane target trigger : Byte) (number : FieldNum) : KeepsTable s (t.takeCueAdd lane target trigger number).1 := by
  unfold State.takeCueAdd; try dsimp only
  repeat' (first | with_reducible assumption | with_reducible apply claimTarget_keepsTable | with_reducible apply modLane_keepsTable | split | dsimp only)
theorem takeCueAdd_keepsPool {s t : State} (h : KeepsPool s t) (lane target trigger : Byte) (number : FieldNum) : KeepsPool s (t.takeCueAdd lane target trigger number).1 := by
  unfold State.takeCueAdd; try dsimp only
  repeat' (first | with_reducible assumption | with_reducible apply claimTarget_keepsPool | with_reducible apply modLane_keepsPool | split | dsimp only)
theorem cancelArmed_keeps {s t : State} (h : Keeps s t) (l : LaneId) (c : Cue) : Keeps s (t.cancelArmed l c) := by
  unfold State.cancelArmed; try dsimp only
  repeat' (first | with_reducible assumption | with_reducible apply cancelByRole_keeps | split | dsimp only)
theorem cancelArmed_keepsTable {s t : State} (h : KeepsTable s t) (l : LaneId) (c : Cue) : KeepsTable s (t.cancelArmed l c) := by
  unfold State.cancelArmed; try dsimp only
  repeat' (first | with_reducible assumption | with_reducible apply cancelByRole_keepsTable | split | dsimp only)
theorem cancelArmed_keepsLanes {s t : State} (h : KeepsLanes s t) (l : LaneId) (c : Cue) : KeepsLanes s (t.cancelArmed l c) := by
  unfold State.cancelArmed; try dsimp only
  repeat' (first | with_reducible assumption | with_reducible apply cancelByRole_keepsLanes | split | dsimp only)
theorem disarm_keeps {s t : State} (h : Keeps s t) (l : LaneId) (c : Cue) : Keeps s (t.disarm l c) := by
  unfold State.disarm; try dsimp only
  repeat' (first | with_reducible assumption | with_reducible apply cancelArmed_keeps | with_reducible apply modLane_keeps | split | dsimp only)
theorem disarm_keepsTable {s t : State} (h : KeepsTable s t) (l : LaneId) (c : Cue) : KeepsTable s (t.disarm l c) := by
  unfold State.disarm; try dsimp only
  repeat' (first | with_reducible assumption | with_reducible apply cancelArmed_keepsTable | with_reducible apply modLane_keepsTable | split | dsimp only)
theorem abortCue_keeps {s t : State} (h : Keeps s t) (l : LaneId) (c : Cue) : Keeps s (t.abortCue l c) := by
  unfold State.abortCue; try dsimp only
  repeat' (first | with_reducible assumption | with_reducible apply disarm_keeps | with_reducible apply releaseOld_keeps | with_reducible apply arbitrate_keeps | with_reducible apply modAttn_keeps | with_reducible apply modLane_keeps | split | dsimp only)
theorem abortCue_keepsTable {s t : State} (h : KeepsTable s t) (l : LaneId) (c : Cue) : KeepsTable s (t.abortCue l c) := by
  unfold State.abortCue; try dsimp only
  repeat' (first | with_reducible assumption | with_reducible apply disarm_keepsTable | with_reducible apply releaseOld_keepsTable | with_reducible apply arbitrate_keepsTable | with_reducible apply modAttn_keepsTable | with_reducible apply modLane_keepsTable | split | dsimp only)
theorem takeCueAbort_keeps {s t : State} (h : Keeps s t) (lane cue : Byte) : Keeps s (t.takeCueAbort lane cue).1 := by
  unfold State.takeCueAbort; try dsimp only
  repeat' (first | with_reducible assumption | with_reducible apply abortCue_keeps | split | dsimp only)
theorem takeCueAbort_keepsTable {s t : State} (h : KeepsTable s t) (lane cue : Byte) : KeepsTable s (t.takeCueAbort lane cue).1 := by
  unfold State.takeCueAbort; try dsimp only
  repeat' (first | with_reducible assumption | with_reducible apply abortCue_keepsTable | split | dsimp only)
theorem takeLaneRead_keeps {s t : State} (h : Keeps s t) (lane flags : Byte) : Keeps s (t.takeLaneRead lane flags).1 := by
  unfold State.takeLaneRead; try dsimp only
  repeat' (first | with_reducible assumption | with_reducible apply modLane_keeps | split | dsimp only)
theorem takeLaneRead_keepsTable {s t : State} (h : KeepsTable s t) (lane flags : Byte) : KeepsTable s (t.takeLaneRead lane flags).1 := by
  unfold State.takeLaneRead; try dsimp only
  repeat' (first | with_reducible assumption | with_reducible apply modLane_keepsTable | split | dsimp only)
theorem takeLaneRead_keepsPool {s t : State} (h : KeepsPool s t) (lane flags : Byte) : KeepsPool s (t.takeLaneRead lane flags).1 := by
  unfold State.takeLaneRead; try dsimp only
  repeat' (first | with_reducible assumption | with_reducible apply modLane_keepsPool | split | dsimp only)
theorem writeConfigs_keepsTable {s t : State} (h : KeepsTable s t) (mask : Byte) (cfg : ChannelConfig) : KeepsTable s (t.writeConfigs mask cfg) := by
  unfold State.writeConfigs; try dsimp only
  repeat' (first | with_reducible assumption | with_reducible apply modChan_keepsTable | with_reducible apply foldl_rel | (intro s a h) | split | dsimp only)
theorem writeConfigs_keepsLanes {s t : State} (h : KeepsLanes s t) (mask : Byte) (cfg : ChannelConfig) : KeepsLanes s (t.writeConfigs mask cfg) := by
  unfold State.writeConfigs; try dsimp only
  repeat' (first | with_reducible assumption | with_reducible apply modChan_keepsLanes | with_reducible apply foldl_rel | (intro s a h) | split | dsimp only)
theorem writeConfigs_keepsPool {s t : State} (h : KeepsPool s t) (mask : Byte) (cfg : ChannelConfig) : KeepsPool s (t.writeConfigs mask cfg) := by
  unfold State.writeConfigs; try dsimp only
  repeat' (first | with_reducible assumption | with_reducible apply modChan_keepsPool | with_reducible apply foldl_rel | (intro s a h) | split | dsimp only)
theorem takeChannelSet_keepsTable {s t : State} (h : KeepsTable s t) (mask : Byte) (record : ConfigBody) : KeepsTable s (t.takeChannelSet mask record).1 := by
  unfold State.takeChannelSet; try dsimp only
  repeat' (first | with_reducible assumption | with_reducible apply writeConfigs_keepsTable | with_reducible apply handOver_keepsTable | split | dsimp only)
theorem takeChannelSet_keepsLanes {s t : State} (h : KeepsLanes s t) (mask : Byte) (record : ConfigBody) : KeepsLanes s (t.takeChannelSet mask record).1 := by
  unfold State.takeChannelSet; try dsimp only
  repeat' (first | with_reducible assumption | with_reducible apply writeConfigs_keepsLanes | with_reducible apply handOver_keepsLanes | split | dsimp only)
theorem takeChannelSet_keepsPool {s t : State} (h : KeepsPool s t) (mask : Byte) (record : ConfigBody) : KeepsPool s (t.takeChannelSet mask record).1 := by
  unfold State.takeChannelSet; try dsimp only
  repeat' (first | with_reducible assumption | with_reducible apply writeConfigs_keepsPool | with_reducible apply handOver_keepsPool | split | dsimp only)
theorem endDetachedOf_keeps {s t : State} (h : Keeps s t) (n : Channel) : Keeps s (t.endDetachedOf n) := by
  unfold State.endDetachedOf; try dsimp only
  repeat' (first | with_reducible assumption | with_reducible apply modAttn_keeps | split | dsimp only)
theorem endDetachedOf_keepsTable {s t : State} (h : KeepsTable s t) (n : Channel) : KeepsTable s (t.endDetachedOf n) := by
  unfold State.endDetachedOf; try dsimp only
  repeat' (first | with_reducible assumption | with_reducible apply modAttn_keepsTable | split | dsimp only)
theorem endDetachedOf_keepsLanes {s t : State} (h : KeepsLanes s t) (n : Channel) : KeepsLanes s (t.endDetachedOf n) := by
  unfold State.endDetachedOf; try dsimp only
  repeat' (first | with_reducible assumption | with_reducible apply modAttn_keepsLanes | split | dsimp only)
theorem endDetachedOf_keepsPool {s t : State} (h : KeepsPool s t) (n : Channel) : KeepsPool s (t.endDetachedOf n) := by
  unfold State.endDetachedOf; try dsimp only
  repeat' (first | with_reducible assumption | with_reducible apply modAttn_keepsPool | split | dsimp only)
theorem startChannel_keeps {s t : State} (h : Keeps s t) (n : Channel) : Keeps s (t.startChannel n) := by
  unfold State.startChannel; try dsimp only
  repeat' (first | with_reducible assumption | with_reducible apply endDetachedOf_keeps | with_reducible apply setFaults_keeps | ((with_reducible apply modChan_keeps); rotate_left; focus (intro c; first | with_reducible rfl | (simp; done) | rfl | (split <;> rfl))) | split | dsimp only)
theorem startChannel_keepsTable {s t : State} (h : KeepsTable s t) (n : Channel) : KeepsTable s (t.startChannel n) := by
  unfold State.startChannel; try dsimp only
  repeat' (first | with_reducible assumption | with_reducible apply endDetachedOf_keepsTable | with_reducible apply setFaults_keepsTable | with_reducible apply modChan_keepsTable | split | dsimp only)
theorem startChannel_keepsLanes {s t : State} (h : KeepsLanes s t) (n : Channel) : KeepsLanes s (t.startChannel n) := by
  unfold State.startChannel; try dsimp only
  repeat' (first | with_reducible assumption | with_reducible apply endDetachedOf_keepsLanes | with_reducible apply setFaults_keepsLanes | with_reducible apply modChan_keepsLanes | split | dsimp only)
theorem startChannel_keepsPool {s t : State} (h : KeepsPool s t) (n : Channel) : KeepsPool s (t.startChannel n) := by
  unfold State.startChannel; try dsimp only
  repeat' (first | with_reducible assumption | with_reducible apply endDetachedOf_keepsPool | with_reducible apply setFaults_keepsPool | with_reducible apply modChan_keepsPool | split | dsimp only)
theorem takeChannelStart_keeps {s t : State} (h : Keeps s t) (mask : Byte) : Keeps s (t.takeChannelStart mask).1 := by
  unfold State.takeChannelStart; try dsimp only
  repeat' (first | with_reducible assumption | with_reducible apply startChannel_keeps | with_reducible apply foldl_rel | (intro s a h) | split | dsimp only)
theorem takeChannelStart_keepsTable {s t : State} (h : KeepsTable s t) (mask : Byte) : KeepsTable s (t.takeChannelStart mask).1 := by
  unfold State.takeChannelStart; try dsimp only
  repeat' (first | with_reducible assumption | with_reducible apply startChannel_keepsTable | with_reducible apply foldl_rel | (intro s a h) | split | dsimp only)
theorem takeChannelStart_keepsLanes {s t : State} (h : KeepsLanes s t) (mask : Byte) : KeepsLanes s (t.takeChannelStart mask).1 := by
  unfold State.takeChannelStart; try dsimp only
  repeat' (first | with_reducible assumption | with_reducible apply startChannel_keepsLanes | with_reducible apply foldl_rel | (intro s a h) | split | dsimp only)
theorem takeChannelStart_keepsPool {s t : State} (h : KeepsPool s t) (mask : Byte) : KeepsPool s (t.takeChannelStart mask).1 := by
  unfold State.takeChannelStart; try dsimp only
  repeat' (first | with_reducible assumption | with_reducible apply startChannel_keepsPool | with_reducible apply foldl_rel | (intro s a h) | split | dsimp only)
theorem haltSequencer_keeps {s t : State} (h : Keeps s t) (n : Channel) (running : Bool) : Keeps s (t.haltSequencer n running) := by
  unfold State.haltSequencer; try dsimp only
  repeat' (first | with_reducible assumption | with_reducible apply judgeHalted_keeps | ((with_reducible apply modChan_keeps); rotate_left; focus (intro c; first | with_reducible rfl | (simp; done) | rfl | (split <;> rfl))) | split | dsimp only)
theorem haltSequencer_keepsTable {s t : State} (h : KeepsTable s t) (n : Channel) (running : Bool) : KeepsTable s (t.haltSequencer n running) := by
  unfold State.haltSequencer; try dsimp only
  repeat' (first | with_reducible assumption | with_reducible apply judgeHalted_keepsTable | with_reducible apply modChan_keepsTable | split | dsimp only)
theorem haltSequencer_keepsLanes {s t : State} (h : KeepsLanes s t) (n : Channel) (running : Bool) : KeepsLanes s (t.haltSequencer n running) := by
  unfold State.haltSequencer; try dsimp only
  repeat' (first | with_reducible assumption | with_reducible apply judgeHalted_keepsLanes | with_reducible apply modChan_keepsLanes | split | dsimp only)
theorem haltSequencer_keepsPool {s t : State} (h : KeepsPool s t) (n : Channel) (running : Bool) : KeepsPool s (t.haltSequencer n running) := by
  unfold State.haltSequencer; try dsimp only
  repeat' (first | with_reducible assumption | with_reducible apply judgeHalted_keepsPool | with_reducible apply modChan_keepsPool | split | dsimp only)
theorem haltChannel_keeps {s t : State} (h : Keeps s t) (n : Channel) : Keeps s (t.haltChannel n) := by
  unfold State.haltChannel; try dsimp only
  repeat' (first | with_reducible assumption | with_reducible apply haltSequencer_keeps | with_reducible apply endDetachedOf_keeps | ((with_reducible apply modChan_keeps); rotate_left; focus (intro c; first | with_reducible rfl | (simp; done) | rfl | (split <;> rfl))) | split | dsimp only)
theorem haltChannel_keepsTable {s t : State} (h : KeepsTable s t) (n : Channel) : KeepsTable s (t.haltChannel n) := by
  unfold State.haltChannel; try dsimp only
  repeat' (first | with_reducible assumption | with_reducible apply haltSequencer_keepsTable | with_reducible apply endDetachedOf_keepsTable | with_reducible apply modChan_keepsTable | split | dsimp only)
theorem haltChannel_keepsLanes {s t : State} (h : KeepsLanes s t) (n : Channel) : KeepsLanes s (t.haltChannel n) := by
  unfold State.haltChannel; try dsimp only
  repeat' (first | with_reducible assumption | with_reducible apply haltSequencer_keepsLanes | with_reducible apply endDetachedOf_keepsLanes | with_reducible apply modChan_keepsLanes | split | dsimp only)
theorem haltChannel_keepsPool {s t : State} (h : KeepsPool s t) (n : Channel) : KeepsPool s (t.haltChannel n) := by
  unfold State.haltChannel; try dsimp only
  repeat' (first | with_reducible assumption | with_reducible apply haltSequencer_keepsPool | with_reducible apply endDetachedOf_keepsPool | with_reducible apply modChan_keepsPool | split | dsimp only)
theorem takeChannelRead_keeps {s t : State} (h : Keeps s t) (channel flags : Byte) : Keeps s (t.takeChannelRead channel flags).1 := by
  unfold State.takeChannelRead; try dsimp only
  repeat' (first | with_reducible assumption | ((with_reducible apply modChan_keeps); rotate_left; focus (intro c; first | with_reducible rfl | (simp; done) | rfl | (split <;> rfl))) | split | dsimp only)
theorem takeChannelRead_keepsTable {s t : State} (h : KeepsTable s t) (channel flags : Byte) : KeepsTable s (t.takeChannelRead channel flags).1 := by
  unfold State.takeChannelRead; try dsimp only
  repeat' (first | with_reducible assumption | with_reducible apply modChan_keepsTable | split | dsimp only)
theorem takeChannelRead_keepsLanes {s t : State} (h : KeepsLanes s t) (channel flags : Byte) : KeepsLanes s (t.takeChannelRead channel flags).1 := by
  unfold State.takeChannelRead; try dsimp only
  repeat' (first | with_reducible assumption | with_reducible apply modChan_keepsLanes | split | dsimp only)
theorem takeChannelRead_keepsPool {s t : State} (h : KeepsPool s t) (channel flags : Byte) : KeepsPool s (t.takeChannelRead channel flags).1 := by
  unfold State.takeChannelRead; try dsimp only
  repeat' (first | with_reducible assumption | with_reducible apply modChan_keepsPool | split | dsimp only)
theorem takeSyncRead_keepsTable {s t : State} (h : KeepsTable s t) : KeepsTable s t.takeSyncRead.1 := by
  unfold State.takeSyncRead; try dsimp only
  repeat' (first | with_reducible assumption | split | exact ⟨h.table⟩)
theorem takeSyncRead_keepsLanes {s t : State} (h : KeepsLanes s t) : KeepsLanes s t.takeSyncRead.1 := by
  unfold State.takeSyncRead; try dsimp only
  repeat' (first | with_reducible assumption | split | exact ⟨h.lanes, h.claims⟩)
theorem takeSyncRead_keepsPool {s t : State} (h : KeepsPool s t) : KeepsPool s t.takeSyncRead.1 := by
  unfold State.takeSyncRead; try dsimp only
  repeat' (first | with_reducible assumption | split | exact ⟨h.queue, h.engines⟩)

end Sys2Proof.Machine
end

