-- ==== Sys2Proof/Laws/Ops.lean ====
section
/-! SUPPORT. What the shared operations do, each said once: how a request is taken and handed back, what the table
controller takes before a request, how the arbiter leaves the pool, and how a step takes a command. -/

namespace Sys2Proof.Machine

/-! ## Step -/

theorem step_cons (s : State) (c : Instr) (rest : List Instr) (h : s.pending = c :: rest) :
    step s = exec c { s with pending := rest } := by simp [step, h]

theorem step_nil (s : State) (h : s.pending = []) : step s = .next s := by simp [step, h]

/-! ## Counters -/

@[simp] theorem bump_zero (c : Nat) : bump c 0 = c := by unfold bump; split <;> omega

theorem le_bump (c k : Nat) : c ≤ bump c k := by unfold bump; split <;> omega

/-! ## Taking a request -/

theorem reachOwner_launched (s : State) (r : Instr) (h : s.link.flight = .launched r) : s.reachOwner r = some s := by
  simp [State.reachOwner, h]

theorem reachOwner_idle (s : State) (r : Instr) (h : s.link.flight = .idle) :
    s.reachOwner r = some ((s.modLink fun k => { k with transaction := none }).launch r) := by simp [State.reachOwner, h]

/-- What an arrived request finds: the state itself, or the state after a launch of it. -/
theorem reachOwner_some {s s' : State} {r : Instr} (h : s.reachOwner r = some s') :
    s' = s ∧ s.link.flight = .launched r ∨
      s' = (s.modLink fun k => { k with transaction := none }).launch r ∧ s.link.flight = .idle := by
  unfold State.reachOwner at h
  split at h
  · exact .inr ⟨(Option.some.inj h).symm, ‹_›⟩
  · split at h
    · rename_i r' hf hr; subst hr; exact .inl ⟨(Option.some.inj h).symm, hf⟩
    · exact nomatch h
  · exact nomatch h
  · exact nomatch h

theorem serve_launched (s : State) (r : Instr) (owner : State → State × Result) (h : s.link.flight = .launched r) :
    s.serve r owner = (owner s).1.setHandedBack r (owner s).2 := by simp [State.serve, reachOwner_launched s r h]

theorem serve_idle (s : State) (r : Instr) (owner : State → State × Result) (h : s.link.flight = .idle) :
    s.serve r owner =
      (owner ((s.modLink fun k => { k with transaction := none }).launch r)).1.setHandedBack r
        (owner ((s.modLink fun k => { k with transaction := none }).launch r)).2 := by
  simp [State.serve, reachOwner_idle s r h]

/-- A request taken already, or another request in flight: nothing is served. -/
theorem serve_none (s : State) (r : Instr) (owner : State → State × Result) (h : s.reachOwner r = none) :
    s.serve r owner = s := by simp [State.serve, h]

/-! ## Claims before a table request -/

theorem foldl_fixed {α β : Type} (f : β → α → β) (l : List α) (b : β) (h : ∀ a, f b a = b) : l.foldl f b = b := by
  induction l with
  | nil => rfl
  | cons a l ih => simp [h, ih]

theorem takeSequencerClaim_none (s : State) (n : Channel) (h : (s.chan n).sequencerClaim = none) :
    s.takeSequencerClaim n = s := by simp [State.takeSequencerClaim, h]

theorem takeProposal_none (s : State) (n : Channel) (h : (s.chan n).proposalClaim = none) : s.takeProposal n = s := by
  simp [State.takeProposal, h]

/-- With no claim waiting, a table request is taken at once (R38). -/
theorem takeClaims_none (s : State)
    (h : ∀ n : Channel, (s.chan n).sequencerClaim = none ∧ (s.chan n).proposalClaim = none) : s.takeClaims = s := by
  have hs : s.takeSequencerClaims = s := foldl_fixed _ _ _ fun n => takeSequencerClaim_none s n (h n).1
  unfold State.takeClaims
  rw [hs]
  exact foldl_fixed _ _ _ fun n => takeProposal_none s n (h n).2

theorem serveTable_launched (s : State) (r : Instr) (owner : State → State × Result)
    (hf : s.link.flight = .launched r)
    (h : ∀ n : Channel, (s.chan n).sequencerClaim = none ∧ (s.chan n).proposalClaim = none) :
    s.serveTable r owner = (owner s).1.setHandedBack r (owner s).2 := by
  unfold State.serveTable
  rw [serve_launched s r _ hf, takeClaims_none s h]

/-! ## Handing back -/

theorem handBack_carried (s : State) (r : Instr) (res : Result) (h : s.link.flight = .carried r) :
    s.handBack res = s.setHandedBack r res := by simp [State.handBack, State.setHandedBack, h]

theorem handBack_other (s : State) (res : Result) (h : ∀ r, s.link.flight ≠ .carried r) : s.handBack res = s := by
  unfold State.handBack
  split
  · rename_i r hf; exact absurd hf (h r)
  · rfl

/-! ## Delivery -/

/-- A halt of its channel keeps a job's frame from its lane. -/
theorem deliver_withheld (s : State) (j : Job) (h : (s.chan j.request.channel).withholds = true) : s.deliver j = s := by
  simp [State.deliver, h]

/-- A frame that is not withheld is judged by its lane. -/
theorem deliver_accepted (s : State) (j : Job) (h : (s.chan j.request.channel).withholds = false) :
    s.deliver j = s.modLane j.request.lane fun l => l.accept j.request.role j.request.distance j.frame := by
  simp [State.deliver, h]

/-! ## The arbiter -/

theorem chooseRequest_none {q : List RenderRequest} (h : chooseRequest q = none) : q = [] := by
  cases q with
  | nil => rfl
  | cons r rest =>
    unfold chooseRequest at h
    split at h <;> exact nomatch h

theorem chooseRequest_mem {q : List RenderRequest} {r : RenderRequest} (h : chooseRequest q = some r) : r ∈ q := by
  induction q generalizing r with
  | nil => exact nomatch h
  | cons a rest ih =>
    unfold chooseRequest at h
    split at h
    · simp_all
    · rename_i b hb
      have hb' := ih hb
      by_cases hc : b.before a = true
      · simp only [hc, if_true, Option.some.injEq] at h; subst h; exact List.mem_cons_of_mem _ hb'
      · simp only [hc] at h; simp at h; subst h; exact List.mem_cons_self ..

/-- With no IDLE engine or an empty queue, nothing starts. -/
theorem startOne_none (s : State) (h : s.idleEngine = none ∨ s.queue = []) : s.startOne = s := by
  unfold State.startOne
  rcases h with h | h
  · simp [h]
  · rw [h]
    cases s.idleEngine <;> rfl

/-- A start: the chosen request leaves the queue and becomes a job on the lowest-numbered IDLE engine. -/
theorem startOne_some (s : State) (e : EngineId) (r : RenderRequest) (he : s.idleEngine = some e)
    (hr : chooseRequest s.queue = some r) :
    s.startOne = { s with queue := s.queue.erase r }.setEngine e (some (s.makeJob r)) := by
  simp [State.startOne, he, hr]

end Sys2Proof.Machine
end

