-- ==== Sys2Proof/Laws/Claims.lean ====
section
/-! SUPPORT. What the taking of a waiting claim does to the other channels, and the order in which waiting claims are
taken (R38). -/

namespace Sys2Proof.Machine

/-- Every channel but `n` is as it was, and the sequencer claim of `n` too. -/
structure KeepsClaims (n : Channel) (s t : State) : Prop where
  others : ∀ m : Channel, m ≠ n → t.chan m = s.chan m
  claim : (t.chan n).sequencerClaim = (s.chan n).sequencerClaim

theorem KeepsClaims.refl (n : Channel) (s : State) : KeepsClaims n s s := ⟨fun _ _ => rfl, rfl⟩

/-- An update of channel `n` that leaves its sequencer claim. -/
theorem KeepsClaims.modChan {n : Channel} {s t : State} (h : KeepsClaims n s t) (f : Chan → Chan)
    (hf : ∀ c : Chan, (f c).sequencerClaim = c.sequencerClaim) : KeepsClaims n s (t.modChan n f) :=
  ⟨fun m hm => (chan_modChan_ne t f (Ne.symm hm)).trans (h.others m hm), by rw [chan_modChan_same, hf, h.claim]⟩

/-- A change of other parts than the channels. -/
theorem KeepsClaims.of_chans {n : Channel} {s t u : State} (h : KeepsClaims n s t) (e : u.chans = t.chans) :
    KeepsClaims n s u := by
  have e' : ∀ m : Channel, u.chan m = t.chan m := fun m => by simp only [State.chan, e]
  exact ⟨fun m hm => (e' m).trans (h.others m hm), by rw [e', h.claim]⟩

theorem freeEntry_chans (s : State) (h : Handle) : (s.freeEntry h).chans = s.chans := rfl
theorem lowerUse_chans (s : State) (h : Handle) : (s.lowerUse h).chans = s.chans := by
  simp only [State.lowerUse]; split <;> rfl
theorem moveUse_chans (s : State) (old new : Option Handle) : (s.moveUse old new).chans = s.chans := by
  unfold State.moveUse
  split
  · rfl
  · cases old <;> cases new <;> simp only [State.raiseUse, setEntry_chans, lowerUse_chans]

theorem handBack_chans (s : State) (res : Result) : (s.handBack res).chans = s.chans := by
  unfold State.handBack; split <;> rfl
theorem haltCheck_chans (s : State) : s.haltCheck.chans = s.chans := by
  unfold State.haltCheck
  split
  · split
    · exact handBack_chans _ _
    · rfl
  · rfl
theorem startOne_chans (s : State) : s.startOne.chans = s.chans := by unfold State.startOne; split <;> rfl
theorem arbitrate_chans (s : State) : s.arbitrate.chans = s.chans := by simp only [State.arbitrate, startOne_chans]

theorem haltCheck_keepsClaims {s t : State} {n : Channel} (h : KeepsClaims n s t) : KeepsClaims n s t.haltCheck :=
  h.of_chans (haltCheck_chans t)
theorem arbitrate_keepsClaims {s t : State} {n : Channel} (h : KeepsClaims n s t) : KeepsClaims n s t.arbitrate :=
  h.of_chans (arbitrate_chans t)
theorem dropQueued_keepsClaims {s t : State} {n : Channel} (h : KeepsClaims n s t) (p : RenderRequest → Bool) :
    KeepsClaims n s (t.dropQueued p) := h.of_chans rfl
theorem cancelJobs_keepsClaims {s t : State} {n : Channel} (h : KeepsClaims n s t) (p : RenderRequest → Bool) :
    KeepsClaims n s (t.cancelJobs p) := h.of_chans rfl

theorem report_keepsClaims {s t : State} {n : Channel} (h : KeepsClaims n s t) : KeepsClaims n s (t.report n) := by
  unfold State.report
  split
  · exact haltCheck_keepsClaims (h.modChan _ fun _ => rfl)
  · exact h

theorem takeWithdrawOrder_keepsClaims {s t : State} {n : Channel} (h : KeepsClaims n s t) :
    KeepsClaims n s (t.takeWithdrawOrder n) := by
  unfold State.takeWithdrawOrder
  exact dropQueued_keepsClaims (h.modChan (fun c => { c with withdrawOrder := false }) fun _ => rfl) _

theorem takeCancelOrder_keepsClaims {s t : State} {n : Channel} (h : KeepsClaims n s t) :
    KeepsClaims n s (t.takeCancelOrder n) := by
  unfold State.takeCancelOrder
  exact arbitrate_keepsClaims (report_keepsClaims
    (cancelJobs_keepsClaims (dropQueued_keepsClaims
      (h.modChan (fun c => { c with cancelOrder := false }) fun _ => rfl) _) _))

theorem takeOrders_keepsClaims {s t : State} {n : Channel} (h : KeepsClaims n s t) :
    KeepsClaims n s (t.takeOrders n) := by
  have step : ∀ u : State, KeepsClaims n s u →
      KeepsClaims n s (if (u.chan n).cancelOrder = true then u.takeCancelOrder n else u) := fun u hu => by
    split
    · exact takeCancelOrder_keepsClaims hu
    · exact hu
  unfold State.takeOrders
  exact step _ (by split; exacts [takeWithdrawOrder_keepsClaims h, h])

theorem issue_keepsClaims {s t : State} {n : Channel} (h : KeepsClaims n s t) : KeepsClaims n s (t.issue n) := by
  unfold State.issue
  split
  · exact (takeOrders_keepsClaims h).of_chans (arbitrate_chans _)
  · exact h

theorem observeNewer_claim (c : Chan) : c.observeNewer.sequencerClaim = c.sequencerClaim := by
  unfold Chan.observeNewer; split <;> rfl

theorem finishShift_keepsClaims {s t : State} {n : Channel} (h : KeepsClaims n s t) :
    KeepsClaims n s (t.finishShift n) :=
  issue_keepsClaims (h.modChan (fun c => c.observeNewer.countStep) fun c => observeNewer_claim c)

/-- A taken lookup leaves the other channels, and its channel without a waiting sequencer claim. -/
theorem takeLookup_claim (s : State) (n : Channel) (a : Arrived) :
    (∀ m : Channel, m ≠ n → (s.takeLookup n a).chan m = s.chan m) ∧
      ((s.takeLookup n a).chan n).sequencerClaim = none := by
  have h := finishShift_keepsClaims (KeepsClaims.refl n (s.answerLookup n a))
  refine ⟨fun m hm => (h.others m hm).trans ?_, h.claim.trans ?_⟩
  · refine (chan_modChan_ne _ _ (Ne.symm hm)).trans ?_
    simp only [State.chan, moveUse_chans]
  · simp only [State.answerLookup, chan_modChan_same]

theorem judgeHalted_keepsClaims {s t : State} {n : Channel} (h : KeepsClaims n s t) :
    KeepsClaims n s (t.judgeHalted n) := by
  unfold State.judgeHalted
  split
  · exact h
  · exact report_keepsClaims h

/-- The same of a taken release. -/
theorem takeRelease_claim (s : State) (n : Channel) (b : Bool) :
    (∀ m : Channel, m ≠ n → (s.takeRelease n b).chan m = s.chan m) ∧
      ((s.takeRelease n b).chan n).sequencerClaim = none := by
  have step : ∀ u v w : State, (∀ m : Channel, m ≠ n → u.chan m = s.chan m) → (u.chan n).sequencerClaim = none →
      KeepsClaims n u v → KeepsClaims n u w →
      (∀ m : Channel, m ≠ n → (if (u.chan n).state = .halting then v else w).chan m = s.chan m) ∧
        ((if (u.chan n).state = .halting then v else w).chan n).sequencerClaim = none := by
    intro u v w hu hc hv hw
    split
    · exact ⟨fun m hm => (hv.others m hm).trans (hu m hm), hv.claim.trans hc⟩
    · exact ⟨fun m hm => (hw.others m hm).trans (hu m hm), hw.claim.trans hc⟩
  refine step _ _ _ (fun m hm => (chan_modChan_ne _ _ (Ne.symm hm)).trans ?_) ?_ ?_ ?_
  · simp only [State.chan, moveUse_chans]
  · rw [chan_modChan_same]
  · exact judgeHalted_keepsClaims ((KeepsClaims.refl n _).modChan _ fun _ => rfl)
  · exact (KeepsClaims.refl n _).modChan _ fun _ => rfl

/-- The taking of a waiting sequencer claim. -/
theorem takeSequencerClaim_claim (s : State) (n : Channel) :
    (∀ m : Channel, m ≠ n → (s.takeSequencerClaim n).chan m = s.chan m) ∧
      ((s.takeSequencerClaim n).chan n).sequencerClaim = none := by
  unfold State.takeSequencerClaim
  split
  · exact ⟨fun _ _ => rfl, by assumption⟩
  · exact takeLookup_claim s n _
  · exact takeRelease_claim s n _

/-- A fold that skips the elements before one, as it skips them and that one after it, may begin after it. -/
theorem foldl_first {α : Type} {f : State → α → State} {s u : State} (before after : List α) (x : α)
    (hb : ∀ a ∈ before, f s a = s) (hx : f s x = u) (hu : ∀ a ∈ before, f u a = u) (hux : f u x = u) :
    (before ++ x :: after).foldl f s = (before ++ x :: after).foldl f u := by
  have skip : ∀ (l : List α) (t : State), (∀ a ∈ l, f t a = t) → l.foldl f t = t := by
    intro l t h
    induction l with
    | nil => rfl
    | cons a l ih => rw [List.foldl_cons, h a (by simp), ih fun b hb => h b (by simp [hb])]
  rw [List.foldl_append, List.foldl_append, skip before s hb, skip before u hu, List.foldl_cons, List.foldl_cons,
    hx, hux]

theorem allChannels_split (n : Channel) :
    allChannels = (allChannels.filter fun k => k < n) ++ n :: allChannels.filter fun k => n < k := by
  revert n; decide

/-- With no sequencer claim of a lower channel waiting, that of channel `n` is the first of all to be taken (R38). -/
theorem takeSequencerClaims_first (s : State) (n : Channel)
    (h : ∀ k : Channel, k < n → (s.chan k).sequencerClaim = none) :
    s.takeSequencerClaims = (s.takeSequencerClaim n).takeSequencerClaims := by
  have hn := takeSequencerClaim_claim s n
  unfold State.takeSequencerClaims
  rw [allChannels_split n]
  refine foldl_first _ _ n (fun k hk => takeSequencerClaim_none s k (h k ?_)) rfl (fun k hk => ?_)
    (takeSequencerClaim_none _ n hn.2)
  · simpa using (List.mem_filter.mp hk).2
  · have hk' : k < n := by simpa using (List.mem_filter.mp hk).2
    exact takeSequencerClaim_none _ k ((congrArg Chan.sequencerClaim (hn.1 k (ne_of_lt hk'))).trans (h k hk'))

end Sys2Proof.Machine
end

