-- ==== Sys2Proof/Laws/Halt.lean ====
section
/-! SUPPORT. How a CHANNEL_HALT that waits is answered: what the reports that make channels HALTED do to the request in
flight (R73, R78). -/

namespace Sys2Proof.Machine

/-- Every channel of a mask is HALTED. -/
def State.AllHalted (s : State) (mask : Byte) : Prop := ∀ n : Channel, mask.getLsbD n.val = true → (s.chan n).state = .halted

/-- No channel leaves HALTED, and the request in flight is as it was, but for a CHANNEL_HALT that waits: that is handed
back with DONE if all of its channels are HALTED later and were not before. -/
structure Halts (s t : State) : Prop where
  halted : ∀ n : Channel, (s.chan n).state = .halted → (t.chan n).state = .halted
  flight : t.link.flight = s.link.flight ∨ ∃ mask : Byte, s.link.flight = .carried (.channelHalt mask) ∧
    t.AllHalted mask ∧ t.link.flight = .handedBack (.channelHalt mask) (done [])
  answered : ∀ mask : Byte, s.link.flight = .carried (.channelHalt mask) → ¬s.AllHalted mask → t.AllHalted mask →
    t.link.flight = .handedBack (.channelHalt mask) (done [])

theorem Halts.refl (s : State) : Halts s s := ⟨fun _ h => h, .inl rfl, fun _ _ h h' => absurd h' h⟩

theorem Halts.trans {s t u : State} (a : Halts s t) (b : Halts t u) : Halts s u := by
  refine ⟨fun n h => b.halted n (a.halted n h), ?_, fun mask hf hs hu => ?_⟩
  · rcases a.flight with hf | ⟨mask, hf, ht, he⟩
    · rcases b.flight with hg | ⟨mask, hg, hu, he⟩
      · exact .inl (hg.trans hf)
      · exact .inr ⟨mask, hf ▸ hg, hu, he⟩
    · refine .inr ⟨mask, hf, fun n h => b.halted n (ht n h), ?_⟩
      rcases b.flight with hg | ⟨m, hg, _, _⟩
      · exact hg.trans he
      · exact nomatch he.symm.trans hg
  · rcases a.flight with he | ⟨m, hm, _, he⟩
    · by_cases ht : t.AllHalted mask
      · have h1 := a.answered mask hf hs ht
        exact nomatch (he.trans hf).symm.trans h1
      · exact b.answered mask (he.trans hf) ht hu
    · cases hf.symm.trans hm
      rcases b.flight with hg | ⟨m', hg, _, _⟩
      · exact hg.trans he
      · exact nomatch he.symm.trans hg

/-- A change that leaves the state of every channel and the request in flight. -/
theorem Halts.of_same {s t u : State} (h : Halts s t) (hc : ∀ n : Channel, (u.chan n).state = (t.chan n).state)
    (hf : u.link.flight = t.link.flight) : Halts s u :=
  h.trans ⟨fun n e => (hc n).trans e, .inl hf, fun _ _ hs hu => absurd (fun n e => (hc n).symm.trans (hu n e)) hs⟩

theorem Halts.modChan {s t : State} (h : Halts s t) (n : Channel) (f : Chan → Chan)
    (hf : ∀ c : Chan, (f c).state = c.state) : Halts s (t.modChan n f) :=
  h.of_same (fun m => by rw [chan_modChan]; split; exacts [hf _, rfl]) rfl

theorem mem_allChannels (n : Channel) : n ∈ allChannels := by revert n; decide

/-- The check of a CHANNEL_HALT that waits. -/
theorem haltCheck_flight (s : State) :
    (∀ mask : Byte, s.link.flight = .carried (.channelHalt mask) → s.AllHalted mask →
      s.haltCheck.link.flight = .handedBack (.channelHalt mask) (done [])) ∧
    ((∀ mask : Byte, s.link.flight = .carried (.channelHalt mask) → ¬s.AllHalted mask) → s.haltCheck = s) := by
  have all : ∀ mask : Byte, ((maskChannels mask).all fun n => (s.chan n).state == .halted) = true ↔
      s.AllHalted mask := fun mask => by
    simp only [List.all_eq_true, beq_iff_eq, State.AllHalted, maskChannels, List.mem_filter]
    exact ⟨fun h n hn => h n ⟨mem_allChannels n, hn⟩, fun h n hn => h n hn.2⟩
  constructor
  · intro mask hf ha
    simp only [State.haltCheck, hf, (all mask).mpr ha, if_true, State.handBack]
    rfl
  · intro h
    unfold State.haltCheck
    split
    · rename_i mask hf
      rw [if_neg fun e => h mask hf ((all mask).mp e)]
    · rfl

/-- A report of the pool (R73, R78). -/
theorem report_halts {s t : State} (h : Halts s t) (n : Channel) : Halts s (t.report n) := by
  refine h.trans ?_
  unfold State.report
  split
  · rename_i hn
    let u := t.modChan n fun c => { c with state := .halted }
    have hu : ∀ m : Channel, (t.chan m).state = .halted → (u.chan m).state = .halted := fun m e => by
      by_cases hm : n = m
      · subst hm; simp [u]
      · rw [show u.chan m = t.chan m from chan_modChan_ne _ _ hm]; exact e
    have hl : u.link.flight = t.link.flight := rfl
    have hc : ∀ m : Channel, u.haltCheck.chan m = u.chan m := fun m => congrArg (fun v => v.get m) (haltCheck_chans u)
    refine ⟨fun m e => by rw [hc]; exact hu m e, ?_, fun mask hf _ ha => ?_⟩
    · by_cases hw : ∃ mask : Byte, u.link.flight = .carried (.channelHalt mask) ∧ u.AllHalted mask
      · obtain ⟨mask, hf, ha⟩ := hw
        exact .inr ⟨mask, hl ▸ hf, fun m e => by rw [hc]; exact ha m e, (haltCheck_flight u).1 mask hf ha⟩
      · exact .inl (congrArg (·.link.flight) ((haltCheck_flight u).2 fun mask hf ha => hw ⟨mask, hf, ha⟩))
    · exact (haltCheck_flight u).1 mask hf fun m e => by rw [← hc]; exact ha m e
  · exact Halts.refl t

theorem judgeHalted_halts {s t : State} (h : Halts s t) (n : Channel) : Halts s (t.judgeHalted n) := by
  unfold State.judgeHalted; split
  · exact h
  · exact report_halts h n

/-- The reports of the channels whose last job has ended. -/
theorem reportEnded_halts {s t : State} (h : Halts s t) (before : State) : Halts s (t.reportEnded before) := by
  unfold State.reportEnded
  refine foldl_rel _ _ h fun u n hu => ?_
  split
  · exact report_halts hu n
  · exact hu

end Sys2Proof.Machine
end

