-- ==== Sys2Proof/Laws/Attention.lean ====
section
/-! SUPPORT. The PORT latch and the DETACHED conditions, channel by channel, and what the start and the halt of one
channel do to the attention unit (R176, R178, R179). -/

namespace Sys2Proof.Machine

theorem latchPort_get (a : Attn) (n m : Channel) (cause : PortCause) :
    (a.latchPort n cause).port.get m = if n = m then (a.port.get m).add cause else a.port.get m :=
  get_modifyAt a.port n m _

@[simp] theorem latchPort_cond (a : Attn) (n : Channel) (cause : PortCause) :
    (a.latchPort n cause).detachedCond = a.detachedCond := rfl

theorem endDetached_get (a : Attn) (n m : Channel) :
    (a.endDetached n).port.get m =
      if n = m then if (a.port.get m).mark then PortLatch.clear else a.port.get m else a.port.get m :=
  get_modifyAt a.port n m fun p => if p.mark then PortLatch.clear else p

theorem endDetached_cond (a : Attn) (n m : Channel) :
    (a.endDetached n).detachedCond.get m = if n = m then false else a.detachedCond.get m :=
  get_setAt a.detachedCond n m false

/-- A change of the fault count latches the level change, if the level changes (R14). -/
theorem setFaults_attn (s : State) (n : Channel) (v : Nat) : (s.setFaults n v).attn =
    if levelOf v = (s.chan n).level then s.attn else s.attn.latchPort n .levelChange := by
  unfold State.setFaults; dsimp only; split <;> rfl

theorem endDetachedOf_attn (s : State) (n : Channel) : (s.endDetachedOf n).attn =
    if (s.chan n).state = .detached then s.attn.endDetached n else s.attn := by
  unfold State.endDetachedOf; split <;> rfl

theorem endDetachedOf_chan (s : State) (n m : Channel) : (s.endDetachedOf n).chan m = s.chan m := by
  unfold State.endDetachedOf; split <;> rfl

/-- The start of one channel: the end of its condition, then the change of its level (R77, R178). -/
theorem startChannel_attn (s : State) (n : Channel) : (s.startChannel n).attn =
    if (s.chan n).level = .normal then (s.endDetachedOf n).attn
    else (s.endDetachedOf n).attn.latchPort n .levelChange := by
  have h : levelOf 0 = .normal := by decide
  rw [State.startChannel, modChan_attn, setFaults_attn, endDetachedOf_chan, h]
  by_cases e : (s.chan n).level = .normal
  · rw [if_pos e, if_pos e.symm]
  · rw [if_neg e, if_neg fun h => e h.symm]

theorem startChannel_chan (s : State) {n m : Channel} (h : n ≠ m) : (s.startChannel n).chan m = s.chan m := by
  rw [State.startChannel, chan_modChan_ne _ _ h]
  unfold State.setFaults
  split
  · rw [State.modPort, chan_modChan_ne _ _ h, endDetachedOf_chan]
  · rw [chan_modAttn_frame, State.modPort, chan_modChan_ne _ _ h, endDetachedOf_chan]

theorem handBack_attn (s : State) (res : Result) : (s.handBack res).attn = s.attn := by
  unfold State.handBack; split <;> rfl

theorem haltCheck_attn (s : State) : s.haltCheck.attn = s.attn := by
  unfold State.haltCheck
  split
  · split
    · exact handBack_attn _ _
    · rfl
  · rfl

theorem report_attn (s : State) (n : Channel) : (s.report n).attn = s.attn := by
  unfold State.report; split
  · rw [haltCheck_attn, modChan_attn]
  · rfl

theorem haltSequencer_attn (s : State) (n : Channel) (running : Bool) : (s.haltSequencer n running).attn = s.attn := by
  unfold State.haltSequencer State.judgeHalted
  dsimp only
  split
  · rfl
  · split
    · rfl
    · split
      · rfl
      · rw [report_attn, modChan_attn]

/-- The halt of one channel: the end of its condition and nothing else (R73, R178). -/
theorem haltChannel_attn (s : State) (n : Channel) : (s.haltChannel n).attn = (s.endDetachedOf n).attn := by
  unfold State.haltChannel
  split
  · rw [haltSequencer_attn, modChan_attn]
  · rename_i h
    rw [endDetachedOf_attn, if_neg fun e => h (by rw [e]; rfl)]

end Sys2Proof.Machine
end

