-- ==== Sys2Proof/Laws/Link.lean ====
section
/-! SUPPORT. What the ways a transfer can end do to the transaction (R161). -/

namespace Sys2Proof.Machine

@[simp] theorem transactionAfter_repeatedStart (t : Transaction) : transactionAfter .repeatedStart t = some t := rfl

/-- Only a repeated start keeps the transaction. -/
theorem transactionAfter_ended {e : Ending} (h : e ≠ .repeatedStart) (t : Transaction) : transactionAfter e t = none := by
  cases e <;> first | rfl | exact absurd rfl h

theorem elsewhere_ended (k : Link) (low : Nat) {e : Ending} (h : e ≠ .repeatedStart) :
    k.elsewhere low e = { k with acks := [false], transaction := none } := by
  simp only [Link.elsewhere, transactionAfter_ended h]
  cases k.transaction <;> rfl

/-- A write transfer that ends its transaction acts as one that ends in a stop condition, and leaves no transaction. -/
theorem writeTransfer_ended (s : State) (address : BitVec 7) (bytes : List Byte) (low : Nat) {e : Ending}
    (h : e ≠ .repeatedStart) :
    s.writeTransfer address bytes low e = s.writeTransfer address bytes low .stop ∧
      (s.writeTransfer address bytes low e).link.transaction = none := by
  have hs : Ending.stop ≠ .repeatedStart := by decide
  simp only [State.writeTransfer, elsewhere_ended _ _ h, elsewhere_ended _ _ hs, Link.laterWrite, State.openWrite,
    transactionAfter_ended h, transactionAfter_ended hs, true_and]
  split
  · rfl
  · split
    · rfl
    · split
      · rfl
      · cases bytes with
        | nil => rfl
        | cons c rest => by_cases hc : commandRefused c s.link.flight.busy <;> simp only [hc] <;> rfl

/-- The same of a read transfer. -/
theorem readTransfer_ended (s : State) (address : BitVec 7) (clocked low : Nat) {e : Ending} (h : e ≠ .repeatedStart) :
    s.readTransfer address clocked low e = s.readTransfer address clocked low .stop ∧
      (s.readTransfer address clocked low e).link.transaction = none := by
  have hs : Ending.stop ≠ .repeatedStart := by decide
  simp only [State.readTransfer, elsewhere_ended _ _ h, elsewhere_ended _ _ hs, Link.afterRead,
    transactionAfter_ended h, transactionAfter_ended hs]
  refine ⟨trivial, ?_⟩
  split
  · rfl
  · split
    · rfl
    · simp only [State.modLink]; cases s.link.transaction <;> rfl

end Sys2Proof.Machine
end

