-- ==== Sys2Proof/Laws/Measures.lean ====
section
/-! SUPPORT. The lines of a field and their luma, place by place (R94). -/

namespace Sys2Proof.Machine

theorem linesOf_length (k : Nat) (bs : List Byte) : (linesOf k bs).length = k := by
  induction k generalizing bs with
  | zero => rfl
  | succ k ih => simp [linesOf, ih]

/-- Line `i` begins 1440 bytes after line `i - 1`. -/
theorem linesOf_getElem? (k i : Nat) (bs : List Byte) (h : i < k) :
    (linesOf k bs)[i]? = some ((bs.drop (1440 * i)).take 1440) := by
  induction k generalizing bs i with
  | zero => omega
  | succ k ih =>
    cases i with
    | zero => simp [linesOf, Config.bytesPerLine]
    | succ i =>
      rw [linesOf, List.getElem?_cons_succ, ih i _ (by omega), Config.bytesPerLine, List.drop_drop,
        show 1440 + 1440 * i = 1440 * (i + 1) by omega]

theorem activeLines_length (f : Field) (count : Nat) (h : f.lines.length = 1440 * count) :
    f.activeLines.length = count := by
  rw [Field.activeLines, linesOf_length, h, Config.bytesPerLine, Nat.mul_div_cancel_left _ (by omega)]

/-- The luma of a line, sample by sample. -/
theorem lumaOf_eq (bs : List Byte) :
    lumaOf bs = (List.range (bs.length / 2)).map fun j => (bs.getD (2 * j + 1) 0).toNat := by
  induction bs using lumaOf.induct with
  | case1 c y rest ih =>
    rw [lumaOf, ih, show (c :: y :: rest).length / 2 = rest.length / 2 + 1 by simp only [List.length_cons]; omega,
      List.range_succ_eq_map, List.map_cons, List.map_map]
    refine congrArg₂ List.cons (by simp) (List.map_congr_left fun j _ => ?_)
    rw [Function.comp, show 2 * Nat.succ j + 1 = 2 * j + 1 + 2 by omega]
    simp
  | case2 t h =>
    match t, h with
    | [], _ => rfl
    | [_], _ => exact (by simp [lumaOf])
    | a :: b :: r, h => exact absurd rfl (h a b r)

end Sys2Proof.Machine
end

