-- ==== Sys2Proof/Laws/Monitor.lean ====
section
/-! SUPPORT. What an observation says it changed: the settled state, and a start field only with it (R103, R105). -/

namespace Sys2Proof.Machine

/-- An outcome that tells truly whether the settled state changed from `before`, and has a start field only if it did. -/
structure Observed.Honest (o : Observed) (before : Settled) : Prop where
  changed : o.changed = true ↔ o.monitor.settled ≠ before
  start : o.changed = false → o.start = none

theorem Observed.honest_of_kept {o : Observed} {before : Settled} (hc : o.changed = false) (hs : o.start = none)
    (h : o.monitor.settled = before) : o.Honest before := ⟨by simp [hc, h], fun _ => hs⟩

theorem Observed.honest_of_changed {o : Observed} {before : Settled} (hc : o.changed = true)
    (h : o.monitor.settled ≠ before) : o.Honest before := ⟨by simp [hc, h], fun h' => by simp [hc] at h'⟩

theorem sameAlignment_self (mode : Film) (align : Nat) : sameAlignment mode align mode align = true := by
  cases mode <;> simp [sameAlignment]

theorem lockIn_honest (m : Monitor) (mode : Film) (align : Nat) (start : FieldRecord) :
    (m.lockIn mode align start).Honest m.settled := by
  unfold Monitor.lockIn
  split
  · rename_i mode' align' hs
    split
    · exact Observed.honest_of_kept rfl rfl rfl
    · rename_i hn
      refine Observed.honest_of_changed rfl fun e => hn ?_
      have e' : Settled.film mode align = .film mode' align' := e.trans hs
      cases e'
      exact sameAlignment_self mode align
  · rename_i hs; exact Observed.honest_of_changed rfl (by rw [hs]; exact Settled.noConfusion)
  · rename_i hs; exact Observed.honest_of_changed rfl (by rw [hs]; exact Settled.noConfusion)

theorem countUnlocked_honest (m : Monitor) : m.countUnlocked.Honest m.settled := by
  unfold Monitor.countUnlocked
  split
  · exact Observed.honest_of_kept rfl rfl rfl
  · split
    · rename_i hv _
      exact Observed.honest_of_changed rfl (Ne.symm hv)
    · exact Observed.honest_of_kept rfl rfl rfl

theorem miss_settled (m : Monitor) (mode : Film) (align misses : Nat) (r : Option FieldRecord) (o : Seen) :
    (m.miss mode align misses r o).settled = m.settled := by unfold Monitor.miss; split <;> rfl

/-- Every observation tells truly whether it changed the settled state. -/
theorem observe_honest (m : Monitor) (o : Seen) : (m.observe o).Honest m.settled := by
  have kept : ∀ u : Monitor, u.settled = m.settled →
      Observed.Honest { monitor := u, event := .nothing, changed := false, start := none } m.settled :=
    fun u h => Observed.honest_of_kept rfl rfl h
  have counted : ∀ u : Monitor, u.settled = m.settled → u.countUnlocked.Honest m.settled :=
    fun u h => h ▸ countUnlocked_honest u
  have locked : ∀ (u : Monitor) (mode : Film) (align : Nat) (start : FieldRecord), u.settled = m.settled →
      (u.lockIn mode align start).Honest m.settled := fun u mode align start h => h ▸ lockIn_honest u mode align start
  unfold Monitor.observe
  dsimp only
  split
  · exact counted _ rfl
  · split
    · exact counted _ rfl
    · split
      · exact counted _ rfl
      · split
        · split
          · exact locked _ _ _ _ rfl
          · exact counted _ rfl
        · exact counted _ rfl
  · split
    · exact kept _ (miss_settled _ _ _ _ _ _)
    · split
      · exact kept _ rfl
      · split
        · exact kept _ rfl
        · exact kept _ (miss_settled _ _ _ _ _ _)

end Sys2Proof.Machine
end

