-- ==== Sys2Proof/Laws/Picture.lean ====
section
/-! SUPPORT. The pictures the recipes form: their length, and which rows the mask blanks (R119 to R124). -/

namespace Sys2Proof.Machine

theorem interleave_length (xs ys : List PictureLine) : (interleave xs ys).length = xs.length + ys.length := by
  induction xs generalizing ys with
  | nil => cases ys <;> simp [interleave]
  | cons x xs ih =>
    cases ys with
    | nil => simp [interleave]
    | cons y ys => simp [interleave, ih]; omega

theorem placeLines_length (parity : Parity) (own : List (List Byte)) (others : List PictureLine) :
    (placeLines parity own others).length = own.length + others.length := by
  cases parity <;> simp [placeLines, interleave_length]; omega

theorem betweenLines_length (parity : Parity) (own : List (List Byte)) :
    (betweenLines parity own).length = own.length := by
  cases parity <;> cases own <;> simp [betweenLines]

theorem doubled_length (parity : Parity) (own : List (List Byte)) :
    (doubled parity own).length = 2 * own.length := by
  simp [doubled, placeLines_length, betweenLines_length]; omega

theorem neighbours_length (parity : Parity) (own : List (List Byte)) :
    (neighbours parity own).length = own.length := by
  cases parity <;> cases own <;> simp [neighbours]

theorem maskedLines_length (mask : Option Mask) (lines : List (List Byte)) :
    (maskedLines mask lines).length = lines.length := by cases mask <;> simp [maskedLines]

theorem Field.maskedLines_length (f : Field) (mask : Option Mask) :
    (f.maskedLines mask).length = f.activeLines.length := by simp [Field.maskedLines, Machine.maskedLines_length]

theorem maskedPicture_length (mask : Option Mask) (lines : List PictureLine) :
    (maskedPicture mask lines).length = lines.length := by cases mask <;> simp [maskedPicture]

/-- A recipe over fields of L lines forms 2L picture lines. -/
theorem recipePicture_length (kind : RecipeKind) (mask : Option Mask) (lineCount : Nat) (fields : List (Option Field))
    (h : ∀ f : Field, some f ∈ fields → f.activeLines.length = lineCount) :
    (recipePicture kind mask lineCount fields).length = 2 * lineCount := by
  unfold recipePicture
  split <;>
    simp_all [doubled_length, placeLines_length, motionLines, neighbours_length, Field.maskedLines_length] <;> omega

/-- A formed picture has 2L lines, whatever the mask. -/
theorem formPicture_length (kind : RecipeKind) (mask : Option Mask) (lineCount : Nat) (fields : List (Option Field))
    (h : ∀ f : Field, some f ∈ fields → f.activeLines.length = lineCount) :
    (formPicture kind mask lineCount fields).length = 2 * lineCount := by
  rw [formPicture, maskedPicture_length, recipePicture_length kind mask lineCount fields h]

/-- A row of a masked picture: black within the bands, the picture's own line elsewhere. -/
theorem maskedPicture_getElem? (m : Mask) (lines : List PictureLine) (i : Nat) :
    (maskedPicture (some m) lines)[i]? =
      lines[i]?.map fun x =>
        if inBands (2 * m.top.val) (2 * m.bottom.val) lines.length i then .known blackLine else x := by
  simp [maskedPicture, List.getElem?_map, List.getElem?_zipIdx]
  cases lines[i]? <;> rfl

end Sys2Proof.Machine
end

