-- ==== Sys2Proof/Laws/Pool.lean ====
section
/-! SUPPORT. What the shared operations of the pool do, each said once: the arbiter's choice and its starts, what a
removal, a cancellation, a re-role and a tick leave on each engine, and which HALTING channels the reports reach. -/

namespace Sys2Proof.Machine

/-! ## The arbiter's choice (R129) -/

theorem before_iff (a b : RenderRequest) : a.before b = true ↔
    a.distance < b.distance ∨ a.distance = b.distance ∧
      (a.role = .program ∧ b.role = .armed ∨ a.role = b.role ∧ a.lane < b.lane) := by
  cases ha : a.role <;> cases hb : b.role <;> simp [RenderRequest.before, Role.rank, ha, hb]

/-- No queued request goes before the chosen one. -/
theorem chooseRequest_first {q : List RenderRequest} {r : RenderRequest} (h : chooseRequest q = some r) :
    ∀ x ∈ q, x.before r = false := by
  have neg (a b : RenderRequest) : a.before b = false ↔
      b.distance < a.distance ∨ b.distance = a.distance ∧
        (b.role = .program ∧ a.role = .armed ∨ a.role = b.role ∧ b.lane.val ≤ a.lane.val) := by
    cases ha : a.role <;> cases hb : b.role <;>
      simp [RenderRequest.before, Role.rank, ha, hb, -Fin.val_fin_lt, -Fin.val_fin_le] <;> omega
  induction q generalizing r with
  | nil => exact nomatch h
  | cons a rest ih =>
    unfold chooseRequest at h
    split at h
    · rename_i hn
      cases chooseRequest_none hn
      cases h
      intro x hx
      cases List.mem_singleton.1 hx
      rw [neg]
      exact .inr ⟨rfl, .inr ⟨rfl, Nat.le_refl _⟩⟩
    · rename_i b hb
      have hall := ih hb
      by_cases hc : b.before a = true
      · simp only [hc, if_true, Option.some.injEq] at h
        subst h
        intro x hx
        rcases List.mem_cons.1 hx with e | hx
        · subst e
          rw [before_iff] at hc
          rw [neg]
          rcases hc with hc | ⟨h1, ⟨h2, h3⟩ | ⟨h2, h3⟩⟩
          · exact .inl hc
          · exact .inr ⟨h1, .inl ⟨h2, h3⟩⟩
          · exact .inr ⟨h1, .inr ⟨h2.symm, Nat.le_of_lt h3⟩⟩
        · exact hall x hx
      · simp only [hc] at h
        simp at h
        subst h
        intro x hx
        rcases List.mem_cons.1 hx with e | hx
        · subst e
          rw [neg]
          exact .inr ⟨rfl, .inr ⟨rfl, Nat.le_refl _⟩⟩
        · have h1 := (neg x b).1 (hall x hx)
          have h2 := (neg b a).1 (by simpa using hc)
          rw [neg]
          rcases h1 with h1 | ⟨h1, h1'⟩ <;> rcases h2 with h2 | ⟨h2, h2'⟩
          · exact .inl (by omega)
          · exact .inl (by omega)
          · exact .inl (by omega)
          · refine .inr ⟨by omega, ?_⟩
            cases hx : x.role <;> cases hb : b.role <;> cases ha : a.role <;> simp_all <;> omega

/-! ## Starts (R129, R130) -/

/-- What starts do, and nothing else: jobs stay on their engines; a job on an engine that was IDLE is a queued request
that left the queue, with its fields, profile and raster copied, and no request left in the queue goes before it. -/
structure Starts (s t : State) : Prop where
  rest : t = { s with queue := t.queue, engines := t.engines }
  queue : t.queue.Sublist s.queue
  kept : ∀ (e : EngineId) (j : Job), s.engines.get e = some j → t.engines.get e = some j
  started : ∀ (e : EngineId) (j : Job), s.engines.get e = none → t.engines.get e = some j →
    ∃ r ∈ s.queue, j = s.makeJob r ∧ ∀ q ∈ t.queue, q.before r = false
  placed : ∀ r ∈ s.queue, r ∈ t.queue ∨
    ∃ (e : EngineId) (j : Job), s.engines.get e = none ∧ t.engines.get e = some j ∧ j.request = r

theorem Starts.refl (s : State) : Starts s s :=
  ⟨rfl, List.Sublist.refl _, fun _ _ h => h, fun _ _ h h' => (nomatch h.symm.trans h'),
    fun _ h => .inl h⟩

theorem Starts.makeJob {s t : State} (h : Starts s t) (r : RenderRequest) : t.makeJob r = s.makeJob r := by
  rw [h.rest]; rfl

theorem Starts.trans {s t u : State} (h : Starts s t) (k : Starts t u) : Starts s u where
  rest := by rw [k.rest, h.rest]
  queue := k.queue.trans h.queue
  kept e j x := k.kept e j (h.kept e j x)
  started e j x y := by
    cases ht : t.engines.get e with
    | none =>
      obtain ⟨r, hr, hj, hq⟩ := k.started e j ht y
      exact ⟨r, h.queue.subset hr, hj.trans (h.makeJob r), hq⟩
    | some i =>
      cases (k.kept e i ht).symm.trans y
      obtain ⟨r, hr, hj, hq⟩ := h.started e j x ht
      exact ⟨r, hr, hj, fun q m => hq q (k.queue.subset m)⟩
  placed r hr := by
    rcases h.placed r hr with m | ⟨e, j, x, y, z⟩
    · rcases k.placed r m with m | ⟨e, j, x, y, z⟩
      · exact .inl m
      · cases hs : s.engines.get e with
        | none => exact .inr ⟨e, j, hs, y, z⟩
        | some i => exact nomatch x.symm.trans (h.kept e i hs)
    · exact .inr ⟨e, j, x, k.kept e j y, z⟩

/-- The lowest-numbered IDLE engine is IDLE. -/
theorem idleEngine_idle {s : State} {e : EngineId} (h : s.idleEngine = some e) : s.engines.get e = none := by
  simpa using List.find?_some h

/-- An IDLE engine is found. -/
theorem idleEngine_some {s : State} {e : EngineId} (h : s.engines.get e = none) : ∃ f, s.idleEngine = some f := by
  have he : e ∈ allEngines := by clear h; revert e; decide
  cases hi : s.idleEngine with
  | some f => exact ⟨f, rfl⟩
  | none =>
    have := List.find?_eq_none.1 hi e he
    simp [h] at this

theorem startOne_starts (s : State) : Starts s s.startOne := by
  cases he : s.idleEngine with
  | none => rw [startOne_none s (.inl he)]; exact Starts.refl s
  | some e =>
    cases hr : chooseRequest s.queue with
    | none => rw [startOne_none s (.inr (chooseRequest_none hr))]; exact Starts.refl s
    | some r =>
      have hidle := idleEngine_idle he
      rw [startOne_some s e r he hr]
      have hget (f : EngineId) : (({ s with queue := s.queue.erase r }.setEngine e (some (s.makeJob r))).engines.get f)
          = if e = f then some (s.makeJob r) else s.engines.get f := get_setAt ..
      refine ⟨rfl, List.erase_sublist, fun f j x => ?_, fun f j x y => ?_, fun q hq => ?_⟩
      · rw [hget]
        split
        · rename_i h; subst h; exact nomatch hidle.symm.trans x
        · exact x
      · rw [hget] at y
        split at y
        · cases y
          exact ⟨r, chooseRequest_mem hr, rfl, fun q m => chooseRequest_first hr q (List.mem_of_mem_erase m)⟩
        · exact nomatch x.symm.trans y
      · by_cases h : q = r
        · subst h
          exact .inr ⟨e, s.makeJob q, hidle, by rw [hget]; simp, rfl⟩
        · exact .inl ((List.mem_erase_of_ne h).2 hq)

/-- What the arbiter does: starts. -/
theorem arbitrate_starts (s : State) : Starts s s.arbitrate :=
  ((startOne_starts s).trans (startOne_starts _)).trans (startOne_starts _)

/-- A start with a queued request makes an IDLE engine BUSY. -/
theorem startOne_busy {s : State} {e : EngineId} (he : s.idleEngine = some e) (hq : s.queue ≠ []) :
    s.startOne.engines.get e ≠ none := by
  cases hr : chooseRequest s.queue with
  | none => exact absurd (chooseRequest_none hr) hq
  | some r => rw [startOne_some s e r he hr]; simp [State.setEngine, get_setAt_same]

/-- While the arbiter leaves an engine IDLE, nothing is queued. -/
theorem arbitrate_idle (s : State) (e : EngineId) (h : s.arbitrate.engines.get e = none) : s.arbitrate.queue = [] := by
  by_contra hq
  have s1 := startOne_starts s
  have s2 := startOne_starts s.startOne
  have s3 := startOne_starts s.startOne.startOne
  have back {a b : State} (k : Starts a b) {f : EngineId} (x : b.engines.get f = none) : a.engines.get f = none := by
    cases ha : a.engines.get f with
    | none => rfl
    | some j => exact nomatch x.symm.trans (k.kept f j ha)
  have fwd {a b : State} (k : Starts a b) {f : EngineId} (x : a.engines.get f ≠ none) : b.engines.get f ≠ none :=
    fun y => x (back k y)
  have qback {a b : State} (k : Starts a b) (x : b.queue ≠ []) : a.queue ≠ [] := fun y =>
    x (List.eq_nil_of_sublist_nil (y ▸ k.queue))
  have h2 := back s3 h
  have h1 := back s2 h2
  have h0 := back s1 h1
  have q2 := qback s3 hq
  have q1 := qback s2 q2
  have q0 := qback s1 q1
  obtain ⟨e0, i0⟩ := idleEngine_some h0
  obtain ⟨e1, i1⟩ := idleEngine_some h1
  obtain ⟨e2, i2⟩ := idleEngine_some h2
  have b0 := startOne_busy i0 q0
  have b1 := startOne_busy i1 q1
  have b2 := startOne_busy i2 q2
  have n01 : e0 ≠ e1 := fun x => b0 (x ▸ idleEngine_idle i1)
  have n02 : e0 ≠ e2 := fun x => fwd s2 b0 (x ▸ idleEngine_idle i2)
  have n12 : e1 ≠ e2 := fun x => b1 (x ▸ idleEngine_idle i2)
  have n0 : e0 ≠ e := fun x => b0 (x ▸ h1)
  have n1 : e1 ≠ e := fun x => b1 (x ▸ h2)
  have n2 : e2 ≠ e := fun x => b2 (x ▸ h)
  revert n01 n02 n12 n0 n1 n2
  clear * -
  revert e e0 e1 e2
  decide

/-! ## What the orders and the tick leave on an engine (R132 to R134) -/

@[simp] theorem cancelJobs_get (s : State) (p : RenderRequest → Bool) (e : EngineId) :
    (s.cancelJobs p).engines.get e = (s.engines.get e).filter fun j => !p j.request := by
  simp only [State.cancelJobs, Vector.get_eq_getElem, Vector.getElem_map]
  cases s.engines[e.val] with
  | none => rfl
  | some j => cases h : p j.request <;> simp [h, Option.filter]

@[simp] theorem reRole_get (s : State) (l : LaneId) (n : Channel) (e : EngineId) :
    (s.reRole l n).engines.get e = (s.engines.get e).map fun j => { j with request := j.request.reRole l n } := by
  simp [State.reRole, Vector.get_eq_getElem]

@[simp] theorem advanceDeadlines_get (s : State) (l : LaneId) (e : EngineId) :
    (s.advanceDeadlines l).engines.get e =
      (s.engines.get e).map fun j => { j with request := j.request.nearer l } := by
  simp [State.advanceDeadlines, Vector.get_eq_getElem]

/-- A channel has a job in flight exactly when some engine runs one of it. -/
theorem inFlight_iff (s : State) (n : Channel) :
    s.inFlight n = true ↔ ∃ (e : EngineId) (j : Job), s.engines.get e = some j ∧ j.request.channel = n := by
  simp only [State.inFlight, List.any_eq_true, Vector.mem_toList_iff]
  constructor
  · rintro ⟨x, hx, hj⟩
    obtain ⟨i, hi, rfl⟩ := Vector.getElem_of_mem hx
    unfold jobOf at hj
    split at hj
    · rename_i j h
      exact ⟨⟨i, hi⟩, j, h, by simpa using hj⟩
    · exact nomatch hj
  · rintro ⟨e, j, h, hn⟩
    exact ⟨some j, h ▸ Vector.getElem_mem .., by simp [jobOf, hn]⟩

/-! ## The reports (R73) -/

theorem haltCheck_chan (s : State) (n : Channel) : s.haltCheck.chan n = s.chan n :=
  congrArg (fun v => v.get n) (haltCheck_chans s)

/-- The report of a channel: it becomes HALTED if it is HALTING and no release of it waits. -/
theorem report_chan (s : State) (m n : Channel) : (s.report m).chan n =
    if m = n ∧ (s.chan n).state = .halting ∧ (s.chan n).releaseWaits = false then { s.chan n with state := .halted }
    else s.chan n := by
  unfold State.report
  by_cases hm : m = n
  · subst hm
    split
    · rename_i h; rw [haltCheck_chan, chan_modChan]; simp [h]
    · rename_i h; rw [if_neg (fun x => h x.2)]
  · split
    · rw [haltCheck_chan, chan_modChan]; simp [hm]
    · simp [hm]

/-- The reports reach the HALTING channels whose last jobs in flight have ended since `before`, of which no release
waits; every other channel is as it was. -/
theorem reportEnded_chan (s before : State) (n : Channel) : (s.reportEnded before).chan n =
    if before.inFlight n = true ∧ s.inFlight n = false ∧ (s.chan n).state = .halting ∧ (s.chan n).releaseWaits = false
    then { s.chan n with state := .halted } else s.chan n := by
  unfold State.reportEnded
  have key (l : List Channel) : ∀ t : State, t.engines = s.engines → l.Nodup →
      (l.foldl (fun s m => if before.inFlight m && !s.inFlight m then s.report m else s) t).chan n =
        if n ∈ l ∧ before.inFlight n = true ∧ s.inFlight n = false ∧ (t.chan n).state = .halting ∧
          (t.chan n).releaseWaits = false then { t.chan n with state := .halted } else t.chan n := by
    induction l with
    | nil => intro t _ _; simp
    | cons m l ih =>
      intro t ht hl
      have hf : ∀ k : Channel, t.inFlight k = s.inFlight k := fun k => by simp [State.inFlight, ht]
      rw [List.foldl_cons]
      have hu : (if (before.inFlight m && !t.inFlight m) = true then t.report m else t).engines = s.engines := by
        split
        · exact ((report_keepsPool (KeepsPool.refl t) m).engines).trans ht
        · exact ht
      rw [ih _ hu (List.nodup_cons.1 hl).2]
      have hnot := (List.nodup_cons.1 hl).1
      by_cases hm : m = n
      · subst hm
        simp only [hnot, false_and, if_false, List.mem_cons, true_or, true_and]
        by_cases hc : (before.inFlight m && !t.inFlight m) = true
        · rw [if_pos hc, report_chan]
          simp only [Bool.and_eq_true, Bool.not_eq_true', hf] at hc
          simp [hc]
        · rw [if_neg hc]
          simp only [Bool.and_eq_true, Bool.not_eq_true', hf] at hc
          rw [if_neg]
          exact fun x => hc ⟨x.1, x.2.1⟩
      · have hch : (if (before.inFlight m && !t.inFlight m) = true then t.report m else t).chan n = t.chan n := by
          split
          · rw [report_chan]; simp [hm]
          · rfl
        rw [hch]
        have : n ∈ m :: l ↔ n ∈ l := by simp [List.mem_cons, Ne.symm hm]
        simp only [this]
  rw [key allChannels s rfl (by decide)]
  simp [mem_allChannels]

end Sys2Proof.Machine
end

