-- ==== Sys2Proof/Laws/Port.lean ====
section
/-! SUPPORT. Which header and which packet complete at a port, from the received bytes (R1, R184). -/

namespace Sys2Proof.Machine

/-- A 16-bit word read back from its two bytes. -/
theorem word16At_bytes16 (w : BitVec 16) : word16At (bytes16 w) 0 = w := by
  simp only [word16At, bytes16, byteAt, List.getD_cons_zero, Nat.zero_add, List.getD_cons_succ]
  ext i hi
  simp only [BitVec.getElem_append, BitVec.getElem_extractLsb']
  split
  · simp [BitVec.getLsbD_eq_getElem, hi]
  · rw [show 8 + (i - 8) = i by omega, BitVec.getLsbD_eq_getElem hi]

/-- The first sync word is the one after bytes that hold none. -/
theorem afterSync_append (before rest : List Byte) (h : afterSync before = none) :
    afterSync (before ++ 0x9D :: 0x62 :: rest) = some rest := by
  induction before with
  | nil => rfl
  | cons b bs ih =>
    have hbs : afterSync bs = none := by
      unfold afterSync at h
      split at h
      · exact nomatch h
      · rename_i heq; cases heq; exact h
      · rename_i heq; exact nomatch heq
    rw [List.cons_append]
    unfold afterSync
    split
    · rename_i heq
      injection heq with hb ht
      cases bs with
      | nil =>
        injection ht with h1 _
        exact absurd h1 (by decide)
      | cons c cs =>
        injection ht with h1 _
        subst hb h1
        exact nomatch h
    · rename_i heq; injection heq with _ ht; subst ht; exact ih hbs
    · rename_i heq; exact nomatch heq

/-- The header that the searched bytes end with. -/
theorem findHeader_append (before : List Byte) (h : HeaderBytes) (hb : afterSync before = none)
    (hl : h.bytes.length = 11) :
    findHeader (before ++ [0x9D, 0x62] ++ h.bytes ++ bytes16 h.check) = some h := by
  have e : before ++ [0x9D, 0x62] ++ h.bytes ++ bytes16 h.check
      = before ++ 0x9D :: 0x62 :: (h.bytes ++ bytes16 h.check) := by simp
  have hc : word16At (h.bytes ++ bytes16 h.check) 11 = h.check := by
    refine Eq.trans ?_ (word16At_bytes16 h.check)
    simp [word16At, byteAt, List.getD_eq_getElem?_getD, List.getElem?_append_right, hl]
  rw [findHeader, e, afterSync_append before _ hb]
  simp only [List.length_append, hl]
  rw [if_pos (by simp [bytes16]), hc, List.take_append_of_le_length (by omega), List.take_of_length_le (by omega)]

/-- While a packet's lines are read, no header completes. -/
theorem headerAt_reading (s : State) (n : Channel) (received : List Byte) (p : PacketHeader)
    (h : (s.chan n).port.receiver = .reading p) : s.headerAt n received = none := by
  simp [State.headerAt, h, Receiver.searched]

/-- The header that completes while the port searches. -/
theorem headerAt_searching (s : State) (n : Channel) (before : List Byte) (h : HeaderBytes)
    (hj : (s.chan n).state.judges = true) (hr : (s.chan n).port.receiver = .searching)
    (hb : afterSync before = none) (hl : h.bytes.length = 11) :
    s.headerAt n (before ++ [0x9D, 0x62] ++ h.bytes ++ bytes16 h.check) = some h := by
  simp only [State.headerAt, hj, if_true, hr, Receiver.searched, Option.bind_some]
  exact findHeader_append before h hb hl

/-- The header that completes after the lines and the check word of a discarded packet. -/
theorem headerAt_skipping (s : State) (n : Channel) (k : Nat) (skipped before : List Byte) (h : HeaderBytes)
    (hj : (s.chan n).state.judges = true) (hr : (s.chan n).port.receiver = .skipping k)
    (hs : skipped.length = lineBytes k + 2) (hb : afterSync before = none) (hl : h.bytes.length = 11) :
    s.headerAt n (skipped ++ before ++ [0x9D, 0x62] ++ h.bytes ++ bytes16 h.check) = some h := by
  simp only [State.headerAt, hj, if_true, hr, Receiver.searched, Option.bind_some, List.append_assoc]
  rw [← hs, List.drop_left]
  simpa [List.append_assoc] using findHeader_append before h hb hl

/-- The field that completes with the announced lines and the body check word. -/
theorem packetAt_complete (s : State) (n : Channel) (p : PacketHeader) (lines : List Byte) (check : BitVec 16)
    (hj : (s.chan n).state.judges = true) (hr : (s.chan n).port.receiver = .reading p)
    (hl : lines.length = lineBytes p.lineCount) :
    s.packetAt n lines (bytes16 check) = some (p.field lines (crc16 lines != check)) := by
  simp only [State.packetAt, hj, if_true, hr, PacketHeader.complete, hl, word16At_bytes16]
  simp [bytes16]

/-- Another number of bytes completes no packet. -/
theorem packetAt_incomplete (s : State) (n : Channel) (p : PacketHeader) (lines check : List Byte)
    (hr : (s.chan n).port.receiver = .reading p)
    (hl : lines.length ≠ lineBytes p.lineCount ∨ check.length ≠ 2) : s.packetAt n lines check = none := by
  have : ¬(lines.length = lineBytes p.lineCount ∧ check.length = 2) := by omega
  simp [State.packetAt, hr, PacketHeader.complete, this]

end Sys2Proof.Machine
end

