-- ==== Sys2Proof/Laws/Table.lean ====
section
/-! SUPPORT. Use counts and the reserve accounting: a change of an entry that keeps its state and charge leaves the shared
free, and the hand-over of a departure comes with an entry that becomes FREE (R28, R32, R34). -/

namespace Sys2Proof.Machine

/-! ## Counting entries -/

/-- Replacing an element by one that a test judges alike leaves the count. -/
theorem countP_set_same {α : Type} (p : α → Bool) (l : List α) (i : Nat) (hi : i < l.length) (x : α)
    (h : p x = p l[i]) : (l.set i x).countP p = l.countP p := by
  induction l generalizing i with
  | nil => rfl
  | cons a l ih =>
    cases i with
    | zero => simp only [List.set_cons_zero, List.countP_cons]; rw [show p x = p a from h]
    | succ i => simp only [List.set_cons_succ, List.countP_cons]; rw [ih i (Nat.lt_of_succ_lt_succ hi) h]

/-- An entry replaced by one of the same state and charge: the shared free is as it was. -/
theorem sharedFree_setEntry (s : State) (h : Handle) (e : Entry) (hs : e.state = (s.entry h).state)
    (hc : e.charge = (s.entry h).charge) : (s.setEntry h e).sharedFree = s.sharedFree := by
  have count (p : Entry → Bool) (hp : p e = p (s.entry h)) :
      (s.setEntry h e).table.toList.countP p = s.table.toList.countP p := by
    have : (s.setEntry h e).table.toList = s.table.toList.set h.val e := by
      simp [State.setEntry, setAt, Vector.toList, Vector.set]
    rw [this]
    refine countP_set_same p _ _ (by simp) e ?_
    rw [hp]
    simp [State.entry, Vector.get_eq_getElem]
  have hf : (s.setEntry h e).freeCount = s.freeCount := count _ (by rw [hs])
  have hr (c : Channel) : (s.setEntry h e).reserveHeld c = s.reserveHeld c := count _ (by rw [hs, hc])
  unfold State.sharedFree State.outstanding
  simp only [hf, hr]
  rfl

/-- The shared free is a view of the table and the configuration records. -/
theorem sharedFree_of_same {s t : State} (ht : t.table = s.table)
    (hc : ∀ n : Channel, (t.chan n).config = (s.chan n).config) : t.sharedFree = s.sharedFree := by
  unfold State.sharedFree State.outstanding State.freeCount State.reserveHeld State.quota
  simp only [ht, hc]

/-! ## Use counts -/

/-- A user leaves an entry: the last user of a RETIRING one makes it FREE, and its shared free is handed over; nothing
else of the attention unit changes. -/
theorem lowerUse_attn (s : State) (h : Handle) : (s.lowerUse h).attn =
    if (s.entry h).state = .retiring ∧ (s.entry h).useCount ≤ 1 then s.attn.handOver (s.lowerUse h).sharedFree
    else s.attn := by
  unfold State.lowerUse
  dsimp only
  split
  · rfl
  · rfl

/-- A user more leaves the shared free as it was. -/
theorem raiseUse_sharedFree (s : State) (h : Handle) : (s.raiseUse h).sharedFree = s.sharedFree :=
  sharedFree_setEntry s h _ rfl rfl

/-- The use counts follow a channel: what the attention unit hears of it. -/
theorem moveUse_attn (s : State) (old new : Option Handle) : (s.moveUse old new).attn =
    match old with
    | some o =>
      if old ≠ new ∧ (s.entry o).state = .retiring ∧ (s.entry o).useCount ≤ 1 then
        s.attn.handOver (s.moveUse old new).sharedFree
      else s.attn
    | none => s.attn := by
  unfold State.moveUse
  by_cases h : old = new
  · rw [if_pos h]; cases old <;> simp [h]
  · rw [if_neg h]
    cases old with
    | none => cases new <;> rfl
    | some o =>
      cases new with
      | none =>
        dsimp only
        rw [lowerUse_attn]
        simp
      | some g =>
        dsimp only
        rw [raiseUse_sharedFree]
        refine (lowerUse_attn s o).trans ?_
        simp only [h, ne_eq, not_false_eq_true, true_and]

end Sys2Proof.Machine
end

