-- ==== Sys2Proof/Tests/Slice0.lean ====
section
/-! SUPPORT. Tests: the well-formedness check on ill-formed commands, small checks of one command each, and for every
statement with hypotheses a state and operands that meet them together. -/

set_option Elab.async false

namespace Sys2Proof.Machine.Tests

/-! ## Small states -/

/-- The state after reset. -/
def base : State := State.reset

/-- A state in which request `r` waits at its owner. -/
def asks (s : State) (r : Instr) : State := s.modLink fun k => { k with flight := .launched r }

/-- A matcher that takes every tag. -/
def openMatcher : Matcher := { enabled := true, code := 0, mask := BitVec.allOnes 32, aliasKey := none }

/-- A configuration that takes every tag. -/
def openConfig : ChannelConfig := { ChannelConfig.reset with matchers := Vector.replicate 4 openMatcher }

/-- Channel 0 in a state, with a port, taking every tag. -/
def withChan (st : ChannelState) (p : Port → Port) : State :=
  base.modChan 0 fun c => { c with state := st, config := openConfig, port := p c.port }

/-- Channel 0 RUNNING. -/
def running : State := withChan .running fun p => { p with silence := .running }

/-- A header of standard 1 with a reel tag and a field number, its sync word before it and its check word after. -/
def headerOf (tag : Key) (number : FieldNum) (lines : BitVec 16) : List Byte :=
  [1, 0] ++ bytes32 tag ++ bytes24 number ++ bytes16 lines

/-- The bytes of a header as the link carries them. -/
def sent (h : List Byte) (check : BitVec 16) : List Byte := [0x9D, 0x62] ++ h ++ bytes16 check

/-- What a header of tag 5 and field 100 gives, with one line to read. -/
def packetHead : PacketHeader := { number := 100, parity := .upper, key := 5, lineCount := 1 }

/-- A line of one grey. -/
def greyLine : List Byte := List.replicate 1440 128

/-- A field of key 5. -/
def fieldOf (number : FieldNum) (parity : Parity) : Field :=
  { number := number, parity := parity, key := 5, damaged := false, slip := false, lines := [] }

/-- A field in a window slot under the default treatment. -/
def slotOf (number : FieldNum) (parity : Parity) : WindowField :=
  { field := fieldOf number parity, set := .default Directives.reset }

/-- An ACTIVE entry of key 5 for fields 10 to 200. -/
def entryA : Entry :=
  { state := .active, key := 5, first := 10, last := 200, gen := 3, origin := .operator, owner := none,
    charge := .shared, useCount := 0, directives := Directives.reset, parent := none }

/-- A PROVISIONAL entry of key 5 for fields 201 to 300, split from handle 0. -/
def entryP : Entry :=
  { state := .provisional, key := 5, first := 201, last := 300, gen := 1, origin := .monitor, owner := some 0,
    charge := .reserve 0, useCount := 0, directives := Directives.reset, parent := some (0, 3) }

/-- A frame of channel 0. -/
def frameOf (n : Channel) (number : FieldNum) : Frame :=
  { channel := n, number := number, picture := [], profile := Profile.reset, raster := .r1920x1080 }

/-- A render request of a channel for lane 0. -/
def requestOf (n : Channel) (role : Role) (distance : Nat) : RenderRequest :=
  { channel := n, lane := 0, role := role, number := 7, recipe := lineDouble .current, profile := 0, mask := none,
    distance := distance }

/-- A job of a channel for lane 0. -/
def jobOn (n : Channel) (role : Role) (distance : Nat) : Job :=
  { request := requestOf n role distance, fields := [], lineCount := 0, profile := Profile.reset,
    raster := .r1920x1080 }

/-- Lane 0 in PROGRAM with channel 0 as its source, claimed. -/
def onAir : State :=
  { base with claims := setAt base.claims 0 (some 0) }.modLane 0 fun x =>
    { x with state := .program, source := some 0, config := { x.config with enabled := true },
             lastFrame := some (frameOf 0 1) }

/-! ## Well-formedness: one ill-formed command for each check -/

theorem test_header_without_check_word : (Instr.headerCompletion 0 [0x9D, 0x62, 1]).wellFormed = false := by decide
theorem test_header_past_check_word :
    (Instr.headerCompletion 0 (sent (headerOf 5 100 288) 0 ++ [0])).wellFormed = false := by decide +kernel
theorem test_header_well_formed : (Instr.headerCompletion 0 (9 :: sent (headerOf 5 100 288) 0)).wellFormed = true := by
  decide +kernel
theorem test_header_without_sync :
    (Instr.headerCompletion 0 (0x9D :: sent (headerOf 5 100 288) 0 ++ [0])).wellFormed = false := by decide +kernel
theorem test_packet_of_part_lines : (Instr.packetCompletion 0 [1, 2] [0, 0]).wellFormed = false := by decide +kernel
theorem test_lock_of_part_lines : (Instr.lockGained 0 [1] [0, 0]).wellFormed = false := by decide +kernel
theorem test_rejoin_of_part_lines : (Instr.autoRejoin 0 [] [0, 0]).wellFormed = false := by decide +kernel
theorem test_detachment_of_short_header : (Instr.detachment 0 (.header [])).wellFormed = false := by decide
theorem test_detachment_of_part_lines : (Instr.detachment 0 (.packet [1] [0, 0])).wellFormed = false := by
  decide +kernel
theorem test_packet_well_formed : (Instr.packetCompletion 0 (List.replicate 414720 0) [0, 0]).wellFormed = true := by
  show (([Standard.std625, .std525, .std405, .std819].any fun st =>
    (List.replicate 414720 (0 : Byte)).length == lineBytes st.lines) && ([0, 0] : List Byte).length == 2) = true
  rw [List.length_replicate]
  decide
theorem test_packet_of_one_check_byte (lines : List Byte) :
    (Instr.packetCompletion 0 lines [0]).wellFormed = false := by simp [Instr.wellFormed, packetBytesFit]
theorem test_unchecked_with_checked : (Instr.uncheckedPiece 0x38 [0xE0] 0 .stop).wellFormed = false := by decide
theorem test_unchecked_with_result : (Instr.uncheckedPiece 0x38 [0x10] 0 .stop).wellFormed = false := by decide
theorem test_checked_without_bytes : (Instr.checkedPiece 0x38 [] 0 .stop).wellFormed = false := by decide
theorem test_checked_without_checked : (Instr.checkedPiece 0x38 [0xC0] 0 .stop).wellFormed = false := by decide
theorem test_result_read_without_result : (Instr.resultRead 0x38 [0x20] 3 0 .stop).wellFormed = false := by decide
theorem test_result_read_well_formed : (Instr.resultRead 0x38 [0x30] 3 0 .stop).wellFormed = true := by decide

/-! ## The two checks on known bytes -/

theorem test_crc16_of_123456789 :
    crc16 [0x31, 0x32, 0x33, 0x34, 0x35, 0x36, 0x37, 0x38, 0x39] = 0x29B1 := by decide +kernel
theorem test_crc8_of_123456789 :
    crc8 [0x31, 0x32, 0x33, 0x34, 0x35, 0x36, 0x37, 0x38, 0x39] = 0xF4 := by decide +kernel

/-! ## Witnesses: ports -/

/-- `StepTakesFrontCommand`: a queue with a command, and an empty one. -/
theorem test_queues :
    { base with pending := [.jobStart] }.pending = .jobStart :: [] ∧ base.pending = [] := by decide

/-- `MatcherHitsByMaskedCode`: a hit of matcher 0, one of matcher 3 alone, and no hit. -/
theorem test_matcher_hits :
    (openConfig.matchers.get 0).hits 5 = true ∧
    ({ ChannelConfig.reset with matchers := #v[Matcher.reset, Matcher.reset, Matcher.reset, openMatcher] }.lookupKey 5
      = some 5) ∧
    (∀ i : Fin 4, (ChannelConfig.reset.matchers.get i).hits 5 = false) := by decide +kernel

/-- The header of tag 5 and field 100, complete and right. -/
def goodHeader : List Byte := sent (headerOf 5 100 288) (crc16 (headerOf 5 100 288))

/-- The same header with a wrong check word. -/
def badHeader : List Byte := sent (headerOf 5 100 288) 0

/-- The header with a line count of another standard, its check word right. -/
def strangeHeader : List Byte := sent (headerOf 5 100 243) (crc16 (headerOf 5 100 243))

/-- Bytes that complete a header: after two bytes left to skip, bytes without a sync word, and then the packet's. -/
def skippedThen (check : BitVec 16) (lines : BitVec 16) : List Byte :=
  [7, 8] ++ [1, 0x9D] ++ sent (headerOf 5 100 lines) check

/-- `HeaderArrives`: a port that searches, with bytes before the packet, and one that skips a packet of no lines. -/
theorem test_header_arrives (tag : Key) (number : FieldNum) (lines check : BitVec 16) :
    HeaderArrives running 0 ([1, 0x9D] ++ sent (headerOf tag number lines) check)
      { bytes := headerOf tag number lines, check := check } ∧
    HeaderArrives (withChan .running fun p => { p with receiver := .skipping 0 }) 0
      ([7, 8] ++ [1, 0x9D] ++ sent (headerOf tag number lines) check)
      { bytes := headerOf tag number lines, check := check } :=
  ⟨⟨[], [1, 0x9D], .inl ⟨by decide +kernel, rfl⟩, by decide, rfl, by simp [sent]⟩,
    ⟨[7, 8], [1, 0x9D], .inr ⟨0, by decide +kernel, rfl⟩, by decide, rfl, by simp [sent]⟩⟩

/-- `HeaderCompletionAcceptsOrRejects`: a right header, with a matcher hit and without one. -/
theorem test_header_accepted_and_rejected :
    (running.chan 0).state = .running ∧ (running.chan 0).config.standard.code = 1 ∧
    ({ bytes := headerOf 5 100 288, check := crc16 (headerOf 5 100 288) } : HeaderBytes).standard = 1 ∧
    ({ bytes := headerOf 5 100 288, check := crc16 (headerOf 5 100 288) } : HeaderBytes).lineCount = 288 ∧
    (running.chan 0).config.standard.lines = 288 ∧
    (running.chan 0).config.lookupKey 5 = some 5 ∧ ChannelConfig.reset.lookupKey 5 = none := by decide +kernel

/-- `HeaderCompletionAcceptsOrRejects` on the bytes themselves: the header at the end of skipped bytes is accepted, and
the same bytes while nothing is to be skipped give the header of the first sync word, which has not its 13 bytes. -/
theorem test_header_read_from_bytes :
    (withChan .running fun p => { p with receiver := .skipping 0 }).headerAt 0
        (skippedThen (crc16 (headerOf 5 100 288)) 288)
      = some { bytes := headerOf 5 100 288, check := crc16 (headerOf 5 100 288) } ∧
    (withChan .running fun p => { p with receiver := .skipping 0 }).headerAt 0 goodHeader = none ∧
    running.headerAt 0 goodHeader = some { bytes := headerOf 5 100 288, check := crc16 (headerOf 5 100 288) } ∧
    running.headerAt 0 (goodHeader ++ [0]) = none := by decide +kernel

/-- `HeaderFaultAddsEight`: a failed check and a mismatch, with the fault count at its boundary 247. -/
theorem test_header_faults :
    (running.chan 0).state = .running ∧ crc16 (headerOf 5 100 288) ≠ 0 ∧
    running.headerAt 0 badHeader = some { bytes := headerOf 5 100 288, check := 0 } ∧
    running.headerAt 0 strangeHeader = some { bytes := headerOf 5 100 243, check := crc16 (headerOf 5 100 243) } ∧
    ({ bytes := headerOf 5 100 243, check := 0 } : HeaderBytes).lineCount ≠ 288 ∧
    ((withChan .running fun p => { p with faultCount := 247 }).chan 0).port.faultCount + 8 ≤ 255 := by decide +kernel

/-- The later clauses of `HeaderCompletionAcceptsOrRejects` and `HeaderFaultAddsEight`: a HALTED channel, SEEKING and
DETACHED ones whose port searches, and a port that reads a packet. -/
theorem test_header_in_other_states :
    (base.chan 0).state = .halted ∧ (∀ st ∈ [ChannelState.seeking, .detached], ((withChan st id).chan 0).state = st ∧
      ((withChan st id).chan 0).port.receiver = .searching ∧
      ((withChan st id).chan 0).config.standard.lines ≠ 243) ∧
    ((withChan .running fun p => { p with receiver := .reading packetHead }).chan 0).port.receiver
      = .reading packetHead := by decide +kernel

/-- `DetachmentPastLimit`: a fault count of 248, with and without a current entry. -/
theorem test_detachment_limit :
    255 < ((withChan .running fun p => { p with faultCount := 248 }).chan 0).port.faultCount + 8 ∧
    (running.chan 0).releaseWaits = false ∧ (running.chan 0).currentEntry = none ∧
    ((running.modChan 0 fun c => { c with currentEntry := some 0 }).chan 0).currentEntry = some 0 := by
  decide +kernel

/-- Channel 0 reading an accepted packet. -/
def readingIn (st : ChannelState) (p : Port → Port) : State :=
  withChan st fun q => p { q with receiver := .reading packetHead, silence := .running }

/-- The same with a NEWER field of a number. -/
def behind (number : FieldNum) : State :=
  (readingIn .running id).modChan 0 fun c =>
    { c with window := { c.window with newer := some (slotOf number .upper) } }

/-- The packet statements: lines have a right check word and a wrong one. -/
theorem test_packet_checks (lines : List Byte) : crc16 lines = crc16 lines ∧ crc16 lines ≠ crc16 lines + 1 := by
  refine ⟨rfl, fun h => ?_⟩
  have := congrArg BitVec.toNat h
  rw [BitVec.toNat_add, show (1 : BitVec 16).toNat = 1 from rfl] at this
  omega

/-- `PacketCompletionTakesField`: no reference, and references that make field 100 NEXT, GAP at both ends and
DISCONTINUITY at both ends; the bytes of its one line; and other counts of bytes. -/
theorem test_packet_classes :
    ((readingIn .running id).chan 0).state = .running ∧
    ((readingIn .running id).chan 0).port.receiver = .reading packetHead ∧
    ((readingIn .running id).chan 0).window.newer = none ∧
    ((behind 99).chan 0).window.newer = some (slotOf 99 .upper) ∧ packetHead.number.toNat = 99 + 1 ∧
    (98 : FieldNum).toNat + 2 ≤ packetHead.number.toNat ∧ packetHead.number.toNat ≤ (92 : FieldNum).toNat + 8 ∧
    (91 : FieldNum).toNat + 8 < packetHead.number.toNat ∧ packetHead.number.toNat ≤ (100 : FieldNum).toNat ∧
    (slotOf 99 .upper).field.key = packetHead.key ∧ greyLine.length = 1440 * packetHead.lineCount ∧
    ([] : List Byte).length ≠ 1440 * packetHead.lineCount ∧ ([0] : List Byte).length ≠ 2 ∧
    ((readingIn .running id).chan 0).port.faultCount + 8 ≤ 255 := by decide +kernel

/-- `DetachmentPastLimit` at a packet: a damaged field with the fault count at 248. -/
theorem test_detachment_at_packet :
    ((readingIn .running fun p => { p with faultCount := 248 }).chan 0).port.receiver = .reading packetHead ∧
    255 < ((readingIn .running fun p => { p with faultCount := 248 }).chan 0).port.faultCount + 8 ∧
    ((readingIn .running fun p => { p with faultCount := 248 }).chan 0).releaseWaits = false ∧
    greyLine.length = 1440 * packetHead.lineCount := by
  decide +kernel

/-- `LockGainedStartsRunning`, second clause: a field that follows, at count 3, and one that does not. -/
theorem test_lock_run_goes_on :
    ((readingIn .seeking fun p => { p with lockCount := 2, previous := some 99 }).chan 0).port.lockCount + 1 < 4 ∧
    ((readingIn .seeking fun p => { p with lockCount := 3, previous := some 98 }).chan 0).port.previous = some 98 ∧
    packetHead.number.toNat ≠ (98 : FieldNum).toNat + 1 := by decide +kernel

/-- `LockGainedStartsRunning`: the fourth field of a run. -/
theorem test_lock_run :
    ((readingIn .seeking fun p => { p with lockCount := 3, previous := some 99 }).chan 0).port.lockCount = 3 ∧
    ((readingIn .seeking fun p => { p with lockCount := 3, previous := some 99 }).chan 0).port.previous = some 99 ∧
    ((readingIn .seeking fun p => { p with lockCount := 3, previous := some 99 }).chan 0).state = .seeking ∧
    packetHead.number.toNat = (99 : FieldNum).toNat + 1 := by decide +kernel

/-- Channel 0 DETACHED, one clean field short of a rejoin. -/
def nearRejoin : State :=
  (readingIn .detached fun p => { p with rejoinCount := 63, previous := some 99, faultCount := 255 }).modChan 0
    fun c => { c with config := { c.config with autoRejoin := true } }

/-- `AutoRejoinSeeksLock`. -/
theorem test_rejoin_run :
    (nearRejoin.chan 0).state = .detached ∧ (nearRejoin.chan 0).port.receiver = .reading packetHead ∧
    (nearRejoin.chan 0).config.autoRejoin = true ∧ (nearRejoin.chan 0).port.rejoinCount = 63 ∧
    (nearRejoin.chan 0).port.previous = some 99 ∧ (nearRejoin.chan 0).port.faultCount = 255 ∧
    greyLine.length = 1440 * packetHead.lineCount := by decide +kernel

/-- `AutoRejoinSeeksLock`, second clause: the count stays at 64 without auto-rejoin, a field that does not follow makes
it 1, and a damaged field. -/
theorem test_rejoin_without_auto :
    ((readingIn .detached fun p => { p with rejoinCount := 64, previous := some 99 }).chan 0).config.autoRejoin = false ∧
    min 64 (((readingIn .detached fun p => { p with rejoinCount := 64, previous := some 99 }).chan 0).port.rejoinCount + 1)
      = 64 ∧ 1 < 64 ∧ packetHead.number.toNat ≠ (98 : FieldNum).toNat + 1 := by decide +kernel

/-- `SilenceTimeoutReturnsToSeeking`. -/
theorem test_silence :
    (running.chan 0).state = .running ∧ (running.chan 0).port.silence = .running ∧
    (running.chan 0).releaseWaits = false := by decide +kernel

/-! ## Witnesses: window, monitor and claims -/

/-- Channel 0 RUNNING with a field in its arrival slot, and a window. -/
def arriving (cls : FieldClass) : State :=
  withChan .running fun p => { p with silence := .running, slot := some { field := fieldOf 100 .lower, cls := cls } }

/-- `WindowShiftMovesFields`, with a NEXT field and with a GAP. -/
theorem test_shift_due :
    (∀ cls ∈ [FieldClass.next, .gap], ((arriving cls).chan 0).port.slot = some { field := fieldOf 100 .lower, cls := cls }
      ∧ (arriving cls).queued 0 = false ∧ ((arriving cls).chan 0).sequencerClaim = none
      ∧ ((arriving cls).chan 0).state = .running) := by decide +kernel

/-- A field of one grey line. -/
def greyField (number : FieldNum) (parity : Parity) : Field :=
  { number := number, parity := parity, key := 5, damaged := false, slip := false, lines := greyLine }

/-- A grey field in a window slot. -/
def greySlot (number : FieldNum) (parity : Parity) : WindowField :=
  { field := greyField number parity, set := .default Directives.reset }

/-- Channel 0 with a still picture, its monitor as given, and the next field in its arrival slot. -/
def stillWith (m : Monitor) (slip : Bool) : State :=
  (withChan .running fun p =>
    { p with silence := .running, slot := some { field := { greyField 2 .upper with slip := slip }, cls := .next } }).modChan
    0 fun c =>
    { c with
      window := { older := none, current := some (greySlot 0 .upper), newer := some (greySlot 1 .lower) }
      monitor := m }

/-- The record of a field under the default treatment. -/
def recordOf (number : FieldNum) : FieldRecord := { number := number, key := 5, set := .default Directives.reset }

/-- A monitor with a detector. -/
def monitorAt (d : Detector) : Monitor := { Monitor.reset with detector := d }

/-- After reset every entry is FREE. -/
theorem test_base_entries (h : Handle) : base.entry h = Entry.free 0 := by
  simp [base, State.reset, State.resetWith, State.entry, Vector.get_eq_getElem]

/-- `PlainShift`, on a state without entries: no field enters a proposal. -/
theorem test_plain_shift (m : Monitor) (slip : Bool) :
    PlainShift (stillWith m slip) 0 { field := { greyField 2 .upper with slip := slip }, cls := .next } := by
  refine ⟨rfl, rfl, rfl, rfl, fun k hk => absurd hk (Nat.not_lt_zero _), FieldClass.noConfusion, ?_, fun h hp => ?_⟩
  · show levelOf 0 ≠ .degraded
    decide
  · have : (base.entry h).state = .provisional := hp.2.2
    rw [test_base_entries] at this
    exact absurd this (by decide)

/-- `MonitorEventsOfShift`: the observation of the still picture at position 2 is PAIRED and REPEAT, which a FILM32
candidate of alignment 0 expects at 19 matches, a FILM22 candidate never, and which is a miss at FILM32 alignment 1. -/
theorem test_monitor_observation :
    ((stillWith (monitorAt (.candidate .film32 0 19 (recordOf 0))) false).latchedAt 0
      { field := greyField 2 .upper, cls := .next }).window.observation openConfig = some (true, true) ∧
    Film.film32.pairedAt (Film.film32.position 0 2) = true ∧ Film.film32.repeatAt (Film.film32.position 0 2) = true ∧
    Film.film22.repeatAt (Film.film22.position 0 2) = false ∧
    Film.film32.repeatAt (Film.film32.position 1 2) = false ∧
    sameAlignment .film32 0 .film32 5 = true ∧ sameAlignment .film32 0 .film32 6 = false := by decide +kernel

/-- `MonitorEventsOfShift`, the FILM22 lock: a field that follows a black one pairs and does not repeat. -/
theorem test_film22_observation :
    ((stillWith (monitorAt (.candidate .film22 1 15 (recordOf 0))) false).modChan 0 (fun c =>
        { c with window := { c.window with
          current := some { greySlot 0 .upper with field := { greyField 0 .upper with lines := blackLine } } } })
      |>.latchedAt 0 { field := greyField 2 .upper, cls := .next }).window.observation openConfig = some (true, false) ∧
    Film.film22.pairedAt (Film.film22.position 1 2) = true ∧ Film.film22.repeatAt (Film.film22.position 1 2) = false := by
  decide +kernel

/-- `MonitorEventsOfShift`, expiry, break and search: their monitors, at the counts' boundaries. -/
theorem test_monitor_states :
    Monitor.reset.settled ≠ .video ∧ { Monitor.reset with unlockedRun := 59 }.detector = .searching ∧
    { monitorAt (.candidate .film32 0 18 (recordOf 0)) with unlockedRun := 59 }.unlockedRun = 59 ∧
    (monitorAt (.locked .film32 1 1 (some (recordOf 1)))).detector = .locked .film32 1 1 (some (recordOf 1)) ∧
    Monitor.reset.history.length ≤ 10 ∧ { Monitor.reset with unlockedRun := 58 }.unlockedRun < 59 := by decide

/-- A monitor one matching field before a FILM32 lock at alignment 0, in a settled state, with a break pending. -/
def beforeLock (settled : Settled) : Monitor :=
  { monitorAt (.candidate .film32 0 19 (recordOf 0)) with
    settled := settled, pending := some { breakField := recordOf 1, settled := settled } }

/-- Channel 0 after the lock. -/
def afterLock (settled : Settled) : Chan := ((stillWith (beforeLock settled) false).shiftWith 0 .lock).chan 0

/-- The lock from VIDEO claims from the candidate's start, the one from another film from the break, each with the phase
of its start field; one that keeps the settled state, or changes it from none, claims nothing (R105 to R107). -/
theorem test_lock_claims :
    (afterLock .video).proposalClaim = some
      { key := 5, start := 0, basis := none,
        directives := { Directives.reset with cadence := .film32, phase := some 0 } } ∧
    (afterLock (.film .film22 1)).proposalClaim = some
      { key := 5, start := 1, basis := none,
        directives := { Directives.reset with cadence := .film32, phase := some 1 } } ∧
    (afterLock (.film .film32 5)).proposalClaim = none ∧ (afterLock .none).proposalClaim = none := by decide +kernel

/-- Channel 0 at an unlocked run of 59 with a break of a film pending, and a claim that waits. -/
def beforeExpiry : State :=
  (stillWith { Monitor.reset with
    unlockedRun := 59, settled := .film .film22 0
    pending := some { breakField := recordOf 1, settled := .film .film22 0 } } false).modChan 0 fun c =>
    { c with proposalClaim := some { key := 5, start := 9, basis := none, directives := Directives.reset } }

/-- The expiry claims VIDEO from the break, and the claim that waited is counted as abandoned (R38, R105, R107). -/
theorem test_expiry_claims :
    ((beforeExpiry.shiftWith 0 .expiry).chan 0).proposalClaim = some
      { key := 5, start := 1, basis := none,
        directives := { Directives.reset with cadence := .video, phase := none } } ∧
    ((beforeExpiry.shiftWith 0 .expiry).chan 0).monitorCounters.abandoned = 1 ∧
    ((beforeExpiry.shiftWith 0 .expiry).chan 0).monitorCounters.disagreements = 0 := by decide +kernel

/-- `SettledChange`: start fields left to the monitor, and fixed by the station. -/
theorem test_left_to_monitor :
    LeftToMonitor (recordOf 0).set ∧ LeftToMonitor (.entry 0 1 .provisional 10 { Directives.reset with cadence := .video }) ∧
    ¬LeftToMonitor (.entry 0 1 .active 10 { Directives.reset with cadence := .video }) := by
  refine ⟨.inr rfl, .inl ⟨_, _, _, _, rfl⟩, ?_⟩
  rintro (⟨_, _, _, _, h⟩ | h)
  · exact nomatch h
  · exact absurd h (by decide)

/-- `Disagrees`: a fixed film with its first field 13 at phase 2, so at alignment 9, against VIDEO, against FILM32 at
alignment 8, and not against alignment 4, which is the same as 9; and an AUTO entry never. -/
theorem test_disagreements (settled : Settled) :
    Disagrees (.entry 0 1 .active 13 { Directives.reset with cadence := .film32, phase := some 2 }) .video ∧
    Disagrees (.entry 0 1 .active 13 { Directives.reset with cadence := .film32, phase := some 2 }) (.film .film32 8) ∧
    ¬Disagrees (.entry 0 1 .active 13 { Directives.reset with cadence := .film32, phase := some 2 }) (.film .film32 4) ∧
    ¬Disagrees (.entry 0 1 .active 13 Directives.reset) settled := by
  refine ⟨⟨_, _, _, _, rfl, .inr ⟨.film32, rfl, .inl rfl⟩⟩,
    ⟨_, _, _, _, rfl, .inr ⟨.film32, rfl, .inr ⟨_, _, rfl, .inr ⟨2, 9, rfl, by decide, by decide, by decide⟩⟩⟩⟩, ?_, ?_⟩
  · rintro ⟨h, g, first, d, e, ⟨hc, _⟩ | ⟨fixed, hf, hv | ⟨mode, align, hs, hm | ⟨phase, e', hp, hl, ha, hn⟩⟩⟩⟩ <;> cases e
    · exact absurd hc (by decide)
    · exact absurd hv (by decide)
    · cases hs; cases hf; exact hm rfl
    · cases hs; cases hf; cases hp
      have h5 : (e' + 13) % 10 = 2 := ha
      have : e' % 5 = 4 := by omega
      simp [sameAlignment, this] at hn
  · rintro ⟨h, g, first, d, e, ⟨hc, _⟩ | ⟨fixed, hf, _⟩⟩ <;> cases e
    · exact absurd hc (by decide)
    · exact absurd hf (by simp [Directives.reset, Cadence.film])

/-- `MonitorEventsOfShift`, no claim: a shift while DEGRADED, one of a DISCONTINUITY, and a plain one that leaves the
settled state. -/
theorem test_nothing_claimed :
    (((stillWith Monitor.reset false).modPort 0 fun p => { p with faultCount := 255 }).chan 0).level = .degraded ∧
    (({ field := greyField 2 .upper, cls := .discontinuity } : Arrived).cls = .discontinuity) ∧
    (((stillWith Monitor.reset false).shiftWith 0 .nothing).chan 0).monitor.settled =
      ((stillWith Monitor.reset false).chan 0).monitor.settled := by decide +kernel

/-- A line whose luma is `y` throughout. -/
def flatLine (y : Byte) : List Byte := (List.replicate 720 [128, y]).flatten

/-- A field of two flat lines. -/
def flatField (parity : Parity) (upper lower : Byte) : WindowField :=
  { field := { greyField 2 parity with lines := flatLine upper ++ flatLine lower }, set := .default Directives.reset }

/-- `MonitorEventsOfShift`, the measures: two lines, no mask. The UPPER lines 10 and 20 lie above and below the LOWER
line 14 and above 26: the differences from the means are 4, 0 for UPPER (14; 14 and 26), 1 and 6 for LOWER (10 and 20;
20), so four times their means are 8 and 14; line for line they are 4 and 6, so 20 (hand calculation from R94). -/
theorem test_measures :
    pairedMeasure (flatField .upper 10 20).field (flatField .lower 14 26).field none = 8 ∧
    pairedMeasure (flatField .lower 14 26).field (flatField .upper 10 20).field none = 14 ∧
    pairedMeasure (flatField .upper 14 26).field (flatField .upper 10 20).field none = 20 ∧
    repeatMeasure (flatField .upper 14 26).field (flatField .upper 10 20).field none = 20 := by decide +kernel

/-- The same, the hypotheses: lengths, a mask of one line of the two, and both parities; a damaged field and an absent
one. -/
theorem test_measured_windows :
    (flatField .upper 10 20).field.lines.length = 1440 * 2 ∧ (flatField .lower 14 26).field.lines.length = 1440 * 2 ∧
    (flatField .upper 10 20).set.directives.mask = none ∧ 0 + 0 < 2 ∧
    ({ Directives.reset with mask := some { top := 1, bottom := 0 } } : Directives).mask = some { top := 1, bottom := 0 } ∧
    (1 : Fin 16).val + (0 : Fin 16).val < 2 ∧ (flatField .upper 10 20).field.parity = .upper ∧
    (flatField .lower 14 26).field.parity = .lower ∧ { fieldOf 1 .upper with damaged := true }.damaged = true ∧
    Window.empty.older = none := by decide +kernel

/-- Ten observations of FILM32 from position 0, fields 0 to 9. -/
def film32History : List Observation :=
  (List.range 10).map fun k =>
    { record := recordOf (BitVec.ofNat 24 k), paired := Film.film32.pairedAt k, rep := Film.film32.repeatAt k }

/-- Eight observations of FILM22 from position 0, fields 0 to 7. -/
def film22History : List Observation :=
  (List.range 8).map fun k =>
    { record := recordOf (BitVec.ofNat 24 k), paired := Film.film22.pairedAt (k % 2), rep := false }

/-- `MonitorEventsOfShift`, the searches: FILM32 with its repeats at fields 2 and 7, and FILM22 with its first PAIRED
field 1. -/
theorem test_searches :
    film32History.length = 1 + 9 ∧
    (film32History.filter fun o => o.rep).map (fun o => o.record.number.toNat) = [2, 2 + 5] ∧
    (0 + 2) % 10 = 2 ∧ (∀ o ∈ film32History, o.paired = Film.film32.pairedAt ((0 + o.record.number.toNat) % 10) ∧
      o.rep = Film.film32.repeatAt ((0 + o.record.number.toNat) % 10)) ∧
    film22History.length = 1 + 7 ∧ (∀ o ∈ film22History, o.rep = false) ∧
    film22History.map Observation.paired = [false, true, false, true, false, true, false, true] ∧
    (1 + 1) % 2 = 0 ∧ (0 + 1) % 2 = 1 := by decide

/-- Entry 0 ACTIVE, all else FREE. -/
def withA : State := base.setEntry 0 entryA

/-- Entry 0 ACTIVE and entry 1 PROVISIONAL after it; channel 0 has a reserve of 2. -/
def withAP : State := (withA.setEntry 1 entryP).modChan 0 fun c => { c with config := { c.config with quota := 2 } }

theorem test_withA_entries (h : Handle) : withA.entry h = if 0 = h then entryA else Entry.free 0 := by
  rw [withA, entry_setEntry, test_base_entries]

theorem test_withAP_entries (h : Handle) :
    withAP.entry h = if 1 = h then entryP else if 0 = h then entryA else Entry.free 0 := by
  rw [withAP, entry_modChan_frame, entry_setEntry, test_withA_entries]

/-- `WindowShiftMovesFields`, the render request: channel 0 claimed by lane 0 as its source, and as the target of its
head cue alone; a shift of a NEXT field with a field in NEWER makes that one CURRENT. -/
theorem test_shift_renders (m : Monitor) :
    ((stillWith m false).chan 0).window.newer = some (greySlot 1 .lower) ∧
    ({ stillWith m false with claims := onAir.claims, lanes := onAir.lanes }.lane 0).source = some 0 ∧
    ({ stillWith m false with claims := onAir.claims, lanes := onAir.lanes }).claims.get 0 = some 0 ∧
    ((onAir.modLane 0 fun x => { x with
      source := none, cues := [{ number := 0, target := some 0, trigger := .nextTick }] }).lane 0).cues.head?.map
        Cue.target = some (some 0) := by
  refine ⟨rfl, rfl, rfl, ?_⟩
  decide +kernel

/-- `WindowShiftMovesFields`, the seeding: a field that enters entry 1, a proposal, with the port not DEGRADED. -/
theorem test_shift_enters_proposal :
    EntersProposal withAP 0 { field := fieldOf 250 .upper, cls := .start } 1 ∧ (withAP.chan 0).level ≠ .degraded := by
  refine ⟨⟨?_, ?_, ?_⟩, ?_⟩ <;> decide +kernel

/-- `RecipeIs`: a field of a film pair woven with NEWER, the same doubled for a slip, and a repaired one. -/
theorem test_recipes :
    RecipeIs { older := none, current := some (greySlot 0 .upper), newer := some (greySlot 1 .lower) } (greySlot 0 .upper)
      (.film .film22 0) { kind := .weave, primary := .current, others := [.newer] } ∧
    Clean (some (greySlot 1 .lower)) ∧ Sound (some (greySlot 1 .lower)) ∧ ¬Sound none := by
  have clean : Clean (some (greySlot 1 .lower)) := ⟨_, rfl, rfl, rfl⟩
  refine ⟨⟨fun h => absurd h (by decide), ?_, fun _ h => nomatch h⟩, clean, ⟨_, rfl, rfl⟩, fun ⟨_, h, _⟩ => nomatch h⟩
  intro mode pos _ h
  cases h
  exact ⟨fun _ => ⟨fun _ => rfl, fun h => absurd ⟨rfl, clean⟩ h⟩, fun h => absurd (.inl ⟨rfl, rfl⟩) h⟩

/-- Channel 0 with a lookup that waits. -/
def lookingUp (s : State) (number : FieldNum) : State :=
  s.modChan 0 fun c =>
    { c with state := .running, sequencerClaim := some (.lookup { field := fieldOf number .upper, cls := .start }) }

/-- `LookupAnswersCoveringEntry`: a covered field at an end of the span, and an uncovered one. -/
theorem test_lookup :
    ((lookingUp withA 10).chan 0).sequencerClaim = some (.lookup { field := fieldOf 10 .upper, cls := .start }) ∧
    ((lookingUp withA 10).chan 0).state = .running ∧
    (lookingUp withA 10).covering 5 10 = some 0 ∧ ((lookingUp withA 10).chan 0).currentEntry ≠ some 0 ∧
    (lookingUp withA 9).covering 5 9 = none := by decide +kernel

/-- Channel 0 under entry 0 with a generation latched, and a lookup of a covered field that waits. -/
def underA (gen : Gen) : State :=
  (lookingUp withA 10).modChan 0 fun c =>
    { c with currentEntry := some 0, latchedGen := some gen, lastSet := some (entryA.latchedSet 0) }

/-- `LookupAnswersCoveringEntry` under the same entry: the generation unchanged, and changed, for a field of parity
UPPER under UPPER_FIRST and under LOWER_FIRST. -/
theorem test_lookup_again :
    (underA 3).covering 5 10 = some 0 ∧ ((underA 3).chan 0).currentEntry = some 0 ∧
    ((underA 3).chan 0).lastSet = some (entryA.latchedSet 0) ∧ ((underA 3).chan 0).relatch = false ∧
    ((underA 3).chan 0).latchedGen = some ((underA 3).entry 0).gen ∧
    ((underA 2).chan 0).latchedGen ≠ some ((underA 2).entry 0).gen ∧
    (fieldOf 10 .upper).parity = .upper ∧ (entryA.latchedSet 0).directives.dominance = .upperFirst ∧
    ({ entryA with directives := { Directives.reset with dominance := .lowerFirst } }.latchedSet
      0).directives.dominance ≠ .upperFirst := by decide +kernel

/-- A lookup waits at channel 0 and a release at channel 1, and proposal claims at channels 0 and 1. -/
def claimsWait : State :=
  ((lookingUp withA 10).modChan 0 fun c =>
      { c with proposalClaim := some { key := 5, start := 15, basis := none, directives := Directives.reset } }).modChan 1
    fun c =>
    { c with
      currentEntry := some 0, sequencerClaim := some (.release true)
      proposalClaim := some { key := 5, start := 16, basis := none, directives := Directives.reset } }

/-- `LookupAnswersCoveringEntry`, the order: the lookup of channel 0 is the first of the sequencer claims before a table
request, before a proposal claim of its own channel and before the release of channel 1; the release is the first where
the lookup is gone; and the proposal claim of channel 0 the first where no sequencer claim waits. -/
theorem test_claims_order :
    (∃ a : Arrived, (claimsWait.chan 0).sequencerClaim = some (.lookup a)) ∧
    (∃ u : State, exec (.lookup 0) claimsWait = .next u) ∧
    (∀ m : Channel, m < 0 → (claimsWait.chan m).sequencerClaim = none) ∧ tableRequest (.entryFind 5 10) = true ∧
    (asks claimsWait (.entryFind 5 10)).Waits (.entryFind 5 10) ∧ (claimsWait.chan 0).proposalClaim ≠ none ∧
    (0 : Channel) < 1 ∧ (claimsWait.chan 1).sequencerClaim = some (.release true) ∧
    (∀ m : Channel, m < 1 → ((claimsWait.modChan 0 fun c => { c with sequencerClaim := none }).chan m).sequencerClaim
      = none) ∧
    (∀ k : Channel, (((claimsWait.modChan 0 fun c => { c with sequencerClaim := none }).modChan 1 fun c =>
      { c with sequencerClaim := none }).chan k).sequencerClaim = none) ∧ (claimsWait.chan 1).proposalClaim ≠ none :=
  ⟨⟨_, rfl⟩, ⟨_, rfl⟩, by decide +kernel, rfl, rfl, by decide +kernel, by decide, rfl, by decide +kernel,
    by decide +kernel, by decide +kernel⟩

/-- The lookup that waits is taken before the retirement of its entry, so the entry has a user and becomes RETIRING
(R38, R39). -/
theorem test_request_after_lookup :
    (((asks (lookingUp withA 10) (.entryRetire 0 3)).serveTable (.entryRetire 0 3) fun s =>
      s.takeEntryRetire 0 3).entry 0).state = .retiring := by decide +kernel

/-- Channel 1 with a release that waits, under entry 0. -/
def leaving (st : ChannelState) (resetsMonitor : Bool) : State :=
  withA.modChan 1 fun c =>
    { c with state := st, currentEntry := some 0, sequencerClaim := some (.release resetsMonitor) }

/-- `ReleaseLowersUseCount`: to SEEKING, and to HALTING, with no claim of channel 0 before it. -/
theorem test_release :
    ((leaving .seeking true).chan 1).sequencerClaim = some (.release true) ∧
    ((leaving .seeking true).chan 0).sequencerClaim = none ∧ ((leaving .seeking true).chan 1).currentEntry = some 0 ∧
    ((leaving .halting false).chan 1).state = .halting := by decide +kernel

/-- `Answered`, `ReleaseLowersUseCount`, the attention unit: an entry left that is RETIRING with one user hands the shared
free over, one with two users or an ACTIVE one does not. -/
theorem test_entry_left :
    (∀ u ∈ [1, 2], ((((leaving .seeking true).setEntry 0 { entryA with state := .retiring, useCount := u }).entry
      0).state = .retiring)) ∧ ((leaving .seeking true).entry 0).state ≠ .retiring ∧
    (((leaving .seeking true).setEntry 0 { entryA with state := .retiring, useCount := 1 }).takeRelease 1
      true).attn.lastSharedFree = 1024 ∧
    ((((leaving .seeking true).setEntry 0 { entryA with state := .retiring, useCount := 2 }).modAttn fun a =>
      { a with lastSharedFree := 7 }).takeRelease 1 true).attn.lastSharedFree = 7 := by decide +kernel

/-- A proposal claim at field 150 of entry 0. -/
def claimAt (start : FieldNum) : ProposalClaim :=
  { key := 5, start := start, basis := some (0, 3), directives := Directives.reset }

/-- Channel 0 with a proposal claim that waits. -/
def proposing (quota : Nat) (p : ProposalClaim) : State :=
  withA.modChan 0 fun c => { c with config := { c.config with quota := quota }, proposalClaim := some p }

/-- `ProposalClaimSplitsOrRefused`: accepted at both ends of the span with handle 1 the lowest FREE one, suppressed
without reserve, and abandoned for another generation. -/
theorem test_proposal_claims :
    (∀ m : Channel, ((proposing 1 (claimAt 11)).chan m).sequencerClaim = none) ∧
    ((proposing 1 (claimAt 11)).chan 0).proposalClaim = some (claimAt 11) ∧
    entryA.live = true ∧ entryA.key = 5 ∧ entryA.gen = 3 ∧ entryA.first.toNat < (11 : FieldNum).toNat ∧
    (200 : FieldNum).toNat ≤ entryA.last.toNat ∧
    (proposing 1 (claimAt 11)).reserveHeld 0 < (proposing 1 (claimAt 11)).quota 0 ∧
    (proposing 0 (claimAt 11)).quota 0 ≤ (proposing 0 (claimAt 11)).reserveHeld 0 ∧
    ((proposing 1 (claimAt 11)).entry 1).state = .free ∧ ((proposing 1 (claimAt 11)).entry 0).state ≠ .free ∧
    entryA.gen ≠ 4 := by decide +kernel

/-- `ProposalClaimSplitsOrRefused`, abandoned at the basis' first field and above its last, with handle and generation as
they were; and without a basis: a start field that entry 0 covers, and one it does not with the reserve full. -/
theorem test_proposal_bounds :
    (claimAt 10).start.toNat ≤ entryA.first.toNat ∧ entryA.last.toNat < (claimAt 201).start.toNat ∧
    ((proposing 1 { claimAt 10 with basis := none }).chan 0).proposalClaim = some { claimAt 10 with basis := none } ∧
    ((proposing 1 { claimAt 10 with basis := none }).entry 0).covers 10 = true ∧
    ((proposing 0 { claimAt 9 with basis := none }).entry 0).covers 9 = false ∧
    (proposing 0 { claimAt 9 with basis := none }).quota 0 ≤ (proposing 0 { claimAt 9 with basis := none }).reserveHeld 0 := by
  decide +kernel

/-- `ProposalClaimSplitsOrRefused` without a basis: the gap below entry 0, and the gap above it to the last field. -/
theorem test_proposal_gaps (h : Handle) :
    (withA.entry h).live = true → (8 : FieldNum).toNat ≤ 9 ∧ (9 : FieldNum).toNat < (withA.entry h).first.toNat ∧
      (withA.entry h).first.toNat = (9 : FieldNum).toNat + 1 ∧
      (withA.entry h).first.toNat ≤ (201 : FieldNum).toNat ∧ (withA.entry h).last.toNat < (201 : FieldNum).toNat ∧
      (BitVec.allOnes 24).toNat = 16777215 := by
  rw [test_withA_entries]
  by_cases e : 0 = h
  · subst e; decide
  · rw [if_neg e]; intro hl; exact absurd hl (by decide)

/-! ## Witnesses: requests on the table -/

/-- A request waits at its owner. -/
theorem test_asks (s : State) (r : Instr) : (asks s r).Waits r := rfl

/-- No claim waits after reset. -/
theorem test_no_claims : base.NoClaims ∧ withA.NoClaims ∧ withAP.NoClaims :=
  ⟨by unfold State.NoClaims; decide +kernel, by unfold State.NoClaims; decide +kernel,
    by unfold State.NoClaims; decide +kernel⟩

/-- `EntryAddAcceptsOrRefuses`, accepted beside entry 0 and refused over it. -/
theorem test_entry_add_spans (h : Handle) :
    (withA.entry h).live = true → (withA.entry h).key = 5 →
      ((9 : FieldNum).toNat < (withA.entry h).first.toNat ∨ (withA.entry h).last.toNat < (0 : FieldNum).toNat) ∧
      (withA.entry h).first.toNat ≤ (10 : FieldNum).toNat ∧ (0 : FieldNum).toNat ≤ (withA.entry h).last.toNat ∧
      h = 0 := by
  rw [test_withA_entries]
  by_cases e : 0 = h
  · subst e; decide
  · rw [if_neg e]; intro hl; exact absurd hl (by decide)

/-- The same: the directives are well formed, there is shared free, the lowest FREE handle is 1; and a table of which
the whole is set aside has none. -/
theorem test_entry_add_room :
    decodeDirectives 0 = some Directives.reset ∧ withA.sharedFree = 1023 ∧ (withA.entry 1).state = .free ∧
    (withA.entry 0).state = .active ∧
    (base.modChan 0 fun c => { c with config := { c.config with quota := 1024 } }).sharedFree = 0 := by
  decide +kernel

/-- `EntryAmendRaisesGeneration`, `EntryRetireFreesOrRetires`: entry 0 named with its generation. -/
theorem test_entry_named :
    (0 : BitVec 16).toNat = (0 : Handle).val ∧ (withA.entry 0).live = true ∧ (withA.entry 0).gen = 3 ∧
    (withA.entry 0).useCount = 0 ∧ ((withA.setEntry 0 { entryA with useCount := 2 }).entry 0).useCount ≠ 0 := by
  decide +kernel

/-- `EntryAmendRaisesGeneration`, `EntryRetireFreesOrRetires`, refused: a handle of none, a FREE entry, and entry 0, named
with its generation, amended with reserved directives, a reversed span, and a span over entry 1, the one entry of its key
besides. -/
theorem test_entry_named_refusals :
    1023 < (1024 : BitVec 16).toNat ∧ (withAP.entry 2).live = false ∧ decodeDirectives (BitVec.allOnes 24) = none ∧
    (9 : FieldNum).toNat < (10 : FieldNum).toNat ∧ (withAP.entry 1).live = true ∧
    (withAP.entry 1).key = (withAP.entry 0).key ∧ (withAP.entry 1).first.toNat ≤ (201 : FieldNum).toNat ∧
    (10 : FieldNum).toNat ≤ (withAP.entry 1).last.toNat ∧ (1 : Handle) ≠ 0 := by decide +kernel

/-- Entry 1 is the only other entry that stands in an index. -/
theorem test_other_entries (i : Handle) : i ≠ 0 → i ≠ 1 → (withAP.entry i).live = false := by
  intro h0 h1
  rw [test_withAP_entries, if_neg (Ne.symm h1), if_neg (Ne.symm h0)]
  decide

/-- `EntryFindReportsCovering`, `EntryNextReportsFollowing`: entry 0 covers 200 and follows 9; nothing covers 201. -/
theorem test_entry_found (h : Handle) : (withA.entry h).live = true → h = 0 ∧
    (withA.entry h).first.toNat ≤ (200 : FieldNum).toNat ∧ (200 : FieldNum).toNat ≤ (withA.entry h).last.toNat ∧
    (9 : FieldNum).toNat < (withA.entry h).first.toNat ∧ (withA.entry h).last.toNat < (201 : FieldNum).toNat ∧
    (withA.entry h).first.toNat ≤ (10 : FieldNum).toNat := by
  rw [test_withA_entries]
  by_cases e : 0 = h
  · subst e; decide
  · rw [if_neg e]; intro hl; exact absurd hl (by decide)

/-- `ReadsReportWithoutChange`: a FREE entry, an ACTIVE one, and a handle out of range. -/
theorem test_entry_reads :
    (withA.entry 1).state = .free ∧ (withA.entry 0).state ≠ .free ∧ 1023 < (1024 : BitVec 16).toNat := by
  decide +kernel

/-- `ProposalConfirmMakesActive`, `ProposalRejectMergesBack`, `StaleGenerationRefused`: entry 1 is a proposal whose
parent, entry 0, stands as recorded and adjoins it. -/
theorem test_proposal_named :
    (1 : BitVec 16).toNat = (1 : Handle).val ∧ (withAP.entry 1).state = .provisional ∧ (withAP.entry 1).gen = 1 ∧
    (withAP.entry 1).useCount = 0 ∧ (withAP.entry 1).parent = some (0, 3) ∧ (withAP.entry 0).live = true ∧
    (withAP.entry 0).key = (withAP.entry 1).key ∧ (withAP.entry 0).gen = 3 ∧
    (withAP.entry 0).last.toNat + 1 = (withAP.entry 1).first.toNat ∧ 1 ≤ withAP.sharedFree ∧
    (withAP.entry 1).gen ≠ 2 ∧
    ((withAP.setEntry 1 { entryP with parent := none }).entry 1).parent = none ∧
    (withAP.modChan 1 fun c => { c with config := { c.config with quota := 1021 } }).sharedFree = 0 := by
  decide +kernel

/-- `ProposalConfirmMakesActive`, `ProposalRejectMergesBack`, refused: entry 0 is no proposal, and no entry has handle
1024. -/
theorem test_proposal_refusals : (withAP.entry 0).state ≠ .provisional ∧ 1023 < (1024 : BitVec 16).toNat := by
  decide +kernel

/-- `ProposalRejectMergesBack` with users, and with a parent that has moved on: amended, of another key, withdrawn, or
no longer adjoining. -/
theorem test_reject_other_cases :
    ((withAP.setEntry 1 { entryP with useCount := 2 }).entry 1).useCount ≠ 0 ∧
    ((withAP.setEntry 0 { entryA with gen := 4 }).entry 0).gen ≠ 3 ∧
    ((withAP.setEntry 0 { entryA with key := 6 }).entry 0).key ≠ entryP.key ∧
    ((withAP.setEntry 0 { entryA with state := .retiring }).entry 0).live = false ∧
    ((withAP.setEntry 0 { entryA with last := 199 }).entry 0).last.toNat + 1 ≠ entryP.first.toNat := by decide +kernel

/-! ## Witnesses: channels and the snapshot store -/

/-- A configuration body with the values of the pin reset. -/
def plainBody : ConfigBody :=
  { flags := 1, quota := 0, repeatThreshold := 64, pairedThreshold := 256, directives := 0,
    matcher0 := { flags := 0, code := 0, mask := 0, aliasKey := 0 },
    matcher1 := { flags := 0, code := 0, mask := 0, aliasKey := 0 },
    matcher2 := { flags := 0, code := 0, mask := 0, aliasKey := 0 },
    matcher3 := { flags := 0, code := 0, mask := 0, aliasKey := 0 } }

/-- `ChannelSetReplacesRecords`: accepted on channels 0 and 7 with the largest quota, and refused on a RUNNING one. -/
theorem test_channel_set :
    (∀ n : Channel, (0x81 : Byte).getLsbD n.val = true → (base.chan n).state = .halted) ∧
    decodeConfig { plainBody with quota := 32 } = some { ChannelConfig.reset with quota := 32 } ∧
    (∀ n : Channel, base.claims.get n = none) ∧
    (∀ n : Channel, base.reserveHeld n ≤ 32) ∧
    (allChannels.map fun n => (if (0x81 : Byte).getLsbD n.val then 32 else base.quota n) - base.reserveHeld n).sum
      ≤ base.freeCount ∧
    (0x01 : Byte).getLsbD (0 : Channel).val = true ∧ (running.chan 0).state ≠ .halted := by decide +kernel

/-- `ChannelSetReplacesRecords`, the other refusals: a standard of 0, a claiming lane of another rate, a quota below the
reserve held, and quotas that the FREE entries do not reach. -/
theorem test_channel_set_refusals :
    decodeConfig { plainBody with flags := 0 } = none ∧
    decodeConfig { plainBody with flags := 2 } = some { ChannelConfig.reset with standard := .std525 } ∧
    ({ base with claims := setAt base.claims 0 (some 3) }).claims.get 0 = some 3 ∧
    (base.lane 3).config.rate ≠ Standard.std525.rate ∧ 0 < withAP.reserveHeld 0 ∧ (withAP.chan 0).state = .halted ∧
    base.freeCount < (allChannels.map fun n =>
      (if (0x01 : Byte).getLsbD n.val then 32 else
        (base.modChan 1 fun c => { c with config := { c.config with quota := 1020 } }).quota n)
        - base.reserveHeld n).sum := by decide +kernel

/-- `ChannelStartSeeksLock`: HALTED channels and a DETACHED one at 64 may start, at 63 not. -/
theorem test_channel_start :
    (∀ n : Channel, (0x81 : Byte).getLsbD n.val = true → (base.chan n).state = .halted) ∧
    (∀ k ∈ [63, 64], ((withChan .detached fun p => { p with rejoinCount := k }).chan 0).port.rejoinCount = k
      ∧ ((withChan .detached fun p => { p with rejoinCount := k }).chan 0).state = .detached) := by decide +kernel

/-- Channel 0 DETACHED with its rejoin run complete, its condition holding and its PORT latch marked. -/
def mayRejoin : State :=
  (withChan .detached fun p => { p with rejoinCount := 64, faultCount := 255 }).modAttn fun a =>
    { a.beginDetached 0 with portMode := .level, port := setAt a.port 0 { PortLatch.clear with detached := true, mark := true } }

/-- `ChannelStartSeeksLock`, `ChannelHaltCompletesOrWaits`, the attention unit: the end of the condition takes the marked
channel out of the latch, and the start latches the level change after it (R178, R179). -/
theorem test_condition_ends :
    (mayRejoin.chan 0).level ≠ .normal ∧ (base.chan 0).level = .normal ∧
    (mayRejoin.startChannel 0).attn.detachedCond.get 0 = false ∧
    (mayRejoin.startChannel 0).attn.port.get 0 = { PortLatch.clear with levelChange := true } ∧
    (mayRejoin.haltChannel 0).attn.detachedCond.get 0 = false ∧
    (mayRejoin.haltChannel 0).attn.port.get 0 = PortLatch.clear := by decide +kernel

/-- A DETACHED channel whose release still waits, started: its window is empty at once, its current entry and its release
stand (log 44). -/
theorem test_start_before_release :
    (((leaving .detached true).startChannel 1).chan 1).window = Window.empty ∧
    (((leaving .detached true).startChannel 1).chan 1).currentEntry = some 0 ∧
    (((leaving .detached true).startChannel 1).chan 1).releaseWaits = true := by decide +kernel

/-- `ChannelHaltCompletesOrWaits`: a RUNNING channel without a job, with one, and with a current entry and no job. -/
theorem test_channel_halt :
    running.inFlight 0 = false ∧ (running.chan 0).currentEntry = none ∧ (running.chan 0).releaseWaits = false ∧
    (running.chan 0).state ≠ .halting ∧ (running.setEngine 2 (some (jobOn 0 .program 2))).inFlight 0 = true ∧
    ((running.modChan 0 fun c => { c with currentEntry := some 4 }).chan 0).currentEntry = some 4 ∧
    ((running.modChan 0 fun c => { c with currentEntry := some 4 }).chan 0).releaseWaits = false := by decide +kernel

/-- A CHANNEL_HALT of one channel waits. -/
def halting (s : State) (mask : Byte) : State := s.modLink fun k => { k with flight := .carried (.channelHalt mask) }

/-- The result of a CHANNEL_HALT. -/
def halted (mask : Byte) : Flight := .handedBack (.channelHalt mask) { code := .done, bytes := [] }

/-- `HaltAnswered`: the CHANNEL_HALT that waits completes at the release, at the completion and at the cancellation of the
last job, and at the tick that cancels it; and it goes on waiting while another of its channels is not HALTED. -/
theorem test_halt_completes :
    ((halting (leaving .halting false) 2).takeRelease 1 false).link.flight = halted 2 ∧
    ((halting ((withChan .halting id).setEngine 0 (some (jobOn 0 .program 2))) 1).completeJob 0).link.flight = halted 1 ∧
    ((halting ((withChan .halting id).setEngine 0 (some (jobOn 0 .program 2))) 1).takeCancelOrder 0).link.flight
      = halted 1 ∧
    ((halting ((withChan .halting id).setEngine 0 (some (jobOn 0 .program 1))) 1).tick 0).link.flight = halted 1 ∧
    ((halting ((leaving .halting false).modChan 0 fun c => { c with state := .running }) 3).takeRelease 1 false).link.flight
      = .carried (.channelHalt 3) := by decide +kernel

/-- `TickFrame`: a SYNC_SNAPSHOT that waits on lane 0 completes at a tick of it, IDLE or not, and not at a tick of lane 1. -/
theorem test_snapshot_at_tick :
    ((({ base with store := { snapshot := none, waiting := some (1, 0) } }.modLink fun k =>
      { k with flight := .carried (.syncSnapshot 1 0) }).tick 0).link.flight
        = .handedBack (.syncSnapshot 1 0) { code := .done, bytes := [] }) ∧
    ((({ base with store := { snapshot := none, waiting := some (1, 0) } }.modLink fun k =>
      { k with flight := .carried (.syncSnapshot 1 0) }).tick 1).link.flight = .carried (.syncSnapshot 1 0)) ∧
    (({ onAir with store := { snapshot := none, waiting := some (1, 0) } }.modLink fun k =>
      { k with flight := .carried (.syncSnapshot 1 0) }).tick 1).store = { snapshot := none, waiting := some (1, 0) } := by
  decide +kernel

/-- `CounterReadsReportAndClear`: a channel and a lane named, and numbers beyond. -/
theorem test_read_numbers :
    (7 : Byte).toNat = (7 : Channel).val ∧ 7 < (8 : Byte).toNat ∧ (3 : Byte).toNat = (3 : LaneId).val ∧
    3 < (4 : Byte).toNat := by decide

/-- A snapshot of lane 0 with channel 0 alone. -/
def aSnapshot : Snapshot := { lane := 0, items := [{ channel := 0, state := .halted, position := none }] }

/-- `SyncSnapshotWaitsAndRecords`, `SyncReadEmptiesStore`: an IDLE lane, a lane on the air with the store empty and
full, and a request that waits. -/
theorem test_snapshot_store :
    (base.lane 0).state = .idle ∧ (onAir.lane 0).state ≠ .idle ∧ onAir.store.snapshot = none ∧
    { onAir with store := { snapshot := some aSnapshot, waiting := none } }.store.snapshot ≠ none ∧
    ({ onAir with store := { snapshot := none, waiting := some (1, 0) } }.modLink fun k =>
      { k with flight := .carried (.syncSnapshot 1 0) }).link.flight = .carried (.syncSnapshot 1 0) ∧
    { base with unitReset := some ResetProgress.start }.unitReset = some ResetProgress.start ∧
    ResetProgress.start.store = false := by decide +kernel

/-! ## Witnesses: Profile Bank and pool -/

/-- `ProfileRequests`: a profile named, one beyond, and a record out of range. -/
theorem test_profiles :
    (15 : Byte).toNat = (15 : ProfileIdx).val ∧ 15 < (16 : Byte).toNat ∧ decodeProfile 0x120000108080 = some Profile.reset ∧
    decodeProfile 0xC00000000000 = none := by decide +kernel

/-- A queue of two requests with engine 0 BUSY. -/
def queued : State :=
  { base.setEngine 0 (some (jobOn 2 .program 1)) with queue := [requestOf 1 .armed 2, requestOf 0 .program 2] }

/-- `JobStartTakesChosenRequest`: engine 1 is the lowest IDLE one and the PROGRAM request goes first. -/
theorem test_job_start :
    queued.engines.get 1 = none ∧ (∀ f : EngineId, f < 1 → queued.engines.get f ≠ none) ∧
    requestOf 0 .program 2 ∈ queued.queue ∧
    (∀ q ∈ queued.queue, q ≠ requestOf 0 .program 2 → Sooner (requestOf 0 .program 2) q) := by
  unfold Sooner; decide +kernel

/-- `Sooner`: by distance, then by role, then by lane, and no request before itself. -/
theorem test_sooner :
    Sooner (requestOf 1 .armed 1) (requestOf 0 .program 2) ∧ Sooner (requestOf 1 .program 2) (requestOf 0 .armed 2) ∧
    Sooner (requestOf 1 .armed 2) { requestOf 0 .armed 2 with lane := 1 } ∧
    ¬Sooner (requestOf 0 .armed 2) (requestOf 0 .armed 2) := by
  unfold Sooner; decide

/-- Every engine BUSY and two requests queued: lane 0 has a PROGRAM job of channel 2 and an ARMED one of channel 0, lane 1
a PROGRAM job of channel 3, and the queue holds an ARMED request of channel 1 and a PROGRAM request of channel 0. -/
def crowded (s : State) : State :=
  { s with
    queue := [requestOf 1 .armed 2, requestOf 0 .program 2]
    engines := #v[some (jobOn 2 .program 2), some (jobOn 0 .armed 2),
      some { jobOn 3 .program 2 with request := { requestOf 3 .program 2 with lane := 1 } }] }

/-- `JobCompletionDeliversFrame`, the start: the other engines are BUSY, and the PROGRAM request goes first; the freed
engine takes it with the copies of its start. -/
theorem test_start_on_freed_engine :
    (crowded base).engines.get 0 = some (jobOn 2 .program 2) ∧
    (∀ f : EngineId, f ≠ 0 → (crowded base).engines.get f ≠ none) ∧ requestOf 0 .program 2 ∈ (crowded base).queue ∧
    (∀ q ∈ (crowded base).queue, q ≠ requestOf 0 .program 2 → Sooner (requestOf 0 .program 2) q) ∧
    ((crowded base).completeJob 0).engines.get 0 = some ((crowded base).startCopy (requestOf 0 .program 2)) ∧
    ((crowded base).completeJob 0).queue = [requestOf 1 .armed 2] := by
  unfold Sooner; decide +kernel

/-- `JobCompletionDeliversFrame`: a program frame placed, an armed frame placed, a frame of a HALTING channel, one of a
channel HALTED with its cancel order on its way, and one that no lane wants. -/
theorem test_job_completion :
    (onAir.setEngine 0 (some (jobOn 0 .program 1))).engines.get 0 = some (jobOn 0 .program 1) ∧
    (onAir.chan 0).state ≠ .halting ∧ (onAir.chan 0).cancelOrder = false ∧ (onAir.lane 0).source = some 0 ∧
    ((onAir.modChan 0 fun c => { c with cancelOrder := true }).chan 0).cancelOrder = true ∧ (onAir.lane 0).state ≠ .idle ∧
    (((onAir.modLane 0 fun x => { x with cues := [{ number := 0, target := some 1, trigger := .nextTick }] }).lane
      0).cues.head?.map Cue.target = some (some 1)) ∧
    ((withChan .halting id).chan 0).state = .halting ∧ ((withChan .halting id).chan 0).releaseWaits = false ∧
    (withChan .halting id).queue = [] ∧ (base.lane 0).source ≠ some 0 := by decide +kernel

/-- `SequencerOrdersTaken`: orders on their way, of a SEEKING channel and of a HALTING one. -/
theorem test_orders :
    ((base.modChan 0 fun c => { c with withdrawOrder := true }).chan 0).withdrawOrder = true ∧
    (((withChan .halting id).modChan 0 fun c => { c with cancelOrder := true }).chan 0).cancelOrder = true ∧
    (((withChan .halting id).modChan 0 fun c => { c with cancelOrder := true }).chan 0).state = .halting ∧
    (((withChan .seeking id).modChan 0 fun c => { c with cancelOrder := true }).chan 0).state ≠ .halting := by
  decide +kernel

/-- `SequencerOrdersTaken`, the pool: the order of channel 0 takes its request and its job, whatever their roles; those of
the other channels stay, and the freed engine takes the request that is left. A release waits at a HALTING channel. -/
theorem test_cancel_order_pool :
    ((crowded base).takeCancelOrder 0).queue = [] ∧
    ((crowded base).takeCancelOrder 0).engines.toList.map (fun o => o.map fun j => (j.request.channel, j.request.role))
      = [some (2, .program), some (1, .armed), some (3, .program)] ∧
    ((leaving .halting false).chan 1).releaseWaits = true ∧ ((leaving .halting false).chan 1).state = .halting := by
  decide +kernel

/-- `State.LastJobs`, `HaltsOnCancel`: a HALTING channel whose one job is picked, and one with another job left. -/
theorem test_last_jobs :
    ((withChan .halting id).setEngine 0 (some (jobOn 0 .program 2))).LastJobs 0 (namedBy 0 (some 0) .program) ∧
    ¬(((withChan .halting id).setEngine 0 (some (jobOn 0 .program 2))).setEngine 1 (some (jobOn 0 .armed 2))).LastJobs 0
      (namedBy 0 (some 0) .program) ∧ ((withChan .halting id).chan 0).releaseWaits = false := by
  refine ⟨⟨by decide +kernel, fun e j h _ => ?_⟩, fun h => ?_, by decide +kernel⟩
  · have : ∀ e : EngineId, ∀ j ∈ ((withChan .halting id).setEngine 0 (some (jobOn 0 .program 2))).engines.get e,
        namedBy 0 (some 0) .program j.request = true := by decide +kernel
    exact this e j h
  · exact absurd (h.2 1 (jobOn 0 .armed 2) (by decide +kernel) rfl) (by decide)

/-- `DeadlinesWithdrawAndCancel`: a request and a job of lane 0 at distance 1, and a request and a job that are not due:
of lane 0 at distance 2, and of lane 1. A lane whose head cue is not taken. -/
theorem test_deadlines :
    requestOf 1 .program 1 ∈ ({ onAir with queue := [requestOf 1 .program 1] }.takePart 0).queue ∧
    (requestOf 1 .program 1).distance ≤ 1 ∧
    ((onAir.setEngine 2 (some (jobOn 0 .program 1))).takePart 0).engines.get 2 = some (jobOn 0 .program 1) ∧
    requestOf 1 .program 2 ∈ ({ onAir with queue := [requestOf 1 .program 2] }.takePart 0).queue ∧
    ((onAir.setEngine 2 (some (jobOn 0 .program 2))).takePart 0).engines.get 2 = some (jobOn 0 .program 2) ∧
    ((onAir.setEngine 2 (some (jobOn 0 .program 1))).takePart 1).engines.get 2 = some (jobOn 0 .program 1) ∧
    (0 : LaneId) ≠ 1 ∧ (onAir.lane 0).cues.head? = none ∧ (base.lane 0).state = .idle := by decide +kernel

/-- A tick of lane 0 brings its request one nearer and leaves that of lane 1 (R132). -/
theorem test_not_due :
    (({ onAir with
      queue := [requestOf 1 .program 2, { requestOf 2 .program 1 with lane := 1 }]
      engines := Vector.replicate 3 (some { jobOn 3 .program 1 with
        request := { requestOf 3 .program 1 with lane := 1 } }) }.poolTick 0).queue.map RenderRequest.distance)
      = [1, 1] := by decide +kernel

/-! ## Witnesses: lanes -/

/-- Lane 0 on the air with a program frame due. -/
def freshDue : State :=
  onAir.modLane 0 fun x => { x with programFrames := { next := some (frameOf 0 2), after := none } }

/-- `TickEmitsOrHolds`, `StarvationShowsSlate`: a fresh frame due, a hold below the limit, the hold that reaches it. -/
theorem test_tick_cases :
    (freshDue.lane 0).state = .program ∧ (freshDue.lane 0).cues.head? = none ∧
    (freshDue.lane 0).programFrames.next = some (frameOf 0 2) ∧
    (onAir.lane 0).programFrames.next = none ∧ (onAir.lane 0).lastFrame = some (frameOf 0 1) ∧
    (onAir.lane 0).holdCount + 1 < (onAir.lane 0).config.holdLimit ∧
    ((onAir.modLane 0 fun x => { x with holdCount := 24 }).lane 0).config.holdLimit
      ≤ ((onAir.modLane 0 fun x => { x with holdCount := 24 }).lane 0).holdCount + 1 := by decide +kernel

/-- `TickEmitsOrHolds`, `StarvationShowsSlate`: an IDLE lane, a lane SLATE/NO_PROGRAM, and one SLATE/STARVED with a
frame due and without. -/
theorem test_slate_ticks :
    (base.lane 0).state = .idle ∧
    (∀ st ∈ [LaneState.slateNoProgram, .slateStarved],
      ((freshDue.modLane 0 fun x => { x with state := st, sampledSlate := some (.bars 8 240) }).lane 0).state = st ∧
      ((freshDue.modLane 0 fun x => { x with state := st, sampledSlate := some (.bars 8 240) }).lane 0).sampledSlate
        = some (.bars 8 240) ∧
      ((freshDue.modLane 0 fun x => { x with state := st }).lane 0).programFrames.next = some (frameOf 0 2) ∧
      ((onAir.modLane 0 fun x => { x with state := st }).lane 0).programFrames.next = none ∧
      ((onAir.modLane 0 fun x => { x with state := st }).lane 0).cues = []) := by decide +kernel

/-- `TickEmitsOrHolds`, the step judgement: channel 0 RUNNING under lane 0, its step not open, and open with each tally. -/
theorem test_step_judgement (stepOpen : Bool) (tally : Nat) :
    ((onAir.modChan 0 fun c => { c with state := .running, stepOpen := stepOpen, tally := tally }).chan 0).state
      = .running ∧
    (onAir.modChan 0 fun c => { c with state := .running, stepOpen := stepOpen, tally := tally }).claims.get 0 = some 0 ∧
    ((onAir.modChan 0 fun c => { c with state := .running, stepOpen := stepOpen, tally := tally }).chan 0).stepOpen
      = stepOpen ∧
    ((onAir.modChan 0 fun c => { c with state := .running, stepOpen := stepOpen, tally := tally }).chan 0).tally = tally :=
  ⟨rfl, rfl, rfl, rfl⟩

/-- Lane 0 with a cue to channel 1 armed and its frame due. -/
def armed : State :=
  { onAir with claims := setAt onAir.claims 1 (some 0) }.modLane 0 fun x =>
    { x with
      cues := [{ number := 4, target := some 1, trigger := .atField 9 },
        { number := 5, target := none, trigger := .nextTick }]
      cueCounter := 6
      armedFrames := { next := some (frameOf 1 9), after := none } }

/-- `TickTakesArmedCue`, its trigger met at its boundary. -/
theorem test_take :
    (armed.lane 0).state ≠ .idle ∧ (armed.lane 0).source ≠ some 1 ∧
    (armed.lane 0).armedFrames.next = some (frameOf 1 9) ∧
    (9 : FieldNum).toNat ≤ (frameOf 1 9).number.toNat ∧ armed.claims.get 0 = some 0 ∧
    (armed.lane 0).cues.map Cue.target = [some 1, none] := by decide +kernel

/-- `TickTakesArmedCue`, the pool's part and the starved condition: an ARMED request and an ARMED job of channel 1 at
distance 2, a PROGRAM request of the old source, and a lane SLATE/STARVED whose latch is marked. -/
theorem test_take_pool :
    requestOf 1 .armed 2 ∈ { armed with queue := [requestOf 1 .armed 2, requestOf 0 .program 2] }.queue ∧
    (armed.setEngine 1 (some (jobOn 1 .armed 2))).engines.get 1 = some (jobOn 1 .armed 2) ∧
    ((armed.modLane 0 fun x => { x with state := .slateStarved }).lane 0).state = .slateStarved ∧
    ((armed.modAttn fun a => { a with starved := setAt a.starved 0 { set := true, mark := true } }).attn.starved.get
      0).mark = true := by decide +kernel

/-- `TickTakesArmedCue`, the rest of the pool: the PROGRAM request of the old source goes, the ARMED one of the new source
goes on as PROGRAM and one nearer, and so do the jobs of lane 0 that the take does not name; lane 1's job is untouched. The
claim on the old source is released with its step. -/
theorem test_take_others :
    ((crowded armed).tick 0).queue = [requestOf 1 .program 1] ∧
    ((crowded armed).tick 0).engines.toList.map
      (fun o => o.map fun j => (j.request.channel, j.request.role, j.request.distance))
      = [some (2, .program, 1), some (0, .armed, 1), some (3, .program, 2)] ∧
    ((armed.modChan 0 fun c => { c with stepOpen := true, tally := 3 }).tick 0).claims.get 0 = none ∧
    (((armed.modChan 0 fun c => { c with stepOpen := true, tally := 3 }).tick 0).chan 0).stepOpen = false ∧
    (((armed.modChan 0 fun c => { c with stepOpen := true, tally := 3 }).tick 0).chan 0).tally = 0 := by decide +kernel

/-- `CountsAtTake`: a request of the old source that the take cancels at distance 1 is not counted, and another one is. -/
theorem test_counts_at_take :
    (({ armed with queue := [requestOf 0 .program 1, requestOf 2 .program 1] }.tick 0).lane 0).counters.late = 1 ∧
    dueAt 0 (requestOf 0 .program 1) = true ∧ namedBy 0 (armed.lane 0).source .program (requestOf 0 .program 1) = true ∧
    dueAt 0 (requestOf 2 .program 1) = true ∧ namedBy 0 (armed.lane 0).source .program (requestOf 2 .program 1) = false ∧
    dueAt 1 (requestOf 2 .program 1) = false ∧ dueAt 0 (requestOf 2 .program 2) = false := by decide +kernel

/-- `TickTakesArmedCue`, second clause: a cue to SLATE, and one to the program source. -/
theorem test_take_slate_and_source :
    (∀ target ∈ [none, some (0 : Channel)],
      ((onAir.modLane 0 fun x =>
        { x with cues := [{ number := 1, target := target, trigger := .nextTick }] }).lane 0).cues.map Cue.target
          = [target]) ∧
    (onAir.lane 0).source = some 0 ∧ (onAir.lane 0).state ≠ .idle := by decide +kernel

/-- `LaneSetEnablesOrDisables`: a record that enables, one that changes the raster, one that disables. -/
theorem test_lane_set :
    decodeLaneConfig 0x8019000800F0 = some { LaneConfig.reset with enabled := true } ∧
    decodeLaneConfig 0x0019000800F0 = some LaneConfig.reset ∧
    decodeLaneConfig 0xA019000800F0 = some { LaneConfig.reset with enabled := true, raster := .r1280x720 } ∧
    (base.lane 0).state = .idle ∧ (armed.lane 0).state ≠ .idle ∧ (armed.lane 0).cues ≠ [] ∧
    (armed.lane 0).config.raster = LaneConfig.reset.raster ∧ (armed.lane 0).config.rate = LaneConfig.reset.rate ∧
    Raster.r1280x720 ≠ (armed.lane 0).config.raster := by decide +kernel

/-- `LaneSetEnablesOrDisables`: a record that keeps lane 0 disabled while IDLE, one that keeps it enabled on the air, a
record whose raster is reserved, and a lane beyond; `SyncSnapshotWaitsAndRecords`, `CueAddJoinsTailOrRefuses` and
`CueAbortRemovesCue` with that lane, a target beyond SLATE, a reserved trigger, and a number that no cue bears. -/
theorem test_lane_set_kept :
    LaneConfig.reset.enabled = false ∧ (base.lane 0).state = .idle ∧
    (onAir.lane 0).config.raster = LaneConfig.reset.raster ∧ (onAir.lane 0).config.rate = LaneConfig.reset.rate ∧
    decodeLaneConfig 0xE019000800F0 = none ∧ 3 < (4 : Byte).toNat ∧ 8 < (9 : Byte).toNat ∧ triggerOf 2 0 = none ∧
    (∀ c ∈ (armed.lane 0).cues, c.number ≠ 6) ∧ (base.lane 0).cues = [] := by decide +kernel

/-- `CueAddJoinsTailOrRefuses`: room and a free channel, a full list, a channel claimed elsewhere, another rate. -/
theorem test_cue_add :
    triggerOf 1 9 = some (.atField 9) ∧ (armed.lane 0).cues.length < 4 ∧ armed.claims.get 2 = none ∧
    (armed.chan 2).config.standard.rate = (armed.lane 0).config.rate ∧ (base.lane 0).state = .idle ∧
    4 ≤ ((armed.modLane 0 fun x => { x with cues := x.cues ++ x.cues }).lane 0).cues.length ∧
    { armed with claims := setAt armed.claims 2 (some 3) }.claims.get 2 = some 3 ∧
    (armed.modChan 2 fun c => { c with config := { c.config with standard := .std525 } } ).claims.get 2 = none ∧
    ((armed.modChan 2 fun c => { c with config := { c.config with standard := .std525 } }).chan 2).config.standard.rate
      ≠ (armed.lane 0).config.rate := by decide +kernel

/-- `CueAbortRemovesCue`: the head of the list, and the cue after it, each alone in bearing its number. -/
theorem test_cue_abort :
    (armed.lane 0).cues = [] ++ { number := 4, target := some 1, trigger := .atField 9 } ::
      [{ number := 5, target := none, trigger := .nextTick }] ∧
    (armed.lane 0).cues = [{ number := 4, target := some 1, trigger := .atField 9 }] ++
      { number := 5, target := none, trigger := .nextTick } :: [] ∧ (4 : Byte) ≠ 5 := by decide +kernel

/-- `LaneSetEnablesOrDisables`, the disable: the requests and jobs of the channels that lane 0 claims, 0 and 1, go, the
other ones stay; a released channel has its step open mark and its tally cleared. -/
theorem test_disable_others :
    ((crowded armed).disableLane 0).queue = [] ∧
    ((crowded armed).disableLane 0).engines.toList.map (fun o => o.map fun j => (j.request.channel, j.request.lane))
      = [some (2, 0), none, some (3, 1)] ∧
    armed.claims.get 0 = some 0 ∧ armed.claims.get 1 = some 0 ∧ armed.claims.get 2 = none ∧
    (((armed.modChan 0 fun c => { c with stepOpen := true, tally := 3 }).disableLane 0).chan 0).stepOpen = false ∧
    (((armed.modChan 0 fun c => { c with stepOpen := true, tally := 3 }).disableLane 0).chan 0).tally = 0 := by
  decide +kernel

/-- `CueAbortRemovesCue`, the pool: at the head the ARMED request of channel 1 goes and all else stays, the claim on it
released; elsewhere nothing goes. -/
theorem test_abort_others :
    (((asks (crowded armed) (.cueAbort 0 4)).takeCueAbort 0 4).1.queue = [requestOf 0 .program 2]) ∧
    (((asks (crowded armed) (.cueAbort 0 4)).takeCueAbort 0 4).1.engines = (crowded armed).engines) ∧
    (((asks (crowded armed) (.cueAbort 0 4)).takeCueAbort 0 4).1.claims.get 1 = none) ∧
    (((asks (crowded armed) (.cueAbort 0 5)).takeCueAbort 0 5).1.queue = (crowded armed).queue) ∧
    (armed.lane 0).source ≠ some 1 ∧ (crowded armed).PoolLaw := by
  unfold State.PoolLaw; decide +kernel

/-- `SlatePicture`: a column in the first bar, in the last, and in the width left over. -/
theorem test_slate_columns :
    (SlateRecord.bars 2 400).colourAt 399 = barColour 0 ∧ (SlateRecord.bars 2 400).colourAt 400 = barColour 1 ∧
    (SlateRecord.bars 2 400).colourAt 1919 = barColour 1 ∧ 0 < 400 ∧ 2 * 400 ≤ 1919 := by decide +kernel

/-- A field of two grey lines. -/
def twoLines (number : FieldNum) (parity : Parity) : Field :=
  { greyField number parity with lines := greyLine ++ greyLine }

/-- `SlatePicture`, the formed pictures: fields of two lines each, under a mask of one line at the top. -/
theorem test_formed_pictures :
    (twoLines 0 .upper).activeLines = [greyLine, greyLine] ∧ (twoLines 1 .lower).activeLines = [greyLine, greyLine] ∧
    formPicture .weave (some { top := 1, bottom := 0 }) 2 [some (twoLines 0 .upper), some (twoLines 1 .lower)]
      = [.known blackLine, .known blackLine, .known greyLine, .known greyLine] ∧
    formPicture .lineDouble none 2 [some (twoLines 0 .upper)]
      = [.known greyLine, .between greyLine greyLine, .known greyLine, .known greyLine] ∧
    formPicture .lineDouble none 2 [none] = [.unspecified, .unspecified, .unspecified, .unspecified] := by
  decide +kernel

/-- A frame of four picture lines, trimmed down by one source line. -/
def trimmedFrame (aspect : Aspect) : Frame :=
  { frameOf 0 1 with
    picture := [.known blackLine, .known greyLine, .known greyLine, .known greyLine]
    profile := { Profile.reset with aspect := aspect, verticalTrim := 1, horizontalTrim := -1 } }

/-- `SlatePicture`, the region and the placement: a line within, rows and columns beyond at both ends, and the columns
at the edges of the pillars. -/
theorem test_frame_placement :
    (trimmedFrame .pillarbox).regionAt 0 1 = some (.sample (.known greyLine) 0) ∧
    (trimmedFrame .pillarbox).regionAt 0 0 = some (.colour Colour.black) ∧
    (trimmedFrame .pillarbox).regionAt 2 1 = some (.colour Colour.black) ∧
    (trimmedFrame .pillarbox).regionAt 4 1 = none ∧
    (trimmedFrame .pillarbox).shownAt 0 239 = some (.colour Profile.reset.pillar) ∧
    (trimmedFrame .pillarbox).shownAt 0 240 = some (.scaled 0 0) ∧
    (trimmedFrame .pillarbox).shownAt 0 1679 = some (.scaled 0 1439) ∧
    (trimmedFrame .pillarbox).shownAt 0 1680 = some (.colour Profile.reset.pillar) ∧
    (trimmedFrame .centreCrop).shownAt 1079 0 = some (.scaled 1259 0) ∧
    (trimmedFrame .stretch).shownAt 1079 1919 = some (.scaled 1079 1919) := by decide +kernel

/-! ## Witnesses: attention unit and link -/

/-- Attention with channel 0 and lane 0 and the table latched and their conditions holding, PORT in LEVEL mode. -/
def alarmed : State :=
  base.modAttn fun a =>
    { (a.beginDetached 0).beginStarved 0 with
      portMode := .level, tableLow := { set := true, mark := true }, tableLowMode := .level, threshold := 8,
      lastSharedFree := 7, tableLowCond := true }

/-- `AttnAckClearsOrMarks`, `AttnSetReplacesSettings`: a LEVEL source whose condition holds, one without, an EDGE
source; a threshold in range and one beyond; a reserved mode; a marked TABLE_LOW whose condition ends, or goes on while
its mode goes from LEVEL to EDGE. -/
theorem test_attention :
    alarmed.attn.portMode = .level ∧ alarmed.attn.detachedCond.get 0 = true ∧ (alarmed.attn.port.get 0).inLatch = true ∧
    alarmed.attn.detachedCond.get 1 = false ∧ alarmed.attn.starvedMode = .edge ∧
    (1023 : BitVec 16).toNat ≤ 1023 ∧ 1023 < (1024 : BitVec 16).toNat ∧ (2 : Byte).getLsbD 1 = true ∧
    alarmed.attn.tableLowCond = true ∧ (7 : BitVec 16).toNat ≤ alarmed.attn.lastSharedFree ∧
    alarmed.attn.tableLow.mark = true ∧ alarmed.attn.tableLowMode = .level ∧ (0 : Byte).getLsbD 4 = false ∧
    alarmed.attn.lastSharedFree < (8 : BitVec 16).toNat ∧ base.attn.tableLowCond = false ∧
    (base.modAttn fun a => { a with lastSharedFree := 7 }).attn.lastSharedFree < (8 : BitVec 16).toNat := by
  decide +kernel

/-- `AttnSetReplacesSettings`, the hand-over: below a threshold that the table was not below, below one that it was, and
at a threshold, the latch marked and not. -/
theorem test_hand_over :
    base.attn.tableLowCond = false ∧ 7 < ({ base.attn with threshold := 8 }).threshold ∧
    ({ base.attn with threshold := 8 }.handOver 7).tableLow = { set := true, mark := false } ∧
    (alarmed.attn.handOver 7).tableLow = { set := true, mark := true } ∧
    alarmed.attn.threshold ≤ 8 ∧ (alarmed.attn.handOver 8).tableLow = MarkedLatch.clear ∧
    ({ alarmed.attn with tableLow := { set := true, mark := false } }.handOver 8).tableLow
      = { set := true, mark := false } := by decide +kernel

/-- The records of results, byte by byte from the layouts of section 10: the entry record of a proposal of channel 0 split
from handle 0 at generation 3, LANE_READ of a lane with two cues, and ATTN_READ. -/
theorem test_records :
    entryRecord entryP = [2, 1, 0, 0, 0, 5, 0, 0, 201, 0, 1, 44, 0xF0, 0, 0, 0, 0, 0, 0, 3] ∧
    (armed.lane 0).readBytes = [3, 0, 0, 6, 2, 4, 1, 1, 0, 0, 9, 5, 8, 0, 0, 0, 0, 0, 0, 0, 0, 0, 0, 0, 0] ∧
    alarmed.attn.readBytes = [7, 0, 0x11, 0, 8, 0, 7, 1, 0x81, 0xFF, 8, 0, 0, 0, 0, 0, 0, 0, 0, 0, 0, 0, 0, 0, 0, 0, 0,
      1, 0, 0, 0, 0, 0, 0, 0, 0x80] := by decide +kernel

/-- CHANNEL_READ, byte by byte: channel 0 RUNNING under entry 0, CURRENT field 1 in its window between 0 and 2, with a
FILM32 candidate of alignment 4. -/
theorem test_channel_record :
    ({ (underA 3).chan 0 with
      window := { older := some (slotOf 0 .upper), current := some { slotOf 1 .lower with set := entryA.latchedSet 0 },
                  newer := some (slotOf 2 .upper) }
      monitor := monitorAt (.candidate .film32 4 10 (recordOf 0)) }.readBytes) =
      [2, 0, 0, 0, 0, 1, 0, 0, 3, 2, 0, 0, 3, 1, 0, 0, 0, 7, 0, 0, 0, 0, 0, 1, 0, 0, 2, 1, 3, 6, 0, 0]
        ++ List.replicate 34 0 := by decide +kernel

/-- A piece with LAST that a start within its next byte ends launches, and the transaction is over; the same piece before
a repeated start keeps it (R161, R166). -/
theorem test_ending_within_byte :
    (∀ e ∈ [Ending.stop, .stopWithinByte, .startWithinByte], e ≠ .repeatedStart ∧
      (base.writeTransfer base.link.address [0xC0, 0x50] 0 e).link.flight = .launched .unitRead ∧
      (base.writeTransfer base.link.address [0xC0, 0x50] 0 e).link.transaction = none) ∧
    (base.writeTransfer base.link.address [0xC0, 0x50] 7 .repeatedStart).link.transaction =
      some { command := some 0xC0, received := [0xC0, 0x50], readPending := none, clockLow := 7 } := by decide +kernel

/-- `UncheckedPieceStagesAndLaunches`, `CheckedPieceStandsOrFails`: the command bytes, a body that spells a request,
one that does not, and the bounds of the staging buffer and of the low clock. -/
theorem test_pieces :
    base.link.transaction = none ∧ base.link.flight = .idle ∧ base.link.staging.length ≤ 64 ∧
    (0xC0 : Byte).extractLsb' 0 4 = 0 ∧ isChecked 0xC0 = false ∧ isResult 0xC0 = false ∧ isLast 0xC0 = true ∧
    isLast 0x80 = false ∧ isChecked 0xE0 = true ∧ decodeBody [0x50] = some .unitRead ∧ decodeBody [] = none ∧
    ([] : List Byte).length + (List.replicate 64 (0 : Byte)).length ≤ 64 ∧
    64 < ([] : List Byte).length + (List.replicate 65 (0 : Byte)).length ∧ 29 < 30 ∧
    (base.modLink fun k => { k with flight := .launched .unitRead }).link.flight ≠ .idle ∧
    crc8 [0x70, 0xE0, 1, 0x50] ≠ 0 ∧ (64 : Byte).toNat ≤ 64 ∧ (0x81 : Byte).extractLsb' 0 4 ≠ 0 ∧
    isResult 0x90 = true ∧ isFirst 0x90 = true := by decide +kernel

/-- `CheckedPieceStandsOrFails`, the command byte: refused while BUSY, with a reserved bit, and with RESULT and LAST; the
counts at their bounds; and after an overflow a LAST piece with a right check byte writes BAD_REQUEST. -/
theorem test_checked_refusals :
    isResult 0xE0 = false ∧ (asks base .unitRead).link.flight ≠ .idle ∧ (0xE1 : Byte).extractLsb' 0 4 ≠ 0 ∧
    isResult 0x70 = true ∧ isLast 0x70 = true ∧ 64 < (65 : Byte).toNat ∧ (64 : Byte).toNat ≤ 64 ∧
    64 < ([0] : List Byte).length + (64 : Byte).toNat ∧ isFirst 0x60 = false ∧ decodeBody [0] = none ∧
    ((asks base .unitRead).writeTransfer base.link.address [0xE0, 0] 0 .stop).link.acks = [true, false, false] ∧
    ((base.modLink fun k => { k with overflow := true }).writeTransfer base.link.address
      [0x60, 0, crc8 [0x70, 0x60, 0]] 0 .stop).link.lastResult.code = .badRequest := by decide +kernel

/-- The same: a LAST piece whose body spells no request, one whose count exceeds the room, one without a count byte, one
whose check byte is wrong, and one with a byte after its check byte. -/
theorem test_checked_judgements :
    (base.writeTransfer base.link.address [0xE0, 1, 0, crc8 [0x70, 0xE0, 1, 0]] 0 .stop).link.lastResult.code
      = .badRequest ∧
    ((base.modLink fun k => { k with staging := [0x50] }).writeTransfer base.link.address [0x60, 64] 0 .stop).link.lastResult.code
      = .badRequest ∧
    (base.writeTransfer base.link.address [0xE0] 0 .stop).link.lastResult.code = .checkFail ∧
    (base.writeTransfer base.link.address [0xE0, 0, 1] 0 .stop).link.lastResult.code = .checkFail ∧
    (base.writeTransfer base.link.address [0xE0, 1, 0x50, crc8 [0x70, 0xE0, 1, 0x50], 9] 0 .stop).link.flight
      = .launched .unitRead ∧
    (base.writeTransfer base.link.address [0xE0, 1, 0x50, crc8 [0x70, 0xE0, 1, 0x50], 9] 0 .stop).link.acks
      = [true, true, true, true, true, false] := by decide +kernel

/-- `ResultReadSendsLastResult`: a checked and an unchecked RESULT command byte. -/
theorem test_result_commands :
    isResult 0x30 = true ∧ isFirst 0x30 = false ∧ isLast 0x30 = false ∧ isChecked 0x30 = true ∧
    (0x30 : Byte).extractLsb' 0 4 = 0 ∧ isChecked 0x10 = false := by decide

/-- `CompletionWritesResult`: an ATTN_ACK that names REQUEST, and one that does not. -/
theorem test_completions :
    (base.modLink fun k => { k with flight := .handedBack (.attnAck 0x40) (done []) }).link.flight
      = .handedBack (.attnAck 0x40) (done []) ∧
    (0x40 : Byte).getLsbD 6 = true ∧ (0x3F : Byte).getLsbD 6 = false := by decide +kernel

/-- `BodyDecodesToItsRequest`: the shortest body and the longest. -/
theorem test_bodies :
    encodeBody .syncRead = some [0x29] ∧ (encodeBody (.channelSet 0xFF plainBody)).map List.length = some 63 := by
  decide +kernel

/-- `UnitResetRunsInStages`: the second stage not begun, and complete. -/
theorem test_reset_stages :
    ResetProgress.start.pool = false ∧ (∀ l : LaneId, ResetProgress.start.lanes.get l = false) ∧
    (∀ l : LaneId, (Vector.replicate 4 true).get l = true) := by decide +kernel

/-- The laws: a state with a request queued and every engine BUSY, and a step that answers. -/
theorem test_law_of_pool : { queued with engines := Vector.replicate 3 (some (jobOn 2 .program 1)) }.PoolLaw := by
  unfold State.PoolLaw; decide +kernel

theorem test_law_of_link : (asks base .syncRead).LinkLaw := by unfold State.LinkLaw; decide +kernel

theorem test_law_of_claims : armed.ClaimLaw := by unfold State.ClaimLaw; decide +kernel

theorem test_laws_of_counts : armed.CountLaw ∧ armed.CueLaw := by
  unfold State.CountLaw Chan.InRange State.CueLaw; decide +kernel

theorem test_law_of_reserve : withAP.ReserveLaw := by unfold State.ReserveLaw; decide +kernel

theorem test_law_of_uses : withA.UseLaw := by
  intro h
  rw [test_withA_entries]
  by_cases e : 0 = h
  · subst e; decide +kernel
  · rw [if_neg e]; exact ⟨by revert h; decide +kernel, fun _ => rfl⟩

theorem test_law_of_spans : withA.SpanLaw := by
  intro h hl
  refine ⟨?_, fun g hg hl' _ => absurd (test_entry_found g hl').1 ?_⟩
  · rw [test_withA_entries] at hl ⊢
    by_cases e : 0 = h
    · subst e; decide
    · rw [if_neg e] at hl; exact absurd hl (by decide)
  · exact (test_entry_found h hl).1 ▸ hg

theorem test_step_answers : step base = .next base := step_nil base rfl

end Sys2Proof.Machine.Tests
end

