-- ==== Sys2Proof/Proofs/SpanIndex.lean ====
section
/-! The span index of a key as a searched list: it holds exactly the key's entries of an index, in ascending order of first
field, so that the search of R30 for the next entry answers one that begins first above the given field. -/

namespace Sys2Proof.Machine

/-! ## The handles a test picks -/

theorem mem_handlesWhere (s : State) (p : Entry → Bool) (h : Handle) :
    h ∈ s.handlesWhere p ↔ p (s.entry h) = true := by
  simp only [State.handlesWhere, List.mem_filterMap, Option.ite_none_right_eq_some, Option.some.injEq, Prod.exists,
    List.mem_zipIdx_iff_getElem?, Vector.getElem?_toList, Vector.getElem?_eq_some_iff]
  constructor
  · rintro ⟨e, i, ⟨hi, he⟩, hp, rfl⟩
    have hval : (Fin.ofNat 1024 i).val = i := Nat.mod_eq_of_lt hi
    have hentry : s.entry (Fin.ofNat 1024 i) = e := by simpa only [State.entry, Vector.get_eq_getElem, hval] using he
    exact hentry ▸ hp
  · intro hp
    exact ⟨s.entry h, h.val, ⟨h.isLt, (Vector.get_eq_getElem ..).symm⟩, hp, Fin.ofNat_val_eq_self h⟩

/-! ## Ascending order of first field -/

/-- The handles stand in ascending order of their entries' first fields (R30). -/
def State.Ascending (s : State) (l : List Handle) : Prop :=
  l.Pairwise fun g h => (s.entry g).first.toNat ≤ (s.entry h).first.toNat

theorem mem_insertByFirst (s : State) (h g : Handle) (l : List Handle) :
    g ∈ s.insertByFirst h l ↔ g = h ∨ g ∈ l := by
  induction l with
  | nil => simp [State.insertByFirst]
  | cons a l ih =>
    unfold State.insertByFirst
    split
    · simp
    · simp only [List.mem_cons, ih]
      exact or_left_comm

theorem ascending_insertByFirst {s : State} {l : List Handle} (hl : s.Ascending l) (h : Handle) :
    s.Ascending (s.insertByFirst h l) := by
  induction l with
  | nil => exact List.pairwise_singleton ..
  | cons a l ih =>
    obtain ⟨ha, hl'⟩ := List.pairwise_cons.mp hl
    unfold State.insertByFirst
    split
    case isTrue hle =>
      refine List.pairwise_cons.mpr ⟨fun g hg => ?_, hl⟩
      rcases List.mem_cons.mp hg with rfl | hg
      · exact hle
      · exact hle.trans (ha g hg)
    case isFalse hlt =>
      refine List.pairwise_cons.mpr ⟨fun g hg => ?_, ih hl'⟩
      rcases (mem_insertByFirst s h g l).mp hg with rfl | hg
      · exact (Nat.lt_of_not_le hlt).le
      · exact ha g hg

/-! ## The span index -/

/-- A span index holds the ACTIVE and PROVISIONAL entries of its key, and no others (R25, R30). -/
theorem mem_spanIndex (s : State) (key : Key) (h : Handle) :
    h ∈ s.spanIndex key ↔ (s.entry h).live = true ∧ (s.entry h).key = key := by
  have fold (l : List Handle) : h ∈ l.foldr s.insertByFirst [] ↔ h ∈ l := by
    induction l with
    | nil => rfl
    | cons a l ih => rw [List.foldr_cons, mem_insertByFirst, ih, List.mem_cons]
  rw [State.spanIndex, fold, mem_handlesWhere, Bool.and_eq_true, beq_iff_eq]

theorem spanIndex_ascending (s : State) (key : Key) : s.Ascending (s.spanIndex key) := by
  unfold State.spanIndex
  induction s.handlesWhere fun e => e.live && e.key == key with
  | nil => exact List.Pairwise.nil
  | cons a l ih => exact ascending_insertByFirst ih a

/-! ## The search for the next entry -/

/-- What a search of an ordered list finds stands before everything else that the search would accept. -/
theorem find?_first_of_pairwise {α : Type} {R : α → α → Prop} {p : α → Bool} {l : List α} {a b : α}
    (hl : l.Pairwise R) (ha : l.find? p = some a) (hb : b ∈ l) (hp : p b = true) : b = a ∨ R a b := by
  obtain ⟨-, before, after, rfl, hbefore⟩ := List.find?_eq_some_iff_append.mp ha
  rcases List.mem_append.mp hb with hb | hb
  · simpa [hp] using hbefore b hb
  · obtain ⟨-, hfrom, -⟩ := List.pairwise_append.mp hl
    obtain ⟨hafter, -⟩ := List.pairwise_cons.mp hfrom
    exact (List.mem_cons.mp hb).imp_right (hafter b)

/-- The next entry is an entry of the key above the field, and no such entry begins before it (R30). -/
theorem nextAfter_some {s : State} {key : Key} {f : FieldNum} {g : Handle} (hg : s.nextAfter key f = some g) :
    ((s.entry g).live = true ∧ (s.entry g).key = key ∧ f.toNat < (s.entry g).first.toNat) ∧
      ∀ h : Handle, (s.entry h).live = true → (s.entry h).key = key → f.toNat < (s.entry h).first.toNat →
        (s.entry g).first.toNat ≤ (s.entry h).first.toNat := by
  obtain ⟨hlive, hkey⟩ := (mem_spanIndex s key g).mp (List.mem_of_find?_eq_some hg)
  refine ⟨⟨hlive, hkey, by simpa using List.find?_some hg⟩, fun h hl hk hf => ?_⟩
  have hmem : h ∈ s.spanIndex key := (mem_spanIndex s key h).mpr ⟨hl, hk⟩
  rcases find?_first_of_pairwise (spanIndex_ascending s key) hg hmem (decide_eq_true hf) with rfl | hle
  · exact Nat.le_refl _
  · exact hle

/-- There is no next entry exactly when no entry of the key begins above the field (R30). -/
theorem nextAfter_eq_none_iff (s : State) (key : Key) (f : FieldNum) : s.nextAfter key f = none ↔
    ∀ h : Handle, (s.entry h).live = true → (s.entry h).key = key → (s.entry h).first.toNat ≤ f.toNat := by
  simp only [State.nextAfter, List.find?_eq_none, mem_spanIndex, decide_eq_true_eq, Nat.not_lt, and_imp]

/-- The one entry of the key that begins first above the field is the next entry (R30). -/
theorem nextAfter_eq_some {s : State} {key : Key} {f : FieldNum} {h : Handle} (hlive : (s.entry h).live = true)
    (hkey : (s.entry h).key = key) (hf : f.toNat < (s.entry h).first.toNat)
    (hfirst : ∀ i : Handle, (s.entry i).live = true → (s.entry i).key = key → f.toNat < (s.entry i).first.toNat →
      i ≠ h → (s.entry h).first.toNat < (s.entry i).first.toNat) : s.nextAfter key f = some h := by
  cases hn : s.nextAfter key f with
  | none => exact absurd hf (Nat.not_lt.mpr ((nextAfter_eq_none_iff s key f).mp hn h hlive hkey))
  | some g =>
    obtain ⟨⟨hgl, hgk, hgf⟩, hleast⟩ := nextAfter_some hn
    by_contra hne
    have hlt := hfirst g hgl hgk hgf fun e => hne (congrArg some e)
    exact absurd (hleast h hlive hkey hf) (Nat.not_le.mpr hlt)

end Sys2Proof.Machine
end

