-- ==== Sys2Proof/Proofs/EntryNext.lean ====
section
/-! ENTRY_NEXT, a request that changes nothing of the table (R61): its result is what the search for the next entry
answers. -/

namespace Sys2Proof.Machine

theorem takeEntryNext_found {s : State} {key : Key} {f : FieldNum} {h : Handle} (hn : s.nextAfter key f = some h) :
    s.takeEntryNext key f = (s, done (entrySummary h (s.entry h))) := by rw [State.takeEntryNext, hn]

theorem takeEntryNext_noEntry {s : State} {key : Key} {f : FieldNum} (hn : s.nextAfter key f = none) :
    s.takeEntryNext key f = (s, refuse .noEntry) := by rw [State.takeEntryNext, hn]

/-- With no claim before it, a waiting ENTRY_NEXT that leaves the table alone hands back its result at its taking
(R38). -/
theorem exec_entryNext_waiting {s : State} {key : Key} {f : FieldNum} {res : Result}
    (hw : s.Waits (.entryNext key f)) (hc : s.NoClaims) (ht : s.takeEntryNext key f = (s, res)) :
    exec (.entryNext key f) s = .next (s.setHandedBack (.entryNext key f) res) := by
  have hexec : exec (.entryNext key f) s = execEntryNext key f s := rfl
  rw [hexec, execEntryNext, serveTable_launched s _ _ hw hc, ht]

/-- Settles O22: the search finds the entry the first clause describes, and nothing where the other two hold; the last is
the second at the largest field number, which no first field exceeds. -/
theorem entryNextReportsFollowing : Obligations.EntryNextReportsFollowing := by
  intro s key f hw hc
  have noEntry (hnone : ∀ i : Handle, (s.entry i).live = true → (s.entry i).key = key →
      (s.entry i).first.toNat ≤ f.toNat) :
      exec (.entryNext key f) s = .next (s.setHandedBack (.entryNext key f) { code := .noEntry, bytes := [] }) :=
    exec_entryNext_waiting hw hc (takeEntryNext_noEntry ((nextAfter_eq_none_iff s key f).mpr hnone))
  refine ⟨fun h hlive hkey hf hfirst => ?_, noEntry, fun hmax => noEntry fun i _ _ => ?_⟩
  · exact exec_entryNext_waiting hw hc (takeEntryNext_found (nextAfter_eq_some hlive hkey hf hfirst))
  · have := (s.entry i).first.isLt
    omega

end Sys2Proof.Machine
end

