-- ==== Sys2Proof/Proofs/FilmCycles.lean ====
section
/-! The film cycles and their predictions (R96, R97). The FILM32 cycle carries two halves of five positions that predict
alike, so an alignment matters only modulo 5 there. -/

namespace Sys2Proof.Machine

/-! ## Positions and what they predict (R96) -/

theorem position_film22 (a : Nat) (f : FieldNum) : Film.film22.position a f = (a + f.toNat) % 2 := rfl

theorem position_film32 (a : Nat) (f : FieldNum) : Film.film32.position a f = (a + f.toNat) % 10 := rfl

theorem position_film32_lt (a : Nat) (f : FieldNum) : Film.film32.position a f < 10 :=
  Nat.mod_lt _ (by decide)

/-- Five more in the alignment moves every field on by half a FILM32 cycle. -/
theorem position_film32_add_five (a : Nat) (f : FieldNum) :
    Film.film32.position (a + 5) f = (Film.film32.position a f + 5) % 10 := by
  rw [position_film32, position_film32]
  omega

theorem partnerIsNext_film32_half :
    ∀ p < 10, Film.film32.partnerIsNext ((p + 5) % 10) = Film.film32.partnerIsNext p := by
  decide

theorem repeatAt_film32_half : ∀ p < 10, Film.film32.repeatAt ((p + 5) % 10) = Film.film32.repeatAt p := by
  decide

theorem partnerIsNext_film32_add_five (a : Nat) (f : FieldNum) :
    Film.film32.partnerIsNext (Film.film32.position (a + 5) f) =
      Film.film32.partnerIsNext (Film.film32.position a f) := by
  rw [position_film32_add_five, partnerIsNext_film32_half _ (position_film32_lt a f)]

theorem repeatAt_film32_add_five (a : Nat) (f : FieldNum) :
    Film.film32.repeatAt (Film.film32.position (a + 5) f) = Film.film32.repeatAt (Film.film32.position a f) := by
  rw [position_film32_add_five, repeatAt_film32_half _ (position_film32_lt a f)]

/-! ## Matching observations and equal alignments (R97) -/

theorem agrees_iff (m : Film) (a : Nat) (f : FieldNum) (paired rep : Bool) : m.agrees a f paired rep = true ↔
    paired = m.pairedAt (m.position a f) ∧ rep = m.repeatAt (m.position a f) := by
  simp only [Film.agrees, Bool.and_eq_true, beq_iff_eq]

/-- PAIRED is expected where the partner is not the next field, so alignments that give a field the same partner and the
same REPEAT are matched by the same observations of it. -/
theorem agrees_congr {m : Film} {a b : Nat} {f : FieldNum}
    (hpartner : m.partnerIsNext (m.position a f) = m.partnerIsNext (m.position b f))
    (hrep : m.repeatAt (m.position a f) = m.repeatAt (m.position b f)) (paired rep : Bool) :
    m.agrees a f paired rep = m.agrees b f paired rep := by
  simp only [Film.agrees, Film.pairedAt, hpartner, hrep]

theorem sameAlignment_film22_iff (a b : Nat) : sameAlignment .film22 a .film22 b = true ↔ a = b := by
  simp [sameAlignment]

theorem sameAlignment_film32_iff (a b : Nat) : sameAlignment .film32 a .film32 b = true ↔ a % 5 = b % 5 := by
  simp [sameAlignment]

theorem sameAlignment_of_ne {m m' : Film} (h : m ≠ m') (a b : Nat) : sameAlignment m a m' b = false := by
  simp [sameAlignment, h]

/-- Settles O17: an alignment five on puts each field half a cycle on, where partner and REPEAT are as before; below 10,
alignments equal modulo 5 are equal or five apart. -/
theorem observationMatchesPosition : Obligations.ObservationMatchesPosition := by
  refine ⟨agrees_iff, fun a f paired rep => ⟨?_, partnerIsNext_film32_add_five a f⟩, fun a b ha hb => ?_,
    fun a b _ _ => sameAlignment_film22_iff a b,
    fun a b => ⟨sameAlignment_of_ne (by decide) a b, sameAlignment_of_ne (by decide) a b⟩⟩
  · exact agrees_congr (partnerIsNext_film32_add_five a f) (repeatAt_film32_add_five a f) paired rep
  · rw [sameAlignment_film32_iff]
    omega

/-- Settles O16: the positions are the definition's for each mode, and the two tables of R96 are its rows in order. -/
theorem filmCyclesPredict : Obligations.FilmCyclesPredict :=
  ⟨fun a f => ⟨position_film32 a f, position_film22 a f⟩, by decide, by decide⟩

end Sys2Proof.Machine
end

