-- ==== Sys2Proof/Proofs/Commands.lean ====
section
/-! The state a command leaves, as a function: no command ends in a fault or a refusal, so a property of states is kept by
every step once the effect of each command keeps it. -/

namespace Sys2Proof.Machine

/-- The state that a command leaves. -/
def effect (c : Instr) (s : State) : State :=
  match exec c s with
  | .next t => t
  | .fault _ => s
  | .refused _ => s

/-- Every command has a next state. -/
theorem exec_eq_effect (c : Instr) (s : State) : exec c s = .next (effect c s) := by
  cases c <;> rfl

theorem effect_of_exec {c : Instr} {s t : State} (h : exec c s = .next t) : effect c s = t := by
  rw [exec_eq_effect] at h
  exact Host.Outcome.next.inj h

/-- A property that does not speak of the command queue and that the effect of every command keeps is kept by every
step. -/
theorem step_keeps {P : State → Prop} (hqueue : ∀ (s : State) (rest : List Instr), P s → P { s with pending := rest })
    (heffect : ∀ (c : Instr) (s : State), P s → P (effect c s)) {s t : State} (hs : P s) (h : step s = .next t) :
    P t := by
  cases hp : s.pending with
  | nil =>
    rw [step_nil s hp] at h
    exact Host.Outcome.next.inj h ▸ hs
  | cons c rest =>
    rw [step_cons s c rest hp] at h
    exact effect_of_exec h ▸ heffect c _ (hqueue s rest hs)

/-! ## Requests -/

/-- A property that does not speak of the link is kept by the serving of a request whose owner keeps it. -/
theorem serve_keeps {P : State → Prop} (hlink : ∀ (u : State) (f : Link → Link), P u → P (u.modLink f)) {s : State}
    {r : Instr} {owner : State → State × Result} (hs : P s) (howner : ∀ u : State, P u → P (owner u).1) :
    P (s.serve r owner) := by
  unfold State.serve
  split
  · exact hs
  · rename_i u hu
    refine hlink _ _ (howner u ?_)
    obtain ⟨rfl, -⟩ | ⟨rfl, -⟩ := reachOwner_some hu
    · exact hs
    · exact hlink _ _ (hlink _ _ hs)

/-- The same of a request that the Table Controller takes after the waiting claims. -/
theorem serveTable_keeps {P : State → Prop} (hlink : ∀ (u : State) (f : Link → Link), P u → P (u.modLink f))
    (hclaims : ∀ u : State, P u → P u.takeClaims) {s : State} {r : Instr} {owner : State → State × Result} (hs : P s)
    (howner : ∀ u : State, P u → P (owner u).1) : P (s.serveTable r owner) :=
  serve_keeps hlink hs fun u hu => howner _ (hclaims u hu)

/-- A request that its owner takes and carries on reaches it in a state with the property. -/
theorem reachOwner_keeps {P : State → Prop} (hlink : ∀ (u : State) (f : Link → Link), P u → P (u.modLink f))
    {s u : State} {r : Instr} (hs : P s) (hu : s.reachOwner r = some u) : P u := by
  obtain ⟨rfl, -⟩ | ⟨rfl, -⟩ := reachOwner_some hu
  · exact hs
  · exact hlink _ _ (hlink _ _ hs)

end Sys2Proof.Machine
end

