-- ==== Sys2Proof/Proofs/LinkLaw.lean ====
section
/-! The law of the link (R163, R166, R167). The blocks behind the link change at most the progress of a request in flight;
the link itself stages within its room, launches only what is staged without overflow, and stages nothing while BUSY. -/

namespace Sys2Proof.Machine

/-! ## What the law speaks of -/

/-- The later state has the link of the earlier one, but for the progress of a request in flight. -/
structure KeepsLink (s t : State) : Prop where
  core : t.link.core = s.link.core
  busy : t.link.flight.busy = s.link.flight.busy

theorem KeepsLink.refl (s : State) : KeepsLink s s := ⟨rfl, rfl⟩

theorem KeepsLink.trans {s t u : State} (h : KeepsLink s t) (k : KeepsLink t u) : KeepsLink s u :=
  ⟨k.core.trans h.core, k.busy.trans h.busy⟩

theorem KeepsLink.of_link {s t : State} (h : t.link = s.link) : KeepsLink s t := by
  constructor <;> rw [h]

theorem Keeps.keepsLink {s t : State} (h : Keeps s t) : KeepsLink s t := ⟨h.core, h.busy⟩

/-- The law is one of staging buffer, overflow mark, last result and BUSY. -/
theorem linkLaw_of_same {s t : State} (hs : s.LinkLaw) (hstaging : t.link.staging = s.link.staging)
    (hoverflow : t.link.overflow = s.link.overflow) (hresult : t.link.lastResult = s.link.lastResult)
    (hbusy : t.link.flight.busy = s.link.flight.busy) : t.LinkLaw := by
  unfold State.LinkLaw
  rw [hstaging, hoverflow, hresult, hbusy]
  exact hs

theorem KeepsLink.linkLaw {s t : State} (h : KeepsLink s t) (hs : s.LinkLaw) : t.LinkLaw :=
  linkLaw_of_same hs (congrArg Link.staging h.core :) (congrArg Link.overflow h.core :)
    (congrArg Link.lastResult h.core :) h.busy

/-- An idle link has only its staging buffer to bound. -/
theorem linkLaw_of_idle {s : State} (hbusy : s.link.flight.busy = false)
    (hstaging : s.link.staging.length ≤ Config.stagingSize) : s.LinkLaw :=
  ⟨hstaging, fun h => by simp [hbusy] at h⟩

/-- A request reaches its owner with the link BUSY under the law: a launch empties the staging buffer. -/
theorem reachOwner_linkLaw {s u : State} {r : Instr} (hs : s.LinkLaw) (hu : s.reachOwner r = some u) :
    u.LinkLaw ∧ u.link.flight.busy = true := by
  obtain ⟨rfl, hf⟩ | ⟨rfl, -⟩ := reachOwner_some hu
  · exact ⟨hs, by rw [hf]; rfl⟩
  · exact ⟨⟨Nat.zero_le _, fun _ => ⟨rfl, rfl, rfl⟩⟩, rfl⟩

theorem setHandedBack_keepsLink {s : State} (hbusy : s.link.flight.busy = true) (r : Instr) (res : Result) :
    KeepsLink s (s.setHandedBack r res) := ⟨rfl, hbusy.symm⟩

theorem setCarried_keepsLink {s : State} (hbusy : s.link.flight.busy = true) (r : Instr) :
    KeepsLink s (s.setCarried r) := ⟨rfl, hbusy.symm⟩

/-- A request is served under the law if its owner leaves the link to the link. -/
theorem serve_linkLaw {s : State} {r : Instr} {owner : State → State × Result} (hs : s.LinkLaw)
    (howner : ∀ u : State, KeepsLink u (owner u).1) : (s.serve r owner).LinkLaw := by
  unfold State.serve
  split
  · exact hs
  · rename_i u hu
    obtain ⟨hlaw, hbusy⟩ := reachOwner_linkLaw hs hu
    exact ((howner u).trans (setHandedBack_keepsLink ((howner u).busy.trans hbusy) r _)).linkLaw hlaw

theorem serveTable_linkLaw {s : State} {r : Instr} {owner : State → State × Result} (hs : s.LinkLaw)
    (howner : ∀ u : State, KeepsLink u (owner u).1) : (s.serveTable r owner).LinkLaw :=
  serve_linkLaw hs fun u => (takeClaims_keeps (Keeps.refl u)).keepsLink.trans (howner _)

/-! ## Blocks behind the link that are not within `Keeps` -/

theorem writeConfigs_link (s : State) (mask : Byte) (cfg : ChannelConfig) : (s.writeConfigs mask cfg).link = s.link := by
  unfold State.writeConfigs
  exact foldl_rel (R := fun s t => t.link = s.link) _ _ rfl fun u n h => h

theorem takeChannelSet_link (s : State) (mask : Byte) (record : ConfigBody) :
    (s.takeChannelSet mask record).1.link = s.link := by
  unfold State.takeChannelSet
  split
  · rfl
  · split
    · rfl
    · split
      · rfl
      · split
        · rfl
        · exact writeConfigs_link s mask _

theorem takeProfileWrite_link (s : State) (index : Byte) (record : BitVec 48) :
    (s.takeProfileWrite index record).1.link = s.link := by
  unfold State.takeProfileWrite
  split <;> rfl

theorem takeSyncRead_link (s : State) : s.takeSyncRead.1.link = s.link := by
  unfold State.takeSyncRead
  split <;> rfl

theorem recordSnapshot_keepsLink (s : State) (l : LaneId) : KeepsLink s (s.recordSnapshot l) := by
  unfold State.recordSnapshot
  split
  · split
    · refine KeepsLink.trans ?_ (handBackSnapshot_keeps (Keeps.refl _) _).keepsLink
      exact KeepsLink.of_link rfl
    · exact KeepsLink.refl s
  · exact KeepsLink.refl s

theorem tick_keepsLink (s : State) (l : LaneId) : KeepsLink s (s.tick l) :=
  (judgeSteps_keeps (poolTick_keeps (lanePart_keeps (Keeps.refl s) l) l) l).keepsLink.trans
    (recordSnapshot_keepsLink _ l)

theorem endAllDetached_link (s : State) : s.endAllDetached.link = s.link := by
  unfold State.endAllDetached
  refine foldl_rel (R := fun s t => t.link = s.link) _ _ rfl fun u n h => ?_
  unfold State.endDetachedOf
  split <;> exact h

theorem resetTableAndChannels_link (s : State) : s.resetTableAndChannels.link = s.link := by
  simp only [State.resetTableAndChannels, State.handOver, modAttn_link, endAllDetached_link]

theorem resetLane_keepsLink (s : State) (l : LaneId) : KeepsLink s (s.resetLane l) :=
  (modLane_keeps (releaseClaims_keeps (endStarvedOf_keeps (Keeps.refl s) l) l) l _).keepsLink

theorem takeChannelHalt_keepsLink {s : State} (hbusy : s.link.flight.busy = true) (mask : Byte) :
    KeepsLink s (s.takeChannelHalt mask) := by
  refine (setCarried_keepsLink hbusy (.channelHalt mask)).trans (haltCheck_keeps ?_).keepsLink
  exact foldl_rel _ _ (Keeps.refl _) fun u n h => haltChannel_keeps h n

theorem takeSyncSnapshot_keepsLink {s : State} (hbusy : s.link.flight.busy = true) (mask lane : Byte) :
    KeepsLink s (s.takeSyncSnapshot mask lane) := by
  unfold State.takeSyncSnapshot
  dsimp only
  repeat' split
  all_goals exact ⟨rfl, hbusy.symm⟩

/-! ## Transfers -/

/-- A link reset keeps the law: it empties the staging buffer. -/
theorem clockReset_linkLaw {s t : State} (hs : s.LinkLaw) (hstaging : t.link.staging = []) (hoverflow : t.link.overflow = false)
    (hresult : t.link.lastResult = s.link.lastResult) (hflight : t.link.flight = s.link.flight) : t.LinkLaw := by
  refine ⟨by simp [hstaging], fun h => ⟨hstaging, hoverflow, ?_⟩⟩
  rw [hflight] at h
  obtain ⟨-, -, hlast⟩ := hs.2 h
  rw [hresult, hlast]

theorem stageUnchecked_length (k : Link) (payload : List Byte) (h : k.staging.length ≤ Config.stagingSize) :
    (k.stageUnchecked payload).staging.length ≤ Config.stagingSize := by
  simp only [Link.stageUnchecked, List.length_append, List.length_take]
  omega

/-- A checked piece stages its payload only where its count has room (R164). -/
theorem stageChecked_length (k : Link) (c : Byte) (rest : List Byte) (h : k.staging.length ≤ Config.stagingSize) :
    (k.stageChecked c rest).1.staging.length ≤ Config.stagingSize := by
  cases rest with
  | nil => exact h
  | cons count more =>
    simp only [Link.stageChecked]
    split
    · exact h
    · split
      · exact h
      · have : (k.staging ++ more.take count.toNat).length ≤ Config.stagingSize := by
          simp only [List.length_append, List.length_take]
          omega
        split
        · exact this
        · split <;> exact this

theorem stageChecked_flight (k : Link) (c : Byte) (rest : List Byte) : (k.stageChecked c rest).1.flight = k.flight := by
  unfold Link.stageChecked
  dsimp only
  repeat' split
  all_goals rfl

theorem first_length (k : Link) (c : Byte) (h : k.staging.length ≤ Config.stagingSize) :
    (k.first c).staging.length ≤ Config.stagingSize := by
  unfold Link.first
  split
  · exact Nat.zero_le _
  · exact h

theorem first_flight (k : Link) (c : Byte) : (k.first c).flight = k.flight := by
  unfold Link.first
  split <;> rfl

theorem writeRefusal_linkLaw {s : State} (hbusy : s.link.flight.busy = false) (code : ResultCode) :
    (s.writeRefusal code).LinkLaw := linkLaw_of_idle hbusy (Nat.zero_le _)

/-- The judgement at LAST launches from an emptied buffer without overflow, or writes a refusal (R166). -/
theorem judgeLast_linkLaw {s : State} (hbusy : s.link.flight.busy = false) : s.judgeLast.LinkLaw := by
  unfold State.judgeLast
  split
  · exact writeRefusal_linkLaw hbusy _
  · rename_i hoverflow
    split
    · exact writeRefusal_linkLaw hbusy _
    · exact ⟨Nat.zero_le _, fun _ => ⟨rfl, Bool.eq_false_iff.mpr hoverflow, rfl⟩⟩

theorem endPiece_linkLaw {s : State} (hbusy : s.link.flight.busy = false)
    (hstaging : s.link.staging.length ≤ Config.stagingSize) (c : Byte) (outcome : CheckOutcome) :
    (s.endPiece c outcome).LinkLaw := by
  unfold State.endPiece
  split
  · exact writeRefusal_linkLaw hbusy _
  · split
    · exact judgeLast_linkLaw hbusy
    · exact linkLaw_of_idle hbusy hstaging

theorem piece_linkLaw {s : State} (hs : s.LinkLaw) (hbusy : s.link.flight.busy = false) (c : Byte) (rest : List Byte) :
    (s.piece c rest).LinkLaw := by
  have hfirst := first_length s.link c hs.1
  have hidle : (s.link.first c).flight.busy = false := by rw [first_flight, hbusy]
  unfold State.piece
  dsimp only
  split
  · exact endPiece_linkLaw (by rw [stageChecked_flight]; exact hidle) (stageChecked_length _ c rest hfirst) _ _
  · exact endPiece_linkLaw (by exact hidle) (stageUnchecked_length _ rest hfirst) _ _

/-- An accepted command byte without RESULT finds the link idle (R162). -/
theorem idle_of_accepted {c : Byte} {busy : Bool} (h : ¬commandRefused c busy = true) (hr : ¬isResult c = true) :
    busy = false := by
  rw [Bool.not_eq_true] at h hr
  simp only [commandRefused, hr, Bool.not_false, Bool.and_true, Bool.or_eq_false_iff] at h
  exact h.2

theorem openWrite_linkLaw {s : State} (hs : s.LinkLaw) (bytes : List Byte) (low : Nat) (ending : Ending) :
    (s.openWrite bytes low ending).LinkLaw := by
  cases bytes with
  | nil => exact linkLaw_of_same hs rfl rfl rfl rfl
  | cons c rest =>
    simp only [State.openWrite]
    split
    · exact linkLaw_of_same hs rfl rfl rfl rfl
    · rename_i hc
      split
      · exact linkLaw_of_same hs rfl rfl rfl rfl
      · rename_i hr
        exact linkLaw_of_same (piece_linkLaw hs (idle_of_accepted hc hr) c rest) rfl rfl rfl rfl

theorem writeTransfer_linkLaw {s : State} (hs : s.LinkLaw) (address : BitVec 7) (bytes : List Byte) (low : Nat)
    (ending : Ending) : (s.writeTransfer address bytes low ending).LinkLaw := by
  unfold State.writeTransfer
  split
  · exact clockReset_linkLaw hs rfl rfl rfl rfl
  · split
    · exact linkLaw_of_same hs rfl rfl rfl rfl
    · split
      · exact linkLaw_of_same hs rfl rfl rfl rfl
      · exact openWrite_linkLaw hs bytes low ending

theorem readTransfer_linkLaw {s : State} (hs : s.LinkLaw) (address : BitVec 7) (clocked low : Nat) (ending : Ending) :
    (s.readTransfer address clocked low ending).LinkLaw := by
  unfold State.readTransfer
  split
  · exact clockReset_linkLaw hs rfl rfl rfl rfl
  · split <;> exact linkLaw_of_same hs rfl rfl rfl rfl

theorem completeRequest_linkLaw {s : State} (hs : s.LinkLaw) : s.completeRequest.LinkLaw := by
  unfold State.completeRequest
  split
  · dsimp only
    split <;> exact linkLaw_of_idle rfl hs.1
  · exact hs

/-- The first stage of a UNIT_RESET stays with its owner. -/
theorem unitReset_keepsLink {s : State} (hbusy : s.link.flight.busy = true) (p : Option ResetProgress) :
    KeepsLink s ({ s.resetTableAndChannels with unitReset := p }.setCarried .unitReset) := by
  have hlink : KeepsLink s { s.resetTableAndChannels with unitReset := p } :=
    KeepsLink.of_link (by simp only [resetTableAndChannels_link])
  exact hlink.trans (setCarried_keepsLink (hlink.busy.trans hbusy) .unitReset)

/-! ## Every command -/

theorem effect_linkLaw (c : Instr) (s : State) (hs : s.LinkLaw) : (effect c s).LinkLaw := by
  have keeps {t : State} (h : Keeps s t) : t.LinkLaw := h.keepsLink.linkLaw hs
  cases c with
  | pinReset straps => exact ⟨Nat.zero_le _, fun h => nomatch h⟩
  | headerCompletion n received =>
    simp only [effect, exec, execHeaderCompletion]
    exact keeps (headerCompletion_keeps (Keeps.refl s) n received)
  | packetCompletion n lines check =>
    simp only [effect, exec, execPacketCompletion]
    exact keeps (packetCompletion_keeps (Keeps.refl s) n lines check)
  | lockGained n lines check =>
    simp only [effect, exec, execLockGained]
    repeat' split
    exacts [keeps (judgePacket_keeps (Keeps.refl s) n _), hs, hs]
  | detachment n event =>
    simp only [effect, exec, execDetachment]
    split
    exacts [keeps (portEvent_keeps (Keeps.refl s) n event), hs]
  | autoRejoin n lines check =>
    simp only [effect, exec, execAutoRejoin]
    repeat' split
    exacts [keeps (judgePacket_keeps (Keeps.refl s) n _), hs, hs]
  | silenceTimeout n =>
    simp only [effect, exec, execSilenceTimeout]
    split
    exacts [keeps (loseLock_keeps (Keeps.refl s) n), hs]
  | windowShift n =>
    simp only [effect, exec, execWindowShift]
    split
    exacts [keeps (shift_keeps (Keeps.refl s) n _), hs]
  | cadenceLock n =>
    simp only [effect, exec, execCadenceLock]
    exact keeps (shiftWith_keeps (Keeps.refl s) n .lock)
  | unlockedRunExpiry n =>
    simp only [effect, exec, execUnlockedRunExpiry]
    exact keeps (shiftWith_keeps (Keeps.refl s) n .expiry)
  | lookup n =>
    simp only [effect, exec, execLookup]
    split
    exacts [keeps (takeLookup_keeps (takeSequencerBelow_keeps (Keeps.refl s) n) n _), hs]
  | release n =>
    simp only [effect, exec, execRelease]
    split
    exacts [keeps (takeRelease_keeps (takeSequencerBelow_keeps (Keeps.refl s) n) n _), hs]
  | proposalClaim n =>
    simp only [effect, exec, execProposalClaim]
    split
    · exact keeps (foldl_rel _ _ (takeSequencerClaims_keeps (Keeps.refl s)) fun u m h => takeProposal_keeps h m)
    · exact hs
  | entryAdd key first last d =>
    simp only [effect, exec, execEntryAdd]
    exact serveTable_linkLaw hs fun u => (takeEntryAdd_keeps (Keeps.refl u) key first last d).keepsLink
  | entryAmend handle g first last d =>
    simp only [effect, exec, execEntryAmend]
    exact serveTable_linkLaw hs fun u => (takeEntryAmend_keeps (Keeps.refl u) handle g first last d).keepsLink
  | entryRetire handle g =>
    simp only [effect, exec, execEntryRetire]
    exact serveTable_linkLaw hs fun u => (takeEntryRetire_keeps (Keeps.refl u) handle g).keepsLink
  | entryRead handle =>
    simp only [effect, exec, execEntryRead]
    exact serveTable_linkLaw hs fun u => (takeEntryRead_keeps (Keeps.refl u) handle).keepsLink
  | entryFind key f =>
    simp only [effect, exec, execEntryFind]
    exact serveTable_linkLaw hs fun u => (takeEntryFind_keeps (Keeps.refl u) key f).keepsLink
  | entryNext key f =>
    simp only [effect, exec, execEntryNext]
    exact serveTable_linkLaw hs fun u => (takeEntryNext_keeps (Keeps.refl u) key f).keepsLink
  | proposalConfirm handle g =>
    simp only [effect, exec, execProposalConfirm]
    exact serveTable_linkLaw hs fun u => (takeProposalConfirm_keeps (Keeps.refl u) handle g).keepsLink
  | proposalReject handle g =>
    simp only [effect, exec, execProposalReject]
    exact serveTable_linkLaw hs fun u => (takeProposalReject_keeps (Keeps.refl u) handle g).keepsLink
  | channelSet mask record =>
    simp only [effect, exec, execChannelSet]
    exact serveTable_linkLaw hs fun u => KeepsLink.of_link (takeChannelSet_link u mask record)
  | channelStart mask =>
    simp only [effect, exec, execChannelStart]
    exact serve_linkLaw hs fun u => (takeChannelStart_keeps (Keeps.refl u) mask).keepsLink
  | channelHalt mask =>
    simp only [effect, exec, execChannelHalt]
    split
    · rename_i u hu
      obtain ⟨hlaw, hbusy⟩ := reachOwner_linkLaw hs hu
      exact (takeChannelHalt_keepsLink hbusy mask).linkLaw hlaw
    · exact hs
  | channelRead n flags =>
    simp only [effect, exec, execChannelRead]
    exact serve_linkLaw hs fun u => (takeChannelRead_keeps (Keeps.refl u) n flags).keepsLink
  | syncSnapshot mask lane =>
    simp only [effect, exec, execSyncSnapshot]
    split
    · rename_i u hu
      obtain ⟨hlaw, hbusy⟩ := reachOwner_linkLaw hs hu
      exact (takeSyncSnapshot_keepsLink hbusy mask lane).linkLaw hlaw
    · exact hs
  | snapshotWaitExpiry =>
    simp only [effect, exec, execSnapshotWaitExpiry]
    split
    exacts [(handBackSnapshot_keeps (Keeps.refl _) _).keepsLink.linkLaw hs, hs]
  | syncRead =>
    simp only [effect, exec, execSyncRead]
    exact serve_linkLaw hs fun u => KeepsLink.of_link (takeSyncRead_link u)
  | profileWrite index record =>
    simp only [effect, exec, execProfileWrite]
    exact serve_linkLaw hs fun u => KeepsLink.of_link (takeProfileWrite_link u index record)
  | profileRead index =>
    simp only [effect, exec, execProfileRead]
    exact serve_linkLaw hs fun u => (takeProfileRead_keeps (Keeps.refl u) index).keepsLink
  | jobStart =>
    simp only [effect, exec, execJobStart]
    exact keeps (startOne_keeps (Keeps.refl s))
  | jobCompletion e =>
    simp only [effect, exec, execJobCompletion]
    exact keeps (completeJob_keeps (Keeps.refl s) e)
  | deadlineWithdrawal l n =>
    simp only [effect, exec, execDeadlineWithdrawal]
    split
    exacts [(tick_keepsLink s l).linkLaw hs, hs]
  | deadlineCancellation l e =>
    simp only [effect, exec, execDeadlineCancellation]
    split
    exacts [(tick_keepsLink s l).linkLaw hs, hs]
  | withdrawOrder n =>
    simp only [effect, exec, execWithdrawOrder]
    split
    exacts [keeps (takeWithdrawOrder_keeps (Keeps.refl s) n), hs]
  | cancelOrder n =>
    simp only [effect, exec, execCancelOrder]
    split
    exacts [keeps (takeCancelOrder_keeps (Keeps.refl s) n), hs]
  | laneTick l =>
    simp only [effect, exec, execLaneTick]
    exact (tick_keepsLink s l).linkLaw hs
  | starvation l =>
    simp only [effect, exec, execStarvation]
    split
    exacts [(tick_keepsLink s l).linkLaw hs, hs]
  | laneSet lane record =>
    simp only [effect, exec, execLaneSet]
    exact serve_linkLaw hs fun u => (takeLaneSet_keeps (Keeps.refl u) lane record).keepsLink
  | cueAdd lane target trigger f =>
    simp only [effect, exec, execCueAdd]
    exact serve_linkLaw hs fun u => (takeCueAdd_keeps (Keeps.refl u) lane target trigger f).keepsLink
  | cueAbort lane cue =>
    simp only [effect, exec, execCueAbort]
    exact serve_linkLaw hs fun u => (takeCueAbort_keeps (Keeps.refl u) lane cue).keepsLink
  | laneRead lane flags =>
    simp only [effect, exec, execLaneRead]
    exact serve_linkLaw hs fun u => (takeLaneRead_keeps (Keeps.refl u) lane flags).keepsLink
  | attnRead =>
    simp only [effect, exec, execAttnRead]
    exact serve_linkLaw hs fun u => KeepsLink.refl u
  | attnAck sources =>
    simp only [effect, exec, execAttnAck]
    exact serve_linkLaw hs fun u => KeepsLink.of_link rfl
  | attnSet enables modes threshold =>
    simp only [effect, exec, execAttnSet]
    refine serve_linkLaw hs fun u => KeepsLink.of_link ?_
    simp only [State.takeAttnSet]
    repeat' split
    all_goals rfl
  | unitRead =>
    simp only [effect, exec, execUnitRead]
    exact serveTable_linkLaw hs fun u => KeepsLink.refl u
  | unitReset =>
    simp only [effect, exec, execUnitReset]
    split
    · rename_i u hu
      obtain ⟨hlaw, hbusy⟩ := reachOwner_linkLaw hs hu
      exact (unitReset_keepsLink hbusy _).linkLaw hlaw
    · exact hs
  | unitResetPoolPart =>
    simp only [effect, exec, execUnitResetPoolPart]
    repeat' split
    all_goals exact linkLaw_of_same hs rfl rfl rfl rfl
  | unitResetLanePart l =>
    simp only [effect, exec, execUnitResetLanePart]
    repeat' split
    · exact hs
    · exact linkLaw_of_same ((resetLane_keepsLink s l).linkLaw hs) rfl rfl rfl rfl
    · exact hs
  | unitResetAttentionPart =>
    simp only [effect, exec, execUnitResetAttentionPart]
    repeat' split
    · exact (handBack_keeps (Keeps.refl _) _).keepsLink.linkLaw (linkLaw_of_same hs rfl rfl rfl rfl)
    · exact hs
    · exact hs
  | uncheckedPiece address bytes low ending =>
    simp only [effect, exec, execUncheckedPiece]
    exact writeTransfer_linkLaw hs address bytes low ending
  | checkedPiece address bytes low ending =>
    simp only [effect, exec, execCheckedPiece]
    exact writeTransfer_linkLaw hs address bytes low ending
  | resultRead address written clocked low ending =>
    simp only [effect, exec, execResultRead]
    refine readTransfer_linkLaw ?_ address clocked low ending
    split
    exacts [hs, writeTransfer_linkLaw hs _ _ _ _]
  | requestCompletion =>
    simp only [effect, exec, execRequestCompletion]
    exact completeRequest_linkLaw hs
  | linkReset =>
    simp only [effect, exec, execLinkReset]
    exact clockReset_linkLaw hs rfl rfl rfl rfl
  | unitResetSnapshotStorePart =>
    simp only [effect, exec, execUnitResetSnapshotStorePart]
    repeat' split
    all_goals exact linkLaw_of_same hs rfl rfl rfl rfl

/-- Settles O54: no command leaves the law of the link. -/
theorem stepKeepsLinkLaw : Obligations.StepKeepsLinkLaw := fun _ _ hs h =>
  step_keeps (fun _ _ hu => linkLaw_of_same hu rfl rfl rfl rfl) effect_linkLaw hs h

end Sys2Proof.Machine
end

