-- ==== Sys2Proof/Proofs/Parts.lean ====
section
/-! The operations that the commands are made of. A property of states that does not speak of the link, the attention unit,
the snapshot store, the profiles and the queue of commands is kept by every step once each of these operations keeps it. -/

namespace Sys2Proof.Machine

/-- A property of states that the operations of the commands keep, all but a pin reset and the emptying of the snapshot
store: it does not speak of the parts that the first group names, of the snapshot store while that holds no snapshot or a
request waits there, and each operation of a block keeps it. -/
structure KeptByOps (P : State → Prop) : Prop where
  queue : ∀ (s : State) (rest : List Instr), P s → P { s with pending := rest }
  link : ∀ (s : State) (f : Link → Link), P s → P (s.modLink f)
  attn : ∀ (s : State) (f : Attn → Attn), P s → P (s.modAttn f)
  store : ∀ (s : State) (x : Store), s.store.waiting.isSome = true ∨ s.store.snapshot = none → P s →
    P { s with store := x }
  profiles : ∀ (s : State) (v : Vector Profile 16), P s → P { s with profiles := v }
  progress : ∀ (s : State) (p : Option ResetProgress), P s → P { s with unitReset := p }
  judgeHeader : ∀ (s : State) (n : Channel) (h : HeaderBytes), P s → P (s.judgeHeader n h)
  judgePacket : ∀ (s : State) (n : Channel) (f : Field), P s → P (s.judgePacket n f)
  loseLock : ∀ (s : State) (n : Channel), P s → P (s.loseLock n)
  beginShift : ∀ (s : State) (n : Channel) (a : Arrived), P s → P (s.modChan n fun c => c.beginShift a)
  takeLookup : ∀ (s : State) (n : Channel) (a : Arrived), P s → P (s.takeLookup n a)
  takeRelease : ∀ (s : State) (n : Channel) (b : Bool), P s → P (s.takeRelease n b)
  takeProposal : ∀ (s : State) (n : Channel), P s → P (s.takeProposal n)
  takeEntryAdd : ∀ (s : State) (key : Key) (first last : FieldNum) (d : BitVec 24), P s →
    P (s.takeEntryAdd key first last d).1
  takeEntryAmend : ∀ (s : State) (handle : BitVec 16) (g : Gen) (first last : FieldNum) (d : BitVec 24), P s →
    P (s.takeEntryAmend handle g first last d).1
  takeEntryRetire : ∀ (s : State) (handle : BitVec 16) (g : Gen), P s → P (s.takeEntryRetire handle g).1
  takeProposalConfirm : ∀ (s : State) (handle : BitVec 16) (g : Gen), P s → P (s.takeProposalConfirm handle g).1
  takeProposalReject : ∀ (s : State) (handle : BitVec 16) (g : Gen), P s → P (s.takeProposalReject handle g).1
  takeChannelSet : ∀ (s : State) (mask : Byte) (record : ConfigBody), P s → P (s.takeChannelSet mask record).1
  startChannel : ∀ (s : State) (n : Channel), P s → P (s.startChannel n)
  haltChannel : ∀ (s : State) (n : Channel), P s → P (s.haltChannel n)
  clearCounters : ∀ (s : State) (n : Channel), P s → P (s.modChan n Chan.clearCounters)
  startOne : ∀ s : State, P s → P s.startOne
  completeJob : ∀ (s : State) (e : EngineId), P s → P (s.completeJob e)
  takeWithdrawOrder : ∀ (s : State) (n : Channel), P s → P (s.takeWithdrawOrder n)
  takeCancelOrder : ∀ (s : State) (n : Channel), P s → P (s.takeCancelOrder n)
  tickParts : ∀ (s : State) (l : LaneId), P s → P ((s.lanePart l).poolTick l)
  judgeStep : ∀ (s : State) (n : Channel), P s → P (s.judgeStep n)
  takeLaneSet : ∀ (s : State) (lane : Byte) (record : BitVec 48), P s → P (s.takeLaneSet lane record).1
  takeCueAdd : ∀ (s : State) (lane target trigger : Byte) (f : FieldNum), P s →
    P (s.takeCueAdd lane target trigger f).1
  takeCueAbort : ∀ (s : State) (lane cue : Byte), P s → P (s.takeCueAbort lane cue).1
  clearLaneCounters : ∀ (s : State) (l : LaneId), P s → P (s.modLane l fun x => { x with counters := LaneCounters.zero })
  resetTableAndChannels : ∀ s : State, P s → P s.resetTableAndChannels
  resetPool : ∀ s : State, P s → P s.resetPool
  resetLane : ∀ (s : State) (l : LaneId), P s → P (s.resetLane l)

namespace KeptByOps

variable {P : State → Prop}

theorem foldl {α : Type} {f : State → α → State} {l : List α} {s : State} (hs : P s)
    (hf : ∀ (s : State) (a : α), P s → P (f s a)) : P (l.foldl f s) :=
  foldl_rel (R := fun _ t => P t) (s := s) f l hs hf

theorem handBack (h : KeptByOps P) {s : State} (hs : P s) (res : Result) : P (s.handBack res) := by
  unfold State.handBack
  split
  exacts [h.link _ _ hs, hs]

theorem handBackSnapshot (h : KeptByOps P) {s : State} (hs : P s) (res : Result) : P (s.handBackSnapshot res) := by
  unfold State.handBackSnapshot
  split
  exacts [h.handBack hs res, hs]

theorem haltCheck (h : KeptByOps P) {s : State} (hs : P s) : P s.haltCheck := by
  unfold State.haltCheck
  repeat' split
  exacts [h.handBack hs _, hs, hs]

/-! ## The Table Controller's order -/

theorem takeSequencerClaim (h : KeptByOps P) {s : State} (hs : P s) (n : Channel) : P (s.takeSequencerClaim n) := by
  unfold State.takeSequencerClaim
  split
  exacts [hs, h.takeLookup s n _ hs, h.takeRelease s n _ hs]

theorem takeSequencerBelow (h : KeptByOps P) {s : State} (hs : P s) (n : Channel) : P (s.takeSequencerBelow n) := by
  unfold State.takeSequencerBelow
  exact foldl hs fun _ m hu => h.takeSequencerClaim hu m

theorem takeSequencerClaims (h : KeptByOps P) {s : State} (hs : P s) : P s.takeSequencerClaims := by
  unfold State.takeSequencerClaims
  exact foldl hs fun _ m hu => h.takeSequencerClaim hu m

theorem takeClaims (h : KeptByOps P) {s : State} (hs : P s) : P s.takeClaims := by
  unfold State.takeClaims
  exact foldl (h.takeSequencerClaims hs) fun u m hu => h.takeProposal u m hu

theorem shift (h : KeptByOps P) {s : State} (hs : P s) (n : Channel) (a : Arrived) : P (s.shift n a) :=
  h.takeLookup _ n a (h.takeSequencerBelow (h.beginShift s n a hs) n)

theorem shiftWith (h : KeptByOps P) {s : State} (hs : P s) (n : Channel) (e : MonitorEvent) :
    P (s.shiftWith n e) := by
  unfold State.shiftWith
  repeat' split
  exacts [h.shift hs n _, hs, hs]

/-! ## Events of a port and of a lane -/

theorem headerCompletion (h : KeptByOps P) {s : State} (hs : P s) (n : Channel) (received : List Byte) :
    P (s.headerCompletion n received) := by
  unfold State.headerCompletion
  split
  exacts [h.judgeHeader s n _ hs, hs]

theorem packetCompletion (h : KeptByOps P) {s : State} (hs : P s) (n : Channel) (lines check : List Byte) :
    P (s.packetCompletion n lines check) := by
  unfold State.packetCompletion
  split
  exacts [h.judgePacket s n _ hs, hs]

theorem portEvent (h : KeptByOps P) {s : State} (hs : P s) (n : Channel) (event : PortEvent) :
    P (s.portEvent n event) := by
  cases event with
  | header received => exact h.headerCompletion hs n received
  | packet lines check => exact h.packetCompletion hs n lines check

theorem recordSnapshot (h : KeptByOps P) {s : State} (hs : P s) (l : LaneId) : P (s.recordSnapshot l) := by
  unfold State.recordSnapshot
  split
  · rename_i hwaiting
    split
    exacts [h.handBackSnapshot (h.store s _ (Or.inl (by rw [hwaiting]; rfl)) hs) _, hs]
  · exact hs

theorem judgeSteps (h : KeptByOps P) {s : State} (hs : P s) (l : LaneId) : P (s.judgeSteps l) := by
  unfold State.judgeSteps
  refine foldl hs fun u n hu => ?_
  split
  exacts [h.judgeStep u n hu, hu]

theorem tick (h : KeptByOps P) {s : State} (hs : P s) (l : LaneId) : P (s.tick l) :=
  h.recordSnapshot (h.judgeSteps (h.tickParts s l hs) l) l

/-! ## Requests -/

theorem serve (h : KeptByOps P) {s : State} (hs : P s) {r : Instr} {owner : State → State × Result}
    (howner : ∀ u : State, P u → P (owner u).1) : P (s.serve r owner) :=
  serve_keeps h.link hs howner

theorem serveTable (h : KeptByOps P) {s : State} (hs : P s) {r : Instr} {owner : State → State × Result}
    (howner : ∀ u : State, P u → P (owner u).1) : P (s.serveTable r owner) :=
  serveTable_keeps h.link (fun _ hu => h.takeClaims hu) hs howner

theorem takeChannelStart (h : KeptByOps P) {s : State} (hs : P s) (mask : Byte) : P (s.takeChannelStart mask).1 := by
  unfold State.takeChannelStart
  split
  exacts [foldl hs fun u n hu => h.startChannel u n hu, hs]

theorem takeChannelHalt (h : KeptByOps P) {s : State} (hs : P s) (mask : Byte) : P (s.takeChannelHalt mask) :=
  h.haltCheck (foldl (h.link s _ hs) fun u n hu => h.haltChannel u n hu)

theorem takeChannelRead (h : KeptByOps P) {s : State} (hs : P s) (channel flags : Byte) :
    P (s.takeChannelRead channel flags).1 := by
  unfold State.takeChannelRead
  split
  · exact hs
  · dsimp only
    split
    exacts [h.clearCounters s _ hs, hs]

theorem takeLaneRead (h : KeptByOps P) {s : State} (hs : P s) (lane flags : Byte) :
    P (s.takeLaneRead lane flags).1 := by
  unfold State.takeLaneRead
  split
  · exact hs
  · dsimp only
    split
    exacts [h.clearLaneCounters s _ hs, hs]

theorem takeSyncSnapshot (h : KeptByOps P) {s : State} (hs : P s) (mask lane : Byte) :
    P (s.takeSyncSnapshot mask lane) := by
  unfold State.takeSyncSnapshot
  dsimp only
  split
  · exact h.link s _ hs
  · split
    · exact h.link s _ hs
    · split
      · exact h.link s _ hs
      · rename_i hnone
        exact h.link _ _ (h.store s _ (Or.inr (by simpa using hnone)) hs)

theorem takeProfileWrite (h : KeptByOps P) {s : State} (hs : P s) (index : Byte) (record : BitVec 48) :
    P (s.takeProfileWrite index record).1 := by
  unfold State.takeProfileWrite
  split
  exacts [h.profiles s _ hs, hs]

theorem takeAttnSet (h : KeptByOps P) {s : State} (hs : P s) (enables modes : Byte) (threshold : BitVec 16) :
    P (s.takeAttnSet enables modes threshold).1 := by
  unfold State.takeAttnSet
  split
  · split
    · exact hs
    · dsimp only
      exact h.attn s _ hs
  · exact hs

/-! ## The link -/

theorem writeRefusal (h : KeptByOps P) {s : State} (hs : P s) (code : ResultCode) : P (s.writeRefusal code) :=
  h.attn _ _ (h.link s _ hs)

theorem endPiece (h : KeptByOps P) {s : State} (hs : P s) (c : Byte) (outcome : CheckOutcome) :
    P (s.endPiece c outcome) := by
  unfold State.endPiece State.judgeLast
  repeat' split
  exacts [h.writeRefusal hs _, h.writeRefusal hs _, h.writeRefusal hs _, h.link s _ hs, hs]

theorem openWrite (h : KeptByOps P) {s : State} (hs : P s) (bytes : List Byte) (low : Nat) (ending : Ending) :
    P (s.openWrite bytes low ending) := by
  have piece (c : Byte) (rest : List Byte) : P (s.piece c rest) := by
    unfold State.piece
    dsimp only
    split
    · exact h.endPiece (h.link s (fun k => ((k.first c).stageChecked c rest).1) hs) _ _
    · exact h.endPiece (h.link s (fun k => (k.first c).stageUnchecked rest) hs) _ _
  cases bytes with
  | nil =>
    simp only [State.openWrite]
    exact h.link s _ hs
  | cons c rest =>
    simp only [State.openWrite]
    repeat' split
    exacts [h.link s _ hs, h.link _ _ (h.link s _ hs), h.link _ _ (piece c rest)]

theorem writeTransfer (h : KeptByOps P) {s : State} (hs : P s) (address : BitVec 7) (bytes : List Byte) (low : Nat)
    (ending : Ending) : P (s.writeTransfer address bytes low ending) := by
  unfold State.writeTransfer
  repeat' split
  exacts [h.link s _ hs, h.link s _ hs, h.link s _ hs, h.openWrite hs bytes low ending]

theorem readTransfer (h : KeptByOps P) {s : State} (hs : P s) (address : BitVec 7) (clocked low : Nat)
    (ending : Ending) : P (s.readTransfer address clocked low ending) := by
  unfold State.readTransfer
  repeat' split
  all_goals exact h.link s _ hs

theorem completeRequest (h : KeptByOps P) {s : State} (hs : P s) : P s.completeRequest := by
  unfold State.completeRequest
  repeat' split
  exacts [h.attn _ _ (h.link s _ hs), h.link s _ hs, hs]

/-! ## Every command -/

/-- Every command but a pin reset, SYNC_READ and the snapshot store's part of a UNIT_RESET. -/
theorem effect (h : KeptByOps P) {c : Instr} (hpins : ∀ k : BitVec 3, c ≠ .pinReset k) (hread : c ≠ .syncRead)
    (hpart : c ≠ .unitResetSnapshotStorePart) {s : State} (hs : P s) : P (effect c s) := by
  cases c with
  | pinReset straps => exact absurd rfl (hpins straps)
  | headerCompletion n received => exact h.headerCompletion hs n received
  | packetCompletion n lines check => exact h.packetCompletion hs n lines check
  | lockGained n lines check =>
    simp only [Machine.effect, exec, execLockGained]
    repeat' split
    exacts [h.judgePacket s n _ hs, hs, hs]
  | detachment n event =>
    simp only [Machine.effect, exec, execDetachment]
    split
    exacts [h.portEvent hs n event, hs]
  | autoRejoin n lines check =>
    simp only [Machine.effect, exec, execAutoRejoin]
    repeat' split
    exacts [h.judgePacket s n _ hs, hs, hs]
  | silenceTimeout n =>
    simp only [Machine.effect, exec, execSilenceTimeout]
    split
    exacts [h.loseLock s n hs, hs]
  | windowShift n =>
    simp only [Machine.effect, exec, execWindowShift]
    split
    exacts [h.shift hs n _, hs]
  | cadenceLock n =>
    simp only [Machine.effect, exec, execCadenceLock]
    exact h.shiftWith hs n _
  | unlockedRunExpiry n =>
    simp only [Machine.effect, exec, execUnlockedRunExpiry]
    exact h.shiftWith hs n _
  | lookup n =>
    simp only [Machine.effect, exec, execLookup]
    split
    exacts [h.takeLookup _ n _ (h.takeSequencerBelow hs n), hs]
  | release n =>
    simp only [Machine.effect, exec, execRelease]
    split
    exacts [h.takeRelease _ n _ (h.takeSequencerBelow hs n), hs]
  | proposalClaim n =>
    simp only [Machine.effect, exec, execProposalClaim]
    split
    exacts [foldl (h.takeSequencerClaims hs) fun u m hu => h.takeProposal u m hu, hs]
  | entryAdd key first last d =>
    simp only [Machine.effect, exec, execEntryAdd]
    exact h.serveTable hs fun u hu => h.takeEntryAdd u key first last d hu
  | entryAmend handle g first last d =>
    simp only [Machine.effect, exec, execEntryAmend]
    exact h.serveTable hs fun u hu => h.takeEntryAmend u handle g first last d hu
  | entryRetire handle g =>
    simp only [Machine.effect, exec, execEntryRetire]
    exact h.serveTable hs fun u hu => h.takeEntryRetire u handle g hu
  | entryRead handle =>
    simp only [Machine.effect, exec, execEntryRead]
    refine h.serveTable hs fun u hu => ?_
    unfold State.takeEntryRead
    split <;> exact hu
  | entryFind key f =>
    simp only [Machine.effect, exec, execEntryFind]
    refine h.serveTable hs fun u hu => ?_
    unfold State.takeEntryFind
    split <;> exact hu
  | entryNext key f =>
    simp only [Machine.effect, exec, execEntryNext]
    refine h.serveTable hs fun u hu => ?_
    unfold State.takeEntryNext
    split <;> exact hu
  | proposalConfirm handle g =>
    simp only [Machine.effect, exec, execProposalConfirm]
    exact h.serveTable hs fun u hu => h.takeProposalConfirm u handle g hu
  | proposalReject handle g =>
    simp only [Machine.effect, exec, execProposalReject]
    exact h.serveTable hs fun u hu => h.takeProposalReject u handle g hu
  | channelSet mask record =>
    simp only [Machine.effect, exec, execChannelSet]
    exact h.serveTable hs fun u hu => h.takeChannelSet u mask record hu
  | channelStart mask =>
    simp only [Machine.effect, exec, execChannelStart]
    exact h.serve hs fun u hu => h.takeChannelStart hu mask
  | channelHalt mask =>
    simp only [Machine.effect, exec, execChannelHalt]
    split
    · rename_i u hu
      exact h.takeChannelHalt (reachOwner_keeps h.link hs hu) mask
    · exact hs
  | channelRead channel flags =>
    simp only [Machine.effect, exec, execChannelRead]
    exact h.serve hs fun u hu => h.takeChannelRead hu channel flags
  | syncSnapshot mask lane =>
    simp only [Machine.effect, exec, execSyncSnapshot]
    split
    · rename_i u hu
      exact h.takeSyncSnapshot (reachOwner_keeps h.link hs hu) mask lane
    · exact hs
  | snapshotWaitExpiry =>
    simp only [Machine.effect, exec, execSnapshotWaitExpiry]
    split
    · rename_i hwaiting
      exact h.handBackSnapshot (h.store s _ (Or.inl hwaiting) hs) _
    · exact hs
  | syncRead => exact absurd rfl hread
  | profileWrite index record =>
    simp only [Machine.effect, exec, execProfileWrite]
    exact h.serve hs fun u hu => h.takeProfileWrite hu index record
  | profileRead index =>
    simp only [Machine.effect, exec, execProfileRead]
    refine h.serve hs fun u hu => ?_
    unfold State.takeProfileRead
    split <;> exact hu
  | jobStart => exact h.startOne s hs
  | jobCompletion e => exact h.completeJob s e hs
  | deadlineWithdrawal l n =>
    simp only [Machine.effect, exec, execDeadlineWithdrawal]
    split
    exacts [h.tick hs l, hs]
  | deadlineCancellation l e =>
    simp only [Machine.effect, exec, execDeadlineCancellation]
    split
    exacts [h.tick hs l, hs]
  | withdrawOrder n =>
    simp only [Machine.effect, exec, execWithdrawOrder]
    split
    exacts [h.takeWithdrawOrder s n hs, hs]
  | cancelOrder n =>
    simp only [Machine.effect, exec, execCancelOrder]
    split
    exacts [h.takeCancelOrder s n hs, hs]
  | laneTick l => exact h.tick hs l
  | starvation l =>
    simp only [Machine.effect, exec, execStarvation]
    split
    exacts [h.tick hs l, hs]
  | laneSet lane record =>
    simp only [Machine.effect, exec, execLaneSet]
    exact h.serve hs fun u hu => h.takeLaneSet u lane record hu
  | cueAdd lane target trigger f =>
    simp only [Machine.effect, exec, execCueAdd]
    exact h.serve hs fun u hu => h.takeCueAdd u lane target trigger f hu
  | cueAbort lane cue =>
    simp only [Machine.effect, exec, execCueAbort]
    exact h.serve hs fun u hu => h.takeCueAbort u lane cue hu
  | laneRead lane flags =>
    simp only [Machine.effect, exec, execLaneRead]
    exact h.serve hs fun u hu => h.takeLaneRead hu lane flags
  | attnRead =>
    simp only [Machine.effect, exec, execAttnRead]
    exact h.serve hs fun u hu => hu
  | attnAck sources =>
    simp only [Machine.effect, exec, execAttnAck]
    refine h.serve hs fun u hu => ?_
    dsimp only
    exact h.attn u _ hu
  | attnSet enables modes threshold =>
    simp only [Machine.effect, exec, execAttnSet]
    exact h.serve hs fun u hu => h.takeAttnSet hu enables modes threshold
  | unitRead =>
    simp only [Machine.effect, exec, execUnitRead]
    exact h.serveTable hs fun u hu => hu
  | unitReset =>
    simp only [Machine.effect, exec, execUnitReset]
    split
    · rename_i u hu
      exact h.link _ _ (h.progress _ _ (h.resetTableAndChannels u (reachOwner_keeps h.link hs hu)))
    · exact hs
  | unitResetPoolPart =>
    simp only [Machine.effect, exec, execUnitResetPoolPart]
    repeat' split
    exacts [hs, h.progress _ _ (h.resetPool s hs), hs]
  | unitResetLanePart l =>
    simp only [Machine.effect, exec, execUnitResetLanePart]
    repeat' split
    exacts [hs, h.progress _ _ (h.resetLane s l hs), hs]
  | unitResetAttentionPart =>
    simp only [Machine.effect, exec, execUnitResetAttentionPart]
    repeat' split
    exacts [h.handBack (h.progress _ none (h.attn s Attn.clearLatches hs)) _, hs, hs]
  | uncheckedPiece address bytes low ending => exact h.writeTransfer hs address bytes low ending
  | checkedPiece address bytes low ending => exact h.writeTransfer hs address bytes low ending
  | resultRead address written clocked low ending =>
    simp only [Machine.effect, exec, execResultRead]
    refine h.readTransfer ?_ address clocked low ending
    split
    exacts [hs, h.writeTransfer hs _ _ _ _]
  | requestCompletion => exact h.completeRequest hs
  | linkReset => exact h.link s _ hs
  | unitResetSnapshotStorePart => exact absurd rfl hpart

end KeptByOps

/-- A property of states that does not speak of the snapshot store, that holds after a pin reset and that the operations of
the commands keep. -/
structure KeptByParts (P : State → Prop) : Prop extends KeptByOps P where
  anyStore : ∀ (s : State) (x : Store), P s → P { s with store := x }
  pinReset : ∀ (straps : BitVec 3) (rest : List Instr), P { State.resetWith straps with pending := rest }

namespace KeptByParts

variable {P : State → Prop}

theorem takeSyncRead (h : KeptByParts P) {s : State} (hs : P s) : P s.takeSyncRead.1 := by
  unfold State.takeSyncRead
  split
  exacts [hs, h.anyStore s _ hs]

theorem effect (h : KeptByParts P) (c : Instr) (s : State) (hs : P s) : P (effect c s) := by
  by_cases hread : c = .syncRead
  · subst hread
    exact h.serve hs fun u hu => h.takeSyncRead hu
  by_cases hpart : c = .unitResetSnapshotStorePart
  · subst hpart
    simp only [Machine.effect, exec, execUnitResetSnapshotStorePart]
    repeat' split
    exacts [hs, h.progress _ _ (h.anyStore s { snapshot := none, waiting := none } hs), hs]
  by_cases hpins : ∃ k : BitVec 3, c = .pinReset k
  · obtain ⟨k, rfl⟩ := hpins
    exact h.pinReset k s.pending
  · exact h.toKeptByOps.effect (fun k hk => hpins ⟨k, hk⟩) hread hpart hs

/-- A property that the operations keep is kept by every step. -/
theorem step (h : KeptByParts P) {s t : State} (hs : P s) (hstep : step s = .next t) : P t :=
  step_keeps h.queue h.effect hs hstep

end KeptByParts

end Sys2Proof.Machine
end

