-- ==== Sys2Proof/Proofs/PoolLaw.lean ====
section
/-! The law of the pool (R129, R136). What frees an engine or queues a request has the arbiter act before it ends, and the
arbiter leaves no engine IDLE beside a queued request. -/

namespace Sys2Proof.Machine

theorem KeepsPool.poolLaw {s t : State} (h : KeepsPool s t) (hs : s.PoolLaw) : t.PoolLaw := by
  unfold State.PoolLaw
  rw [h.queue, h.engines]
  exact hs

/-- The arbiter leaves the law behind it, whatever it finds. -/
theorem arbitrate_poolLaw (s : State) : s.arbitrate.PoolLaw := fun hq e =>
  Option.isSome_iff_ne_none.mpr fun he => hq (arbitrate_idle s e he)

theorem idleEngine_eq_none {s : State} (h : ∀ e : EngineId, (s.engines.get e).isSome = true) : s.idleEngine = none := by
  refine List.find?_eq_none.mpr fun e _ he => ?_
  have hbusy := h e
  rw [Option.isNone_iff_eq_none.mp he] at hbusy
  exact nomatch hbusy

/-- Under the law there is nothing to start. -/
theorem startOne_of_poolLaw {s : State} (hs : s.PoolLaw) : s.startOne = s := by
  by_cases hq : s.queue = []
  · exact startOne_none s (.inr hq)
  · exact startOne_none s (.inl (idleEngine_eq_none (hs hq)))

/-- A queue that loses requests stands beside the same engines. -/
theorem dropQueued_poolLaw {s : State} (hs : s.PoolLaw) (p : RenderRequest → Bool) : (s.dropQueued p).PoolLaw :=
  fun hq => hs fun hnil => hq (by simp [State.dropQueued, hnil])

theorem issue_poolLaw {s : State} (hs : s.PoolLaw) (n : Channel) : (s.issue n).PoolLaw := by
  unfold State.issue
  split
  exacts [arbitrate_poolLaw _, hs]

theorem takeLookup_poolLaw {s : State} (hs : s.PoolLaw) (n : Channel) (a : Arrived) : (s.takeLookup n a).PoolLaw :=
  issue_poolLaw ((modChan_keepsPool (answerLookup_keepsPool (KeepsPool.refl s) n a) n _).poolLaw hs) n

theorem completeJob_poolLaw {s : State} (hs : s.PoolLaw) (e : EngineId) : (s.completeJob e).PoolLaw := by
  unfold State.completeJob
  split
  · exact hs
  · dsimp only
    split
    exacts [arbitrate_poolLaw _, (report_keepsPool (KeepsPool.refl _) _).poolLaw (arbitrate_poolLaw _)]

theorem takeWithdrawOrder_poolLaw {s : State} (hs : s.PoolLaw) (n : Channel) : (s.takeWithdrawOrder n).PoolLaw :=
  dropQueued_poolLaw ((modChan_keepsPool (KeepsPool.refl s) n _).poolLaw hs) _

theorem disableLane_poolLaw (s : State) (l : LaneId) : (s.disableLane l).PoolLaw := by
  unfold State.disableLane
  exact arbitrate_poolLaw _

theorem abortCue_poolLaw (s : State) (l : LaneId) (c : Cue) : (s.abortCue l c).PoolLaw := by
  unfold State.abortCue
  exact arbitrate_poolLaw _

theorem takeLaneSet_poolLaw {s : State} (hs : s.PoolLaw) (lane : Byte) (record : BitVec 48) :
    (s.takeLaneSet lane record).1.PoolLaw := by
  have configured (l : LaneId) (f : Lane → Lane) : KeepsPool s (s.modLane l f) := modLane_keepsPool (KeepsPool.refl s) l f
  unfold State.takeLaneSet
  split
  · dsimp only
    split
    · exact hs
    · split
      · exact (modLane_keepsPool (configured _ _) _ _).poolLaw hs
      · split
        · dsimp only
          exact disableLane_poolLaw _ _
        · exact (configured _ _).poolLaw hs
  · exact hs

theorem takeCueAbort_poolLaw {s : State} (hs : s.PoolLaw) (lane cue : Byte) : (s.takeCueAbort lane cue).1.PoolLaw := by
  unfold State.takeCueAbort
  repeat' split
  exacts [hs, hs, abortCue_poolLaw _ _ _]

theorem poolLaw_of_empty {s : State} (h : s.queue = []) : s.PoolLaw := fun hq => absurd h hq

theorem poolLaw_parts : KeptByParts State.PoolLaw where
  queue _ _ hs := hs
  link _ _ hs := hs
  attn _ _ hs := hs
  store _ _ _ hs := hs
  anyStore _ _ hs := hs
  profiles _ _ hs := hs
  progress _ _ hs := hs
  pinReset _ _ := poolLaw_of_empty rfl
  judgeHeader s n h hs := (judgeHeader_keepsPool (KeepsPool.refl s) n h).poolLaw hs
  judgePacket s n f hs := (judgePacket_keepsPool (KeepsPool.refl s) n f).poolLaw hs
  loseLock s n hs := (loseLock_keepsPool (KeepsPool.refl s) n).poolLaw hs
  beginShift s n _ hs := (modChan_keepsPool (KeepsPool.refl s) n _).poolLaw hs
  takeLookup _ n a hs := takeLookup_poolLaw hs n a
  takeRelease s n b hs := (takeRelease_keepsPool (KeepsPool.refl s) n b).poolLaw hs
  takeProposal s n hs := (takeProposal_keepsPool (KeepsPool.refl s) n).poolLaw hs
  takeEntryAdd s key first last d hs := (takeEntryAdd_keepsPool (KeepsPool.refl s) key first last d).poolLaw hs
  takeEntryAmend s handle g first last d hs :=
    (takeEntryAmend_keepsPool (KeepsPool.refl s) handle g first last d).poolLaw hs
  takeEntryRetire s handle g hs := (takeEntryRetire_keepsPool (KeepsPool.refl s) handle g).poolLaw hs
  takeProposalConfirm s handle g hs := (takeProposalConfirm_keepsPool (KeepsPool.refl s) handle g).poolLaw hs
  takeProposalReject s handle g hs := (takeProposalReject_keepsPool (KeepsPool.refl s) handle g).poolLaw hs
  takeChannelSet s mask record hs := (takeChannelSet_keepsPool (KeepsPool.refl s) mask record).poolLaw hs
  startChannel s n hs := (startChannel_keepsPool (KeepsPool.refl s) n).poolLaw hs
  haltChannel s n hs := (haltChannel_keepsPool (KeepsPool.refl s) n).poolLaw hs
  clearCounters s n hs := (modChan_keepsPool (KeepsPool.refl s) n _).poolLaw hs
  startOne s hs := (startOne_of_poolLaw hs).symm ▸ hs
  completeJob _ e hs := completeJob_poolLaw hs e
  takeWithdrawOrder _ n hs := takeWithdrawOrder_poolLaw hs n
  takeCancelOrder _ _ _ := arbitrate_poolLaw _
  tickParts _ _ _ := arbitrate_poolLaw _
  judgeStep s n hs := (judgeStep_keepsPool (KeepsPool.refl s) n).poolLaw hs
  takeLaneSet _ lane record hs := takeLaneSet_poolLaw hs lane record
  takeCueAdd s lane target trigger f hs := (takeCueAdd_keepsPool (KeepsPool.refl s) lane target trigger f).poolLaw hs
  takeCueAbort _ lane cue hs := takeCueAbort_poolLaw hs lane cue
  clearLaneCounters s l hs := (modLane_keepsPool (KeepsPool.refl s) l _).poolLaw hs
  resetTableAndChannels s hs := by
    have hpool : KeepsPool s s.endAllDetached :=
      foldl_rel _ _ (KeepsPool.refl s) fun _ n h => endDetachedOf_keepsPool h n
    unfold State.resetTableAndChannels
    refine KeepsPool.poolLaw (s := s) (handOver_keepsPool ?_) hs
    exact ⟨by simp only [hpool.queue], by simp only [hpool.engines]⟩
  resetPool _ _ := poolLaw_of_empty rfl
  resetLane s l hs :=
    (modLane_keepsPool (releaseClaims_keepsPool (endStarvedOf_keepsPool (KeepsPool.refl s) l) l) l _).poolLaw hs

/-- Settles O55: no command leaves the law of the pool. -/
theorem stepKeepsPoolLaw : Obligations.StepKeepsPoolLaw := fun _ _ hs h => poolLaw_parts.step hs h

end Sys2Proof.Machine
end

