-- ==== Sys2Proof/Proofs/Users.lean ====
section
/-! What the operations keep of each channel: its configuration record, its current entry, and the ranges of its counts.
Only the taking of a lookup or of a release gives a channel another current entry, and only CHANNEL_SET another record. -/

namespace Sys2Proof.Machine

/-! ## The relation -/

/-- The later channel has the configuration record and the current entry of the earlier one, and its counts are in range
if the earlier one's are. -/
structure Chan.Follows (c d : Chan) : Prop where
  config : d.config = c.config
  current : d.currentEntry = c.currentEntry
  range : c.InRange → d.InRange

theorem Chan.Follows.refl (c : Chan) : c.Follows c := ⟨rfl, rfl, id⟩

theorem Chan.Follows.trans {a b c : Chan} (h : a.Follows b) (k : b.Follows c) : a.Follows c :=
  ⟨k.config.trans h.config, k.current.trans h.current, fun r => k.range (h.range r)⟩

/-- Each channel of the later state follows that of the earlier one. -/
def ChansFollow (s t : State) : Prop := ∀ n : Channel, (s.chan n).Follows (t.chan n)

namespace ChansFollow

theorem refl (s : State) : ChansFollow s s := fun n => Chan.Follows.refl (s.chan n)

theorem trans {s t u : State} (h : ChansFollow s t) (k : ChansFollow t u) : ChansFollow s u := fun n => (h n).trans (k n)

theorem of_chans {s t : State} (h : t.chans = s.chans) : ChansFollow s t := fun n => by
  rw [show t.chan n = s.chan n from congrArg (fun v => v.get n) h]
  exact Chan.Follows.refl _

theorem modChan {s : State} {n : Channel} {f : Chan → Chan} (h : (s.chan n).Follows (f (s.chan n))) :
    ChansFollow s (s.modChan n f) := fun m => by
  rw [chan_modChan]
  split
  · subst n; exact h
  · exact Chan.Follows.refl _

/-- A change of other parts after one that the channels follow. -/
theorem chans {s t u : State} (h : ChansFollow s t) (e : u.chans = t.chans) : ChansFollow s u :=
  h.trans (of_chans e)

theorem modAttn {s t : State} (h : ChansFollow s t) (f : Attn → Attn) : ChansFollow s (t.modAttn f) := h.chans rfl

theorem modLane {s t : State} (h : ChansFollow s t) (l : LaneId) (f : Lane → Lane) : ChansFollow s (t.modLane l f) :=
  h.chans rfl

theorem dropQueued {s t : State} (h : ChansFollow s t) (p : RenderRequest → Bool) : ChansFollow s (t.dropQueued p) :=
  h.chans rfl

theorem cancelJobs {s t : State} (h : ChansFollow s t) (p : RenderRequest → Bool) : ChansFollow s (t.cancelJobs p) :=
  h.chans rfl

theorem advanceDeadlines {s t : State} (h : ChansFollow s t) (l : LaneId) : ChansFollow s (t.advanceDeadlines l) :=
  h.chans rfl

theorem arbitrate {s t : State} (h : ChansFollow s t) : ChansFollow s t.arbitrate := h.chans (arbitrate_chans t)

theorem foldl {α : Type} {s : State} {f : State → α → State} (l : List α) (hf : ∀ (u : State) (a : α), ChansFollow u (f u a)) :
    ChansFollow s (l.foldl f s) :=
  foldl_rel f l (refl s) fun u a h => h.trans (hf u a)

theorem ite {s t u : State} {p : Prop} [Decidable p] (ht : ChansFollow s t) (hu : ChansFollow s u) :
    ChansFollow s (if p then t else u) := by
  split
  exacts [ht, hu]

end ChansFollow

/-! ## Ranges of one channel's counts -/

theorem Chan.InRange.withPort {c : Chan} (hc : c.InRange) {p : Port} (hf : p.faultCount ≤ 255)
    (hl : p.lockCount ≤ Config.lockRun) (hr : p.rejoinCount ≤ Config.rejoinRun) : { c with port := p }.InRange :=
  ⟨hf, hl, hr, hc.2.2.2⟩

/-- A change of the port with its counts in range. -/
theorem modPort_follows {s : State} {n : Channel} {f : Port → Port}
    (h : (s.chan n).InRange → (f (s.chan n).port).faultCount ≤ 255 ∧
      (f (s.chan n).port).lockCount ≤ Config.lockRun ∧ (f (s.chan n).port).rejoinCount ≤ Config.rejoinRun) :
    ChansFollow s (s.modPort n f) :=
  ChansFollow.modChan ⟨rfl, rfl, fun hr => by
    obtain ⟨hf, hl, hj⟩ := h hr
    exact hr.withPort hf hl hj⟩

/-- A change of the port that keeps the three counts. -/
theorem modPort_follows_of_counts {s : State} {n : Channel} {f : Port → Port}
    (h : ∀ p : Port, (f p).faultCount = p.faultCount ∧ (f p).lockCount = p.lockCount ∧ (f p).rejoinCount = p.rejoinCount) :
    ChansFollow s (s.modPort n f) :=
  modPort_follows fun ⟨hf, hl, hr, _⟩ => by
    obtain ⟨ef, el, er⟩ := h (s.chan n).port
    exact ⟨ef ▸ hf, el ▸ hl, er ▸ hr⟩

theorem flush_follows (c : Chan) : c.Follows c.flush :=
  ⟨rfl, rfl, fun ⟨hf, hl, hr, _⟩ => ⟨hf, hl, hr, Nat.zero_le _⟩⟩

theorem departed_follows (c : Chan) : c.Follows c.departed := ⟨rfl, rfl, (flush_follows c).range⟩

theorem halted_follows (c : Chan) : c.Follows c.halted := ⟨rfl, rfl, (flush_follows c).range⟩

theorem depart_follows (c : Chan) : c.Follows c.depart := by
  unfold Chan.depart
  repeat' split
  exacts [Chan.Follows.refl c, ⟨rfl, rfl, id⟩, departed_follows c]

/-! ## Ports -/

theorem setFaults_follows (s : State) (n : Channel) {v : Nat} (hv : v ≤ 255) : ChansFollow s (s.setFaults n v) := by
  have h : ChansFollow s (s.modPort n fun p => { p with faultCount := v }) :=
    modPort_follows fun ⟨_, hl, hr, _⟩ => ⟨hv, hl, hr⟩
  unfold State.setFaults
  exact ChansFollow.ite h (h.modAttn _)

theorem modPortCounters_follows (s : State) (n : Channel) (f : PortCounters → PortCounters) :
    ChansFollow s (s.modPortCounters n f) :=
  modPort_follows_of_counts fun _ => ⟨rfl, rfl, rfl⟩

theorem detach_follows (s : State) (n : Channel) : ChansFollow s (s.detach n) := by
  unfold State.detach
  refine ((setFaults_follows s n (Nat.le_refl 255)).trans (ChansFollow.trans (ChansFollow.modChan ⟨rfl, rfl, ?_⟩)
    (ChansFollow.modChan (depart_follows _)))).chans rfl
  exact fun ⟨hf, hl, _, ht⟩ => ⟨hf, hl, Nat.zero_le _, ht⟩

theorem addFault_follows (s : State) (n : Channel) : ChansFollow s (s.addFault n) := by
  unfold State.addFault
  split
  · exact detach_follows s n
  · rename_i h
    exact setFaults_follows s n (by simpa [State.faultDetaches] using h)

theorem breakRun_follows (s : State) (n : Channel) (state : ChannelState) :
    ChansFollow s (s.modPort n fun p => p.breakRun state) :=
  modPort_follows fun ⟨hf, hl, hr, _⟩ => by
    unfold Port.breakRun
    split
    exacts [⟨hf, Nat.zero_le _, hr⟩, ⟨hf, hl, Nat.zero_le _⟩, ⟨hf, hl, hr⟩]

theorem badPacket_follows (s : State) (n : Channel) : ChansFollow s (s.badPacket n) :=
  ChansFollow.ite (addFault_follows s n) (breakRun_follows s n _)

theorem judgeHeader_follows (s : State) (n : Channel) (h : HeaderBytes) : ChansFollow s (s.judgeHeader n h) := by
  unfold State.judgeHeader
  dsimp only
  generalize (s.chan n).config.judgeHeader h = verdict
  have hreceiver : ChansFollow s (s.modPort n fun p => { p with receiver := h.receiver verdict }) :=
    modPort_follows_of_counts fun _ => ⟨rfl, rfl, rfl⟩
  refine hreceiver.trans ?_
  cases verdict with
  | badCheck => exact (modPortCounters_follows _ n _).trans (badPacket_follows _ n)
  | mismatch => exact (modPortCounters_follows _ n _).trans (badPacket_follows _ n)
  | rejected => exact (modPortCounters_follows _ n _).trans (breakRun_follows _ n _)
  | accepted key => exact ChansFollow.refl _

theorem gainLock_follows (s : State) (n : Channel) (f : Field) : ChansFollow s (s.gainLock n f) := by
  unfold State.gainLock
  refine ChansFollow.modAttn (ChansFollow.modChan ⟨rfl, rfl, ?_⟩) _
  exact fun ⟨hf, _, hr, ht⟩ => ⟨hf, Nat.zero_le _, hr, ht⟩

/-- Below the lock run the lock count stays in range (R7, R8). -/
theorem seekField_follows (s : State) (n : Channel) (f : Field) : ChansFollow s (s.seekField n f) := by
  unfold State.seekField
  dsimp only
  split
  · exact gainLock_follows s n f
  · rename_i h
    exact modPort_follows fun ⟨hf, _, hr, _⟩ => ⟨hf, Nat.le_of_lt (Nat.lt_of_not_le h), hr⟩

theorem take_follows (s : State) (n : Channel) (f : Field) : ChansFollow s (s.modChan n fun c => c.take f) :=
  ChansFollow.modChan ⟨rfl, rfl, id⟩

theorem setFaults_lowered_follows (s : State) (n : Channel) :
    ChansFollow s (s.setFaults n ((s.chan n).port.faultCount - 1)) := by
  have h : ChansFollow s (s.modPort n fun p => { p with faultCount := (s.chan n).port.faultCount - 1 }) :=
    modPort_follows fun ⟨hf, hl, hr, _⟩ => ⟨(Nat.sub_le _ 1).trans hf, hl, hr⟩
  unfold State.setFaults
  exact ChansFollow.ite h (h.chans rfl)

theorem runField_follows (s : State) (n : Channel) (f : Field) : ChansFollow s (s.runField n f) := by
  unfold State.runField
  repeat' split
  exacts [detach_follows s n, (addFault_follows s n).trans (take_follows _ n f),
    (setFaults_lowered_follows s n).trans (take_follows _ n f)]

theorem rejoin_follows (s : State) (n : Channel) : ChansFollow s (s.rejoin n) := by
  unfold State.rejoin
  refine (((ChansFollow.refl s).modAttn _).trans (setFaults_follows _ n (Nat.zero_le 255))).trans
    (ChansFollow.modChan ⟨rfl, rfl, ?_⟩)
  exact fun ⟨hf, _, hr, ht⟩ => ⟨hf, Nat.zero_le _, hr, ht⟩

theorem rejoinCountWith_le (p : Port) (number : FieldNum) : p.rejoinCountWith number ≤ Config.rejoinRun := by
  unfold Port.rejoinCountWith
  split
  exacts [Nat.min_le_left _ _, by decide]

theorem detachedField_follows (s : State) (n : Channel) (f : Field) : ChansFollow s (s.detachedField n f) := by
  unfold State.detachedField
  dsimp only
  have hcount : ChansFollow s (s.modPort n fun p =>
      { p with rejoinCount := (s.chan n).port.rejoinCountWith f.number, previous := some f.number }) :=
    modPort_follows fun ⟨hf, hl, _, _⟩ => ⟨hf, hl, rejoinCountWith_le _ _⟩
  exact ChansFollow.ite (breakRun_follows s n _) (ChansFollow.ite (hcount.trans (rejoin_follows _ n)) hcount)

theorem judgePacket_follows (s : State) (n : Channel) (f : Field) : ChansFollow s (s.judgePacket n f) := by
  unfold State.judgePacket
  have hsearch : ChansFollow s (s.modPort n fun p =>
      { p with
        receiver := .searching
        counters := { p.counters with damaged := bump p.counters.damaged (if f.damaged then 1 else 0) } }) :=
    modPort_follows_of_counts fun _ => ⟨rfl, rfl, rfl⟩
  dsimp only
  generalize (s.modPort n _) = u at hsearch ⊢
  refine hsearch.trans ?_
  split
  exacts [seekField_follows _ n f, runField_follows _ n f, detachedField_follows _ n f, ChansFollow.refl _]

theorem loseLock_follows (s : State) (n : Channel) : ChansFollow s (s.loseLock n) := by
  unfold State.loseLock
  refine ChansFollow.modAttn (ChansFollow.modChan ?_) _
  have hdepart := depart_follows (s.chan n)
  refine ⟨hdepart.config, hdepart.current, fun hr => ?_⟩
  obtain ⟨-, -, -, ht⟩ := hdepart.range hr
  obtain ⟨hf, -, hj, -⟩ := hr
  exact ⟨hf, Nat.zero_le _, hj, ht⟩

/-! ## Pool -/

theorem report_follows (s : State) (n : Channel) : ChansFollow s (s.report n) := by
  unfold State.report
  refine ChansFollow.ite ?_ (ChansFollow.refl s)
  refine ChansFollow.chans (t := s.modChan n fun c => { c with state := .halted }) ?_ (haltCheck_chans _)
  exact ChansFollow.modChan ⟨rfl, rfl, id⟩

theorem reportEnded_follows (s before : State) : ChansFollow s (s.reportEnded before) :=
  ChansFollow.foldl _ fun u n => ChansFollow.ite (report_follows u n) (ChansFollow.refl u)

theorem judgeHalted_follows (s : State) (n : Channel) : ChansFollow s (s.judgeHalted n) :=
  ChansFollow.ite (ChansFollow.refl s) (report_follows s n)

theorem deliver_chans (s : State) (j : Job) : (s.deliver j).chans = s.chans := by
  unfold State.deliver
  split <;> rfl

theorem completeJob_follows (s : State) (e : EngineId) : ChansFollow s (s.completeJob e) := by
  unfold State.completeJob
  split
  · exact ChansFollow.refl s
  · rename_i j _
    have h : ChansFollow s ((s.deliver j).setEngine e none).arbitrate :=
      ChansFollow.of_chans (by rw [arbitrate_chans, setEngine_chans, deliver_chans])
    exact ChansFollow.ite h (h.trans (report_follows _ _))

theorem takeWithdrawOrder_follows (s : State) (n : Channel) : ChansFollow s (s.takeWithdrawOrder n) := by
  unfold State.takeWithdrawOrder
  exact ChansFollow.dropQueued (ChansFollow.modChan ⟨rfl, rfl, id⟩) _

theorem takeCancelOrder_follows (s : State) (n : Channel) : ChansFollow s (s.takeCancelOrder n) := by
  unfold State.takeCancelOrder
  have hmark : ChansFollow s (s.modChan n fun c => { c with cancelOrder := false }) :=
    ChansFollow.modChan ⟨rfl, rfl, id⟩
  exact (((hmark.dropQueued _).cancelJobs _).trans (report_follows _ n)).arbitrate

theorem takeOrders_follows (s : State) (n : Channel) : ChansFollow s (s.takeOrders n) := by
  unfold State.takeOrders
  exact (ChansFollow.ite (takeWithdrawOrder_follows s n) (ChansFollow.refl s)).trans
    (ChansFollow.ite (takeCancelOrder_follows _ n) (ChansFollow.refl _))

theorem poolTick_follows (s : State) (l : LaneId) : ChansFollow s (s.poolTick l) := by
  unfold State.poolTick
  dsimp only
  exact ((((((ChansFollow.refl s).modLane l _).dropQueued _).cancelJobs _).advanceDeadlines l).trans
    (reportEnded_follows _ s)).arbitrate

theorem cancelByRole_follows (s : State) (l : LaneId) (n : Channel) (role : Role) :
    ChansFollow s (s.cancelByRole l n role) := by
  unfold State.cancelByRole
  exact (((ChansFollow.refl s).dropQueued _).cancelJobs _).trans (reportEnded_follows _ s)

theorem resetPool_follows (s : State) : ChansFollow s s.resetPool := fun n => by
  have h : s.resetPool.chan n = { s.chan n with withdrawOrder := false, cancelOrder := false } := by
    simp [State.resetPool, State.chan, Vector.get_eq_getElem]
  rw [h]
  exact ⟨rfl, rfl, id⟩

/-! ## Sequencer -/

theorem beginShift_follows (s : State) (n : Channel) (a : Arrived) :
    ChansFollow s (s.modChan n fun c => c.beginShift a) :=
  ChansFollow.modChan ⟨rfl, rfl, id⟩

theorem issue_follows (s : State) (n : Channel) : ChansFollow s (s.issue n) := by
  unfold State.issue
  split
  · exact (takeOrders_follows s n).chans (arbitrate_chans _)
  · exact ChansFollow.refl s

theorem observeNewer_follows (c : Chan) : c.Follows c.observeNewer := by
  unfold Chan.observeNewer
  split
  exacts [Chan.Follows.refl c, ⟨rfl, rfl, id⟩]

theorem countStep_follows (c : Chan) : c.Follows c.countStep :=
  ⟨rfl, rfl, fun ⟨hf, hl, hr, _⟩ => ⟨hf, hl, hr, Nat.min_le_left _ _⟩⟩

theorem finishShift_follows (s : State) (n : Channel) : ChansFollow s (s.finishShift n) :=
  (ChansFollow.modChan ((observeNewer_follows _).trans (countStep_follows _))).trans (issue_follows _ n)

theorem modMonitorCounters_follows (s : State) (n : Channel) (f : MonitorCounters → MonitorCounters) :
    ChansFollow s (s.modMonitorCounters n f) :=
  ChansFollow.modChan ⟨rfl, rfl, id⟩

theorem truncateBasis_chans (s : State) (p : ProposalClaim) : (s.truncateBasis p).chans = s.chans := by
  unfold State.truncateBasis
  split <;> rfl

theorem giveOut_chans (s : State) (h : Handle) (e : Entry) : (s.giveOut h e).chans = s.chans := rfl

theorem acceptProposal_follows (s : State) (n : Channel) (p : ProposalClaim) (h : Handle) :
    ChansFollow s (s.acceptProposal n p h) := by
  unfold State.acceptProposal
  have hchans : ChansFollow s ((s.truncateBasis p).giveOut h (s.proposalEntry n p)) :=
    ChansFollow.of_chans (by rw [giveOut_chans, truncateBasis_chans])
  exact (hchans.trans (modMonitorCounters_follows _ n _)).modAttn _

theorem decideProposal_follows (s : State) (n : Channel) (p : ProposalClaim) : ChansFollow s (s.decideProposal n p) := by
  unfold State.decideProposal
  repeat' split
  exacts [modMonitorCounters_follows s n _, modMonitorCounters_follows s n _, modMonitorCounters_follows s n _,
    acceptProposal_follows s n p _]

theorem takeProposal_follows (s : State) (n : Channel) : ChansFollow s (s.takeProposal n) := by
  unfold State.takeProposal
  split
  · exact ChansFollow.refl s
  · refine ChansFollow.trans (t := s.modChan n fun c => { c with proposalClaim := none }) ?_ (decideProposal_follows _ n _)
    exact ChansFollow.modChan ⟨rfl, rfl, id⟩

/-! ## Requests on channels -/

theorem endDetachedOf_follows (s : State) (n : Channel) : ChansFollow s (s.endDetachedOf n) := by
  unfold State.endDetachedOf
  exact ChansFollow.ite (ChansFollow.of_chans rfl) (ChansFollow.refl s)

theorem started_follows (c : Chan) : c.Follows c.started :=
  ⟨rfl, rfl, fun ⟨hf, _, _, _⟩ => ⟨hf, Nat.zero_le _, Nat.zero_le _, Nat.zero_le _⟩⟩

theorem startChannel_follows (s : State) (n : Channel) : ChansFollow s (s.startChannel n) :=
  ((endDetachedOf_follows s n).trans (setFaults_follows _ n (Nat.zero_le 255))).trans
    (ChansFollow.modChan (started_follows _))

theorem haltSequencer_follows (s : State) (n : Channel) (running : Bool) : ChansFollow s (s.haltSequencer n running) := by
  unfold State.haltSequencer
  dsimp only
  refine ChansFollow.ite (ChansFollow.refl s) (ChansFollow.ite (ChansFollow.modChan ⟨rfl, rfl, id⟩) ?_)
  exact (ChansFollow.modChan (halted_follows _)).trans (judgeHalted_follows _ n)

theorem haltChannel_follows (s : State) (n : Channel) : ChansFollow s (s.haltChannel n) := by
  unfold State.haltChannel
  refine ChansFollow.ite (((endDetachedOf_follows s n).trans (ChansFollow.modChan ⟨rfl, rfl, ?_⟩)).trans
    (haltSequencer_follows _ n _)) (ChansFollow.refl s)
  exact fun ⟨hf, _, _, ht⟩ => ⟨hf, Nat.zero_le _, Nat.zero_le _, ht⟩

/-! ## Lanes -/

theorem setClaim_follows (s : State) (n : Channel) (claim : Option LaneId) : ChansFollow s (s.setClaim n claim) := by
  unfold State.setClaim
  refine ChansFollow.trans (t := { s with claims := setAt s.claims n claim }) (ChansFollow.of_chans rfl)
    (ChansFollow.modChan ⟨rfl, rfl, ?_⟩)
  exact fun ⟨hf, hl, hr, _⟩ => ⟨hf, hl, hr, Nat.zero_le _⟩

theorem beginClaim_follows (s : State) (l : LaneId) (n : Channel) : ChansFollow s (s.beginClaim l n) :=
  ChansFollow.ite (ChansFollow.refl s) (setClaim_follows s n _)

theorem releaseUnneeded_follows (s : State) (l : LaneId) (n : Channel) : ChansFollow s (s.releaseUnneeded l n) :=
  ChansFollow.ite (setClaim_follows s n none) (ChansFollow.refl s)

theorem releaseOld_follows (s : State) (l : LaneId) (old : Option Channel) : ChansFollow s (s.releaseOld l old) := by
  cases old with
  | none => exact ChansFollow.refl s
  | some y => exact releaseUnneeded_follows s l y

theorem endStarvedOf_follows (s : State) (l : LaneId) : ChansFollow s (s.endStarvedOf l) := by
  unfold State.endStarvedOf
  exact ChansFollow.ite (ChansFollow.of_chans rfl) (ChansFollow.refl s)

theorem cancelSource_follows (s : State) (l : LaneId) : ChansFollow s (s.cancelSource l) := by
  unfold State.cancelSource
  split
  exacts [cancelByRole_follows s l _ _, ChansFollow.refl s]

theorem takeChannel_follows (s : State) (l : LaneId) (x : Channel) : ChansFollow s (s.takeChannel l x) := by
  unfold State.takeChannel
  dsimp only
  have hroles : ChansFollow s ((s.cancelSource l).reRole l x) := (cancelSource_follows s l).chans rfl
  exact ((hroles.trans (endStarvedOf_follows _ l)).modLane l _).trans (releaseOld_follows _ l _)

theorem takeSlate_follows (s : State) (l : LaneId) : ChansFollow s (s.takeSlate l) := by
  unfold State.takeSlate
  dsimp only
  exact (((cancelSource_follows s l).trans (endStarvedOf_follows _ l)).modLane l _).trans (releaseOld_follows _ l _)

theorem takeCue_follows (s : State) (l : LaneId) (c : Cue) : ChansFollow s (s.takeCue l c) := by
  unfold State.takeCue
  refine ChansFollow.modAttn ?_ _
  split
  · exact takeSlate_follows s l
  · exact ChansFollow.ite (ChansFollow.of_chans rfl) (takeChannel_follows s l _)

theorem takeCheck_follows (s : State) (l : LaneId) : ChansFollow s (s.takeCheck l) := by
  unfold State.takeCheck
  split
  · exact ChansFollow.ite (takeCue_follows s l _) (ChansFollow.refl s)
  · exact ChansFollow.refl s

theorem emit_chans (s : State) (l : LaneId) : (s.emit l).chans = s.chans := by
  unfold State.emit
  dsimp only
  repeat' split
  all_goals rfl

theorem lanePart_follows (s : State) (l : LaneId) : ChansFollow s (s.lanePart l) := by
  unfold State.lanePart
  refine ChansFollow.ite (ChansFollow.refl s) ((takeCheck_follows s l).chans ?_)
  rw [modLane_chans, emit_chans]

theorem judgeStep_follows (s : State) (n : Channel) : ChansFollow s (s.judgeStep n) := by
  unfold State.judgeStep
  dsimp only
  have hopen : ChansFollow s (s.modChan n fun c => { c with stepOpen := true, tally := 0 }) :=
    ChansFollow.modChan ⟨rfl, rfl, fun ⟨hf, hl, hr, _⟩ => ⟨hf, hl, hr, Nat.zero_le _⟩⟩
  refine ChansFollow.ite hopen (ChansFollow.ite (hopen.trans ?_) (ChansFollow.ite (hopen.trans ?_) hopen))
  · exact (ChansFollow.modChan (f := fun c => { c with noneSteps := bump c.noneSteps 1 }) ⟨rfl, rfl, id⟩).chans rfl
  · exact (ChansFollow.modChan (f := fun c => { c with doubleSteps := bump c.doubleSteps 1 }) ⟨rfl, rfl, id⟩).chans rfl

theorem cancelClaimed_follows (s : State) (l : LaneId) : ChansFollow s (s.cancelClaimed l) :=
  ChansFollow.foldl _ fun u n => (cancelByRole_follows u l n _).trans (cancelByRole_follows _ l n _)

theorem releaseClaims_follows (s : State) (l : LaneId) : ChansFollow s (s.releaseClaims l) :=
  ChansFollow.foldl _ fun u n => setClaim_follows u n none

theorem disableLane_follows (s : State) (l : LaneId) : ChansFollow s (s.disableLane l) := by
  unfold State.disableLane
  dsimp only
  refine ChansFollow.arbitrate (ChansFollow.modLane ?_ l _)
  have hlatch : ChansFollow s (if (s.lane l).cues.isEmpty then s else s.modAttn fun a => a.latchAborted l) :=
    ChansFollow.ite (ChansFollow.refl s) (ChansFollow.of_chans rfl)
  exact ((hlatch.trans (endStarvedOf_follows _ l)).trans (cancelClaimed_follows _ l)).trans (releaseClaims_follows _ l)

theorem takeLaneSet_follows (s : State) (lane : Byte) (record : BitVec 48) :
    ChansFollow s (s.takeLaneSet lane record).1 := by
  unfold State.takeLaneSet
  split
  · rename_i l cfg _ _
    dsimp only
    have hconfig : ChansFollow s (s.modLane l fun x => { x with config := cfg }) := ChansFollow.of_chans rfl
    split
    · exact ChansFollow.refl s
    · split
      · dsimp only
        exact hconfig.modLane l _
      · split <;> dsimp only
        exacts [hconfig.trans (disableLane_follows _ l), hconfig]
  · exact ChansFollow.refl s

theorem takeCueAdd_follows (s : State) (lane target trigger : Byte) (f : FieldNum) :
    ChansFollow s (s.takeCueAdd lane target trigger f).1 := by
  have claim (l : LaneId) (t : Option Channel) : ChansFollow s (s.claimTarget l t) := by
    cases t with
    | none => exact ChansFollow.refl s
    | some n => exact beginClaim_follows s l n
  unfold State.takeCueAdd
  dsimp only
  repeat' split
  exacts [ChansFollow.refl s, ChansFollow.refl s, ChansFollow.refl s, (claim _ _).modLane _ _, ChansFollow.refl s]

theorem abortCue_follows (s : State) (l : LaneId) (c : Cue) : ChansFollow s (s.abortCue l c) := by
  have armed : ChansFollow s (s.cancelArmed l c) := by
    unfold State.cancelArmed
    split
    exacts [ChansFollow.ite (ChansFollow.refl s) (cancelByRole_follows s l _ _), ChansFollow.refl s]
  unfold State.abortCue
  dsimp only
  have hdisarm : ChansFollow s (if (s.lane l).cues.head? = some c then s.disarm l c else s) :=
    ChansFollow.ite (armed.modLane l _) (ChansFollow.refl s)
  exact (((hdisarm.modLane l _).trans (releaseOld_follows _ l _)).modAttn _).arbitrate

theorem takeCueAbort_follows (s : State) (lane cue : Byte) : ChansFollow s (s.takeCueAbort lane cue).1 := by
  unfold State.takeCueAbort
  repeat' split
  exacts [ChansFollow.refl s, ChansFollow.refl s, abortCue_follows s _ _]

theorem resetLane_follows (s : State) (l : LaneId) : ChansFollow s (s.resetLane l) :=
  ((endStarvedOf_follows s l).trans (releaseClaims_follows _ l)).chans rfl

end Sys2Proof.Machine
end

