-- ==== Sys2Proof/Proofs/TableParts.lean ====
section
/-! The operations that change the Treatment Table, a channel's current entry or its configuration record. A property of
those three alone is kept by every step once each of these operations keeps it. -/

namespace Sys2Proof.Machine

/-- A channel as the taking of its release leaves it, the marks of its orders apart (R44). -/
def Chan.released (c : Chan) (resetsMonitor : Bool) : Chan :=
  { c.flush with
    currentEntry := none
    sequencerClaim := none
    monitor := if resetsMonitor then Monitor.reset else c.monitor }

/-- The table part of an accepted proposal claim: the basis is split and the new entry given out (R110, R111). -/
def State.splitForProposal (s : State) (n : Channel) (p : ProposalClaim) (h : Handle) : State :=
  (s.truncateBasis p).giveOut h (s.proposalEntry n p)

/-- The first stage of a UNIT_RESET without what it says to the attention unit. -/
def State.resetEntriesAndChannels (s : State) : State :=
  { s with chans := s.chans.map Chan.unitReset, table := s.table.map Entry.unitReset }

/-- The entry that an ENTRY_ADD gives out (R52). -/
def Entry.ofOperator (key : Key) (first last : FieldNum) (d : Directives) : Entry :=
  { state := .active, key := key, first := first, last := last, gen := 0, origin := .operator, owner := none,
    charge := .shared, useCount := 0, directives := d, parent := none }

/-- An entry after an ENTRY_AMEND (R55). -/
def Entry.amended (e : Entry) (first last : FieldNum) (d : Directives) : Entry :=
  { e with first := first, last := last, directives := d, gen := e.gen + 1 }

/-- A proposal after its PROPOSAL_CONFIRM (R64). -/
def Entry.confirmed (e : Entry) : Entry :=
  { e with state := .active, parent := none, charge := .shared, gen := e.gen + 1 }

/-- The parent of a rejected proposal, extended over its span (R68). -/
def Entry.extended (e : Entry) (last : FieldNum) : Entry := { e with last := last, gen := e.gen + 1 }

/-- The proposal at `h` leaves its index and its parent at `p` is extended over its span (R67, R68). -/
def State.mergeBack (s : State) (h p : Handle) : State :=
  (s.withdrawEntry h).setEntry p (((s.withdrawEntry h).entry p).extended (s.entry h).last)

/-- A property of states that stands while the table stands and each channel follows its earlier one, and that the
operations on entries and current entries keep. -/
structure KeptByTable (P : State → Prop) : Prop where
  frame : ∀ {s t : State}, KeepsTable s t → ChansFollow s t → P s → P t
  pinReset : ∀ (straps : BitVec 3) (rest : List Instr), P { State.resetWith straps with pending := rest }
  answerLookup : ∀ (s : State) (n : Channel) (a : Arrived), P s → P (s.answerLookup n a)
  release : ∀ (s : State) (n : Channel) (b : Bool), P s →
    P ((s.moveUse (s.chan n).currentEntry none).modChan n fun c => c.released b)
  propose : ∀ (s : State) (n : Channel) (p : ProposalClaim) (h : Handle), s.abandons p = false →
    s.reserveHeld n < s.quota n → s.lowestFree = some h → P s → P (s.splitForProposal n p h)
  add : ∀ (s : State) (key : Key) (first last : FieldNum) (d : Directives) (h : Handle), first.toNat ≤ last.toNat →
    s.overlapping key first last none = none → s.sharedFree ≠ 0 → s.lowestFree = some h → P s →
    P (s.giveOut h (Entry.ofOperator key first last d))
  amend : ∀ (s : State) (h : Handle) (first last : FieldNum) (d : Directives), (s.entry h).live = true →
    first.toNat ≤ last.toNat → s.overlapping (s.entry h).key first last (some h) = none → P s →
    P (s.setEntry h ((s.entry h).amended first last d))
  withdraw : ∀ (s : State) (h : Handle), (s.entry h).live = true → P s → P (s.withdrawEntry h)
  confirm : ∀ (s : State) (h : Handle), (s.entry h).state = .provisional → s.sharedFree ≠ 0 → P s →
    P (s.setEntry h (s.entry h).confirmed)
  merge : ∀ (s : State) (h p : Handle), (s.entry h).state = .provisional → s.mergeParent (s.entry h) = some p → P s →
    P (s.mergeBack h p)
  writeConfigs : ∀ (s : State) (mask : Byte) (cfg : ChannelConfig), s.quotaFits mask cfg = true → P s →
    P (s.writeConfigs mask cfg)
  unitReset : ∀ s : State, P s → P s.resetEntriesAndChannels

namespace KeptByTable

variable {P : State → Prop}

/-- A change that leaves channels and table. -/
theorem plain (h : KeptByTable P) {s t : State} (hc : t.chans = s.chans) (ht : t.table = s.table) (hs : P s) : P t :=
  h.frame ⟨ht⟩ (ChansFollow.of_chans hc) hs

theorem takeRelease (h : KeptByTable P) {s : State} (hs : P s) (n : Channel) (b : Bool) : P (s.takeRelease n b) := by
  have hreleased := h.release s n b hs
  have order {u : State} {f : Chan → Chan} (hu : P u) (hf : (u.chan n).Follows (f (u.chan n))) : P (u.modChan n f) :=
    h.frame (modChan_keepsTable (KeepsTable.refl u) n f) (ChansFollow.modChan hf) hu
  have judge {u : State} (hu : P u) : P (u.judgeHalted n) :=
    h.frame (judgeHalted_keepsTable (KeepsTable.refl u) n) (judgeHalted_follows u n) hu
  unfold State.takeRelease
  dsimp only
  change P (if ((State.modChan _ n fun c => c.released b).chan n).state = .halting then
      ((State.modChan _ n fun c => c.released b).modChan n _).judgeHalted n
    else (State.modChan _ n fun c => c.released b).modChan n _)
  generalize State.modChan _ n _ = u at hreleased ⊢
  split
  · exact judge (order hreleased ⟨rfl, rfl, id⟩)
  · exact order hreleased ⟨rfl, rfl, id⟩

theorem modMonitorCounters (h : KeptByTable P) {s : State} (hs : P s) (n : Channel)
    (f : MonitorCounters → MonitorCounters) : P (s.modMonitorCounters n f) :=
  h.frame (modMonitorCounters_keepsTable (KeepsTable.refl s) n f) (modMonitorCounters_follows s n f) hs

theorem decideProposal (h : KeptByTable P) {s : State} (hs : P s) (n : Channel) (p : ProposalClaim) :
    P (s.decideProposal n p) := by
  unfold State.decideProposal
  split
  · exact h.modMonitorCounters hs n _
  · rename_i habandons
    split
    · exact h.modMonitorCounters hs n _
    · rename_i hheld
      split
      · exact h.modMonitorCounters hs n _
      · rename_i free hfree
        have hsplit := h.propose s n p free (Bool.eq_false_iff.2 habandons) (Nat.lt_of_not_le hheld) hfree hs
        exact h.plain (modAttn_chans _ _) (modAttn_table _ _) (h.modMonitorCounters hsplit n _)

theorem takeProposal (h : KeptByTable P) {s : State} (hs : P s) (n : Channel) : P (s.takeProposal n) := by
  unfold State.takeProposal
  split
  · exact hs
  · refine h.decideProposal ?_ n _
    exact h.frame (modChan_keepsTable (KeepsTable.refl s) n _) (ChansFollow.modChan ⟨rfl, rfl, id⟩) hs

/-! ## Table requests -/

theorem takeEntryAdd (h : KeptByTable P) {s : State} (hs : P s) (key : Key) (first last : FieldNum) (d : BitVec 24) :
    P (s.takeEntryAdd key first last d).1 := by
  unfold State.takeEntryAdd
  split
  · exact hs
  · split
    · exact hs
    · rename_i hspan
      split
      · exact hs
      · rename_i hoverlap
        split
        · exact hs
        · rename_i hshared
          split
          · exact hs
          · exact h.add s key first last _ _ (Nat.le_of_not_lt hspan) hoverlap hshared ‹_› hs

theorem takeEntryAmend (h : KeptByTable P) {s : State} (hs : P s) (handle : BitVec 16) (g : Gen) (first last : FieldNum)
    (d : BitVec 24) : P (s.takeEntryAmend handle g first last d).1 := by
  unfold State.takeEntryAmend
  split
  · exact hs
  · dsimp only
    split
    · exact hs
    · rename_i hlive
      split
      · exact hs
      · split
        · exact hs
        · split
          · exact hs
          · rename_i hspan
            split
            · exact hs
            · exact h.amend s _ first last _ (by simpa using hlive) (Nat.le_of_not_lt hspan) ‹_› hs

theorem takeEntryRetire (h : KeptByTable P) {s : State} (hs : P s) (handle : BitVec 16) (g : Gen) :
    P (s.takeEntryRetire handle g).1 := by
  unfold State.takeEntryRetire
  split
  · exact hs
  · dsimp only
    split
    · exact hs
    · rename_i hlive
      split
      exacts [hs, h.withdraw s _ (by simpa using hlive) hs]

theorem takeProposalConfirm (h : KeptByTable P) {s : State} (hs : P s) (handle : BitVec 16) (g : Gen) :
    P (s.takeProposalConfirm handle g).1 := by
  unfold State.takeProposalConfirm
  split
  · exact hs
  · dsimp only
    split
    · exact hs
    · rename_i hstate
      split
      · exact hs
      · split
        · exact hs
        · exact h.plain (modAttn_chans _ _) (modAttn_table _ _) (h.confirm s _ (Decidable.not_not.1 hstate) ‹_› hs)

theorem live_of_provisional {e : Entry} (h : e.state = .provisional) : e.live = true := by
  unfold Entry.live
  rw [h]
  rfl

theorem takeProposalReject (h : KeptByTable P) {s : State} (hs : P s) (handle : BitVec 16) (g : Gen) :
    P (s.takeProposalReject handle g).1 := by
  unfold State.takeProposalReject
  split
  · exact hs
  · dsimp only
    split
    · exact hs
    · rename_i hstate
      have hprovisional := Decidable.not_not.1 hstate
      split
      · exact hs
      · split
        · exact h.withdraw s _ (live_of_provisional hprovisional) hs
        · exact h.merge s _ _ hprovisional ‹_› hs

theorem takeChannelSet (h : KeptByTable P) {s : State} (hs : P s) (mask : Byte) (record : ConfigBody) :
    P (s.takeChannelSet mask record).1 := by
  unfold State.takeChannelSet
  split
  · exact hs
  · split
    · exact hs
    · split
      · exact hs
      · split
        · exact hs
        · rename_i hquota
          exact h.plain (modAttn_chans _ _) (modAttn_table _ _) (h.writeConfigs s mask _ (by simpa using hquota) hs)

/-! ## The first stage of a UNIT_RESET -/

theorem endAllDetached_keepsTable (s : State) : KeepsTable s s.endAllDetached :=
  foldl_rel _ _ (KeepsTable.refl s) fun _ n h => endDetachedOf_keepsTable h n

theorem endAllDetached_follows (s : State) : ChansFollow s s.endAllDetached :=
  ChansFollow.foldl _ endDetachedOf_follows

theorem resetTableAndChannels (h : KeptByTable P) {s : State} (hs : P s) : P s.resetTableAndChannels := by
  have hended : P s.endAllDetached := h.frame (endAllDetached_keepsTable s) (endAllDetached_follows s) hs
  change P s.endAllDetached.resetEntriesAndChannels.handOver
  exact h.plain (modAttn_chans _ _) (modAttn_table _ _) (h.unitReset _ hended)

/-- A property that the operations on the table keep is kept by the operations of all blocks. -/
theorem parts (h : KeptByTable P) : KeptByParts P where
  queue s _ hs := h.plain (s := s) rfl rfl hs
  link s _ hs := h.plain (s := s) rfl rfl hs
  attn s _ hs := h.plain (s := s) rfl rfl hs
  store s _ _ hs := h.plain (s := s) rfl rfl hs
  anyStore s _ hs := h.plain (s := s) rfl rfl hs
  profiles s _ hs := h.plain (s := s) rfl rfl hs
  progress s _ hs := h.plain (s := s) rfl rfl hs
  pinReset := h.pinReset
  judgeHeader s n b hs := h.frame (judgeHeader_keepsTable (KeepsTable.refl s) n b) (judgeHeader_follows s n b) hs
  judgePacket s n f hs := h.frame (judgePacket_keepsTable (KeepsTable.refl s) n f) (judgePacket_follows s n f) hs
  loseLock s n hs := h.frame (loseLock_keepsTable (KeepsTable.refl s) n) (loseLock_follows s n) hs
  beginShift s n a hs := h.frame (modChan_keepsTable (KeepsTable.refl s) n _) (beginShift_follows s n a) hs
  takeLookup s n a hs :=
    h.frame (finishShift_keepsTable (KeepsTable.refl _) n) (finishShift_follows _ n) (h.answerLookup s n a hs)
  takeRelease _ n b hs := h.takeRelease hs n b
  takeProposal _ n hs := h.takeProposal hs n
  takeEntryAdd _ key first last d hs := h.takeEntryAdd hs key first last d
  takeEntryAmend _ handle g first last d hs := h.takeEntryAmend hs handle g first last d
  takeEntryRetire _ handle g hs := h.takeEntryRetire hs handle g
  takeProposalConfirm _ handle g hs := h.takeProposalConfirm hs handle g
  takeProposalReject _ handle g hs := h.takeProposalReject hs handle g
  takeChannelSet _ mask record hs := h.takeChannelSet hs mask record
  startChannel s n hs := h.frame (startChannel_keepsTable (KeepsTable.refl s) n) (startChannel_follows s n) hs
  haltChannel s n hs := h.frame (haltChannel_keepsTable (KeepsTable.refl s) n) (haltChannel_follows s n) hs
  clearCounters s n hs :=
    h.frame (modChan_keepsTable (KeepsTable.refl s) n _) (ChansFollow.modChan ⟨rfl, rfl, id⟩) hs
  startOne s hs := h.frame (startOne_keepsTable (KeepsTable.refl s)) (ChansFollow.of_chans (startOne_chans s)) hs
  completeJob s e hs := h.frame (completeJob_keepsTable (KeepsTable.refl s) e) (completeJob_follows s e) hs
  takeWithdrawOrder s n hs :=
    h.frame (takeWithdrawOrder_keepsTable (KeepsTable.refl s) n) (takeWithdrawOrder_follows s n) hs
  takeCancelOrder s n hs := h.frame (takeCancelOrder_keepsTable (KeepsTable.refl s) n) (takeCancelOrder_follows s n) hs
  tickParts s l hs :=
    h.frame (poolTick_keepsTable (lanePart_keepsTable (KeepsTable.refl s) l) l)
      ((lanePart_follows s l).trans (poolTick_follows _ l)) hs
  judgeStep s n hs := h.frame (judgeStep_keepsTable (KeepsTable.refl s) n) (judgeStep_follows s n) hs
  takeLaneSet s lane record hs :=
    h.frame (takeLaneSet_keepsTable (KeepsTable.refl s) lane record) (takeLaneSet_follows s lane record) hs
  takeCueAdd s lane target trigger f hs :=
    h.frame (takeCueAdd_keepsTable (KeepsTable.refl s) lane target trigger f)
      (takeCueAdd_follows s lane target trigger f) hs
  takeCueAbort s lane cue hs :=
    h.frame (takeCueAbort_keepsTable (KeepsTable.refl s) lane cue) (takeCueAbort_follows s lane cue) hs
  clearLaneCounters s _ hs := h.plain (s := s) rfl rfl hs
  resetTableAndChannels _ hs := h.resetTableAndChannels hs
  resetPool s hs := h.frame (s := s) ⟨rfl⟩ (resetPool_follows s) hs
  resetLane s l hs :=
    h.frame (modLane_keepsTable (releaseClaims_keepsTable (endStarvedOf_keepsTable (KeepsTable.refl s) l) l) l _)
      (resetLane_follows s l) hs

end KeptByTable

end Sys2Proof.Machine
end

