-- ==== Sys2Proof/Proofs/Counts.lean ====
section
/-! The ranges of a channel's counts (R7, R13, R17, R90): the operations on the table and the current entries keep them. -/

namespace Sys2Proof.Machine

theorem ChansFollow.countLaw {s t : State} (h : ChansFollow s t) (hs : s.CountLaw) : t.CountLaw := fun n =>
  (h n).range (hs n)

theorem countLaw_of_chans {s t : State} (h : t.chans = s.chans) (hs : s.CountLaw) : t.CountLaw :=
  (ChansFollow.of_chans h).countLaw hs

/-- A change of one channel that keeps its counts in range. -/
theorem modChan_countLaw {s : State} (hs : s.CountLaw) {n : Channel} {f : Chan → Chan}
    (hf : (s.chan n).InRange → (f (s.chan n)).InRange) : (s.modChan n f).CountLaw := fun m => by
  rw [chan_modChan]
  split
  · subst n; exact hf (hs m)
  · exact hs m

theorem resetWith_inRange (config : ChannelConfig) : (Chan.resetWith config).InRange :=
  ⟨Nat.zero_le _, Nat.zero_le _, Nat.zero_le _, Nat.zero_le _⟩

theorem latch_port_tally (c : Chan) (f : Field) (answer : Option (Handle × Entry)) :
    (c.latch f answer).port = c.port ∧ (c.latch f answer).tally = c.tally := by
  unfold Chan.latch
  repeat' split
  all_goals exact ⟨rfl, rfl⟩

theorem answerLookup_countLaw {s : State} (hs : s.CountLaw) (n : Channel) (a : Arrived) : (s.answerLookup n a).CountLaw := by
  unfold State.answerLookup
  dsimp only
  refine modChan_countLaw (countLaw_of_chans (moveUse_chans s _ _) hs) fun h => ?_
  obtain ⟨hport, htally⟩ := latch_port_tally ((s.moveUse (s.chan n).currentEntry _).chan n) a.field _
  exact ⟨hport ▸ h.1, hport ▸ h.2.1, hport ▸ h.2.2.1, htally ▸ h.2.2.2⟩

theorem writeConfigs_countLaw {s : State} (hs : s.CountLaw) (mask : Byte) (cfg : ChannelConfig) :
    (s.writeConfigs mask cfg).CountLaw :=
  KeptByOps.foldl hs fun _ _ hu => modChan_countLaw hu id

theorem withdrawEntry_chans (s : State) (h : Handle) : (s.withdrawEntry h).chans = s.chans := by
  unfold State.withdrawEntry
  dsimp only
  split <;> rfl

theorem countLaw_table : KeptByTable State.CountLaw where
  frame _ hc hs := hc.countLaw hs
  pinReset straps rest n := by
    have h : ({ State.resetWith straps with pending := rest } : State).chan n = Chan.resetWith ChannelConfig.reset := by
      simp [State.chan, State.resetWith, Vector.get_eq_getElem]
    exact h ▸ resetWith_inRange _
  answerLookup _ n a hs := answerLookup_countLaw hs n a
  release s n _ hs := modChan_countLaw (countLaw_of_chans (moveUse_chans s _ _) hs) (flush_follows _).range
  propose s n p h _ _ _ hs := countLaw_of_chans ((giveOut_chans _ h _).trans (truncateBasis_chans s p)) hs
  add _ _ _ _ _ h _ _ _ _ hs := countLaw_of_chans (giveOut_chans _ h _) hs
  amend s h _ _ _ _ _ _ hs := countLaw_of_chans (setEntry_chans s h _) hs
  withdraw s h _ hs := countLaw_of_chans (withdrawEntry_chans s h) hs
  confirm s h _ _ hs := countLaw_of_chans (setEntry_chans s h _) hs
  merge s h p _ _ hs := countLaw_of_chans ((setEntry_chans _ p _).trans (withdrawEntry_chans s h)) hs
  writeConfigs _ mask cfg _ hs := writeConfigs_countLaw hs mask cfg
  unitReset s _ n := by
    have h : s.resetEntriesAndChannels.chan n = (s.chan n).unitReset := by
      simp [State.chan, State.resetEntriesAndChannels, Vector.get_eq_getElem]
    exact h ▸ resetWith_inRange (s.chan n).config

end Sys2Proof.Machine
end

