-- ==== Sys2Proof/Proofs/Lanes.lean ====
section
/-! What the operations keep of each lane: its program source, its cues, its configuration and whether it is IDLE; and the
range of the cue lists (R151). -/

namespace Sys2Proof.Machine

/-! ## The relation -/

/-- The later lane has the program source, the cues and the configuration of the earlier one and is IDLE if that was. -/
structure Lane.Follows (x y : Lane) : Prop where
  source : y.source = x.source
  cues : y.cues = x.cues
  config : y.config = x.config
  idle : y.state = .idle ↔ x.state = .idle

theorem Lane.Follows.refl (x : Lane) : x.Follows x := ⟨rfl, rfl, rfl, Iff.rfl⟩

theorem Lane.Follows.trans {x y z : Lane} (h : x.Follows y) (k : y.Follows z) : x.Follows z :=
  ⟨k.source.trans h.source, k.cues.trans h.cues, k.config.trans h.config, k.idle.trans h.idle⟩

/-- The later state has the claim records of the earlier one, and each of its lanes follows that of the earlier one. -/
structure LanesFollow (s t : State) : Prop where
  claims : t.claims = s.claims
  lane : ∀ l : LaneId, (s.lane l).Follows (t.lane l)

namespace LanesFollow

theorem refl (s : State) : LanesFollow s s := ⟨rfl, fun l => Lane.Follows.refl (s.lane l)⟩

theorem trans {s t u : State} (h : LanesFollow s t) (k : LanesFollow t u) : LanesFollow s u :=
  ⟨k.claims.trans h.claims, fun l => (h.lane l).trans (k.lane l)⟩

theorem of_keeps {s t : State} (h : KeepsLanes s t) : LanesFollow s t := by
  refine ⟨h.claims, fun l => ?_⟩
  rw [show t.lane l = s.lane l from congrArg (fun v => v.get l) h.lanes]
  exact Lane.Follows.refl _

theorem modLane {s : State} {l : LaneId} {f : Lane → Lane} (h : (s.lane l).Follows (f (s.lane l))) :
    LanesFollow s (s.modLane l f) :=
  ⟨rfl, fun m => by
    rw [lane_modLane]
    split
    · subst l; exact h
    · exact Lane.Follows.refl _⟩

theorem keeps {s t u : State} (h : LanesFollow s t) (k : KeepsLanes t u) : LanesFollow s u := h.trans (of_keeps k)

end LanesFollow

/-! ## Operations that lanes follow -/

theorem age_follows (x : Lane) : x.Follows x.age := ⟨rfl, rfl, rfl, Iff.rfl⟩

theorem accept_follows (x : Lane) (role : Role) (distance : Nat) (f : Frame) : x.Follows (x.accept role distance f) := by
  unfold Lane.accept
  repeat' split
  exacts [⟨rfl, rfl, rfl, Iff.rfl⟩, Lane.Follows.refl x, ⟨rfl, rfl, rfl, Iff.rfl⟩, Lane.Follows.refl x]

theorem emitFresh_follows {x : Lane} (h : x.state ≠ .idle) (f : Frame) : x.Follows (x.emitFresh f) :=
  ⟨rfl, rfl, rfl, by simp [Lane.emitFresh, h]⟩

theorem hold_follows {x : Lane} (h : x.state = .program) : x.Follows x.hold := by
  refine ⟨rfl, rfl, rfl, ?_⟩
  unfold Lane.hold
  dsimp only
  split <;> simp [h]

/-- A lane emits from the state it is in; only a lane that is not IDLE changes its state (R145, R146). -/
theorem emit_follows (x : Lane) : x.Follows x.emit := by
  unfold Lane.emit
  split
  · exact Lane.Follows.refl x
  · exact ⟨rfl, rfl, rfl, Iff.rfl⟩
  · next h _ => exact emitFresh_follows (by simp [h]) _
  · next h _ => exact hold_follows h
  · next h _ => exact emitFresh_follows (by simp [h]) _
  · exact ⟨rfl, rfl, rfl, Iff.rfl⟩

theorem emit_lanesFollow (s : State) (l : LaneId) : LanesFollow s (s.emit l) := by
  have hlane : LanesFollow s (s.modLane l Lane.emit) := LanesFollow.modLane (emit_follows _)
  have told (f : Attn → Attn) : LanesFollow s ((s.modLane l Lane.emit).modAttn f) :=
    hlane.trans (LanesFollow.of_keeps (modAttn_keepsLanes (KeepsLanes.refl _) f))
  unfold State.emit
  dsimp only
  repeat' split
  exacts [told _, told _, hlane]

theorem deliver_lanesFollow (s : State) (j : Job) : LanesFollow s (s.deliver j) := by
  unfold State.deliver
  split
  exacts [LanesFollow.refl s, LanesFollow.modLane (accept_follows _ _ _ _)]

theorem completeJob_lanesFollow (s : State) (e : EngineId) : LanesFollow s (s.completeJob e) := by
  unfold State.completeJob
  split
  · exact LanesFollow.refl s
  · rename_i j _
    have hfreed : LanesFollow s ((s.deliver j).setEngine e none).arbitrate :=
      (deliver_lanesFollow s j).trans
        (LanesFollow.of_keeps (arbitrate_keepsLanes (setEngine_keepsLanes (KeepsLanes.refl _) e none)))
    dsimp only
    split
    exacts [hfreed, hfreed.trans (LanesFollow.of_keeps (report_keepsLanes (KeepsLanes.refl _) _))]

theorem poolTick_lanesFollow (s : State) (l : LaneId) : LanesFollow s (s.poolTick l) := by
  unfold State.poolTick
  dsimp only
  exact LanesFollow.keeps (LanesFollow.modLane ⟨rfl, rfl, rfl, Iff.rfl⟩) (arbitrate_keepsLanes (reportEnded_keepsLanes
    (advanceDeadlines_keepsLanes (cancelJobs_keepsLanes (dropQueued_keepsLanes (KeepsLanes.refl _) _) _) l) s))

/-- The lane's part of a tick after its take check, and the pool's part. -/
theorem tickRest_lanesFollow (s : State) (l : LaneId) :
    LanesFollow s (((s.emit l).modLane l Lane.age).poolTick l) :=
  ((emit_lanesFollow s l).trans (LanesFollow.modLane (age_follows _))).trans (poolTick_lanesFollow _ l)

theorem lanePart_idle {s : State} {l : LaneId} (h : (s.lane l).state = .idle) : s.lanePart l = s := by
  unfold State.lanePart
  rw [if_pos h]

theorem lanePart_running {s : State} {l : LaneId} (h : (s.lane l).state ≠ .idle) :
    s.lanePart l = ((s.takeCheck l).emit l).modLane l Lane.age := by
  unfold State.lanePart
  rw [if_neg h]

/-! ## Lanes while a claim is released -/

theorem setClaim_lane (s : State) (n : Channel) (claim : Option LaneId) (l : LaneId) :
    (s.setClaim n claim).lane l = s.lane l := rfl

theorem setClaim_claims (s : State) (n m : Channel) (claim : Option LaneId) :
    (s.setClaim n claim).claims.get m = if n = m then claim else s.claims.get m := get_setAt s.claims n m claim

theorem beginClaim_lane (s : State) (l : LaneId) (n : Channel) (m : LaneId) : (s.beginClaim l n).lane m = s.lane m := by
  unfold State.beginClaim
  split <;> rfl

theorem claimTarget_lane (s : State) (l : LaneId) (target : Option Channel) (m : LaneId) :
    (s.claimTarget l target).lane m = s.lane m := by
  cases target with
  | none => rfl
  | some n => exact beginClaim_lane s l n m

theorem releaseUnneeded_lane (s : State) (l : LaneId) (n : Channel) (m : LaneId) :
    (s.releaseUnneeded l n).lane m = s.lane m := by
  unfold State.releaseUnneeded
  split <;> rfl

theorem releaseOld_lane (s : State) (l : LaneId) (old : Option Channel) (m : LaneId) :
    (s.releaseOld l old).lane m = s.lane m := by
  cases old with
  | none => rfl
  | some n => exact releaseUnneeded_lane s l n m

theorem releaseClaims_lane (s : State) (l m : LaneId) : (s.releaseClaims l).lane m = s.lane m :=
  foldl_rel (R := fun u v => v.lane m = u.lane m) (s := s) _ _ rfl fun u n h => (setClaim_lane u n none m).trans h

theorem KeepsLanes.lane {s t : State} (h : KeepsLanes s t) (l : LaneId) : t.lane l = s.lane l :=
  congrArg (fun v => v.get l) h.lanes

/-! ## The cue lists -/

/-- No cue list of the later state is longer than in the earlier one. -/
def CuesShrink (s t : State) : Prop := ∀ l : LaneId, (t.lane l).cues.length ≤ (s.lane l).cues.length

namespace CuesShrink

theorem refl (s : State) : CuesShrink s s := fun _ => Nat.le_refl _

theorem trans {s t u : State} (h : CuesShrink s t) (k : CuesShrink t u) : CuesShrink s u := fun l => (k l).trans (h l)

theorem cueLaw {s t : State} (h : CuesShrink s t) (hs : s.CueLaw) : t.CueLaw := fun l => (h l).trans (hs l)

theorem of_lane {s t : State} (h : ∀ l : LaneId, t.lane l = s.lane l) : CuesShrink s t := fun l => by rw [h l]

theorem of_keeps {s t : State} (h : KeepsLanes s t) : CuesShrink s t := of_lane h.lane

theorem of_follows {s t : State} (h : LanesFollow s t) : CuesShrink s t := fun l => by rw [(h.lane l).cues]

theorem modLane {s : State} {l : LaneId} {f : Lane → Lane} (hf : (f (s.lane l)).cues.length ≤ (s.lane l).cues.length) :
    CuesShrink s (s.modLane l f) := fun m => by
  rw [lane_modLane]
  split
  · subst l; exact hf
  · exact Nat.le_refl _

end CuesShrink

theorem takeChannel_cuesShrink (s : State) (l : LaneId) (x : Channel) : CuesShrink s (s.takeChannel l x) := by
  unfold State.takeChannel
  dsimp only
  refine CuesShrink.trans (CuesShrink.trans (CuesShrink.of_keeps (endStarvedOf_keepsLanes (reRole_keepsLanes
    (cancelSource_keepsLanes (KeepsLanes.refl s) l) l x) l)) (CuesShrink.modLane ?_))
    (CuesShrink.of_lane (releaseOld_lane _ l _))
  simp [Lane.afterTake]

theorem takeSlate_cuesShrink (s : State) (l : LaneId) : CuesShrink s (s.takeSlate l) := by
  unfold State.takeSlate
  dsimp only
  refine CuesShrink.trans (CuesShrink.trans (CuesShrink.of_keeps (endStarvedOf_keepsLanes
    (cancelSource_keepsLanes (KeepsLanes.refl s) l) l)) (CuesShrink.modLane ?_))
    (CuesShrink.of_lane (releaseOld_lane _ l _))
  simp [Lane.afterSlateTake]

theorem takeSource_cuesShrink (s : State) (l : LaneId) : CuesShrink s (s.takeSource l) :=
  CuesShrink.modLane (by simp)

theorem takeCue_cuesShrink (s : State) (l : LaneId) (c : Cue) : CuesShrink s (s.takeCue l c) := by
  unfold State.takeCue
  refine CuesShrink.trans ?_ (CuesShrink.of_keeps (modAttn_keepsLanes (KeepsLanes.refl _) _))
  repeat' split
  exacts [takeSlate_cuesShrink s l, takeSource_cuesShrink s l, takeChannel_cuesShrink s l _]

theorem takeCheck_cuesShrink (s : State) (l : LaneId) : CuesShrink s (s.takeCheck l) := by
  unfold State.takeCheck
  repeat' split
  exacts [takeCue_cuesShrink s l _, CuesShrink.refl s, CuesShrink.refl s]

theorem tickParts_cuesShrink (s : State) (l : LaneId) : CuesShrink s ((s.lanePart l).poolTick l) := by
  by_cases h : (s.lane l).state = .idle
  · rw [lanePart_idle h]
    exact CuesShrink.of_follows (poolTick_lanesFollow s l)
  · rw [lanePart_running h]
    exact (takeCheck_cuesShrink s l).trans (CuesShrink.of_follows (tickRest_lanesFollow _ l))

theorem disableLane_cuesShrink (s : State) (l : LaneId) : CuesShrink s (s.disableLane l) := by
  have hlatch : KeepsLanes s (if (s.lane l).cues.isEmpty then s else s.modAttn fun a => a.latchAborted l) := by
    split
    exacts [KeepsLanes.refl s, modAttn_keepsLanes (KeepsLanes.refl s) _]
  unfold State.disableLane
  dsimp only
  refine CuesShrink.trans (CuesShrink.trans (CuesShrink.trans
    (CuesShrink.of_keeps (cancelClaimed_keepsLanes (endStarvedOf_keepsLanes hlatch l) l))
    (CuesShrink.of_lane (fun m => releaseClaims_lane _ l m))) (CuesShrink.modLane (f := Lane.disable) (Nat.zero_le _)))
    (CuesShrink.of_keeps (arbitrate_keepsLanes (KeepsLanes.refl _)))

theorem takeLaneSet_cuesShrink (s : State) (lane : Byte) (record : BitVec 48) :
    CuesShrink s (s.takeLaneSet lane record).1 := by
  unfold State.takeLaneSet
  split
  · rename_i l cfg _ _
    dsimp only
    have hconfig : CuesShrink s (s.modLane l fun x => { x with config := cfg }) := CuesShrink.modLane (Nat.le_refl _)
    split
    · exact CuesShrink.refl s
    · split
      · dsimp only
        exact hconfig.trans (CuesShrink.modLane (f := Lane.enable) (Nat.zero_le _))
      · split <;> dsimp only
        exacts [hconfig.trans (disableLane_cuesShrink _ l), hconfig]
  · exact CuesShrink.refl s

theorem disarm_cuesShrink (s : State) (l : LaneId) (c : Cue) : CuesShrink s (s.disarm l c) :=
  (CuesShrink.of_keeps (cancelArmed_keepsLanes (KeepsLanes.refl s) l c)).trans (CuesShrink.modLane (Nat.le_refl _))

theorem abortCue_cuesShrink (s : State) (l : LaneId) (c : Cue) : CuesShrink s (s.abortCue l c) := by
  have hdisarm : CuesShrink s (if (s.lane l).cues.head? = some c then s.disarm l c else s) := by
    split
    exacts [disarm_cuesShrink s l c, CuesShrink.refl s]
  unfold State.abortCue
  dsimp only
  refine CuesShrink.trans (CuesShrink.trans (hdisarm.trans (CuesShrink.modLane ?_))
    (CuesShrink.of_lane (releaseOld_lane _ l _)))
    (CuesShrink.of_keeps (arbitrate_keepsLanes (modAttn_keepsLanes (KeepsLanes.refl _) _)))
  exact (List.erase_sublist).length_le

theorem takeCueAbort_cuesShrink (s : State) (lane cue : Byte) : CuesShrink s (s.takeCueAbort lane cue).1 := by
  unfold State.takeCueAbort
  repeat' split
  exacts [CuesShrink.refl s, CuesShrink.refl s, abortCue_cuesShrink s _ _]

/-- A cue is added only to a list with room for it (check 3 of R152). -/
theorem takeCueAdd_cueLaw {s : State} (hs : s.CueLaw) (lane target trigger : Byte) (f : FieldNum) :
    (s.takeCueAdd lane target trigger f).1.CueLaw := by
  unfold State.takeCueAdd
  split
  · rename_i l t g _ _ _
    dsimp only
    split
    · exact hs
    · split
      · exact hs
      · rename_i hroom
        split
        · exact hs
        · intro m
          dsimp only
          rw [lane_modLane, claimTarget_lane]
          split
          · subst m
            simpa using Nat.lt_of_not_le hroom
          · exact hs m
  · exact hs

theorem resetTableAndChannels_keepsLanes (s : State) : KeepsLanes s s.resetTableAndChannels := by
  have hended : KeepsLanes s s.endAllDetached :=
    foldl_rel _ _ (KeepsLanes.refl s) fun _ n h => endDetachedOf_keepsLanes h n
  unfold State.resetTableAndChannels
  exact handOver_keepsLanes ⟨by simp only [hended.lanes], by simp only [hended.claims]⟩

theorem cueLaw_of_keeps {s t : State} (h : KeepsLanes s t) (hs : s.CueLaw) : t.CueLaw :=
  (CuesShrink.of_keeps h).cueLaw hs

theorem cueLaw_parts : KeptByParts State.CueLaw where
  queue _ _ hs := hs
  link _ _ hs := hs
  attn _ _ hs := hs
  store _ _ _ hs := hs
  anyStore _ _ hs := hs
  profiles _ _ hs := hs
  progress _ _ hs := hs
  pinReset straps rest l := by
    have h : ({ State.resetWith straps with pending := rest } : State).lane l = Lane.reset := by
      simp [State.lane, State.resetWith, Vector.get_eq_getElem]
    rw [h]
    exact Nat.zero_le _
  judgeHeader s n b := cueLaw_of_keeps (judgeHeader_keepsLanes (KeepsLanes.refl s) n b)
  judgePacket s n f := cueLaw_of_keeps (judgePacket_keepsLanes (KeepsLanes.refl s) n f)
  loseLock s n := cueLaw_of_keeps (loseLock_keepsLanes (KeepsLanes.refl s) n)
  beginShift s n _ := cueLaw_of_keeps (modChan_keepsLanes (KeepsLanes.refl s) n _)
  takeLookup s n a := cueLaw_of_keeps (takeLookup_keepsLanes (KeepsLanes.refl s) n a)
  takeRelease s n b := cueLaw_of_keeps (takeRelease_keepsLanes (KeepsLanes.refl s) n b)
  takeProposal s n := cueLaw_of_keeps (takeProposal_keepsLanes (KeepsLanes.refl s) n)
  takeEntryAdd s key first last d := cueLaw_of_keeps (takeEntryAdd_keepsLanes (KeepsLanes.refl s) key first last d)
  takeEntryAmend s handle g first last d :=
    cueLaw_of_keeps (takeEntryAmend_keepsLanes (KeepsLanes.refl s) handle g first last d)
  takeEntryRetire s handle g := cueLaw_of_keeps (takeEntryRetire_keepsLanes (KeepsLanes.refl s) handle g)
  takeProposalConfirm s handle g := cueLaw_of_keeps (takeProposalConfirm_keepsLanes (KeepsLanes.refl s) handle g)
  takeProposalReject s handle g := cueLaw_of_keeps (takeProposalReject_keepsLanes (KeepsLanes.refl s) handle g)
  takeChannelSet s mask record := cueLaw_of_keeps (takeChannelSet_keepsLanes (KeepsLanes.refl s) mask record)
  startChannel s n := cueLaw_of_keeps (startChannel_keepsLanes (KeepsLanes.refl s) n)
  haltChannel s n := cueLaw_of_keeps (haltChannel_keepsLanes (KeepsLanes.refl s) n)
  clearCounters s n := cueLaw_of_keeps (modChan_keepsLanes (KeepsLanes.refl s) n _)
  startOne s := cueLaw_of_keeps (startOne_keepsLanes (KeepsLanes.refl s))
  completeJob s e := (CuesShrink.of_follows (completeJob_lanesFollow s e)).cueLaw
  takeWithdrawOrder s n := cueLaw_of_keeps (takeWithdrawOrder_keepsLanes (KeepsLanes.refl s) n)
  takeCancelOrder s n := cueLaw_of_keeps (takeCancelOrder_keepsLanes (KeepsLanes.refl s) n)
  tickParts s l := (tickParts_cuesShrink s l).cueLaw
  judgeStep s n := cueLaw_of_keeps (judgeStep_keepsLanes (KeepsLanes.refl s) n)
  takeLaneSet s lane record := (takeLaneSet_cuesShrink s lane record).cueLaw
  takeCueAdd _ lane target trigger f hs := takeCueAdd_cueLaw hs lane target trigger f
  takeCueAbort s lane cue := (takeCueAbort_cuesShrink s lane cue).cueLaw
  clearLaneCounters _ _ := (CuesShrink.modLane (Nat.le_refl _)).cueLaw
  resetTableAndChannels s := cueLaw_of_keeps (resetTableAndChannels_keepsLanes s)
  resetPool _ := cueLaw_of_keeps ⟨rfl, rfl⟩
  resetLane s l :=
    (((CuesShrink.of_keeps (endStarvedOf_keepsLanes (KeepsLanes.refl s) l)).trans
      (CuesShrink.of_lane (fun m => releaseClaims_lane _ l m))).trans
        (CuesShrink.modLane (f := Lane.unitReset) (Nat.zero_le _))).cueLaw

/-- Settles O60: the counts by the operations on channels, the cue lists by those on lanes. -/
theorem stepKeepsCountsInRange : Obligations.StepKeepsCountsInRange := fun _ _ ⟨hcounts, hcues⟩ h =>
  ⟨countLaw_table.parts.step hcounts h, cueLaw_parts.step hcues h⟩

end Sys2Proof.Machine
end

