-- ==== Sys2Proof/Proofs/Spans.lean ====
section
/-! The spans of the index stay apart (R30): an entry is given a span only where the searches of R51 and R109 have found
the fields free, or within the span of an entry that gives them up. -/

namespace Sys2Proof.Machine

/-! ## What the searches exclude -/

theorem overlapping_eq_none {s : State} {key : Key} {a b : FieldNum} {except : Option Handle}
    (h : s.overlapping key a b except = none) (g : Handle) (hg : some g ≠ except) (hlive : (s.entry g).live = true)
    (hkey : (s.entry g).key = key) : (s.entry g).last.toNat < a.toNat ∨ b.toNat < (s.entry g).first.toNat := by
  have hnot := List.find?_eq_none.1 h g ((mem_spanIndex s key g).2 ⟨hlive, hkey⟩)
  have hmeets : ¬((s.entry g).first.toNat ≤ b.toNat ∧ a.toNat ≤ (s.entry g).last.toNat) := by
    simpa [Entry.meets, hg] using hnot
  omega

theorem covering_eq_none {s : State} {key : Key} {f : FieldNum} (h : s.covering key f = none) (g : Handle)
    (hlive : (s.entry g).live = true) (hkey : (s.entry g).key = key) :
    (s.entry g).last.toNat < f.toNat ∨ f.toNat < (s.entry g).first.toNat := by
  have hnot := List.find?_eq_none.1 h g ((mem_spanIndex s key g).2 ⟨hlive, hkey⟩)
  have hcovers : ¬((s.entry g).first.toNat ≤ f.toNat ∧ f.toNat ≤ (s.entry g).last.toNat) := by
    simpa [Entry.covers] using hnot
  omega

/-- The lowest FREE handle is that of a FREE entry. -/
theorem lowestFree_free {s : State} {h : Handle} (hfree : s.lowestFree = some h) : (s.entry h).state = .free := by
  obtain ⟨i, hi, rfl⟩ := Option.map_eq_some_iff.1 hfree
  obtain ⟨hlt, hstate, -⟩ := List.findIdx?_eq_some_iff_getElem.1 hi
  have hval : (Fin.ofNat 1024 i).val = i := Nat.mod_eq_of_lt (by simpa using hlt)
  simpa only [State.entry, Vector.get_eq_getElem, hval, Vector.getElem_toList, beq_iff_eq] using hstate

theorem not_live_of_free {e : Entry} (h : e.state = .free) : e.live = false := by
  unfold Entry.live
  rw [h]
  rfl

/-! ## Changes of entries -/

theorem entry_giveOut (s : State) (h g : Handle) (e : Entry) :
    (s.giveOut h e).entry g = if h = g then { e with gen := (s.entry h).gen + 1, useCount := 0 } else s.entry g :=
  entry_setEntry s h g _

theorem entry_freeEntry (s : State) (h g : Handle) :
    (s.freeEntry h).entry g = if h = g then Entry.free (s.entry h).gen else s.entry g :=
  entry_setEntry s h g _

theorem entry_of_table {s t : State} (h : t.table = s.table) (g : Handle) : t.entry g = s.entry g :=
  congrArg (fun v => v.get g) h

/-- The later entry, if it stands in an index, is the earlier one there, with its key and span. -/
def Entry.Within (e f : Entry) : Prop :=
  f.live = true → e.live = true ∧ f.key = e.key ∧ f.first = e.first ∧ f.last = e.last

theorem Entry.Within.refl (e : Entry) : e.Within e := fun h => ⟨h, rfl, rfl, rfl⟩

theorem Entry.Within.of_not_live {e f : Entry} (h : f.live = false) : e.Within f := fun hf => by simp [h] at hf

/-- Every index of the later state holds entries of the earlier one only, with their spans. -/
def EntriesWithin (s t : State) : Prop := ∀ h : Handle, (s.entry h).Within (t.entry h)

namespace EntriesWithin

theorem refl (s : State) : EntriesWithin s s := fun h => Entry.Within.refl (s.entry h)

theorem trans {s t u : State} (h : EntriesWithin s t) (k : EntriesWithin t u) : EntriesWithin s u := fun g hlive => by
  obtain ⟨ht, kkey, kfirst, klast⟩ := k g hlive
  obtain ⟨hs, hkey, hfirst, hlast⟩ := h g ht
  exact ⟨hs, kkey.trans hkey, kfirst.trans hfirst, klast.trans hlast⟩

theorem of_table {s t : State} (h : t.table = s.table) : EntriesWithin s t := fun g => by
  rw [entry_of_table h g]
  exact Entry.Within.refl _

theorem setEntry {s : State} {h : Handle} {e : Entry} (hw : (s.entry h).Within e) : EntriesWithin s (s.setEntry h e) :=
  fun g => by
    rw [entry_setEntry]
    split
    · subst g; exact hw
    · exact Entry.Within.refl _

theorem spanLaw {s t : State} (h : EntriesWithin s t) (hs : s.SpanLaw) : t.SpanLaw := fun a ha => by
  obtain ⟨hla, hka, hfa, hta⟩ := h a ha
  obtain ⟨hspan, happart⟩ := hs a hla
  refine ⟨by rw [hfa, hta]; exact hspan, fun b hb hlb hkey => ?_⟩
  obtain ⟨hlb', hkb, hfb, htb⟩ := h b hlb
  rw [hfa, hta, hfb, htb]
  exact happart b hb hlb' (by rw [← hkb, hkey, hka])

end EntriesWithin

theorem freeEntry_within (s : State) (h : Handle) : EntriesWithin s (s.freeEntry h) :=
  (EntriesWithin.setEntry (Entry.Within.of_not_live (not_live_of_free rfl))).trans
    (EntriesWithin.of_table (modAttn_table _ _))

theorem lowerUse_within (s : State) (h : Handle) : EntriesWithin s (s.lowerUse h) := by
  unfold State.lowerUse
  dsimp only
  split
  exacts [freeEntry_within s h, EntriesWithin.setEntry fun hlive => ⟨hlive, rfl, rfl, rfl⟩]

theorem raiseUse_within (s : State) (h : Handle) : EntriesWithin s (s.raiseUse h) :=
  EntriesWithin.setEntry fun hlive => ⟨hlive, rfl, rfl, rfl⟩

theorem moveUse_within (s : State) (old new : Option Handle) : EntriesWithin s (s.moveUse old new) := by
  unfold State.moveUse
  split
  · exact EntriesWithin.refl s
  · cases old with
    | none =>
      cases new with
      | none => exact EntriesWithin.refl s
      | some g => exact raiseUse_within s g
    | some h =>
      cases new with
      | none => exact lowerUse_within s h
      | some g => exact (lowerUse_within s h).trans (raiseUse_within _ g)

theorem withdrawEntry_within (s : State) (h : Handle) : EntriesWithin s (s.withdrawEntry h) := by
  unfold State.withdrawEntry
  dsimp only
  split
  exacts [freeEntry_within s h, EntriesWithin.setEntry (Entry.Within.of_not_live rfl)]

theorem entry_withdrawEntry_ne (s : State) {h g : Handle} (hne : h ≠ g) : (s.withdrawEntry h).entry g = s.entry g := by
  unfold State.withdrawEntry
  dsimp only
  split
  · rw [entry_freeEntry, if_neg hne]
  · rw [entry_setEntry, if_neg hne]

theorem not_live_withdrawEntry (s : State) (h : Handle) : ((s.withdrawEntry h).entry h).live = false := by
  unfold State.withdrawEntry
  dsimp only
  split
  · rw [entry_freeEntry, if_pos rfl]; rfl
  · rw [entry_setEntry_same]; rfl

theorem unitReset_within (e : Entry) : e.Within e.unitReset := by
  unfold Entry.unitReset
  split
  exacts [Entry.Within.of_not_live rfl, fun hlive => ⟨hlive, rfl, rfl, rfl⟩]

theorem entry_resetEntriesAndChannels (s : State) (h : Handle) :
    s.resetEntriesAndChannels.entry h = (s.entry h).unitReset := by
  simp [State.entry, State.resetEntriesAndChannels, Vector.get_eq_getElem]

/-! ## Entries with a new span -/

/-- The spans of two entries of one key have no field in common. -/
def Entry.Apart (e f : Entry) : Prop :=
  f.key = e.key → f.last.toNat < e.first.toNat ∨ e.last.toNat < f.first.toNat

theorem Entry.Apart.symm {e f : Entry} (h : e.Apart f) : f.Apart e := fun hkey => (h hkey.symm).symm

/-- An entry may be given a span that is apart from those of the others (R30). -/
theorem spanLaw_setEntry {s : State} (hs : s.SpanLaw) {h : Handle} {e : Entry} (hspan : e.first.toNat ≤ e.last.toNat)
    (hapart : ∀ g : Handle, g ≠ h → (s.entry g).live = true → e.Apart (s.entry g)) : (s.setEntry h e).SpanLaw := by
  intro a ha
  by_cases hah : a = h
  · subst a
    rw [entry_setEntry_same]
    refine ⟨hspan, fun b hb hlb hkey => ?_⟩
    rw [entry_setEntry, if_neg (Ne.symm hb)] at hlb hkey ⊢
    exact hapart b hb hlb hkey
  · rw [entry_setEntry, if_neg (Ne.symm hah)] at ha ⊢
    obtain ⟨hspan', hothers⟩ := hs a ha
    refine ⟨hspan', fun b hb hlb hkey => ?_⟩
    by_cases hbh : b = h
    · subst b
      rw [entry_setEntry_same] at hlb hkey ⊢
      exact (hapart a hah ha).symm hkey
    · rw [entry_setEntry, if_neg (Ne.symm hbh)] at hlb hkey ⊢
      exact hothers b hb hlb hkey

theorem spanLaw_giveOut {s : State} (hs : s.SpanLaw) {h : Handle} {e : Entry} (hspan : e.first.toNat ≤ e.last.toNat)
    (hapart : ∀ g : Handle, g ≠ h → (s.entry g).live = true → e.Apart (s.entry g)) : (s.giveOut h e).SpanLaw :=
  (EntriesWithin.of_table (modAttn_table _ _)).spanLaw
    (spanLaw_setEntry (e := { e with gen := (s.entry h).gen + 1, useCount := 0 }) hs hspan hapart)

/-! ## Rejected proposals that merge back (R67, R68) -/

theorem mergeParent_some {s : State} {e : Entry} {p : Handle} (h : s.mergeParent e = some p) :
    (s.entry p).live = true ∧ (s.entry p).key = e.key ∧ (s.entry p).last.toNat + 1 = e.first.toNat := by
  unfold State.mergeParent at h
  split at h
  · exact absurd h (by simp)
  · dsimp only at h
    split at h
    · rename_i hcond
      obtain ⟨hlive, hkey, -, hlast⟩ := hcond
      cases h
      exact ⟨hlive, hkey, hlast⟩
    · exact absurd h (by simp)

theorem mergeBack_spanLaw {s : State} (hs : s.SpanLaw) {h p : Handle} (hlive : (s.entry h).live = true)
    (hp : s.mergeParent (s.entry h) = some p) : (s.mergeBack h p).SpanLaw := by
  obtain ⟨hplive, hpkey, hjoin⟩ := mergeParent_some hp
  obtain ⟨hspan, hothers⟩ := hs h hlive
  obtain ⟨hpspan, hpothers⟩ := hs p hplive
  have hne : h ≠ p := fun e => by subst p; omega
  unfold State.mergeBack
  rw [entry_withdrawEntry_ne s hne]
  refine spanLaw_setEntry ((withdrawEntry_within s h).spanLaw hs) (show _ ≤ (s.entry h).last.toNat by
    change (s.entry p).first.toNat ≤ _; omega) fun g hgp hg => ?_
  by_cases hgh : g = h
  · subst g
    rw [not_live_withdrawEntry] at hg
    exact absurd hg (by simp)
  rw [entry_withdrawEntry_ne s (Ne.symm hgh)] at hg ⊢
  intro hkey
  change (s.entry g).key = (s.entry p).key at hkey
  change (s.entry g).last.toNat < (s.entry p).first.toNat ∨ (s.entry h).last.toNat < (s.entry g).first.toNat
  obtain ⟨hgspan, -⟩ := hs g hg
  have fromParent := hpothers g hgp hg hkey
  have fromProposal := hothers g hgh hg (hkey.trans hpkey)
  omega

/-! ## Accepted proposal claims (R109 to R111) -/

theorem abandons_basis {s : State} {p : ProposalClaim} {b : Handle} {g : Gen} (hbasis : p.basis = some (b, g))
    (h : s.abandons p = false) : (s.entry b).live = true ∧ (s.entry b).key = p.key ∧
      (s.entry b).first.toNat < p.start.toNat ∧ p.start.toNat ≤ (s.entry b).last.toNat := by
  simp only [State.abandons, hbasis] at h
  simp only [Bool.or_eq_false_iff, Bool.not_eq_false', decide_eq_false_iff_not, bne_eq_false_iff_eq, Nat.not_le,
    Nat.not_lt] at h
  obtain ⟨⟨⟨⟨hlive, hkey⟩, -⟩, hfirst⟩, hlast⟩ := h
  exact ⟨hlive, hkey, hfirst, hlast⟩

theorem toNat_sub_one {x : FieldNum} {n : Nat} (h : n < x.toNat) : (x - 1).toNat = x.toNat - 1 := by
  bv_omega

/-- A claim with a basis takes over the upper part of its basis's span (R110). -/
theorem splitForProposal_basis_spanLaw {s : State} (hs : s.SpanLaw) {n : Channel} {p : ProposalClaim} {h b : Handle}
    {g : Gen} (hbasis : p.basis = some (b, g)) (habandons : s.abandons p = false) :
    (s.splitForProposal n p h).SpanLaw := by
  obtain ⟨hlive, hkey, hfirst, hlast⟩ := abandons_basis hbasis habandons
  obtain ⟨hspan, hothers⟩ := hs b hlive
  have hstart : (p.start - 1).toNat = p.start.toNat - 1 := toNat_sub_one hfirst
  have htruncate : s.truncateBasis p =
      s.setEntry b { s.entry b with last := p.start - 1, gen := (s.entry b).gen + 1 } := by
    simp only [State.truncateBasis, hbasis]
  have hnew : s.proposalLast p = (s.entry b).last := by simp only [State.proposalLast, hbasis]
  have hmid : (s.truncateBasis p).SpanLaw := by
    rw [htruncate]
    refine spanLaw_setEntry hs ?_ fun i hi hli hki => ?_
    · change (s.entry b).first.toNat ≤ (p.start - 1).toNat
      omega
    · change _ ∨ (p.start - 1).toNat < _
      have := hothers i hi hli hki
      change _ < (s.entry b).first.toNat ∨ _
      omega
  refine spanLaw_giveOut hmid ?_ fun i hi hli hki => ?_
  · change p.start.toNat ≤ (s.proposalLast p).toNat
    rw [hnew]
    exact hlast
  · change (_ : FieldNum).toNat < p.start.toNat ∨ (s.proposalLast p).toNat < _
    rw [hnew]
    rw [htruncate] at hli hki ⊢
    rw [entry_setEntry] at hli hki ⊢
    split at hli
    · rename_i hib
      rw [if_pos hib]
      left
      change (p.start - 1).toNat < _
      omega
    · rename_i hib
      rw [if_neg hib] at hki ⊢
      have := hothers i (Ne.symm hib) hli (hki.trans hkey.symm)
      omega

/-- A claim without a basis fills the gap up to the next entry of its key (R111). -/
theorem splitForProposal_gap_spanLaw {s : State} (hs : s.SpanLaw) {n : Channel} {p : ProposalClaim} {h : Handle}
    (hbasis : p.basis = none) (habandons : s.abandons p = false) : (s.splitForProposal n p h).SpanLaw := by
  have hcovering : s.covering p.key p.start = none := by
    simpa [State.abandons, hbasis] using habandons
  have hlast : p.start.toNat ≤ (s.proposalLast p).toNat ∧ ∀ i : Handle, (s.entry i).live = true →
      (s.entry i).key = p.key → p.start.toNat < (s.entry i).first.toNat →
        (s.proposalLast p).toNat < (s.entry i).first.toNat := by
    simp only [State.proposalLast, hbasis]
    cases hnext : s.nextAfter p.key p.start with
    | none =>
      refine ⟨?_, fun i hli hki hi => absurd hi (Nat.not_lt.2 ((nextAfter_eq_none_iff s _ _).1 hnext i hli hki))⟩
      simp only [BitVec.toNat_allOnes]
      have := p.start.isLt
      omega
    | some f =>
      obtain ⟨⟨-, -, hf⟩, hleast⟩ := nextAfter_some hnext
      have hbelow : ((s.entry f).first - 1).toNat = (s.entry f).first.toNat - 1 := toNat_sub_one hf
      refine ⟨by dsimp only; omega, fun i hli hki hi => ?_⟩
      have := hleast i hli hki hi
      dsimp only
      omega
  have htruncate : s.truncateBasis p = s := by simp only [State.truncateBasis, hbasis]
  unfold State.splitForProposal
  rw [htruncate]
  refine spanLaw_giveOut hs hlast.1 fun i _ hli hki => ?_
  rcases covering_eq_none hcovering i hli hki with hbelow | habove
  · exact Or.inl hbelow
  · exact Or.inr (hlast.2 i hli hki habove)

theorem spanLaw_table : KeptByTable State.SpanLaw where
  frame ht _ hs := (EntriesWithin.of_table ht.table).spanLaw hs
  pinReset straps rest h hlive := by
    have hentry : ({ State.resetWith straps with pending := rest } : State).entry h = Entry.free 0 := by
      simp [State.entry, State.resetWith, Vector.get_eq_getElem]
    rw [hentry] at hlive
    exact absurd hlive (by decide)
  answerLookup s n a hs :=
    ((moveUse_within s _ _).trans (EntriesWithin.of_table (modChan_table _ n _))).spanLaw hs
  release s n b hs := ((moveUse_within s _ _).trans (EntriesWithin.of_table (modChan_table _ n _))).spanLaw hs
  propose s n p h habandons _ _ hs := by
    cases hbasis : p.basis with
    | none => exact splitForProposal_gap_spanLaw hs hbasis habandons
    | some b => exact splitForProposal_basis_spanLaw hs hbasis habandons
  add s key first last d h hspan hoverlap _ _ hs :=
    spanLaw_giveOut hs hspan fun g _ hlive hkey => overlapping_eq_none hoverlap g (by simp) hlive hkey
  amend s h first last d _ hspan hoverlap hs :=
    spanLaw_setEntry hs hspan fun g hg hlive hkey => overlapping_eq_none hoverlap g (by simpa using hg) hlive hkey
  withdraw s h _ hs := (withdrawEntry_within s h).spanLaw hs
  confirm s h hstate _ hs :=
    (EntriesWithin.setEntry (e := (s.entry h).confirmed) fun _ =>
      ⟨KeptByTable.live_of_provisional hstate, rfl, rfl, rfl⟩).spanLaw hs
  merge s h p hstate hp hs := mergeBack_spanLaw hs (KeptByTable.live_of_provisional hstate) hp
  writeConfigs s mask cfg _ hs :=
    (EntriesWithin.of_table (writeConfigs_keepsTable (KeepsTable.refl s) mask cfg).table).spanLaw hs
  unitReset s hs := EntriesWithin.spanLaw (fun h => entry_resetEntriesAndChannels s h ▸ unitReset_within _) hs

/-- Settles O58: no operation gives two entries of one key a common field. -/
theorem stepKeepsSpanLaw : Obligations.StepKeepsSpanLaw := fun _ _ hs h => spanLaw_table.parts.step hs h

end Sys2Proof.Machine
end

