-- ==== Sys2Proof/Proofs/Uses.lean ====
section
/-! The use counts follow the current entries of the channels (R32): only the taking of a lookup or of a release changes
either, and it changes both together. -/

namespace Sys2Proof.Machine

/-! ## Counting the users of an entry -/

/-- The number of channels whose current entry is `h`. -/
def State.users (s : State) (h : Handle) : Nat := allChannels.countP fun n => (s.chan n).currentEntry == some h

/-- Two tests that agree but for one element of a list without repetition: their counts differ by what they say of it. -/
theorem countP_change {α : Type} {p q : α → Bool} {a : α} {l : List α} (hl : l.Nodup) (ha : a ∈ l)
    (h : ∀ b : α, b ≠ a → p b = q b) :
    l.countP q + (if p a then 1 else 0) = l.countP p + (if q a then 1 else 0) := by
  induction l with
  | nil => simp at ha
  | cons x l ih =>
    obtain ⟨hx, hl'⟩ := List.nodup_cons.1 hl
    simp only [List.countP_cons]
    by_cases hxa : x = a
    · subst x
      have hsame : l.countP p = l.countP q := List.countP_congr fun b hb => by
        rw [h b fun e => hx (e ▸ hb)]
      omega
    · have hrest := ih hl' ((List.mem_cons.1 ha).resolve_left (Ne.symm hxa))
      rw [h x hxa]
      omega

theorem allChannels_nodup : allChannels.Nodup := by decide

theorem users_modChan (s : State) (n : Channel) (f : Chan → Chan) (h : Handle) :
    (s.modChan n f).users h + (if (s.chan n).currentEntry = some h then 1 else 0) =
      s.users h + (if (f (s.chan n)).currentEntry = some h then 1 else 0) := by
  have hchange := countP_change (p := fun m => (s.chan m).currentEntry == some h)
    (q := fun m => ((s.modChan n f).chan m).currentEntry == some h) allChannels_nodup (mem_allChannels n)
    fun m hm => by rw [chan_modChan_ne s f (Ne.symm hm)]
  unfold State.users
  simpa only [chan_modChan_same, beq_iff_eq] using hchange

theorem users_of_current {s t : State} (h : ∀ n : Channel, (t.chan n).currentEntry = (s.chan n).currentEntry) (g : Handle) :
    t.users g = s.users g := by
  unfold State.users
  simp only [h]

theorem users_of_chans {s t : State} (h : t.chans = s.chans) (g : Handle) : t.users g = s.users g :=
  users_of_current (fun n => congrArg (fun v => (v.get n).currentEntry) h) g

theorem users_eq_zero {s : State} (h : ∀ n : Channel, (s.chan n).currentEntry = none) (g : Handle) : s.users g = 0 := by
  unfold State.users
  simp [h]

/-! ## Changes of entries that keep the law -/

theorem useLaw_of_same {s t : State} (ht : t.table = s.table)
    (hc : ∀ n : Channel, (t.chan n).currentEntry = (s.chan n).currentEntry) (hs : s.UseLaw) : t.UseLaw := fun g => by
  rw [entry_of_table ht g]
  exact ⟨(hs g).1.trans (users_of_current hc g).symm, (hs g).2⟩

theorem useLaw_of_chans {s t : State} (ht : t.table = s.table) (hc : t.chans = s.chans) (hs : s.UseLaw) : t.UseLaw :=
  useLaw_of_same ht (fun n => congrArg (fun v => (v.get n).currentEntry) hc) hs

/-- An entry replaced by one with the same use count; it may become FREE only without users. -/
theorem useLaw_setEntry {s : State} (hs : s.UseLaw) {h : Handle} {e : Entry} (hcount : e.useCount = (s.entry h).useCount)
    (hfree : e.state = .free → e.useCount = 0) : (s.setEntry h e).UseLaw := fun g => by
  change ((s.setEntry h e).entry g).useCount = s.users g ∧ _
  rw [entry_setEntry]
  split
  · subst g
    exact ⟨hcount.trans (hs h).1, hfree⟩
  · exact hs g

theorem useLaw_handOver {s : State} (hs : s.UseLaw) : s.handOver.UseLaw :=
  useLaw_of_chans (modAttn_table _ _) (modAttn_chans _ _) hs

/-- A FREE entry has no users when it is given out. -/
theorem useLaw_giveOut {s : State} (hs : s.UseLaw) {h : Handle} (hfree : (s.entry h).state = .free) (e : Entry) :
    (s.giveOut h e).UseLaw :=
  useLaw_handOver (useLaw_setEntry (e := { e with gen := (s.entry h).gen + 1, useCount := 0 }) hs
    ((hs h).2 hfree).symm fun _ => rfl)

theorem useLaw_withdrawEntry {s : State} (hs : s.UseLaw) (h : Handle) : (s.withdrawEntry h).UseLaw := by
  unfold State.withdrawEntry
  dsimp only
  split
  · rename_i hnone
    exact useLaw_handOver (useLaw_setEntry (e := Entry.free (s.entry h).gen) hs hnone.symm fun _ => rfl)
  · exact useLaw_setEntry (e := { s.entry h with state := .retiring }) hs rfl nofun

theorem useLaw_truncateBasis {s : State} (hs : s.UseLaw) (p : ProposalClaim) : (s.truncateBasis p).UseLaw := by
  unfold State.truncateBasis
  split
  · exact useLaw_setEntry (e := { s.entry _ with last := _, gen := _ }) hs rfl (hs _).2
  · exact hs

theorem state_truncateBasis (s : State) (p : ProposalClaim) (h : Handle) :
    ((s.truncateBasis p).entry h).state = (s.entry h).state := by
  unfold State.truncateBasis
  split
  · rw [entry_setEntry]
    split
    · subst h; rfl
    · rfl
  · rfl

/-! ## Use counts that follow a channel (R32, R40, R44) -/

theorem useCount_lowerUse (s : State) (h g : Handle) :
    ((s.lowerUse h).entry g).useCount = (s.entry g).useCount - (if h = g then 1 else 0) := by
  unfold State.lowerUse
  dsimp only
  split
  · rename_i hlast
    obtain ⟨-, hlast⟩ := hlast
    rw [entry_freeEntry]
    split
    · subst g
      exact (Nat.sub_eq_zero_of_le hlast).symm
    · rfl
  · rw [entry_setEntry]
    split
    · subst g; rfl
    · rfl

/-- A departing user leaves the state, but the last one of a RETIRING entry makes it FREE (R28). -/
theorem state_lowerUse (s : State) (h g : Handle) : ((s.lowerUse h).entry g).state = (s.entry g).state ∨
    (h = g ∧ (s.entry g).useCount ≤ 1) := by
  unfold State.lowerUse
  dsimp only
  split
  · rename_i hlast
    rw [entry_freeEntry]
    split
    · subst g
      exact Or.inr ⟨rfl, hlast.2⟩
    · exact Or.inl rfl
  · rw [entry_setEntry]
    split
    · subst g; exact Or.inl rfl
    · exact Or.inl rfl

theorem useCount_raiseUse (s : State) (h g : Handle) :
    ((s.raiseUse h).entry g).useCount = (s.entry g).useCount + (if h = g then 1 else 0) := by
  unfold State.raiseUse
  dsimp only
  rw [entry_setEntry]
  split
  · subst g; rfl
  · rfl

theorem state_raiseUse (s : State) (h g : Handle) : ((s.raiseUse h).entry g).state = (s.entry g).state := by
  unfold State.raiseUse
  dsimp only
  rw [entry_setEntry]
  split
  · subst g; rfl
  · rfl

/-- The counts of the old and of the new current entry change by one each. -/
theorem useCount_moveUse (s : State) {old new : Option Handle} (h : old ≠ new) (g : Handle) :
    ((s.moveUse old new).entry g).useCount =
      (s.entry g).useCount - (if old = some g then 1 else 0) + (if new = some g then 1 else 0) := by
  unfold State.moveUse
  rw [if_neg h]
  cases old <;> cases new <;> simp [useCount_lowerUse, useCount_raiseUse]

/-- A move of the use counts changes no state, but that the last user's departure can make an entry FREE. -/
theorem state_moveUse (s : State) (old new : Option Handle) (g : Handle) :
    ((s.moveUse old new).entry g).state = (s.entry g).state ∨
      (old ≠ new ∧ old = some g ∧ (s.entry g).useCount ≤ 1) := by
  unfold State.moveUse
  split
  · exact Or.inl rfl
  · rename_i hne
    cases old with
    | none =>
      cases new with
      | none => exact Or.inl rfl
      | some b => exact Or.inl (state_raiseUse s b g)
    | some o =>
      have hlower := (state_lowerUse s o g).imp_right fun ⟨ho, hlast⟩ => And.intro hne (And.intro (congrArg some ho) hlast)
      cases new with
      | none => exact hlower
      | some b => exact hlower.imp_left (state_raiseUse _ b g).trans

/-- The current entry of a channel moves together with the use counts, to an entry that is not FREE or to none. -/
theorem useLaw_moveUse {s : State} (hs : s.UseLaw) {n : Channel} {new : Option Handle} {f : Chan → Chan}
    (hnew : ∀ g : Handle, new = some g → (s.entry g).state ≠ .free) (hf : (f (s.chan n)).currentEntry = new) :
    ((s.moveUse (s.chan n).currentEntry new).modChan n f).UseLaw := by
  have hchan : (s.moveUse (s.chan n).currentEntry new).chan n = s.chan n := congrArg (fun v => v.get n) (moveUse_chans s _ _)
  intro g
  obtain ⟨hcount, hfree⟩ := hs g
  change _ = s.users g at hcount
  have husers := users_modChan (s.moveUse (s.chan n).currentEntry new) n f g
  rw [hchan, hf, users_of_chans (moveUse_chans s _ _)] at husers
  rw [entry_modChan_frame]
  change _ = State.users _ g ∧ _
  generalize (s.chan n).currentEntry = old at husers ⊢
  by_cases hsame : old = new
  · subst hsame
    rw [show s.moveUse old old = s from if_pos rfl] at husers ⊢
    exact ⟨by omega, hfree⟩
  · have hmoved := useCount_moveUse s hsame g
    refine ⟨?_, fun hstate => ?_⟩
    · rw [hmoved]
      by_cases ho : old = some g
      · have hn : new ≠ some g := fun hn => hsame (ho.trans hn.symm)
        rw [if_pos ho, if_neg hn] at husers ⊢
        omega
      · rw [if_neg ho] at husers ⊢
        omega
    · have hn : new ≠ some g := fun hn => by
        rcases state_moveUse s old new g with hstays | ⟨-, ho, -⟩
        · exact hnew g hn (hstays ▸ hstate)
        · exact hsame (ho.trans hn.symm)
      rw [hmoved, if_neg hn]
      rcases state_moveUse s old new g with hstays | ⟨-, ho, hlast⟩
      · rw [hfree (hstays ▸ hstate)]
        omega
      · rw [if_pos ho]
        omega

theorem covering_live {s : State} {key : Key} {f : FieldNum} {h : Handle} (hcover : s.covering key f = some h) :
    (s.entry h).live = true :=
  ((mem_spanIndex s key h).1 (List.mem_of_find?_eq_some hcover)).1

theorem not_free_of_live {e : Entry} (h : e.live = true) : e.state ≠ .free := fun hfree => by
  rw [not_live_of_free hfree] at h
  exact absurd h (by decide)

theorem answerLookup_useLaw {s : State} (hs : s.UseLaw) (n : Channel) (a : Arrived) : (s.answerLookup n a).UseLaw := by
  unfold State.answerLookup
  refine useLaw_moveUse hs (fun g hg => ?_) rfl
  cases hcover : s.covering a.field.key a.field.number with
  | none => simp [hcover] at hg
  | some h =>
    have hgh : h = g := by simpa [hcover] using hg
    exact hgh ▸ not_free_of_live (covering_live hcover)

theorem useLaw_of_no_users {s : State} (hcount : ∀ h : Handle, (s.entry h).useCount = 0)
    (hnone : ∀ n : Channel, (s.chan n).currentEntry = none) : s.UseLaw := fun h =>
  ⟨(hcount h).trans (users_eq_zero hnone h).symm, fun _ => hcount h⟩

theorem useCount_unitReset (e : Entry) : e.unitReset.useCount = 0 := by
  unfold Entry.unitReset
  split <;> rfl

theorem useLaw_table : KeptByTable State.UseLaw where
  frame ht hc hs := useLaw_of_same ht.table (fun n => (hc n).current) hs
  pinReset straps rest :=
    useLaw_of_no_users (fun h => by simp [State.entry, State.resetWith, Vector.get_eq_getElem, Entry.free])
      fun n => by simp [State.chan, State.resetWith, Vector.get_eq_getElem, Chan.resetWith]
  answerLookup _ n a hs := answerLookup_useLaw hs n a
  release _ _ _ hs := useLaw_moveUse hs (fun _ hg => by simp at hg) rfl
  propose s _ p h _ _ hfree hs :=
    useLaw_giveOut (useLaw_truncateBasis hs p) ((state_truncateBasis s p h).trans (lowestFree_free hfree)) _
  add _ _ _ _ _ _ _ _ _ hfree hs := useLaw_giveOut hs (lowestFree_free hfree) _
  amend s h first last d _ _ _ hs := useLaw_setEntry (e := (s.entry h).amended first last d) hs rfl (hs h).2
  withdraw _ h _ hs := useLaw_withdrawEntry hs h
  confirm s h _ _ hs := useLaw_setEntry (e := (s.entry h).confirmed) hs rfl nofun
  merge s h p _ _ hs :=
    have hwithdrawn := useLaw_withdrawEntry hs h
    useLaw_setEntry (e := ((s.withdrawEntry h).entry p).extended _) hwithdrawn rfl (hwithdrawn p).2
  writeConfigs s mask cfg _ hs := by
    refine useLaw_of_same (writeConfigs_keepsTable (KeepsTable.refl s) mask cfg).table (fun n => ?_) hs
    refine foldl_rel (R := fun u v => (v.chan n).currentEntry = (u.chan n).currentEntry) _ _ rfl fun u m hu => ?_
    rw [chan_modChan]
    split
    · subst n; exact hu
    · exact hu
  unitReset s _ :=
    useLaw_of_no_users (fun h => by rw [entry_resetEntriesAndChannels]; exact useCount_unitReset _)
      fun n => by simp [State.chan, State.resetEntriesAndChannels, Vector.get_eq_getElem, Chan.unitReset, Chan.resetWith]

/-- Settles O57: use counts and current entries change together. -/
theorem stepKeepsUseLaw : Obligations.StepKeepsUseLaw := fun _ _ hs h => useLaw_table.parts.step hs h

end Sys2Proof.Machine
end

