-- ==== Sys2Proof/Proofs/Reserve.lean ====
section
/-! The reserve law (R34) as one count: the entries that are FREE or charged to a reserve are at least as many as all quotas
together. Whatever changes one entry is judged by that entry alone. -/

namespace Sys2Proof.Machine

/-! ## The law as one count -/

/-- An entry counts in H_c: not FREE and charged RESERVE of `c` (R34). -/
def Entry.holds (e : Entry) (c : Channel) : Bool := e.state != .free && e.charge == .reserve c

/-- A FREE entry, or one charged to a reserve. -/
def Entry.backs (e : Entry) : Bool := e.state == .free || e.charge != .shared

/-- The number of entries that are FREE or charged to a reserve. -/
def State.backing (s : State) : Nat := s.table.toList.countP Entry.backs

/-- All quotas together. -/
def State.quotaSum (s : State) : Nat := (allChannels.map s.quota).sum

/-- An entry counts once in the free count or in the held reserve of one channel, or in neither. -/
theorem holds_sum (e : Entry) : (if e.state == .free then 1 else 0) +
    (allChannels.map fun c => if e.holds c then 1 else 0).sum = if e.backs then 1 else 0 := by
  unfold Entry.holds Entry.backs
  cases hstate : e.state == .free with
  | true => simp [hstate, bne]
  | false =>
    cases e.charge with
    | shared => simp [hstate, bne]
    | reserve n =>
      have hone : ∀ m : Channel, (allChannels.map fun c => if Charge.reserve m == Charge.reserve c then 1 else 0).sum = 1 := by
        decide
      simpa [hstate, bne] using hone n

theorem free_add_held (l : List Entry) : l.countP (fun e => e.state == .free) +
    (allChannels.map fun c => l.countP fun e => e.holds c).sum = l.countP Entry.backs := by
  induction l with
  | nil => simp
  | cons e l ih =>
    simp only [List.countP_cons, List.sum_map_add]
    have he := holds_sum e
    omega

theorem backing_eq (s : State) : s.backing = s.freeCount + (allChannels.map s.reserveHeld).sum :=
  (free_add_held s.table.toList).symm

/-- While no channel holds more than its quota, the outstanding reserve is the rest of the quotas. -/
theorem outstanding_add_held {s : State} (h : ∀ c : Channel, s.reserveHeld c ≤ s.quota c) :
    s.outstanding + (allChannels.map s.reserveHeld).sum = s.quotaSum := by
  unfold State.outstanding State.quotaSum
  rw [← List.sum_map_add]
  exact congrArg List.sum (List.map_congr_left fun c _ => Nat.sub_add_cancel (h c))

theorem reserveLaw_iff (s : State) :
    s.ReserveLaw ↔ (∀ c : Channel, s.reserveHeld c ≤ s.quota c) ∧ s.quotaSum ≤ s.backing := by
  unfold State.ReserveLaw
  refine and_congr_right fun h => ?_
  have hsum := outstanding_add_held h
  have hbacking := backing_eq s
  omega

/-- With a shared free entry the law has one to spare. -/
theorem quotaSum_lt_backing {s : State} (hs : s.ReserveLaw) (hshared : s.sharedFree ≠ 0) : s.quotaSum < s.backing := by
  have hsum := outstanding_add_held hs.1
  have hbacking := backing_eq s
  unfold State.sharedFree at hshared
  omega

/-! ## Changes of entries -/

theorem countP_setEntry (s : State) (h : Handle) (e : Entry) (p : Entry → Bool) :
    (s.setEntry h e).table.toList.countP p + (if p (s.entry h) then 1 else 0) =
      s.table.toList.countP p + (if p e then 1 else 0) := by
  have hlist : (s.setEntry h e).table.toList = s.table.toList.set h.val e := Vector.toList_set h.isLt
  have hlength : h.val < s.table.toList.length := by simp
  have hentry : s.table.toList[h.val] = s.entry h := by simp [State.entry, Vector.get_eq_getElem]
  have hcounted := List.boole_getElem_le_countP (p := p) hlength
  rw [hlist, List.countP_set hlength]
  rw [hentry] at hcounted ⊢
  omega

theorem reserveHeld_setEntry (s : State) (h : Handle) (e : Entry) (c : Channel) :
    (s.setEntry h e).reserveHeld c + (if (s.entry h).holds c then 1 else 0) =
      s.reserveHeld c + (if e.holds c then 1 else 0) :=
  countP_setEntry s h e fun e => e.holds c

theorem backing_setEntry (s : State) (h : Handle) (e : Entry) :
    (s.setEntry h e).backing + (if (s.entry h).backs then 1 else 0) = s.backing + (if e.backs then 1 else 0) :=
  countP_setEntry s h e Entry.backs

/-- The law stands through a change of table and configuration records that raises no held reserve and loses no backing. -/
theorem reserveLaw_of_le {s t : State} (hs : s.ReserveLaw) (hquota : ∀ c : Channel, t.quota c = s.quota c)
    (hheld : ∀ c : Channel, t.reserveHeld c ≤ s.reserveHeld c) (hbacking : s.backing ≤ t.backing) : t.ReserveLaw := by
  obtain ⟨hle, hsum⟩ := (reserveLaw_iff s).1 hs
  refine (reserveLaw_iff t).2 ⟨fun c => (hheld c).trans ((hle c).trans_eq (hquota c).symm), ?_⟩
  rw [show t.quotaSum = s.quotaSum from congrArg List.sum (List.map_congr_left fun c _ => hquota c)]
  exact hsum.trans hbacking

theorem reserveLaw_of_same {s t : State} (ht : t.table = s.table)
    (hc : ∀ n : Channel, (t.chan n).config = (s.chan n).config) (hs : s.ReserveLaw) : t.ReserveLaw := by
  refine reserveLaw_of_le hs (fun c => congrArg ChannelConfig.quota (hc c)) (fun c => ?_) ?_
  · unfold State.reserveHeld
    rw [ht]
  · unfold State.backing
    rw [ht]

theorem reserveLaw_of_chans {s t : State} (ht : t.table = s.table) (hc : t.chans = s.chans) (hs : s.ReserveLaw) :
    t.ReserveLaw :=
  reserveLaw_of_same ht (fun n => congrArg (fun v => (v.get n).config) hc) hs

/-- An entry may be charged to a reserve below its quota, and may be lost to the reserves while the shared free has one. -/
theorem reserveLaw_setEntry {s : State} (hs : s.ReserveLaw) {h : Handle} {e : Entry}
    (hheld : ∀ c : Channel, e.holds c = true → (s.entry h).holds c = true ∨ s.reserveHeld c < s.quota c)
    (hbacks : (s.entry h).backs = true → e.backs = true ∨ s.sharedFree ≠ 0) : (s.setEntry h e).ReserveLaw := by
  obtain ⟨hle, hsum⟩ := (reserveLaw_iff s).1 hs
  refine (reserveLaw_iff _).2 ⟨fun c => ?_, ?_⟩
  · change _ ≤ s.quota c
    have hcount := reserveHeld_setEntry s h e c
    have hquota := hle c
    cases hnew : e.holds c with
    | false =>
      rw [hnew] at hcount
      simp only [Bool.false_eq_true, if_false] at hcount
      omega
    | true =>
      rcases hheld c hnew with hold | hroom
      · rw [hnew, hold] at hcount
        omega
      · rw [hnew] at hcount
        simp only [if_true] at hcount
        omega
  · change s.quotaSum ≤ _
    have hcount := backing_setEntry s h e
    cases hold : (s.entry h).backs with
    | false =>
      rw [hold] at hcount
      simp only [Bool.false_eq_true, if_false] at hcount
      omega
    | true =>
      rcases hbacks hold with hnew | hshared
      · rw [hold, hnew] at hcount
        omega
      · have hspare := quotaSum_lt_backing hs hshared
        rw [hold] at hcount
        simp only [if_true] at hcount
        omega

/-- A change that keeps an entry's state and charge. -/
theorem reserveLaw_setEntry_same {s : State} (hs : s.ReserveLaw) {h : Handle} {e : Entry}
    (hstate : e.state = (s.entry h).state) (hcharge : e.charge = (s.entry h).charge) : (s.setEntry h e).ReserveLaw := by
  refine reserveLaw_setEntry hs (fun c hc => Or.inl ?_) fun hb => Or.inl ?_
  · unfold Entry.holds at hc ⊢
    rwa [← hstate, ← hcharge]
  · unfold Entry.backs at hb ⊢
    rwa [hstate, hcharge]

theorem reserveLaw_handOver {s : State} (hs : s.ReserveLaw) : s.handOver.ReserveLaw :=
  reserveLaw_of_chans (modAttn_table _ _) (modAttn_chans _ _) hs

theorem holds_free (g : Gen) (c : Channel) : (Entry.free g).holds c = false := rfl

theorem reserveLaw_freeEntry {s : State} (hs : s.ReserveLaw) (h : Handle) : (s.freeEntry h).ReserveLaw :=
  reserveLaw_handOver (reserveLaw_setEntry (e := Entry.free (s.entry h).gen) hs (fun c hc => by simp [holds_free] at hc)
    fun _ => Or.inl rfl)

theorem reserveLaw_lowerUse {s : State} (hs : s.ReserveLaw) (h : Handle) : (s.lowerUse h).ReserveLaw := by
  unfold State.lowerUse
  dsimp only
  split
  · exact reserveLaw_freeEntry hs h
  · exact reserveLaw_setEntry_same (e := { s.entry h with useCount := _ }) hs rfl rfl

theorem reserveLaw_raiseUse {s : State} (hs : s.ReserveLaw) (h : Handle) : (s.raiseUse h).ReserveLaw :=
  reserveLaw_setEntry_same (e := { s.entry h with useCount := _ }) hs rfl rfl

theorem reserveLaw_moveUse {s : State} (hs : s.ReserveLaw) (old new : Option Handle) : (s.moveUse old new).ReserveLaw := by
  unfold State.moveUse
  split
  · exact hs
  · cases old with
    | none =>
      cases new with
      | none => exact hs
      | some g => exact reserveLaw_raiseUse hs g
    | some h =>
      cases new with
      | none => exact reserveLaw_lowerUse hs h
      | some g => exact reserveLaw_raiseUse (reserveLaw_lowerUse hs h) g

/-- An entry that leaves its index is FREE or keeps its charge (R27, R33). -/
theorem reserveLaw_withdrawEntry {s : State} (hs : s.ReserveLaw) {h : Handle} (hlive : (s.entry h).live = true) :
    (s.withdrawEntry h).ReserveLaw := by
  have hstate := not_free_of_live hlive
  unfold State.withdrawEntry
  dsimp only
  split
  · exact reserveLaw_freeEntry hs h
  · refine reserveLaw_setEntry (e := { s.entry h with state := .retiring }) hs (fun c hc => Or.inl ?_) fun hb => Or.inl ?_
    · simpa [Entry.holds, hstate] using hc
    · simpa [Entry.backs, hstate] using hb

/-! ## Claims and requests -/

theorem truncateBasis_counts (s : State) (p : ProposalClaim) :
    (∀ c : Channel, (s.truncateBasis p).reserveHeld c = s.reserveHeld c) ∧ (s.ReserveLaw → (s.truncateBasis p).ReserveLaw) := by
  unfold State.truncateBasis
  split
  · refine ⟨fun c => ?_, fun hs => reserveLaw_setEntry_same (e := { s.entry _ with last := _, gen := _ }) hs rfl rfl⟩
    exact Nat.add_right_cancel (reserveHeld_setEntry s _ { s.entry _ with last := _, gen := _ } c)
  · exact ⟨fun _ => rfl, id⟩

/-- A proposal is charged to a reserve below its quota (R109). -/
theorem reserveLaw_splitForProposal {s : State} (hs : s.ReserveLaw) {n : Channel} {p : ProposalClaim} (h : Handle)
    (hroom : s.reserveHeld n < s.quota n) : (s.splitForProposal n p h).ReserveLaw := by
  obtain ⟨hheld, hlaw⟩ := truncateBasis_counts s p
  refine reserveLaw_handOver (reserveLaw_setEntry (e := { s.proposalEntry n p with gen := _, useCount := 0 }) (hlaw hs)
    (fun c hc => Or.inr ?_) fun _ => Or.inl rfl)
  have hcn : n = c := by simpa [Entry.holds, State.proposalEntry] using hc
  subst hcn
  rw [hheld]
  rwa [show (s.truncateBasis p).quota n = s.quota n from
    congrArg (fun v => (v.get n).config.quota) (truncateBasis_chans s p)]

theorem chan_writeConfigs (s : State) (mask : Byte) (cfg : ChannelConfig) (c : Channel) :
    (s.writeConfigs mask cfg).chan c = if c ∈ maskChannels mask then { s.chan c with config := cfg } else s.chan c := by
  unfold State.writeConfigs
  induction maskChannels mask generalizing s with
  | nil => simp
  | cons n l ih =>
    rw [List.foldl_cons, ih, chan_modChan]
    by_cases hc : c ∈ l
    · by_cases hn : n = c
      · simp [hc, hn]
      · simp [hc, hn]
    · by_cases hn : n = c
      · simp [hn, hc]
      · simp [hc, hn, Ne.symm hn]

theorem config_writeConfigs (s : State) (mask : Byte) (cfg : ChannelConfig) (c : Channel) :
    ((s.writeConfigs mask cfg).chan c).config = if c ∈ maskChannels mask then cfg else (s.chan c).config := by
  rw [chan_writeConfigs]
  split <;> rfl

theorem writeConfigs_reserveLaw {s : State} (hs : s.ReserveLaw) {mask : Byte} {cfg : ChannelConfig}
    (hfits : s.quotaFits mask cfg = true) : (s.writeConfigs mask cfg).ReserveLaw := by
  have htable := (writeConfigs_keepsTable (KeepsTable.refl s) mask cfg).table
  unfold State.quotaFits at hfits
  rcases Bool.or_eq_true_iff.1 hfits with hempty | hfits
  · have hnil : maskChannels mask = [] := List.isEmpty_iff.1 hempty
    exact reserveLaw_of_same htable (fun n => by rw [config_writeConfigs, hnil]; simp) hs
  · obtain ⟨hheld, hfree⟩ := Bool.and_eq_true_iff.1 hfits
    have same (c : Channel) : (s.writeConfigs mask cfg).reserveHeld c = s.reserveHeld c := by
      unfold State.reserveHeld
      rw [htable]
    refine ⟨fun c => ?_, ?_⟩
    · rw [same]
      unfold State.quota
      rw [config_writeConfigs]
      split
      · rename_i hmem
        exact of_decide_eq_true (List.all_eq_true.1 hheld c hmem)
      · exact hs.1 c
    · rw [show (s.writeConfigs mask cfg).freeCount = s.freeCount by unfold State.freeCount; rw [htable]]
      exact of_decide_eq_true hfree

theorem holds_unitReset {e : Entry} {c : Channel} (h : e.unitReset.holds c = true) : e.holds c = true := by
  unfold Entry.unitReset at h
  split at h
  · simp [holds_free] at h
  · exact h

theorem backs_unitReset {e : Entry} (h : e.backs = true) : e.unitReset.backs = true := by
  unfold Entry.unitReset
  split
  exacts [rfl, h]

theorem reserveLaw_unitReset {s : State} (hs : s.ReserveLaw) : s.resetEntriesAndChannels.ReserveLaw := by
  have hlist : s.resetEntriesAndChannels.table.toList = s.table.toList.map Entry.unitReset := Vector.toList_map
  refine reserveLaw_of_le hs (fun c => ?_) (fun c => ?_) ?_
  · simp [State.quota, State.chan, State.resetEntriesAndChannels, Vector.get_eq_getElem, Chan.unitReset, Chan.resetWith]
  · change List.countP (fun e : Entry => e.holds c) _ ≤ List.countP (fun e : Entry => e.holds c) _
    rw [hlist, List.countP_map]
    exact List.countP_mono_left fun e _ h => holds_unitReset h
  · unfold State.backing
    rw [hlist, List.countP_map]
    exact List.countP_mono_left fun e _ h => backs_unitReset h

/-- After a pin reset every quota is 0. -/
theorem reserveLaw_pinReset (straps : BitVec 3) (rest : List Instr) :
    ({ State.resetWith straps with pending := rest } : State).ReserveLaw := by
  have hquota (c : Channel) : ({ State.resetWith straps with pending := rest } : State).quota c = 0 := by
    simp [State.quota, State.chan, State.resetWith, Vector.get_eq_getElem, Chan.resetWith, ChannelConfig.reset]
  have htable : ({ State.resetWith straps with pending := rest } : State).table.toList =
      List.replicate 1024 (Entry.free 0) := Vector.toList_replicate
  have hsum : ({ State.resetWith straps with pending := rest } : State).quotaSum = 0 :=
    List.sum_eq_zero fun x hx => by
      obtain ⟨c, -, rfl⟩ := List.mem_map.1 hx
      exact hquota c
  refine (reserveLaw_iff _).2 ⟨fun c => ?_, by rw [hsum]; exact Nat.zero_le _⟩
  unfold State.reserveHeld
  rw [htable, List.countP_replicate, if_neg (by simp [Entry.free])]
  exact Nat.zero_le _

theorem reserveLaw_table : KeptByTable State.ReserveLaw where
  frame ht hc hs := reserveLaw_of_same ht.table (fun n => (hc n).config) hs
  pinReset := reserveLaw_pinReset
  answerLookup s n a hs := by
    have hkeeps := (answerLookup_keeps (Keeps.refl s) n a).config
    have hmoved := reserveLaw_moveUse hs (s.chan n).currentEntry
      (((s.covering a.field.key a.field.number).map fun h => (h, s.entry h)).map Prod.fst)
    exact reserveLaw_of_same (modChan_table _ n _)
      (fun m => (hkeeps m).trans (congrArg (fun v => (v.get m).config) (moveUse_chans s _ _)).symm) hmoved
  release s n b hs :=
    reserveLaw_of_same (modChan_table _ n _) (fun m => by rw [chan_modChan]; split <;> rfl) (reserveLaw_moveUse hs _ _)
  propose _ _ _ h _ hroom _ hs := reserveLaw_splitForProposal hs h hroom
  add _ key first last d h _ _ hshared _ hs :=
    reserveLaw_handOver (reserveLaw_setEntry (e := { Entry.ofOperator key first last d with gen := _, useCount := 0 }) hs
      (fun c hc => by simp [Entry.holds, Entry.ofOperator] at hc) fun _ => Or.inr hshared)
  amend s h first last d _ _ _ hs := reserveLaw_setEntry_same (e := (s.entry h).amended first last d) hs rfl rfl
  withdraw _ _ hlive hs := reserveLaw_withdrawEntry hs hlive
  confirm s h _ hshared hs :=
    reserveLaw_setEntry (e := (s.entry h).confirmed) hs
      (fun c hc => by simp [Entry.holds, Entry.confirmed] at hc) fun _ => Or.inr hshared
  merge s h p hstate _ hs :=
    reserveLaw_setEntry_same (e := ((s.withdrawEntry h).entry p).extended _)
      (reserveLaw_withdrawEntry hs (KeptByTable.live_of_provisional hstate)) rfl rfl
  writeConfigs _ _ _ hfits hs := writeConfigs_reserveLaw hs hfits
  unitReset _ hs := reserveLaw_unitReset hs

/-- Settles O56: no operation charges a reserve above its quota or takes an entry that the reserves still need. -/
theorem stepKeepsReserveLaw : Obligations.StepKeepsReserveLaw := fun _ _ hs h => reserveLaw_table.parts.step hs h

end Sys2Proof.Machine
end

