-- ==== Sys2Proof/Proofs/ClaimLaw.lean ====
section
/-! The claim records name the lanes that need their channels (R149): a lane that stops needing a channel releases its claim
in the same event, and a lane begins one only at the request that makes it need the channel. -/

namespace Sys2Proof.Machine

/-! ## What a lane needs -/

theorem needs_iff (x : Lane) (n : Channel) :
    x.needs n = true ↔ x.source = some n ∨ ∃ c ∈ x.cues, c.target = some n := by
  simp [Lane.needs]

theorem Lane.Follows.needs {x y : Lane} (h : x.Follows y) (n : Channel) : y.needs n = x.needs n := by
  unfold Lane.needs
  rw [h.source, h.cues]

theorem needs_of_empty {x : Lane} (hsource : x.source = none) (hcues : x.cues = []) (n : Channel) : x.needs n = false := by
  simp [Lane.needs, hsource, hcues]

/-! ## Changes that leave what the law speaks of -/

theorem claimLaw_of_follows {s t : State} (hl : LanesFollow s t)
    (hc : ∀ n : Channel, (t.chan n).config = (s.chan n).config) (hs : s.ClaimLaw) : t.ClaimLaw := by
  obtain ⟨hclaims, hrates, hidle⟩ := hs
  refine ⟨fun n l => ?_, fun n l h => ?_, fun l h => ?_⟩
  · rw [hl.claims, (hl.lane l).needs]
    exact hclaims n l
  · rw [hl.claims] at h
    rw [hc, (hl.lane l).config]
    exact hrates n l h
  · rw [(hl.lane l).source, (hl.lane l).cues]
    exact hidle l ((hl.lane l).idle.1 h)

theorem claimLaw_of_keeps {s t : State} (hl : KeepsLanes s t) (hc : Keeps s t) (hs : s.ClaimLaw) : t.ClaimLaw :=
  claimLaw_of_follows (LanesFollow.of_keeps hl) hc.config hs

/-! ## A lane that stops needing channels -/

/-- The law of the claims but for one claim of lane `l`: on the channel `old`, which the lane may need no longer. -/
structure State.ClaimsUpTo (s : State) (l : LaneId) (old : Option Channel) : Prop where
  needed : ∀ (n : Channel) (m : LaneId), (s.lane m).needs n = true → s.claims.get n = some m
  claimed : ∀ (n : Channel) (m : LaneId), s.claims.get n = some m →
    (s.lane m).needs n = true ∨ (m = l ∧ old = some n)
  rates : ∀ (n : Channel) (m : LaneId), s.claims.get n = some m →
    (s.chan n).config.standard.rate = (s.lane m).config.rate
  idle : ∀ m : LaneId, (s.lane m).state = .idle → (s.lane m).source = none ∧ (s.lane m).cues = []

theorem claimLaw_of_upTo {s : State} {l : LaneId} {old : Option Channel} (h : s.ClaimsUpTo l old)
    (hold : ∀ n : Channel, old = some n → s.claims.get n = some l → (s.lane l).needs n = true) : s.ClaimLaw := by
  refine ⟨fun n m => ⟨fun hc => ?_, h.needed n m⟩, h.rates, h.idle⟩
  rcases h.claimed n m hc with hneeds | ⟨rfl, hn⟩
  · exact hneeds
  · exact hold n hn hc

theorem setClaim_rates (s : State) (n m : Channel) (claim : Option LaneId) :
    ((s.setClaim n claim).chan m).config = (s.chan m).config :=
  (setClaim_keeps (Keeps.refl s) n claim).config m

/-- The release of a claim that is not needed any more restores the law. -/
theorem releaseOld_claimLaw {s : State} {l : LaneId} {old : Option Channel} (h : s.ClaimsUpTo l old) :
    (s.releaseOld l old).ClaimLaw := by
  cases old with
  | none => exact claimLaw_of_upTo h fun n hn => by simp at hn
  | some y =>
    change (s.releaseUnneeded l y).ClaimLaw
    unfold State.releaseUnneeded
    split
    · rename_i hrelease
      obtain ⟨hclaim, hunneeded⟩ := hrelease
      have hother {n : Channel} {m : LaneId} (hc : (s.setClaim y none).claims.get n = some m) :
          y ≠ n ∧ s.claims.get n = some m := by
        rw [setClaim_claims] at hc
        split at hc
        · simp at hc
        · exact ⟨‹_›, hc⟩
      refine ⟨fun n m => ?_, fun n m hc => ?_, fun m => by rw [setClaim_lane]; exact h.idle m⟩
      · rw [setClaim_lane]
        constructor
        · intro hc
          obtain ⟨hn, hc⟩ := hother hc
          exact (h.claimed n m hc).resolve_right fun ⟨_, hy⟩ => hn (Option.some.inj hy)
        · intro hneeds
          have hc := h.needed n m hneeds
          have hn : y ≠ n := fun e => by
            subst e
            have hlm : l = m := Option.some.inj (hclaim.symm.trans hc)
            subst hlm
            rw [hunneeded] at hneeds
            simp at hneeds
          rw [setClaim_claims, if_neg hn]
          exact hc
      · obtain ⟨-, hc⟩ := hother hc
        rw [setClaim_rates, setClaim_lane]
        exact h.rates n m hc
    · rename_i hkept
      refine claimLaw_of_upTo h fun n hn hc => ?_
      cases hn
      by_contra hneeds
      exact hkept ⟨hc, by simpa using hneeds⟩

/-- Lane `l` changes, needing no new channel and at most `old` no longer. -/
theorem upTo_modLane {s : State} (hs : s.ClaimLaw) {l : LaneId} {old : Option Channel} {f : Lane → Lane}
    (hneeds : ∀ n : Channel, (f (s.lane l)).needs n = true → (s.lane l).needs n = true)
    (hold : ∀ n : Channel, (s.lane l).needs n = true → (f (s.lane l)).needs n = true ∨ old = some n)
    (hconfig : (f (s.lane l)).config = (s.lane l).config)
    (hidle : (f (s.lane l)).state = .idle → (f (s.lane l)).source = none ∧ (f (s.lane l)).cues = []) :
    (s.modLane l f).ClaimsUpTo l old := by
  obtain ⟨hclaims, hrates, hempty⟩ := hs
  refine ⟨fun n m h => ?_, fun n m h => ?_, fun n m h => ?_, fun m h => ?_⟩
  · rw [lane_modLane] at h
    split at h
    · subst m; exact (hclaims n l).2 (hneeds n h)
    · exact (hclaims n m).2 h
  · have hm := (hclaims n m).1 h
    rw [lane_modLane]
    split
    · subst m; exact (hold n hm).imp_right fun e => ⟨rfl, e⟩
    · exact Or.inl hm
  · rw [chan_modLane_frame, hrates n m h, lane_modLane]
    split
    · subst m; exact congrArg LaneConfig.rate hconfig.symm
    · rfl
  · rw [lane_modLane] at h ⊢
    split at h
    · subst m
      rw [if_pos rfl]
      exact hidle h
    · rw [if_neg ‹_›]
      exact hempty m h

/-! ## Takes (R155, R156) -/

/-- The channels that a list of cues needs are those of its head and of the rest. -/
theorem cues_needs {x : Lane} {c : Cue} (h : x.cues.head? = some c) (n : Channel) :
    (∃ d ∈ x.cues, d.target = some n) ↔ c.target = some n ∨ ∃ d ∈ x.cues.tail, d.target = some n := by
  obtain ⟨rest, hcues⟩ : ∃ rest, x.cues = c :: rest := List.head?_eq_some_iff.1 h
  rw [hcues]
  simp

theorem cancelSource_claimLaw {s : State} (hs : s.ClaimLaw) (l : LaneId) : (s.cancelSource l).ClaimLaw :=
  claimLaw_of_keeps (cancelSource_keepsLanes (KeepsLanes.refl s) l) (cancelSource_keeps (Keeps.refl s) l) hs

theorem endStarvedOf_claimLaw {s : State} (hs : s.ClaimLaw) (l : LaneId) : (s.endStarvedOf l).ClaimLaw :=
  claimLaw_of_keeps (endStarvedOf_keepsLanes (KeepsLanes.refl s) l) (endStarvedOf_keeps (Keeps.refl s) l) hs

theorem takeChannel_claimLaw {s : State} (hs : s.ClaimLaw) {l : LaneId} {c : Cue} {x : Channel}
    (hhead : (s.lane l).cues.head? = some c) (htarget : c.target = some x) : (s.takeChannel l x).ClaimLaw := by
  have hlane : (((s.cancelSource l).reRole l x).endStarvedOf l).lane l = s.lane l :=
    (endStarvedOf_keepsLanes (reRole_keepsLanes (cancelSource_keepsLanes (KeepsLanes.refl s) l) l x) l).lane l
  have hordered : (((s.cancelSource l).reRole l x).endStarvedOf l).ClaimLaw :=
    endStarvedOf_claimLaw (claimLaw_of_keeps (reRole_keepsLanes (KeepsLanes.refl _) l x) (reRole_keeps (Keeps.refl _) l x)
      (cancelSource_claimLaw hs l)) l
  unfold State.takeChannel
  refine releaseOld_claimLaw (upTo_modLane hordered ?_ ?_ rfl nofun)
  · intro n hneeds
    rw [hlane] at hneeds ⊢
    rw [needs_iff, cues_needs hhead]
    rcases (needs_iff _ n).1 hneeds with hsource | hcue
    · exact Or.inr (Or.inl (htarget.trans hsource))
    · exact Or.inr (Or.inr hcue)
  · intro n hneeds
    rw [hlane] at hneeds ⊢
    rw [needs_iff, cues_needs hhead, htarget] at hneeds
    rcases hneeds with hsource | htaken | hcue
    · exact Or.inr hsource
    · exact Or.inl ((needs_iff _ n).2 (Or.inl htaken))
    · exact Or.inl ((needs_iff _ n).2 (Or.inr hcue))

theorem takeSlate_claimLaw {s : State} (hs : s.ClaimLaw) {l : LaneId} {c : Cue}
    (hhead : (s.lane l).cues.head? = some c) (htarget : c.target = none) : (s.takeSlate l).ClaimLaw := by
  have hlane : ((s.cancelSource l).endStarvedOf l).lane l = s.lane l :=
    (endStarvedOf_keepsLanes (cancelSource_keepsLanes (KeepsLanes.refl s) l) l).lane l
  unfold State.takeSlate
  refine releaseOld_claimLaw (upTo_modLane (endStarvedOf_claimLaw (cancelSource_claimLaw hs l) l) ?_ ?_ rfl nofun)
  · intro n hneeds
    rw [hlane] at hneeds ⊢
    rw [needs_iff, cues_needs hhead]
    rcases (needs_iff _ n).1 hneeds with hsource | hcue
    · exact absurd hsource nofun
    · exact Or.inr (Or.inr hcue)
  · intro n hneeds
    rw [hlane] at hneeds ⊢
    rw [needs_iff, cues_needs hhead, htarget] at hneeds
    rcases hneeds with hsource | htaken | hcue
    · exact Or.inr hsource
    · exact absurd htaken nofun
    · exact Or.inl ((needs_iff _ n).2 (Or.inr hcue))

/-- A take of the program source removes a cue whose channel the lane still needs. -/
theorem takeSource_claimLaw {s : State} (hs : s.ClaimLaw) {l : LaneId} {c : Cue} {x : Channel}
    (hhead : (s.lane l).cues.head? = some c) (htarget : c.target = some x) (hsource : (s.lane l).source = some x) :
    (s.takeSource l).ClaimLaw := by
  refine claimLaw_of_upTo (old := none) (upTo_modLane hs ?_ ?_ rfl ?_) (fun n hn => by simp at hn)
  · intro n hneeds
    rw [needs_iff, cues_needs hhead]
    exact ((needs_iff _ n).1 hneeds).imp_right Or.inr
  · intro n hneeds
    rw [needs_iff, cues_needs hhead, htarget] at hneeds
    refine Or.inl ((needs_iff _ n).2 ?_)
    rcases hneeds with hprogram | htaken | hcue
    · exact Or.inl hprogram
    · exact Or.inl (hsource.trans htaken)
    · exact Or.inr hcue
  · intro hidle
    obtain ⟨hnone, -⟩ := hs.2.2 l hidle
    rw [hsource] at hnone
    exact absurd hnone nofun

theorem takeCheck_claimLaw {s : State} (hs : s.ClaimLaw) (l : LaneId) : (s.takeCheck l).ClaimLaw := by
  have told {u : State} (hu : u.ClaimLaw) (f : Attn → Attn) : (u.modAttn f).ClaimLaw :=
    claimLaw_of_keeps (modAttn_keepsLanes (KeepsLanes.refl u) f) (modAttn_keeps (Keeps.refl u) f) hu
  unfold State.takeCheck
  split
  · rename_i c hhead
    split
    · unfold State.takeCue
      refine told ?_ _
      split
      · exact takeSlate_claimLaw hs hhead ‹_›
      · rename_i x htarget
        split
        · exact takeSource_claimLaw hs hhead htarget ‹_›
        · exact takeChannel_claimLaw hs hhead htarget
    · exact hs
  · exact hs

theorem tickParts_claimLaw {s : State} (hs : s.ClaimLaw) (l : LaneId) : ((s.lanePart l).poolTick l).ClaimLaw := by
  by_cases h : (s.lane l).state = .idle
  · rw [lanePart_idle h]
    exact claimLaw_of_follows (poolTick_lanesFollow s l) (poolTick_keeps (Keeps.refl s) l).config hs
  · rw [lanePart_running h]
    refine claimLaw_of_follows (tickRest_lanesFollow _ l) ?_ (takeCheck_claimLaw hs l)
    exact (poolTick_keeps (modLane_keeps (emit_keeps (Keeps.refl _) l) l _) l).config

/-! ## A lane that gives up every claim (R140, R160) -/

theorem mem_claimed (s : State) (l : LaneId) (n : Channel) : n ∈ s.claimed l ↔ s.claims.get n = some l := by
  simp [State.claimed, mem_allChannels]

theorem releaseClaims_claims (s : State) (l : LaneId) (n : Channel) :
    (s.releaseClaims l).claims.get n = if s.claims.get n = some l then none else s.claims.get n := by
  have hfold (list : List Channel) (u : State) : (list.foldl (fun s n => s.setClaim n none) u).claims.get n =
      if n ∈ list then none else u.claims.get n := by
    induction list generalizing u with
    | nil => simp
    | cons m list ih =>
      rw [List.foldl_cons, ih, setClaim_claims]
      by_cases hm : m = n
      · simp [hm]
      · simp [hm, Ne.symm hm]
  unfold State.releaseClaims
  rw [hfold]
  simp only [mem_claimed]

/-- A lane that needs no channel any more holds no claim any more. -/
theorem releaseAll_claimLaw {s : State} (hs : s.ClaimLaw) {l : LaneId} {f : Lane → Lane}
    (hsource : (f (s.lane l)).source = none) (hcues : (f (s.lane l)).cues = []) : ((s.releaseClaims l).modLane l f).ClaimLaw := by
  obtain ⟨hclaims, hrates, hidle⟩ := hs
  have hclaim (n : Channel) (m : LaneId) :
      ((s.releaseClaims l).modLane l f).claims.get n = some m ↔ s.claims.get n = some m ∧ l ≠ m := by
    rw [modLane_claims, releaseClaims_claims]
    split
    · rename_i hl
      rw [hl]
      simp
    · rename_i hl
      exact ⟨fun h => ⟨h, fun e => hl (e ▸ h)⟩, And.left⟩
  have hlane (m : LaneId) : ((s.releaseClaims l).modLane l f).lane m = if l = m then f (s.lane m) else s.lane m := by
    rw [lane_modLane, releaseClaims_lane]
  refine ⟨fun n m => ?_, fun n m h => ?_, fun m h => ?_⟩
  · rw [hclaim, hlane]
    split
    · subst m
      rw [needs_of_empty hsource hcues]
      simp
    · rename_i hm
      rw [hclaims]
      exact and_iff_left hm
  · obtain ⟨h, hm⟩ := (hclaim n m).1 h
    rw [hlane, if_neg hm, chan_modLane_frame, (releaseClaims_keeps (Keeps.refl s) l).config]
    exact hrates n m h
  · rw [hlane] at h ⊢
    split at h
    · subst m
      rw [if_pos rfl]
      exact ⟨hsource, hcues⟩
    · rw [if_neg ‹_›]
      exact hidle m h

theorem disableLane_claimLaw {s : State} (hs : s.ClaimLaw) (l : LaneId) : (s.disableLane l).ClaimLaw := by
  have hlatch : (if (s.lane l).cues.isEmpty then s else s.modAttn fun a => a.latchAborted l).ClaimLaw := by
    split
    exacts [hs, claimLaw_of_keeps (modAttn_keepsLanes (KeepsLanes.refl s) _) (modAttn_keeps (Keeps.refl s) _) hs]
  unfold State.disableLane
  dsimp only
  refine claimLaw_of_keeps (arbitrate_keepsLanes (KeepsLanes.refl _)) (arbitrate_keeps (Keeps.refl _))
    (releaseAll_claimLaw (f := Lane.disable) ?_ rfl rfl)
  exact claimLaw_of_keeps (cancelClaimed_keepsLanes (KeepsLanes.refl _) l) (cancelClaimed_keeps (Keeps.refl _) l)
    (endStarvedOf_claimLaw hlatch l)

theorem resetLane_claimLaw {s : State} (hs : s.ClaimLaw) (l : LaneId) : (s.resetLane l).ClaimLaw :=
  releaseAll_claimLaw (f := Lane.unitReset) (endStarvedOf_claimLaw hs l) rfl rfl

/-! ## LANE_SET (R138 to R140) -/

/-- A lane takes a configuration of its own rate, or it is IDLE and claims nothing (check 2 of R138). -/
theorem configure_claimLaw {s : State} (hs : s.ClaimLaw) {l : LaneId} {cfg : LaneConfig}
    (hcheck : (s.lane l).state = .idle ∨ cfg.rate = (s.lane l).config.rate) :
    (s.modLane l fun x => { x with config := cfg }).ClaimLaw := by
  obtain ⟨hclaims, hrates, hidle⟩ := hs
  refine ⟨fun n m => ?_, fun n m h => ?_, fun m h => ?_⟩
  · rw [modLane_claims, hclaims, lane_modLane]
    split <;> rfl
  · change s.claims.get n = some m at h
    rw [chan_modLane_frame, hrates n m h, lane_modLane]
    split
    · subst m
      rcases hcheck with hstate | hrate
      · obtain ⟨hsource, hcues⟩ := hidle l hstate
        have hneeds := (hclaims n l).1 h
        rw [needs_of_empty hsource hcues] at hneeds
        exact absurd hneeds nofun
      · exact hrate.symm
    · rfl
  · rw [lane_modLane] at h ⊢
    split at h
    · subst m
      rw [if_pos rfl]
      exact hidle l h
    · rw [if_neg ‹_›]
      exact hidle m h

/-- An IDLE lane is enabled without source and cues, as it was. -/
theorem enable_claimLaw {s : State} (hs : s.ClaimLaw) {l : LaneId} (hstate : (s.lane l).state = .idle) :
    (s.modLane l Lane.enable).ClaimLaw := by
  obtain ⟨hsource, hcues⟩ := hs.2.2 l hstate
  have hneeds (n : Channel) : (s.lane l).enable.needs n = (s.lane l).needs n := by
    rw [needs_of_empty hsource hcues, needs_of_empty rfl rfl]
  refine claimLaw_of_upTo (old := none) (upTo_modLane hs ?_ ?_ rfl nofun) (fun n hn => by simp at hn)
  · intro n h
    rwa [← hneeds]
  · intro n h
    exact Or.inl ((hneeds n).trans h)

theorem takeLaneSet_claimLaw {s : State} (hs : s.ClaimLaw) (lane : Byte) (record : BitVec 48) :
    (s.takeLaneSet lane record).1.ClaimLaw := by
  unfold State.takeLaneSet
  split
  · rename_i l cfg _ _
    dsimp only
    split
    · exact hs
    · rename_i hrefused
      have hconfigured : (s.modLane l fun x => { x with config := cfg }).ClaimLaw :=
        configure_claimLaw hs (by tauto)
      split
      · rename_i henable
        dsimp only
        refine enable_claimLaw hconfigured ?_
        rw [lane_modLane_same]
        exact henable.2
      · split <;> dsimp only
        exacts [disableLane_claimLaw hconfigured l, hconfigured]
  · exact hs

/-! ## CUE_ADD and CUE_ABORT (R152, R157) -/

theorem beginClaim_claims (s : State) (l : LaneId) (n m : Channel) :
    (s.beginClaim l n).claims.get m = if n = m then some l else s.claims.get m := by
  unfold State.beginClaim
  split
  · rename_i h
    split
    · subst m; exact h
    · rfl
  · exact setClaim_claims s n m (some l)

theorem claimTarget_claims (s : State) (l : LaneId) (target : Option Channel) (m : Channel) :
    (s.claimTarget l target).claims.get m = if target = some m then some l else s.claims.get m := by
  cases target with
  | none => rfl
  | some n => simpa only [State.claimTarget, Option.some.injEq] using beginClaim_claims s l n m

/-- A target that passes is unclaimed or the lane's own, and has the lane's rate (checks 4 and 5 of R152). -/
theorem targetCheck_none {s : State} {l : LaneId} {n : Channel} (h : s.targetCheck l (some n) = none) :
    (s.claims.get n = none ∨ s.claims.get n = some l) ∧
      (s.chan n).config.standard.rate = (s.lane l).config.rate := by
  unfold State.targetCheck at h
  dsimp only at h
  split at h
  · exact absurd h nofun
  · rename_i hclaim
    split at h
    · exact absurd h nofun
    · exact ⟨by tauto, Decidable.not_not.1 ‹_›⟩

theorem addCue_claimLaw {s : State} (hs : s.ClaimLaw) {l : LaneId} {target : Option Channel} {f : Lane → Lane} {c : Cue}
    (hcheck : s.targetCheck l target = none) (hstate : (s.lane l).state ≠ .idle) (htarget : c.target = target)
    (hsource : (f (s.lane l)).source = (s.lane l).source) (hcues : (f (s.lane l)).cues = (s.lane l).cues ++ [c])
    (hconfig : (f (s.lane l)).config = (s.lane l).config) (hsame : (f (s.lane l)).state = (s.lane l).state) :
    ((s.claimTarget l target).modLane l f).ClaimLaw := by
  obtain ⟨hclaims, hrates, hidle⟩ := hs
  have hneeds (n : Channel) : (f (s.lane l)).needs n = true ↔ (s.lane l).needs n = true ∨ target = some n := by
    rw [needs_iff, needs_iff, hsource, hcues, ← htarget]
    simp only [List.mem_append, List.mem_singleton, or_and_right, exists_or, exists_eq_left, or_assoc]
  have hlane (m : LaneId) : ((s.claimTarget l target).modLane l f).lane m = if l = m then f (s.lane m) else s.lane m := by
    rw [lane_modLane, claimTarget_lane]
  have hconfigs (n : Channel) : (((s.claimTarget l target).modLane l f).chan n).config = (s.chan n).config :=
    (claimTarget_keeps (Keeps.refl s) l target).config n
  refine ⟨fun n m => ?_, fun n m h => ?_, fun m h => ?_⟩
  · rw [modLane_claims, claimTarget_claims, hlane]
    by_cases hn : target = some n
    · rw [if_pos hn]
      by_cases hm : l = m
      · subst m
        rw [if_pos rfl, hneeds]
        simp [hn]
      · subst hn
        obtain ⟨hclaim, -⟩ := targetCheck_none hcheck
        rw [if_neg hm, ← hclaims]
        rcases hclaim with hclaim | hclaim <;> simp [hclaim, hm]
    · rw [if_neg hn]
      split
      · subst m
        rw [hneeds, hclaims]
        simp [hn]
      · exact hclaims n m
  · rw [modLane_claims, claimTarget_claims] at h
    have hrate : (s.chan n).config.standard.rate = (s.lane m).config.rate := by
      split at h
      · rename_i hn
        subst hn
        cases h
        exact (targetCheck_none hcheck).2
      · exact hrates n m h
    rw [hconfigs, hrate, hlane]
    split
    · subst m; exact congrArg LaneConfig.rate hconfig.symm
    · rfl
  · rw [hlane] at h ⊢
    split at h
    · subst m
      exact absurd (hsame.symm.trans h) hstate
    · rw [if_neg ‹_›]
      exact hidle m h

theorem takeCueAdd_claimLaw {s : State} (hs : s.ClaimLaw) (lane target trigger : Byte) (f : FieldNum) :
    (s.takeCueAdd lane target trigger f).1.ClaimLaw := by
  unfold State.takeCueAdd
  split
  · dsimp only
    split
    · exact hs
    · split
      · exact hs
      · split
        · exact hs
        · exact addCue_claimLaw (c := (s.lane _).newCue _ _) hs ‹_› ‹_› rfl rfl rfl rfl rfl
  · exact hs

theorem disarm_claimLaw {s : State} (hs : s.ClaimLaw) (l : LaneId) (c : Cue) : (s.disarm l c).ClaimLaw :=
  claimLaw_of_follows (LanesFollow.modLane ⟨rfl, rfl, rfl, Iff.rfl⟩) (fun _ => rfl)
    (claimLaw_of_keeps (cancelArmed_keepsLanes (KeepsLanes.refl s) l c) (cancelArmed_keeps (Keeps.refl s) l c) hs)

/-- A removed cue leaves the needs of the others (R157). -/
theorem removeCue_upTo {s : State} (hs : s.ClaimLaw) (l : LaneId) (c : Cue) :
    (s.modLane l fun x => { x with cues := x.cues.erase c }).ClaimsUpTo l c.target := by
  refine upTo_modLane hs ?_ ?_ rfl ?_
  · intro n h
    obtain hsource | ⟨d, hd, hn⟩ := (needs_iff _ n).1 h
    · exact (needs_iff _ n).2 (Or.inl hsource)
    · exact (needs_iff _ n).2 (Or.inr ⟨d, List.mem_of_mem_erase hd, hn⟩)
  · intro n h
    obtain hsource | ⟨d, hd, hn⟩ := (needs_iff _ n).1 h
    · exact Or.inl ((needs_iff _ n).2 (Or.inl hsource))
    · by_cases hdc : d = c
      · exact Or.inr (hdc ▸ hn)
      · exact Or.inl ((needs_iff _ n).2 (Or.inr ⟨d, (List.mem_erase_of_ne hdc).2 hd, hn⟩))
  · intro hidle
    obtain ⟨hsource, hcues⟩ := hs.2.2 l hidle
    refine ⟨hsource, ?_⟩
    change (s.lane l).cues.erase c = []
    rw [hcues]
    rfl

theorem abortCue_claimLaw {s : State} (hs : s.ClaimLaw) (l : LaneId) (c : Cue) : (s.abortCue l c).ClaimLaw := by
  have hdisarm : (if (s.lane l).cues.head? = some c then s.disarm l c else s).ClaimLaw := by
    split
    exacts [disarm_claimLaw hs l c, hs]
  unfold State.abortCue
  exact claimLaw_of_keeps (arbitrate_keepsLanes (modAttn_keepsLanes (KeepsLanes.refl _) _))
    (arbitrate_keeps (modAttn_keeps (Keeps.refl _) _)) (releaseOld_claimLaw (removeCue_upTo hdisarm l c))

theorem takeCueAbort_claimLaw {s : State} (hs : s.ClaimLaw) (lane cue : Byte) : (s.takeCueAbort lane cue).1.ClaimLaw := by
  unfold State.takeCueAbort
  repeat' split
  exacts [hs, hs, abortCue_claimLaw hs _ _]

/-! ## CHANNEL_SET (R75) and the resets -/

theorem writeConfigs_claimLaw {s : State} (hs : s.ClaimLaw) {mask : Byte} {cfg : ChannelConfig}
    (hagree : s.ratesAgree mask cfg.standard = true) : (s.writeConfigs mask cfg).ClaimLaw := by
  obtain ⟨hclaims, hrates, hidle⟩ := hs
  have hkeeps := writeConfigs_keepsLanes (KeepsLanes.refl s) mask cfg
  refine ⟨fun n l => ?_, fun n l h => ?_, fun l h => ?_⟩
  · rw [hkeeps.claims, hkeeps.lane]
    exact hclaims n l
  · rw [hkeeps.claims] at h
    rw [hkeeps.lane, config_writeConfigs]
    split
    · rename_i hmem
      have hn := List.all_eq_true.1 hagree n hmem
      simp only [h, beq_iff_eq] at hn
      exact hn.symm
    · exact hrates n l h
  · rw [hkeeps.lane] at h ⊢
    exact hidle l h

theorem takeChannelSet_claimLaw {s : State} (hs : s.ClaimLaw) (mask : Byte) (record : ConfigBody) :
    (s.takeChannelSet mask record).1.ClaimLaw := by
  unfold State.takeChannelSet
  split
  · exact hs
  · split
    · exact hs
    · split
      · exact hs
      · rename_i hagree
        split
        · exact hs
        · exact claimLaw_of_keeps (handOver_keepsLanes (KeepsLanes.refl _)) (handOver_keeps (Keeps.refl _))
            (writeConfigs_claimLaw hs (by simpa using hagree))

theorem endAllDetached_keeps (s : State) : Keeps s s.endAllDetached :=
  foldl_rel _ _ (Keeps.refl s) fun _ n h => endDetachedOf_keeps h n

theorem resetTableAndChannels_config (s : State) (n : Channel) : (s.resetTableAndChannels.chan n).config = (s.chan n).config := by
  rw [← (endAllDetached_keeps s).config n]
  simp [State.resetTableAndChannels, State.handOver, State.chan, Vector.get_eq_getElem, Chan.unitReset, Chan.resetWith]

theorem claimLaw_pinReset (straps : BitVec 3) (rest : List Instr) :
    ({ State.resetWith straps with pending := rest } : State).ClaimLaw := by
  have hclaim (n : Channel) : ({ State.resetWith straps with pending := rest } : State).claims.get n = none := by
    simp [State.resetWith, Vector.get_eq_getElem]
  have hlane (l : LaneId) : ({ State.resetWith straps with pending := rest } : State).lane l = Lane.reset := by
    simp [State.lane, State.resetWith, Vector.get_eq_getElem]
  refine ⟨fun n l => ?_, fun n l h => ?_, fun l _ => ?_⟩
  · rw [hclaim, hlane, needs_of_empty rfl rfl]
    simp
  · rw [hclaim] at h
    exact absurd h nofun
  · rw [hlane]
    exact ⟨rfl, rfl⟩

theorem claimLaw_parts : KeptByParts State.ClaimLaw where
  queue _ _ hs := hs
  link _ _ hs := hs
  attn _ _ hs := hs
  store _ _ _ hs := hs
  anyStore _ _ hs := hs
  profiles _ _ hs := hs
  progress _ _ hs := hs
  pinReset := claimLaw_pinReset
  judgeHeader s n b := claimLaw_of_keeps (judgeHeader_keepsLanes (KeepsLanes.refl s) n b) (judgeHeader_keeps (Keeps.refl s) n b)
  judgePacket s n f := claimLaw_of_keeps (judgePacket_keepsLanes (KeepsLanes.refl s) n f) (judgePacket_keeps (Keeps.refl s) n f)
  loseLock s n := claimLaw_of_keeps (loseLock_keepsLanes (KeepsLanes.refl s) n) (loseLock_keeps (Keeps.refl s) n)
  beginShift s n _ :=
    claimLaw_of_keeps (modChan_keepsLanes (KeepsLanes.refl s) n _) (modChan_keeps (Keeps.refl s) n fun _ => rfl)
  takeLookup s n a := claimLaw_of_keeps (takeLookup_keepsLanes (KeepsLanes.refl s) n a) (takeLookup_keeps (Keeps.refl s) n a)
  takeRelease s n b :=
    claimLaw_of_keeps (takeRelease_keepsLanes (KeepsLanes.refl s) n b) (takeRelease_keeps (Keeps.refl s) n b)
  takeProposal s n := claimLaw_of_keeps (takeProposal_keepsLanes (KeepsLanes.refl s) n) (takeProposal_keeps (Keeps.refl s) n)
  takeEntryAdd s key first last d :=
    claimLaw_of_keeps (takeEntryAdd_keepsLanes (KeepsLanes.refl s) key first last d)
      (takeEntryAdd_keeps (Keeps.refl s) key first last d)
  takeEntryAmend s handle g first last d :=
    claimLaw_of_keeps (takeEntryAmend_keepsLanes (KeepsLanes.refl s) handle g first last d)
      (takeEntryAmend_keeps (Keeps.refl s) handle g first last d)
  takeEntryRetire s handle g :=
    claimLaw_of_keeps (takeEntryRetire_keepsLanes (KeepsLanes.refl s) handle g)
      (takeEntryRetire_keeps (Keeps.refl s) handle g)
  takeProposalConfirm s handle g :=
    claimLaw_of_keeps (takeProposalConfirm_keepsLanes (KeepsLanes.refl s) handle g)
      (takeProposalConfirm_keeps (Keeps.refl s) handle g)
  takeProposalReject s handle g :=
    claimLaw_of_keeps (takeProposalReject_keepsLanes (KeepsLanes.refl s) handle g)
      (takeProposalReject_keeps (Keeps.refl s) handle g)
  takeChannelSet _ mask record hs := takeChannelSet_claimLaw hs mask record
  startChannel s n := claimLaw_of_keeps (startChannel_keepsLanes (KeepsLanes.refl s) n) (startChannel_keeps (Keeps.refl s) n)
  haltChannel s n := claimLaw_of_keeps (haltChannel_keepsLanes (KeepsLanes.refl s) n) (haltChannel_keeps (Keeps.refl s) n)
  clearCounters s n :=
    claimLaw_of_keeps (modChan_keepsLanes (KeepsLanes.refl s) n _) (modChan_keeps (Keeps.refl s) n fun _ => rfl)
  startOne s := claimLaw_of_keeps (startOne_keepsLanes (KeepsLanes.refl s)) (startOne_keeps (Keeps.refl s))
  completeJob s e := claimLaw_of_follows (completeJob_lanesFollow s e) (completeJob_keeps (Keeps.refl s) e).config
  takeWithdrawOrder s n :=
    claimLaw_of_keeps (takeWithdrawOrder_keepsLanes (KeepsLanes.refl s) n) (takeWithdrawOrder_keeps (Keeps.refl s) n)
  takeCancelOrder s n :=
    claimLaw_of_keeps (takeCancelOrder_keepsLanes (KeepsLanes.refl s) n) (takeCancelOrder_keeps (Keeps.refl s) n)
  tickParts _ l hs := tickParts_claimLaw hs l
  judgeStep s n := claimLaw_of_keeps (judgeStep_keepsLanes (KeepsLanes.refl s) n) (judgeStep_keeps (Keeps.refl s) n)
  takeLaneSet _ lane record hs := takeLaneSet_claimLaw hs lane record
  takeCueAdd _ lane target trigger f hs := takeCueAdd_claimLaw hs lane target trigger f
  takeCueAbort _ lane cue hs := takeCueAbort_claimLaw hs lane cue
  clearLaneCounters _ _ := claimLaw_of_follows (LanesFollow.modLane ⟨rfl, rfl, rfl, Iff.rfl⟩) fun _ => rfl
  resetTableAndChannels s :=
    claimLaw_of_follows (LanesFollow.of_keeps (resetTableAndChannels_keepsLanes s)) (resetTableAndChannels_config s)
  resetPool s := claimLaw_of_follows (LanesFollow.of_keeps ⟨rfl, rfl⟩) fun n => (resetPool_follows s n).config
  resetLane _ l hs := resetLane_claimLaw hs l

/-- Settles O59: claims begin and end with the need for them. -/
theorem stepKeepsClaimLaw : Obligations.StepKeepsClaimLaw := fun _ _ hs h => claimLaw_parts.step hs h

end Sys2Proof.Machine
end

