-- ==== Sys2Proof/Proofs/Resets.lean ====
section
/-! The state after a pin reset, part by part (R22, R47, R93, R117, R127, R135, R159, R174, R183). -/

namespace Sys2Proof.Machine

/-- Settles O1: the two cases of the queue. -/
theorem stepTakesFrontCommand : Obligations.StepTakesFrontCommand := ⟨step_cons, step_nil⟩

/-! ## The parts after a pin reset -/

/-- The state after a pin reset, with the commands not yet taken. -/
def State.afterPins (straps : BitVec 3) (rest : List Instr) : State := { State.resetWith straps with pending := rest }

variable (straps : BitVec 3) (rest : List Instr)

theorem afterPins_chan (n : Channel) : (State.afterPins straps rest).chan n = Chan.resetWith ChannelConfig.reset := by
  simp [State.afterPins, State.chan, State.resetWith, Vector.get_eq_getElem]

theorem afterPins_claims (n : Channel) : (State.afterPins straps rest).claims.get n = none := by
  simp [State.afterPins, State.resetWith, Vector.get_eq_getElem]

theorem afterPins_entry (h : Handle) : (State.afterPins straps rest).entry h = Entry.free 0 := by
  simp [State.afterPins, State.entry, State.resetWith, Vector.get_eq_getElem]

theorem afterPins_profiles (i : ProfileIdx) : (State.afterPins straps rest).profiles.get i = Profile.reset := by
  simp [State.afterPins, State.resetWith, Vector.get_eq_getElem]

theorem afterPins_engines (e : EngineId) : (State.afterPins straps rest).engines.get e = none := by
  simp [State.afterPins, State.resetWith, Vector.get_eq_getElem]

theorem afterPins_lane (l : LaneId) : (State.afterPins straps rest).lane l = Lane.reset := by
  simp [State.afterPins, State.lane, State.resetWith, Vector.get_eq_getElem]

theorem afterPins_inFlight (n : Channel) : (State.afterPins straps rest).inFlight n = false := by
  simp [State.inFlight, State.afterPins, State.resetWith, jobOf]

/-- Every entry is FREE. -/
theorem afterPins_freeCount : (State.afterPins straps rest).freeCount = 1024 := by
  have htable : (State.afterPins straps rest).table.toList = List.replicate 1024 (Entry.free 0) := Vector.toList_replicate
  unfold State.freeCount
  rw [htable, List.countP_replicate]
  exact if_pos rfl

/-- No channel has a quota. -/
theorem afterPins_outstanding : (State.afterPins straps rest).outstanding = 0 :=
  List.sum_eq_zero fun x hx => by
    obtain ⟨n, -, rfl⟩ := List.mem_map.1 hx
    rw [State.quota, afterPins_chan]
    exact Nat.zero_sub _

theorem attnReset_quiet : Attn.reset.setSources = 0 ∧ Attn.reset.line = false := by decide

theorem attnReset_members : (∀ n : Channel, (Attn.reset.port.get n).mark = false ∧ Attn.reset.detachedCond.get n = false) ∧
    ∀ l : LaneId, (Attn.reset.starved.get l).mark = false ∧ Attn.reset.starvedCond.get l = false := by
  decide

theorem channelReset_matchers (i : Fin 4) : (ChannelConfig.reset.matchers.get i).enabled = false ∧
    (ChannelConfig.reset.matchers.get i).aliasKey = none := by
  revert i
  decide

/-- Settles O2: each part of the state after a pin reset is read off its definition. -/
theorem pinResetLeavesResetValues : Obligations.PinResetLeavesResetValues := by
  intro k s
  refine ⟨State.afterPins k s.pending, rfl, fun n => ?_, fun n => ?_, fun n => ?_, fun n => ?_, fun h => ?_,
    afterPins_freeCount k _, afterPins_outstanding k _, ?_, afterPins_profiles k _, rfl, afterPins_engines k _, rfl,
    fun l => ?_, rfl, rfl, rfl, rfl, rfl, rfl, attnReset_quiet.1, rfl, attnReset_quiet.2, rfl, rfl, rfl, rfl, rfl, rfl,
    rfl, attnReset_members.1, attnReset_members.2⟩
  · rw [afterPins_chan, afterPins_inFlight, afterPins_claims]
    exact ⟨rfl, rfl, rfl, rfl, rfl, rfl, rfl, rfl, rfl, rfl, rfl, rfl, rfl, rfl⟩
  · rw [afterPins_chan]
    exact ⟨rfl, rfl, rfl, rfl, rfl, rfl, rfl, rfl⟩
  · rw [afterPins_chan]
    exact ⟨rfl, rfl, rfl, rfl, rfl, rfl, channelReset_matchers⟩
  · rw [afterPins_chan]
    exact ⟨rfl, rfl, rfl, rfl, rfl, rfl⟩
  · rw [afterPins_entry]
    exact ⟨rfl, rfl, rfl⟩
  · rw [State.sharedFree, afterPins_freeCount, afterPins_outstanding]
  · rw [afterPins_lane]
    exact ⟨rfl, rfl, rfl, rfl, rfl, rfl, rfl, rfl, rfl, rfl, rfl⟩

/-- Settles O53: each law holds after a pin reset, here with the straps low. -/
theorem lawsHoldAtReset : Obligations.LawsHoldAtReset :=
  ⟨linkLaw_of_idle rfl (Nat.zero_le _), poolLaw_parts.pinReset 0 [], reserveLaw_pinReset 0 [], useLaw_table.pinReset 0 [],
    spanLaw_table.pinReset 0 [], claimLaw_pinReset 0 [], cueLaw_parts.pinReset 0 [], countLaw_table.pinReset 0 []⟩

/-! ## Completion and link reset (R167, R171) -/

theorem completeRequest_latching {s : State} {r : Instr} {res : Result} (h : s.link.flight = .handedBack r res)
    (hlatch : latchesRequest r = true) : s.completeRequest =
      (s.modLink fun k => { k with flight := .idle, lastResult := res }).modAttn Attn.latchRequest := by
  unfold State.completeRequest
  rw [h]
  exact if_pos hlatch

theorem completeRequest_silent {s : State} {r : Instr} {res : Result} (h : s.link.flight = .handedBack r res)
    (hlatch : latchesRequest r = false) : s.completeRequest =
      s.modLink fun k => { k with flight := .idle, lastResult := res } := by
  unfold State.completeRequest
  rw [h]
  exact if_neg (by simp [hlatch])

theorem latchesRequest_of_not_ack {r : Instr} (h : ∀ sources : Byte, r = .attnAck sources → sources.getLsbD 6 = false) :
    latchesRequest r = true := by
  unfold latchesRequest
  split
  · rename_i sources
    rw [h sources rfl]
    rfl
  · rfl

/-- Settles O50: a completion latches REQUEST unless it acknowledges it; a link reset is its three writes. -/
theorem completionWritesResult : Obligations.CompletionWritesResult :=
  ⟨fun _ _ _ hflight hack => congrArg Host.Outcome.next (completeRequest_latching hflight (latchesRequest_of_not_ack hack)),
    fun _ sources _ hflight hnames => congrArg Host.Outcome.next
      (completeRequest_silent hflight (show (!sources.getLsbD 6) = false by rw [hnames]; rfl)),
    fun _ => rfl⟩

end Sys2Proof.Machine
end

