-- ==== Sys2Proof/Proofs/EntryRequests.lean ====
section
/-! The requests on entries (R50 to R68) that find no claim before them: each is judged by the searches of the index and by
the entry it names, and its result goes back in the same event. -/

namespace Sys2Proof.Machine

/-! ## A waiting request -/

/-- With no claim before it, a waiting table request leaves what its owner leaves, and hands back its result. -/
theorem exec_serveTable {s t : State} {r : Instr} {owner : State → State × Result} {res : Result} (hw : s.Waits r)
    (hc : s.NoClaims) (hexec : exec r s = .next (s.serveTable r owner)) (howner : owner s = (t, res)) :
    exec r s = .next (t.setHandedBack r res) := by
  rw [hexec, serveTable_launched s r owner hw hc, howner]

/-- A waiting request of another owner leaves what its owner leaves, and hands back its result. -/
theorem exec_serve {s t : State} {r : Instr} {owner : State → State × Result} {res : Result} (hw : s.Waits r)
    (hexec : exec r s = .next (s.serve r owner)) (howner : owner s = (t, res)) :
    exec r s = .next (t.setHandedBack r res) := by
  rw [hexec, serve_launched s r owner hw, howner]

/-! ## Handles -/

theorem handleOf_eq {handle : BitVec 16} {h : Handle} (heq : handle.toNat = h.val) : handleOf handle = some h := by
  have hlt : handle.toNat < 1024 := heq ▸ h.isLt
  unfold handleOf
  rw [dif_pos hlt]
  exact congrArg some (Fin.ext heq)

theorem handleOf_above {handle : BitVec 16} (h : 1023 < handle.toNat) : handleOf handle = none := by
  unfold handleOf
  rw [dif_neg (by omega)]

/-! ## The searches -/

/-- Of several overlapping entries the one of smallest first field is found (R51). -/
theorem overlapping_eq_some {s : State} {key : Key} {a b : FieldNum} {except : Option Handle} {g : Handle}
    (hg : some g ≠ except) (hlive : (s.entry g).live = true) (hkey : (s.entry g).key = key)
    (hfirst : (s.entry g).first.toNat ≤ b.toNat) (hlast : a.toNat ≤ (s.entry g).last.toNat)
    (hleast : ∀ i : Handle, some i ≠ except → (s.entry i).live = true → (s.entry i).key = key →
      (s.entry i).first.toNat ≤ b.toNat → a.toNat ≤ (s.entry i).last.toNat → i ≠ g →
      (s.entry g).first.toNat < (s.entry i).first.toNat) : s.overlapping key a b except = some g := by
  cases hfound : s.overlapping key a b except with
  | none =>
    have := overlapping_eq_none hfound g hg hlive hkey
    omega
  | some i =>
    obtain ⟨hilive, hikey⟩ := (mem_spanIndex s key i).1 (List.mem_of_find?_eq_some hfound)
    have hi := List.find?_some hfound
    simp only [Entry.meets, Bool.and_eq_true, bne_iff_ne, decide_eq_true_eq] at hi
    obtain ⟨hie, hifirst, hilast⟩ := hi
    by_contra hne
    have hlt := hleast i hie hilive hikey hifirst hilast fun e => hne (congrArg some e)
    have hpicks : (some g != except && (s.entry g).meets a b) = true := by
      simp [Entry.meets, hg, hfirst, hlast]
    rcases find?_first_of_pairwise (spanIndex_ascending s key) hfound ((mem_spanIndex s key g).2 ⟨hlive, hkey⟩) hpicks
      with hgi | hle
    · exact hne (congrArg some hgi.symm)
    · exact Nat.not_lt.2 hle hlt

theorem overlapping_eq_none_of {s : State} {key : Key} {a b : FieldNum} {except : Option Handle}
    (h : ∀ g : Handle, some g ≠ except → (s.entry g).live = true → (s.entry g).key = key →
      b.toNat < (s.entry g).first.toNat ∨ (s.entry g).last.toNat < a.toNat) : s.overlapping key a b except = none := by
  refine List.find?_eq_none.2 fun g hmem hpicks => ?_
  obtain ⟨hlive, hkey⟩ := (mem_spanIndex s key g).1 hmem
  simp only [Entry.meets, Bool.and_eq_true, bne_iff_ne, decide_eq_true_eq] at hpicks
  obtain ⟨hg, hfirst, hlast⟩ := hpicks
  have := h g hg hlive hkey
  omega

theorem covering_eq_some {s : State} {key : Key} {f : FieldNum} {h : Handle} (hlive : (s.entry h).live = true)
    (hkey : (s.entry h).key = key) (hfirst : (s.entry h).first.toNat ≤ f.toNat) (hlast : f.toNat ≤ (s.entry h).last.toNat)
    (honly : ∀ i : Handle, (s.entry i).live = true → (s.entry i).key = key → (s.entry i).first.toNat ≤ f.toNat →
      f.toNat ≤ (s.entry i).last.toNat → i = h) : s.covering key f = some h := by
  cases hfound : s.covering key f with
  | none =>
    have := covering_eq_none hfound h hlive hkey
    omega
  | some i =>
    obtain ⟨hilive, hikey⟩ := (mem_spanIndex s key i).1 (List.mem_of_find?_eq_some hfound)
    have hi := List.find?_some hfound
    simp only [Entry.covers, Bool.and_eq_true, decide_eq_true_eq] at hi
    rw [honly i hilive hikey hi.1 hi.2]

theorem covering_eq_none_of {s : State} {key : Key} {f : FieldNum}
    (h : ∀ i : Handle, (s.entry i).live = true → (s.entry i).key = key →
      f.toNat < (s.entry i).first.toNat ∨ (s.entry i).last.toNat < f.toNat) : s.covering key f = none := by
  refine List.find?_eq_none.2 fun i hmem hpicks => ?_
  obtain ⟨hlive, hkey⟩ := (mem_spanIndex s key i).1 hmem
  simp only [Entry.covers, Bool.and_eq_true, decide_eq_true_eq] at hpicks
  have := h i hlive hkey
  omega

/-- The first FREE entry is at the lowest FREE handle. -/
theorem lowestFree_eq {s : State} {h : Handle} (hfree : (s.entry h).state = .free)
    (hlower : ∀ g : Handle, g < h → (s.entry g).state ≠ .free) : s.lowestFree = some h := by
  have hentry (i : Nat) (hi : i < s.table.toList.length) : s.table.toList[i] = s.entry ⟨i, by simpa using hi⟩ := by
    simp [State.entry, Vector.get_eq_getElem]
  have hindex : s.table.toList.findIdx? (fun e => e.state == .free) = some h.val := by
    refine List.findIdx?_eq_some_iff_getElem.2 ⟨by simp, ?_, fun j hj => ?_⟩
    · rw [hentry]
      exact beq_iff_eq.2 hfree
    · rw [hentry]
      simpa using hlower ⟨j, by omega⟩ hj
  unfold State.lowestFree
  rw [hindex]
  exact congrArg some (Fin.ofNat_val_eq_self h)

/-! ## ENTRY_ADD (R52) -/

section EntryAdd

variable {s : State} {key : Key} {first last : FieldNum} {record : BitVec 24} {d : Directives}

theorem takeEntryAdd_illFormed (hd : decodeDirectives record = none) :
    s.takeEntryAdd key first last record = (s, refuse .range) := by
  rw [State.takeEntryAdd, hd]

theorem takeEntryAdd_reversed (hd : decodeDirectives record = some d) (hspan : last.toNat < first.toNat) :
    s.takeEntryAdd key first last record = (s, refuse .range) := by
  simp only [State.takeEntryAdd, hd, if_pos hspan]

theorem takeEntryAdd_overlap (hd : decodeDirectives record = some d) (hspan : first.toNat ≤ last.toNat) {g : Handle}
    (hoverlap : s.overlapping key first last none = some g) :
    s.takeEntryAdd key first last record = (s, overlapResult g (s.entry g)) := by
  simp only [State.takeEntryAdd, hd, if_neg (Nat.not_lt.2 hspan), hoverlap]

theorem takeEntryAdd_noRoom (hd : decodeDirectives record = some d) (hspan : first.toNat ≤ last.toNat)
    (hoverlap : s.overlapping key first last none = none) (hshared : s.sharedFree = 0) :
    s.takeEntryAdd key first last record = (s, refuse .noRoom) := by
  simp only [State.takeEntryAdd, hd, if_neg (Nat.not_lt.2 hspan), hoverlap, if_pos hshared]

theorem takeEntryAdd_accepted (hd : decodeDirectives record = some d) (hspan : first.toNat ≤ last.toNat)
    (hoverlap : s.overlapping key first last none = none) (hshared : s.sharedFree ≠ 0) {h : Handle}
    (hfree : s.lowestFree = some h) : s.takeEntryAdd key first last record =
      (s.giveOut h (Entry.ofOperator key first last d), done (num16 h.val ++ [(s.entry h).gen + 1])) := by
  simp only [State.takeEntryAdd, hd, if_neg (Nat.not_lt.2 hspan), hoverlap, if_neg hshared, hfree]
  rfl

end EntryAdd

/-- Settles O18, check by check in their order. -/
theorem entryAddAcceptsOrRefuses : Obligations.EntryAddAcceptsOrRefuses := by
  refine ⟨fun s key first last record d h hw hc hd hspan hnone hshared hfree hlower => ?_,
    fun s key first last record hw hc hd => exec_serveTable hw hc rfl (takeEntryAdd_illFormed hd),
    fun s key first last record d hw hc hd => ⟨fun hspan => exec_serveTable hw hc rfl (takeEntryAdd_reversed hd hspan),
      fun hspan g hlive hkey hfirst hlast hleast => ?_, fun hspan hnone hshared => ?_⟩⟩
  · exact exec_serveTable hw hc rfl (takeEntryAdd_accepted hd hspan (overlapping_eq_none_of fun g _ => hnone g)
      (Nat.ne_of_gt hshared) (lowestFree_eq hfree hlower))
  · exact exec_serveTable hw hc rfl (takeEntryAdd_overlap hd hspan
      (overlapping_eq_some nofun hlive hkey hfirst hlast fun i _ => hleast i))
  · exact exec_serveTable hw hc rfl (takeEntryAdd_noRoom hd hspan (overlapping_eq_none_of fun g _ => hnone g) hshared)

/-! ## ENTRY_AMEND (R54, R55) -/

section EntryAmend

variable {s : State} {handle : BitVec 16} {g : Gen} {first last : FieldNum} {record : BitVec 24} {h : Handle} {d : Directives}

theorem takeEntryAmend_noHandle (hh : handleOf handle = none) :
    s.takeEntryAmend handle g first last record = (s, refuse .range) := by
  rw [State.takeEntryAmend, hh]

theorem takeEntryAmend_noEntry (hh : handleOf handle = some h) (hlive : (s.entry h).live = false) :
    s.takeEntryAmend handle g first last record = (s, refuse .noEntry) := by
  simp only [State.takeEntryAmend, hh, hlive, Bool.not_false, if_true]

theorem takeEntryAmend_stale (hh : handleOf handle = some h) (hlive : (s.entry h).live = true) (hgen : (s.entry h).gen ≠ g) :
    s.takeEntryAmend handle g first last record = (s, staleResult (s.entry h)) := by
  simp only [State.takeEntryAmend, hh, hlive, Bool.not_true, Bool.false_eq_true, if_false, if_pos hgen]

theorem takeEntryAmend_illFormed (hh : handleOf handle = some h) (hlive : (s.entry h).live = true)
    (hgen : (s.entry h).gen = g) (hbad : decodeDirectives record = none ∨ last.toNat < first.toNat) :
    s.takeEntryAmend handle g first last record = (s, refuse .range) := by
  simp only [State.takeEntryAmend, hh, hlive, Bool.not_true, Bool.false_eq_true, if_false, hgen, ne_eq, not_true_eq_false]
  cases hd : decodeDirectives record with
  | none => rfl
  | some d =>
    rw [hd] at hbad
    exact if_pos (hbad.resolve_left nofun)

theorem takeEntryAmend_overlap (hh : handleOf handle = some h) (hlive : (s.entry h).live = true)
    (hgen : (s.entry h).gen = g) (hd : decodeDirectives record = some d) (hspan : first.toNat ≤ last.toNat) {o : Handle}
    (hoverlap : s.overlapping (s.entry h).key first last (some h) = some o) :
    s.takeEntryAmend handle g first last record = (s, overlapResult o (s.entry o)) := by
  simp only [State.takeEntryAmend, hh, hlive, Bool.not_true, Bool.false_eq_true, if_false, hgen, ne_eq, not_true_eq_false, hd,
    if_neg (Nat.not_lt.2 hspan), hoverlap]

theorem takeEntryAmend_accepted (hh : handleOf handle = some h) (hlive : (s.entry h).live = true)
    (hgen : (s.entry h).gen = g) (hd : decodeDirectives record = some d) (hspan : first.toNat ≤ last.toNat)
    (hoverlap : s.overlapping (s.entry h).key first last (some h) = none) :
    s.takeEntryAmend handle g first last record =
      (s.setEntry h { s.entry h with first := first, last := last, directives := d, gen := g + 1 }, done [g + 1]) := by
  simp only [State.takeEntryAmend, hh, hlive, Bool.not_true, Bool.false_eq_true, if_false, hgen, ne_eq, not_true_eq_false, hd,
    if_neg (Nat.not_lt.2 hspan), hoverlap]

end EntryAmend

/-- Settles O19, check by check in their order. -/
theorem entryAmendRaisesGeneration : Obligations.EntryAmendRaisesGeneration := by
  refine ⟨fun s handle g first last record d h hw hc heq hlive hgen hd hspan hnone => ?_,
    fun s handle g first last record hw hc => ⟨fun habove => ?_, fun h heq => ⟨fun hlive => ?_, fun hlive hgen hbad => ?_,
      fun d o hlive hgen hd hspan hoh holive hokey hofirst holast hleast => ?_⟩⟩⟩
  · exact exec_serveTable hw hc rfl (takeEntryAmend_accepted (handleOf_eq heq) hlive hgen hd hspan
      (overlapping_eq_none_of fun i hi => hnone i fun e => hi (congrArg some e)))
  · exact exec_serveTable hw hc rfl (takeEntryAmend_noHandle (handleOf_above habove))
  · exact exec_serveTable hw hc rfl (takeEntryAmend_noEntry (handleOf_eq heq) hlive)
  · exact exec_serveTable hw hc rfl (takeEntryAmend_illFormed (handleOf_eq heq) hlive hgen hbad)
  · refine exec_serveTable hw hc rfl (takeEntryAmend_overlap (handleOf_eq heq) hlive hgen hd hspan
      (overlapping_eq_some (fun e => hoh (Option.some.inj e)) holive hokey hofirst holast fun i hi hl hk hf ht hio => ?_))
    exact hleast i (fun e => hi (congrArg some e)) hio hl hk hf ht

/-! ## ENTRY_RETIRE (R57) -/

theorem withdrawEntry_unused {s : State} {h : Handle} (huse : (s.entry h).useCount = 0) :
    s.withdrawEntry h = (s.setEntry h (Entry.free (s.entry h).gen)).handOver := by
  unfold State.withdrawEntry
  exact if_pos huse

theorem withdrawEntry_used {s : State} {h : Handle} (huse : (s.entry h).useCount ≠ 0) :
    s.withdrawEntry h = s.setEntry h { s.entry h with state := .retiring } := by
  unfold State.withdrawEntry
  exact if_neg huse

section EntryRetire

variable {s : State} {handle : BitVec 16} {g : Gen} {h : Handle}

theorem takeEntryRetire_noHandle (hh : handleOf handle = none) : s.takeEntryRetire handle g = (s, refuse .range) := by
  rw [State.takeEntryRetire, hh]

theorem takeEntryRetire_noEntry (hh : handleOf handle = some h) (hlive : (s.entry h).live = false) :
    s.takeEntryRetire handle g = (s, refuse .noEntry) := by
  simp only [State.takeEntryRetire, hh, hlive, Bool.not_false, if_true]

theorem takeEntryRetire_stale (hh : handleOf handle = some h) (hlive : (s.entry h).live = true) (hgen : (s.entry h).gen ≠ g) :
    s.takeEntryRetire handle g = (s, staleResult (s.entry h)) := by
  simp only [State.takeEntryRetire, hh, hlive, Bool.not_true, Bool.false_eq_true, if_false, if_pos hgen]

theorem takeEntryRetire_accepted (hh : handleOf handle = some h) (hlive : (s.entry h).live = true)
    (hgen : (s.entry h).gen = g) : s.takeEntryRetire handle g =
      (s.withdrawEntry h, done [if (s.entry h).useCount = 0 then 0 else 1, byte (s.entry h).useCount]) := by
  simp only [State.takeEntryRetire, hh, hlive, Bool.not_true, Bool.false_eq_true, if_false, hgen, ne_eq, not_true_eq_false]

end EntryRetire

/-- Settles O20: the entry leaves its index by its use count. -/
theorem entryRetireFreesOrRetires : Obligations.EntryRetireFreesOrRetires := by
  refine ⟨fun s handle g h hw hc heq hlive hgen => ⟨fun huse => ?_, fun huse => ?_⟩,
    fun s handle g hw hc => ⟨fun habove => exec_serveTable hw hc rfl (takeEntryRetire_noHandle (handleOf_above habove)),
      fun h heq hlive => exec_serveTable hw hc rfl (takeEntryRetire_noEntry (handleOf_eq heq) hlive)⟩⟩
  · rw [exec_serveTable hw hc rfl (takeEntryRetire_accepted (handleOf_eq heq) hlive hgen), withdrawEntry_unused huse, huse,
      hgen]
    rfl
  · rw [exec_serveTable hw hc rfl (takeEntryRetire_accepted (handleOf_eq heq) hlive hgen), withdrawEntry_used huse,
      if_neg huse]
    rfl

/-! ## ENTRY_FIND (R60) -/

/-- Settles O21: the search for the covering entry is ENTRY_FIND's answer. -/
theorem entryFindReportsCovering : Obligations.EntryFindReportsCovering := by
  refine fun s key f hw hc => ⟨fun h hlive hkey hfirst hlast honly => ?_, fun hnone => ?_⟩
  · have hcover := covering_eq_some hlive hkey hfirst hlast honly
    exact ⟨hcover, exec_serveTable hw hc rfl
      (show s.takeEntryFind key f = (s, done (entrySummary h (s.entry h))) by rw [State.takeEntryFind, hcover])⟩
  · have hcover := covering_eq_none_of hnone
    exact ⟨hcover, exec_serveTable hw hc rfl
      (show s.takeEntryFind key f = (s, refuse .noEntry) by rw [State.takeEntryFind, hcover])⟩

/-! ## PROPOSAL_CONFIRM (R63, R64) -/

section Proposal

variable {s : State} {handle : BitVec 16} {g : Gen} {h : Handle}

theorem takeProposalConfirm_noHandle (hh : handleOf handle = none) :
    s.takeProposalConfirm handle g = (s, refuse .range) := by
  rw [State.takeProposalConfirm, hh]

theorem takeProposalConfirm_noEntry (hh : handleOf handle = some h) (hstate : (s.entry h).state ≠ .provisional) :
    s.takeProposalConfirm handle g = (s, refuse .noEntry) := by
  simp only [State.takeProposalConfirm, hh, if_pos hstate]

theorem takeProposalConfirm_stale (hh : handleOf handle = some h) (hstate : (s.entry h).state = .provisional)
    (hgen : (s.entry h).gen ≠ g) : s.takeProposalConfirm handle g = (s, staleResult (s.entry h)) := by
  simp only [State.takeProposalConfirm, hh, hstate, ne_eq, not_true_eq_false, if_false, if_pos hgen]

theorem takeProposalConfirm_noRoom (hh : handleOf handle = some h) (hstate : (s.entry h).state = .provisional)
    (hgen : (s.entry h).gen = g) (hshared : s.sharedFree = 0) : s.takeProposalConfirm handle g = (s, refuse .noRoom) := by
  simp only [State.takeProposalConfirm, hh, hstate, hgen, ne_eq, not_true_eq_false, if_false, if_pos hshared]

theorem takeProposalConfirm_accepted (hh : handleOf handle = some h) (hstate : (s.entry h).state = .provisional)
    (hgen : (s.entry h).gen = g) (hshared : s.sharedFree ≠ 0) : s.takeProposalConfirm handle g =
      ((s.setEntry h { s.entry h with state := .active, parent := none, charge := .shared, gen := g + 1 }).handOver,
        done [g + 1]) := by
  simp only [State.takeProposalConfirm, hh, hstate, hgen, ne_eq, not_true_eq_false, if_false, if_neg hshared]

/-! ## PROPOSAL_REJECT (R66 to R68) -/

theorem takeProposalReject_noHandle (hh : handleOf handle = none) :
    s.takeProposalReject handle g = (s, refuse .range) := by
  rw [State.takeProposalReject, hh]

theorem takeProposalReject_noEntry (hh : handleOf handle = some h) (hstate : (s.entry h).state ≠ .provisional) :
    s.takeProposalReject handle g = (s, refuse .noEntry) := by
  simp only [State.takeProposalReject, hh, if_pos hstate]

theorem takeProposalReject_stale (hh : handleOf handle = some h) (hstate : (s.entry h).state = .provisional)
    (hgen : (s.entry h).gen ≠ g) : s.takeProposalReject handle g = (s, staleResult (s.entry h)) := by
  simp only [State.takeProposalReject, hh, hstate, ne_eq, not_true_eq_false, if_false, if_pos hgen]

theorem takeProposalReject_alone (hh : handleOf handle = some h) (hstate : (s.entry h).state = .provisional)
    (hgen : (s.entry h).gen = g) (hparent : s.mergeParent (s.entry h) = none) : s.takeProposalReject handle g =
      (s.withdrawEntry h, done [0, if (s.entry h).useCount = 0 then 0 else 1]) := by
  simp only [State.takeProposalReject, hh, hstate, hgen, ne_eq, not_true_eq_false, if_false, hparent]

theorem takeProposalReject_merged (hh : handleOf handle = some h) (hstate : (s.entry h).state = .provisional)
    (hgen : (s.entry h).gen = g) {p : Handle} (hparent : s.mergeParent (s.entry h) = some p) (hp : h ≠ p) :
    s.takeProposalReject handle g =
      ((s.withdrawEntry h).setEntry p ((s.entry p).extended (s.entry h).last),
        done ([1, if (s.entry h).useCount = 0 then 0 else 1] ++ num16 p.val ++ [(s.entry p).gen + 1])) := by
  simp only [State.takeProposalReject, hh, hstate, hgen, ne_eq, not_true_eq_false, if_false, hparent,
    entry_withdrawEntry_ne s hp]
  rfl

end Proposal

/-- Settles O24, check by check in their order. -/
theorem proposalConfirmMakesActive : Obligations.ProposalConfirmMakesActive := by
  refine ⟨fun s handle g h hw hc heq hstate hgen => ⟨fun hshared => ?_, fun hshared => ?_⟩,
    fun s handle g hw hc => ⟨fun habove => ?_, fun h heq hstate => ?_⟩⟩
  · exact exec_serveTable hw hc rfl
      (takeProposalConfirm_accepted (handleOf_eq heq) hstate hgen (Nat.ne_of_gt hshared))
  · exact exec_serveTable hw hc rfl (takeProposalConfirm_noRoom (handleOf_eq heq) hstate hgen hshared)
  · exact exec_serveTable hw hc rfl (takeProposalConfirm_noHandle (handleOf_above habove))
  · exact exec_serveTable hw hc rfl (takeProposalConfirm_noEntry (handleOf_eq heq) hstate)

theorem mergeParent_eq_some {s : State} {e : Entry} {p : Handle} {g : Gen} (hparent : e.parent = some (p, g))
    (hlive : (s.entry p).live = true) (hkey : (s.entry p).key = e.key) (hgen : (s.entry p).gen = g)
    (hjoin : (s.entry p).last.toNat + 1 = e.first.toNat) : s.mergeParent e = some p := by
  simp only [State.mergeParent, hparent]
  exact if_pos ⟨hlive, hkey, hgen, hjoin⟩

theorem mergeParent_eq_none {s : State} {e : Entry} (h : ∀ (p : Handle) (g : Gen), e.parent = some (p, g) →
    (s.entry p).live = false ∨ (s.entry p).key ≠ e.key ∨ (s.entry p).gen ≠ g ∨
      (s.entry p).last.toNat + 1 ≠ e.first.toNat) : s.mergeParent e = none := by
  unfold State.mergeParent
  split
  · rfl
  · rename_i p g hparent
    refine if_neg fun ⟨hlive, hkey, hgen, hjoin⟩ => ?_
    rcases h p g hparent with hl | hk | hg | hj
    · rw [hl] at hlive
      exact absurd hlive nofun
    · exact hk hkey
    · exact hg hgen
    · exact hj hjoin

/-- A proposal leaves its index by its use count, and the outcome byte says how. -/
theorem withdrawEntry_outcome {s u : State} {h : Handle} {g : Gen} {outcome : Byte} (hgen : (s.entry h).gen = g)
    (hfreed : (s.entry h).useCount = 0 → u = (s.setEntry h (Entry.free g)).handOver ∧ outcome = 0)
    (hretired : (s.entry h).useCount ≠ 0 → u = s.setEntry h { s.entry h with state := .retiring } ∧ outcome = 1) :
    s.withdrawEntry h = u ∧ (if (s.entry h).useCount = 0 then 0 else 1) = outcome := by
  by_cases huse : (s.entry h).useCount = 0
  · obtain ⟨rfl, rfl⟩ := hfreed huse
    exact ⟨hgen ▸ withdrawEntry_unused huse, if_pos huse⟩
  · obtain ⟨rfl, rfl⟩ := hretired huse
    exact ⟨withdrawEntry_used huse, if_neg huse⟩

/-- Settles O25: the merge is decided on the state before the proposal leaves. -/
theorem proposalRejectMergesBack : Obligations.ProposalRejectMergesBack := by
  refine ⟨fun s u handle g h outcome hw hc heq hstate hgen hfreed hretired => ?_,
    fun s handle g hw hc => ⟨fun habove => exec_serveTable hw hc rfl (takeProposalReject_noHandle (handleOf_above habove)),
      fun h heq hstate => exec_serveTable hw hc rfl (takeProposalReject_noEntry (handleOf_eq heq) hstate)⟩⟩
  obtain ⟨hu, houtcome⟩ := withdrawEntry_outcome hgen hfreed hretired
  refine ⟨fun p pg hp hparent hlive hkey hpgen hjoin => ?_, fun hnone => ?_⟩
  · rw [exec_serveTable hw hc rfl (takeProposalReject_merged (handleOf_eq heq) hstate hgen
      (mergeParent_eq_some hparent hlive hkey hpgen hjoin) (Ne.symm hp)), hu, houtcome, ← hpgen]
    rfl
  · rw [exec_serveTable hw hc rfl (takeProposalReject_alone (handleOf_eq heq) hstate hgen (mergeParent_eq_none hnone)), hu,
      houtcome]
    rfl

/-! ## Expected generations (R49, R50) -/

theorem staleResult_provisional {e : Entry} (h : e.state = .provisional) :
    staleResult e = { code := .stale, bytes := [2, e.gen] } := by
  rw [staleResult, h]
  rfl

/-- Settles O26: each of the four requests checks the generation after the state. -/
theorem staleGenerationRefused : Obligations.StaleGenerationRefused := by
  intro s handle g h heq hc hgen
  have hh := handleOf_eq heq
  refine ⟨fun first last record hlive hw => ?_, fun hlive hw => ?_, fun hstate hw => ?_, fun hstate hw => ?_⟩
  · exact exec_serveTable hw hc rfl (takeEntryAmend_stale hh hlive hgen)
  · exact exec_serveTable hw hc rfl (takeEntryRetire_stale hh hlive hgen)
  · rw [← staleResult_provisional hstate]
    exact exec_serveTable hw hc rfl (takeProposalConfirm_stale hh hstate hgen)
  · rw [← staleResult_provisional hstate]
    exact exec_serveTable hw hc rfl (takeProposalReject_stale hh hstate hgen)

end Sys2Proof.Machine
end

