-- ==== Sys2Proof/Proofs/Bodies.lean ====
section
/-! A request body read back is the request (10, The request catalogue; R166): each item stands at its offset, most
significant byte first. -/

namespace Sys2Proof

open Machine

/-! ## Values read back from their bytes -/

theorem join_bytes16 (v : BitVec 16) : v.extractLsb' 8 8 ++ v.extractLsb' 0 8 = v :=
  BitVec.extractLsb'_append_extractLsb'

theorem join_bytes24 (v : BitVec 24) : v.extractLsb' 16 8 ++ (v.extractLsb' 8 8 ++ v.extractLsb' 0 8) = v := by
  rw [BitVec.extractLsb'_append_extractLsb'_eq_extractLsb' (by rfl)]
  exact BitVec.extractLsb'_append_extractLsb'

theorem join_bytes32 (v : BitVec 32) :
    v.extractLsb' 24 8 ++ (v.extractLsb' 16 8 ++ (v.extractLsb' 8 8 ++ v.extractLsb' 0 8)) = v := by
  rw [BitVec.extractLsb'_append_extractLsb'_eq_extractLsb' (by rfl), BitVec.extractLsb'_append_extractLsb'_eq_extractLsb' (by rfl)]
  exact BitVec.extractLsb'_append_extractLsb'

theorem join_bytes48 (v : BitVec 48) : v.extractLsb' 40 8 ++ v.extractLsb' 32 8 ++
    (v.extractLsb' 24 8 ++ (v.extractLsb' 16 8 ++ (v.extractLsb' 8 8 ++ v.extractLsb' 0 8))) = v := by
  rw [BitVec.extractLsb'_append_extractLsb'_eq_extractLsb' (by rfl), BitVec.extractLsb'_append_extractLsb'_eq_extractLsb' (by rfl),
    BitVec.extractLsb'_append_extractLsb'_eq_extractLsb' (by rfl), BitVec.extractLsb'_append_extractLsb'_eq_extractLsb' (by rfl)]
  exact BitVec.extractLsb'_append_extractLsb'

/-! ## The rows of the catalogue -/

/-- The body spells the request, and the catalogue gives its length. -/
def Spells (body : List Byte) (r : Instr) : Prop :=
  decodeBody body = some r ∧ body.length ≤ 64 ∧ bodyLength (byteAt body 0) = some body.length

theorem spells_of {code : Byte} {rest : List Byte} {r : Instr} {n : Nat} (hcode : bodyLength code = some n)
    (hlength : (code :: rest).length = n) (hn : n ≤ 64) (hread : bodyRequest (code :: rest) = r) : Spells (code :: rest) r := by
  subst hlength hread
  exact ⟨if_pos hcode, hn, hcode⟩

theorem spells_entryAdd (key : Key) (first last : FieldNum) (d : BitVec 24) :
    Spells (0x10 :: (bytes32 key ++ bytes24 first ++ bytes24 last ++ bytes24 d)) (.entryAdd key first last d) :=
  spells_of (n := 14) rfl rfl (by decide)
    (congr (congr (congr (congrArg _ (join_bytes32 key)) (join_bytes24 first)) (join_bytes24 last)) (join_bytes24 d))

theorem spells_entryAmend (h : BitVec 16) (g : Gen) (first last : FieldNum) (d : BitVec 24) :
    Spells (0x11 :: (bytes16 h ++ [g] ++ bytes24 first ++ bytes24 last ++ bytes24 d)) (.entryAmend h g first last d) :=
  spells_of (n := 13) rfl rfl (by decide)
    (congr (congr (congr (congrArg (Instr.entryAmend · g) (join_bytes16 h)) (join_bytes24 first)) (join_bytes24 last))
      (join_bytes24 d))

theorem spells_entryRetire (h : BitVec 16) (g : Gen) : Spells (0x12 :: (bytes16 h ++ [g])) (.entryRetire h g) :=
  spells_of (n := 4) rfl rfl (by decide) (congrArg (Instr.entryRetire · g) (join_bytes16 h))

theorem spells_entryRead (h : BitVec 16) : Spells (0x13 :: bytes16 h) (.entryRead h) :=
  spells_of (n := 3) rfl rfl (by decide) (congrArg Instr.entryRead (join_bytes16 h))

theorem spells_entryFind (key : Key) (f : FieldNum) : Spells (0x14 :: (bytes32 key ++ bytes24 f)) (.entryFind key f) :=
  spells_of (n := 8) rfl rfl (by decide) (congr (congrArg Instr.entryFind (join_bytes32 key)) (join_bytes24 f))

theorem spells_entryNext (key : Key) (f : FieldNum) : Spells (0x15 :: (bytes32 key ++ bytes24 f)) (.entryNext key f) :=
  spells_of (n := 8) rfl rfl (by decide) (congr (congrArg Instr.entryNext (join_bytes32 key)) (join_bytes24 f))

theorem spells_proposalConfirm (h : BitVec 16) (g : Gen) : Spells (0x16 :: (bytes16 h ++ [g])) (.proposalConfirm h g) :=
  spells_of (n := 4) rfl rfl (by decide) (congrArg (Instr.proposalConfirm · g) (join_bytes16 h))

theorem spells_proposalReject (h : BitVec 16) (g : Gen) : Spells (0x17 :: (bytes16 h ++ [g])) (.proposalReject h g) :=
  spells_of (n := 4) rfl rfl (by decide) (congrArg (Instr.proposalReject · g) (join_bytes16 h))

theorem join_matcher (m : MatcherBody) : MatcherBody.mk m.flags
    (m.code.extractLsb' 24 8 ++ (m.code.extractLsb' 16 8 ++ (m.code.extractLsb' 8 8 ++ m.code.extractLsb' 0 8)))
    (m.mask.extractLsb' 24 8 ++ (m.mask.extractLsb' 16 8 ++ (m.mask.extractLsb' 8 8 ++ m.mask.extractLsb' 0 8)))
    (m.aliasKey.extractLsb' 24 8 ++
      (m.aliasKey.extractLsb' 16 8 ++ (m.aliasKey.extractLsb' 8 8 ++ m.aliasKey.extractLsb' 0 8))) = m := by
  rw [join_bytes32, join_bytes32, join_bytes32]

theorem decodeConfigBody_encode (mask : Byte) (c : ConfigBody) :
    decodeConfigBody (0x20 :: mask :: encodeConfigBody c) = c :=
  congr (congr (congr (congr (congr (congr (congrArg (ConfigBody.mk c.flags c.quota) (join_bytes16 c.repeatThreshold))
    (join_bytes16 c.pairedThreshold)) (join_bytes24 c.directives)) (join_matcher c.matcher0)) (join_matcher c.matcher1))
    (join_matcher c.matcher2)) (join_matcher c.matcher3)

theorem spells_channelSet (mask : Byte) (c : ConfigBody) :
    Spells (0x20 :: mask :: encodeConfigBody c) (.channelSet mask c) :=
  spells_of (n := 63) rfl rfl (by decide) (congrArg (Instr.channelSet mask) (decodeConfigBody_encode mask c))

theorem spells_profileWrite (index : Byte) (record : BitVec 48) :
    Spells (0x30 :: index :: bytes48 record) (.profileWrite index record) :=
  spells_of (n := 8) rfl rfl (by decide) (congrArg (Instr.profileWrite index) (join_bytes48 record))

theorem spells_laneSet (lane : Byte) (record : BitVec 48) : Spells (0x38 :: lane :: bytes48 record) (.laneSet lane record) :=
  spells_of (n := 8) rfl rfl (by decide) (congrArg (Instr.laneSet lane) (join_bytes48 record))

theorem spells_cueAdd (lane target trigger : Byte) (f : FieldNum) :
    Spells (0x39 :: lane :: target :: trigger :: bytes24 f) (.cueAdd lane target trigger f) :=
  spells_of (n := 7) rfl rfl (by decide) (congrArg (Instr.cueAdd lane target trigger) (join_bytes24 f))

theorem spells_attnSet (enables modes : Byte) (threshold : BitVec 16) :
    Spells (0x42 :: enables :: modes :: bytes16 threshold) (.attnSet enables modes threshold) :=
  spells_of (n := 5) rfl rfl (by decide) (congrArg (Instr.attnSet enables modes) (join_bytes16 threshold))

/-- The request whose body is written is the request that the body spells. -/
theorem encodeBody_spells {r : Instr} {body : List Byte} (h : encodeBody r = some body) : Spells body r := by
  cases r
  case entryAdd key first last d => cases h; exact spells_entryAdd key first last d
  case entryAmend handle g first last d => cases h; exact spells_entryAmend handle g first last d
  case entryRetire handle g => cases h; exact spells_entryRetire handle g
  case entryRead handle => cases h; exact spells_entryRead handle
  case entryFind key f => cases h; exact spells_entryFind key f
  case entryNext key f => cases h; exact spells_entryNext key f
  case proposalConfirm handle g => cases h; exact spells_proposalConfirm handle g
  case proposalReject handle g => cases h; exact spells_proposalReject handle g
  case channelSet mask record => cases h; exact spells_channelSet mask record
  case channelStart => cases h; exact spells_of (n := 2) rfl rfl (by decide) rfl
  case channelHalt => cases h; exact spells_of (n := 2) rfl rfl (by decide) rfl
  case channelRead => cases h; exact spells_of (n := 3) rfl rfl (by decide) rfl
  case syncSnapshot => cases h; exact spells_of (n := 3) rfl rfl (by decide) rfl
  case syncRead => cases h; exact spells_of (n := 1) rfl rfl (by decide) rfl
  case profileWrite index record => cases h; exact spells_profileWrite index record
  case profileRead => cases h; exact spells_of (n := 2) rfl rfl (by decide) rfl
  case laneSet lane record => cases h; exact spells_laneSet lane record
  case cueAdd lane target trigger f => cases h; exact spells_cueAdd lane target trigger f
  case cueAbort => cases h; exact spells_of (n := 3) rfl rfl (by decide) rfl
  case laneRead => cases h; exact spells_of (n := 3) rfl rfl (by decide) rfl
  case attnRead => cases h; exact spells_of (n := 1) rfl rfl (by decide) rfl
  case attnAck => cases h; exact spells_of (n := 2) rfl rfl (by decide) rfl
  case attnSet enables modes threshold => cases h; exact spells_attnSet enables modes threshold
  case unitRead => cases h; exact spells_of (n := 1) rfl rfl (by decide) rfl
  case unitReset => cases h; exact spells_of (n := 1) rfl rfl (by decide) rfl
  all_goals exact absurd h nofun

/-- Settles O51: row by row of the catalogue. -/
theorem bodyDecodesToItsRequest : Obligations.BodyDecodesToItsRequest := fun _ _ h => encodeBody_spells h

end Sys2Proof
end

