-- ==== Sys2Proof/Proofs/StoreRequests.lean ====
section
/-! Reel matchers (R5, R6), the requests on profiles (R126, R127) and on channel records (R75, R76), and the snapshot store,
which only SYNC_READ, a pin reset and its part of a UNIT_RESET empty (R92). -/

namespace Sys2Proof.Machine

/-! ## Reel matchers (R5, R6) -/

/-- A word masked out by the complement of another is 0 when it has a 0 wherever that has one. -/
theorem and_not_eq_zero_iff (x mask : Key) : x &&& ~~~mask = 0 ↔
    ∀ i : Nat, i < 32 → mask.getLsbD i = false → x.getLsbD i = false := by
  constructor
  · intro h i hi hm
    have hbit : (x &&& ~~~mask).getLsbD i = false := by rw [h]; exact BitVec.getLsbD_zero
    rw [BitVec.getLsbD_and, BitVec.getLsbD_not, hm, decide_eq_true hi] at hbit
    simpa only [Bool.not_false, Bool.and_true] using hbit
  · intro h
    refine BitVec.eq_of_getLsbD_eq fun i hi => ?_
    change _ = (0#32).getLsbD i
    rw [BitVec.getLsbD_and, BitVec.getLsbD_not, BitVec.getLsbD_zero]
    cases hm : mask.getLsbD i with
    | true => rw [Bool.not_true, Bool.and_false, Bool.and_false]
    | false => rw [h i hi hm, Bool.false_and]

theorem hits_iff (m : Matcher) (tag : Key) : m.hits tag = true ↔
    m.enabled = true ∧ ∀ i : Nat, i < 32 → m.mask.getLsbD i = false → tag.getLsbD i = m.code.getLsbD i := by
  rw [Matcher.hits, Bool.and_eq_true, beq_iff_eq, and_not_eq_zero_iff]
  refine and_congr_right fun _ => forall_congr' fun i => forall₂_congr fun _ _ => ?_
  rw [BitVec.getLsbD_xor]
  exact bne_eq_false_iff_eq

/-- The search of an indexed collection finds its first element that passes. -/
theorem find?_toList_eq {α : Type} {n : Nat} {v : Vector α n} {p : α → Bool} {i : Fin n} (hi : p (v.get i) = true)
    (hfirst : ∀ j : Fin n, j < i → p (v.get j) = false) : v.toList.find? p = some (v.get i) := by
  refine List.find?_eq_some_iff_getElem.2 ⟨hi, i.val, by simp, by simp [Vector.get_eq_getElem], fun j hj => ?_⟩
  have hbefore := hfirst ⟨j, hj.trans i.isLt⟩ hj
  simpa [Vector.get_eq_getElem] using hbefore

/-- Settles O3: bit by bit, and by the order of the search. -/
theorem matcherHitsByMaskedCode : Obligations.MatcherHitsByMaskedCode := by
  refine ⟨hits_iff, fun c tag i hi hfirst => ?_, fun c tag hnone => ?_⟩
  · exact congrArg (Option.map _) (find?_toList_eq (p := fun m : Matcher => m.hits tag) hi hfirst)
  · have hfind : c.matchers.toList.find? (fun m => m.hits tag) = none := by
      refine List.find?_eq_none.2 fun m hm => ?_
      obtain ⟨i, hi, rfl⟩ := List.mem_iff_getElem.1 hm
      have hmiss := hnone ⟨i, by simpa using hi⟩
      simpa [Vector.get_eq_getElem] using hmiss
    rw [ChannelConfig.lookupKey, hfind]
    rfl

/-! ## Profiles (R126, R127) -/

theorem profileOf_eq {index : Byte} {i : ProfileIdx} (h : index.toNat = i.val) : profileOf index = some i := by
  unfold profileOf
  rw [dif_pos (h ▸ i.isLt)]
  exact congrArg some (Fin.ext h)

theorem profileOf_above {index : Byte} (h : 15 < index.toNat) : profileOf index = none := by
  unfold profileOf
  rw [dif_neg (by omega)]

theorem takeProfileWrite_refused {s : State} {index : Byte} {record : BitVec 48}
    (h : 15 < index.toNat ∨ decodeProfile record = none) : s.takeProfileWrite index record = (s, refuse .range) := by
  unfold State.takeProfileWrite
  rcases h with habove | hrecord
  · rw [profileOf_above habove]
  · rw [hrecord]
    cases profileOf index <;> rfl

/-- Settles O33: index and record are judged together. -/
theorem profileRequests : Obligations.ProfileRequests := by
  refine ⟨fun s index record i p hw hi hp => exec_serve hw rfl ?_,
    fun s index record hw hbad => exec_serve hw rfl (takeProfileWrite_refused hbad),
    fun s index i hw hi => exec_serve hw rfl ?_, fun s index hw habove => exec_serve hw rfl ?_⟩
  · simp only [State.takeProfileWrite, profileOf_eq hi, hp]
    rfl
  · simp only [State.takeProfileRead, profileOf_eq hi]
    rfl
  · simp only [State.takeProfileRead, profileOf_above habove]
    rfl

/-! ## The snapshot store (R92) -/

/-- The store holds a snapshot, and no request waits there. -/
def State.HoldsSnapshot (x : Snapshot) (s : State) : Prop := s.store = { snapshot := some x, waiting := none }

theorem holdsSnapshot_of_store {x : Snapshot} {s t : State} (h : t.store = s.store) (hs : s.HoldsSnapshot x) :
    t.HoldsSnapshot x :=
  h.trans hs

theorem holdsSnapshot_of_keeps {x : Snapshot} {s t : State} (h : Keeps s t) : s.HoldsSnapshot x → t.HoldsSnapshot x :=
  holdsSnapshot_of_store h.store

theorem takeChannelSet_store (s : State) (mask : Byte) (record : ConfigBody) :
    (s.takeChannelSet mask record).1.store = s.store := by
  have hwrite (cfg : ChannelConfig) : (s.writeConfigs mask cfg).store = s.store :=
    foldl_rel (R := fun u v => v.store = u.store) _ _ rfl fun _ _ h => h
  unfold State.takeChannelSet
  repeat' split
  exacts [rfl, rfl, rfl, rfl, (modAttn_store _ _).trans (hwrite _)]

theorem resetTableAndChannels_store (s : State) : s.resetTableAndChannels.store = s.store := by
  unfold State.resetTableAndChannels
  simp only [State.handOver, modAttn_store, (endAllDetached_keeps s).store]

/-- A snapshot held while no request waits stays: the store changes only where a request waits, or where it holds none. -/
theorem holdsSnapshot_ops (x : Snapshot) : KeptByOps (State.HoldsSnapshot x) where
  queue _ _ := holdsSnapshot_of_store rfl
  link _ _ := holdsSnapshot_of_store rfl
  attn _ _ := holdsSnapshot_of_store rfl
  store s _ hchange hs := by
    unfold State.HoldsSnapshot at hs
    rw [hs] at hchange
    exact absurd hchange (by simp)
  profiles _ _ := holdsSnapshot_of_store rfl
  progress _ _ := holdsSnapshot_of_store rfl
  judgeHeader s n b := holdsSnapshot_of_keeps (judgeHeader_keeps (Keeps.refl s) n b)
  judgePacket s n f := holdsSnapshot_of_keeps (judgePacket_keeps (Keeps.refl s) n f)
  loseLock s n := holdsSnapshot_of_keeps (loseLock_keeps (Keeps.refl s) n)
  beginShift s n _ := holdsSnapshot_of_store (modChan_store s n _)
  takeLookup s n a := holdsSnapshot_of_keeps (takeLookup_keeps (Keeps.refl s) n a)
  takeRelease s n b := holdsSnapshot_of_keeps (takeRelease_keeps (Keeps.refl s) n b)
  takeProposal s n := holdsSnapshot_of_keeps (takeProposal_keeps (Keeps.refl s) n)
  takeEntryAdd s key first last d := holdsSnapshot_of_keeps (takeEntryAdd_keeps (Keeps.refl s) key first last d)
  takeEntryAmend s handle g first last d :=
    holdsSnapshot_of_keeps (takeEntryAmend_keeps (Keeps.refl s) handle g first last d)
  takeEntryRetire s handle g := holdsSnapshot_of_keeps (takeEntryRetire_keeps (Keeps.refl s) handle g)
  takeProposalConfirm s handle g := holdsSnapshot_of_keeps (takeProposalConfirm_keeps (Keeps.refl s) handle g)
  takeProposalReject s handle g := holdsSnapshot_of_keeps (takeProposalReject_keeps (Keeps.refl s) handle g)
  takeChannelSet s mask record := holdsSnapshot_of_store (takeChannelSet_store s mask record)
  startChannel s n := holdsSnapshot_of_keeps (startChannel_keeps (Keeps.refl s) n)
  haltChannel s n := holdsSnapshot_of_keeps (haltChannel_keeps (Keeps.refl s) n)
  clearCounters s n := holdsSnapshot_of_store (modChan_store s n _)
  startOne s := holdsSnapshot_of_keeps (startOne_keeps (Keeps.refl s))
  completeJob s e := holdsSnapshot_of_keeps (completeJob_keeps (Keeps.refl s) e)
  takeWithdrawOrder s n := holdsSnapshot_of_keeps (takeWithdrawOrder_keeps (Keeps.refl s) n)
  takeCancelOrder s n := holdsSnapshot_of_keeps (takeCancelOrder_keeps (Keeps.refl s) n)
  tickParts s l := holdsSnapshot_of_keeps (poolTick_keeps (lanePart_keeps (Keeps.refl s) l) l)
  judgeStep s n := holdsSnapshot_of_keeps (judgeStep_keeps (Keeps.refl s) n)
  takeLaneSet s lane record := holdsSnapshot_of_keeps (takeLaneSet_keeps (Keeps.refl s) lane record)
  takeCueAdd s lane target trigger f := holdsSnapshot_of_keeps (takeCueAdd_keeps (Keeps.refl s) lane target trigger f)
  takeCueAbort s lane cue := holdsSnapshot_of_keeps (takeCueAbort_keeps (Keeps.refl s) lane cue)
  clearLaneCounters s l := holdsSnapshot_of_store (modLane_store s l _)
  resetTableAndChannels s := holdsSnapshot_of_store (resetTableAndChannels_store s)
  resetPool _ := holdsSnapshot_of_store rfl
  resetLane s l :=
    holdsSnapshot_of_keeps (modLane_keeps (releaseClaims_keeps (endStarvedOf_keeps (Keeps.refl s) l) l) l _)

/-- Settles O32: what the three that empty the store do, and that nothing else touches a held snapshot. -/
theorem syncReadEmptiesStore : Obligations.SyncReadEmptiesStore := by
  refine ⟨fun s x hw hx => exec_serve hw rfl ?_, fun i => rfl, fun s hw hnone => exec_serve hw rfl ?_,
    fun s t c x hstore hexec hread hpins hpart => ?_, fun s k => ⟨_, rfl, rfl⟩, fun s p hp hstore => ?_,
    fun s => ⟨_, rfl, rfl, rfl⟩⟩
  · simp only [State.takeSyncRead, hx]
    rfl
  · simp only [State.takeSyncRead, hnone]
    rfl
  · exact effect_of_exec hexec ▸ ((holdsSnapshot_ops x).effect hpins hread hpart hstore).trans hstore.symm
  · refine ⟨{ s with store := { snapshot := none, waiting := none }, unitReset := some { p with store := true } }, ?_, rfl⟩
    change execUnitResetSnapshotStorePart s = _
    simp only [execUnitResetSnapshotStorePart, hp, hstore, Bool.false_eq_true, if_false]

/-! ## CHANNEL_SET (R75, R76) -/

theorem mem_maskChannels (mask : Byte) (n : Channel) : n ∈ maskChannels mask ↔ mask.getLsbD n.val = true := by
  simp [maskChannels, mem_allChannels]

theorem all_maskChannels (mask : Byte) (p : Channel → Bool) :
    (maskChannels mask).all p = true ↔ ∀ n : Channel, mask.getLsbD n.val = true → p n = true := by
  simp only [List.all_eq_true, mem_maskChannels]

theorem writeConfigs_eq (s : State) (mask : Byte) (cfg : ChannelConfig) :
    s.writeConfigs mask cfg = { s with chans := (s.writeConfigs mask cfg).chans } :=
  foldl_rel (R := fun u v => v = { u with chans := v.chans }) _ _ rfl fun u n h => by
    rw [h]
    rfl

theorem handOver_of_chans {s u : State} (h : u = { s with chans := u.chans }) :
    u.handOver = { s with chans := u.chans, attn := u.handOver.attn } :=
  congrArg (fun v : State => { v with attn := u.handOver.attn }) h

/-- The reserve that the masked channels' new quotas leave outstanding. -/
def State.outstandingWith (s : State) (mask : Byte) (cfg : ChannelConfig) : Nat :=
  (allChannels.map fun n => (if mask.getLsbD n.val then cfg.quota else s.quota n) - s.reserveHeld n).sum

theorem outstanding_writeConfigs (s : State) (mask : Byte) (cfg : ChannelConfig) :
    (s.writeConfigs mask cfg).outstanding = s.outstandingWith mask cfg := by
  have htable := (writeConfigs_keepsTable (KeepsTable.refl s) mask cfg).table
  refine congrArg List.sum (List.map_congr_left fun n _ => ?_)
  have hheld : (s.writeConfigs mask cfg).reserveHeld n = s.reserveHeld n := by
    unfold State.reserveHeld
    rw [htable]
  rw [hheld, State.quota, config_writeConfigs]
  simp only [mem_maskChannels]
  split <;> rfl

theorem sharedFree_writeConfigs (s : State) (mask : Byte) (cfg : ChannelConfig) :
    (s.writeConfigs mask cfg).sharedFree = s.freeCount - s.outstandingWith mask cfg := by
  rw [State.sharedFree, outstanding_writeConfigs, State.freeCount,
    (writeConfigs_keepsTable (KeepsTable.refl s) mask cfg).table]
  rfl

section ChannelSet

variable {s : State} {mask : Byte} {record : ConfigBody} {cfg : ChannelConfig}

theorem ratesAgree_iff : s.ratesAgree mask cfg.standard = true ↔ ∀ (n : Channel) (l : LaneId), mask.getLsbD n.val = true →
    s.claims.get n = some l → (s.lane l).config.rate = cfg.standard.rate := by
  rw [State.ratesAgree, all_maskChannels]
  refine forall_congr' fun n => ⟨fun h l hn hl => ?_, fun h hn => ?_⟩
  · have hrate := h hn
    rw [hl] at hrate
    exact beq_iff_eq.1 hrate
  · split
    · rename_i l hl
      exact beq_iff_eq.2 (h l hn hl)
    · rfl

theorem takeChannelSet_wrongState {n : Channel} (hn : mask.getLsbD n.val = true) (hstate : (s.chan n).state ≠ .halted) :
    s.takeChannelSet mask record = (s, refuse .wrongState) := by
  unfold State.takeChannelSet
  refine if_pos ?_
  rw [Bool.not_eq_true', Bool.eq_false_iff]
  exact fun hall => hstate (beq_iff_eq.1 ((all_maskChannels mask _).1 hall n hn))

theorem takeChannelSet_halted (hhalted : ∀ n : Channel, mask.getLsbD n.val = true → (s.chan n).state = .halted) :
    s.takeChannelSet mask record =
      match decodeConfig record with
      | none => (s, refuse .range)
      | some cfg =>
        if !s.ratesAgree mask cfg.standard then (s, refuse .range)
        else if !s.quotaFits mask cfg then (s, refuse .noRoom)
        else ((s.writeConfigs mask cfg).handOver, done []) := by
  unfold State.takeChannelSet
  refine if_neg ?_
  rw [Bool.not_eq_true', (all_maskChannels mask _).2 fun n hn => beq_iff_eq.2 (hhalted n hn)]
  exact nofun

end ChannelSet

/-- Settles O27: the four checks in their order, and the writing of the records. -/
theorem channelSetReplacesRecords : Obligations.ChannelSetReplacesRecords := by
  refine ⟨fun s mask record cfg hw hc hhalted hcfg hrates hheld hfree => ?_,
    fun s mask record n hw hc hn hstate => exec_serveTable hw hc rfl (takeChannelSet_wrongState hn hstate),
    fun s mask record hw hc hhalted => ⟨fun hcfg => exec_serveTable hw hc rfl ?_,
      fun cfg hcfg => ⟨fun n l hn hl hrate => exec_serveTable hw hc rfl ?_,
        fun hrates n hn hnoRoom => exec_serveTable hw hc rfl ?_⟩⟩⟩
  · have hfits : s.quotaFits mask cfg = true := by
      refine Bool.or_eq_true_iff.2 (Or.inr (Bool.and_eq_true_iff.2 ⟨?_, decide_eq_true ?_⟩))
      · exact (all_maskChannels mask _).2 fun n hn => decide_eq_true (hheld n hn)
      · rw [outstanding_writeConfigs]
        exact hfree
    have htaken : s.takeChannelSet mask record = ((s.writeConfigs mask cfg).handOver, done []) := by
      simp only [takeChannelSet_halted hhalted, hcfg, ratesAgree_iff.2 hrates, hfits, Bool.not_true, Bool.false_eq_true,
        if_false]
    refine ⟨_, exec_serveTable hw hc rfl htaken, ?_, fun n => ?_, ?_⟩
    · exact congrArg (State.setHandedBack · _ _) (handOver_of_chans (writeConfigs_eq s mask cfg))
    · change (s.writeConfigs mask cfg).chan n = _
      rw [chan_writeConfigs]
      simp only [mem_maskChannels]
    · change (s.writeConfigs mask cfg).attn.handOver _ = s.attn.handOver _
      rw [sharedFree_writeConfigs, writeConfigs_eq]
      rfl
  · simp only [takeChannelSet_halted hhalted, hcfg]
    rfl
  · have hdisagree : s.ratesAgree mask cfg.standard = false :=
      Bool.eq_false_iff.2 fun h => hrate (ratesAgree_iff.1 h n l hn hl)
    simp only [takeChannelSet_halted hhalted, hcfg, hdisagree, Bool.not_false, if_true]
    rfl
  · have hunfit : s.quotaFits mask cfg = false := by
      have hsome : (maskChannels mask).isEmpty = false := by
        have := List.ne_nil_of_mem ((mem_maskChannels mask n).2 hn)
        simpa using this
      rw [State.quotaFits, hsome, Bool.false_or, Bool.and_eq_false_iff]
      rcases hnoRoom with hquota | hfree
      · left
        exact Bool.eq_false_iff.2 fun hall =>
          Nat.not_le.2 hquota (of_decide_eq_true ((all_maskChannels mask _).1 hall n hn))
      · right
        rw [outstanding_writeConfigs]
        exact decide_eq_false (Nat.not_le.2 hfree)
    simp only [takeChannelSet_halted hhalted, hcfg, ratesAgree_iff.2 hrates, hunfit, Bool.not_true, Bool.not_false,
      Bool.false_eq_true, if_false, if_true]
    rfl

end Sys2Proof.Machine
end

