-- ==== Sys2Proof/Proofs/AttnRequests.lean ====
section
/-! The requests on the attention unit: acknowledgement (R180), settings (R182), and the comparison of the shared free with
the threshold (R178). -/

namespace Sys2Proof.Machine

/-! ## Source sets -/

/-- Two source sets meet exactly when they have a source in common. -/
theorem and_ne_zero_iff (x y : BitVec 7) :
    ((x &&& y) != 0) = true ↔ ∃ k : Fin 7, x.getLsbD k.val = true ∧ y.getLsbD k.val = true := by
  rw [bne_iff_ne, ne_eq, ← not_iff_not, not_not]
  constructor
  · rintro h ⟨k, hx, hy⟩
    have hbit : (x &&& y).getLsbD k.val = (0#7).getLsbD k.val := congrArg (fun v => v.getLsbD k.val) h
    rw [BitVec.getLsbD_and, hx, hy, BitVec.getLsbD_zero] at hbit
    exact absurd hbit nofun
  · intro h
    refine BitVec.eq_of_getLsbD_eq fun i hi => ?_
    change _ = (0#7).getLsbD i
    rw [BitVec.getLsbD_and, BitVec.getLsbD_zero, Bool.and_eq_false_iff]
    by_contra hboth
    simp only [not_or, Bool.not_eq_false] at hboth
    exact h ⟨⟨i, hi⟩, hboth⟩

/-! ## Acknowledgement (R180) -/

theorem portLatch_ack (p : PortLatch) (mode : AttnMode) (cond : Bool) : p.ack mode cond =
    if mode = .edge ∨ cond = false then PortLatch.clear else if p.inLatch then { p with mark := true } else p := by
  unfold PortLatch.ack
  cases mode <;> cases cond <;> rfl

theorem markedLatch_ack (p : MarkedLatch) (mode : AttnMode) (cond : Bool) : p.ack mode cond =
    if mode = .edge ∨ cond = false then MarkedLatch.clear else if p.set then { set := true, mark := true } else p := by
  unfold MarkedLatch.ack
  obtain ⟨set, mark⟩ := p
  cases mode <;> cases cond <;> cases set <;> rfl

theorem get_ofFn {α : Type} {n : Nat} (f : Fin n → α) (i : Fin n) : (Vector.ofFn f).get i = f i := by
  simp [Vector.get_eq_getElem]

theorem ack_port (a : Attn) (sources : Byte) (n : Channel) : (a.ack sources).port.get n =
    if sources.getLsbD 0 = false then a.port.get n else (a.port.get n).ack a.portMode (a.detachedCond.get n) := by
  unfold Attn.ack
  cases sources.getLsbD 0 with
  | false => rfl
  | true => exact get_ofFn _ n

theorem ack_starved (a : Attn) (sources : Byte) (l : LaneId) : (a.ack sources).starved.get l =
    if sources.getLsbD 1 = false then a.starved.get l else (a.starved.get l).ack a.starvedMode (a.starvedCond.get l) := by
  unfold Attn.ack
  cases sources.getLsbD 1 with
  | false => rfl
  | true => exact get_ofFn _ l

theorem ack_tableLow (a : Attn) (sources : Byte) : (a.ack sources).tableLow =
    if sources.getLsbD 2 = false then a.tableLow else a.tableLow.ack a.tableLowMode a.tableLowCond := by
  unfold Attn.ack
  cases sources.getLsbD 2 <;> rfl

theorem ack_request (a : Attn) (sources : Byte) : (a.ack sources).request = (!sources.getLsbD 6 && a.request) := by
  unfold Attn.ack
  cases sources.getLsbD 6 <;> rfl

/-- The completion of an acknowledgement latches REQUEST unless it names it (R167, R180). -/
theorem completeRequest_ack (s : State) (sources : Byte) (res : Result) :
    (s.setHandedBack (.attnAck sources) res).completeRequest.attn =
      { s.attn with request := s.attn.request || !sources.getLsbD 6 } := by
  have hlatch : latchesRequest (.attnAck sources) = !sources.getLsbD 6 := rfl
  cases hnames : sources.getLsbD 6 with
  | false =>
    rw [hnames] at hlatch
    rw [completeRequest_latching (s := s.setHandedBack (.attnAck sources) res) rfl hlatch, Bool.not_false, Bool.or_true]
    rfl
  | true =>
    rw [hnames] at hlatch
    rw [completeRequest_silent (s := s.setHandedBack (.attnAck sources) res) rfl hlatch, Bool.not_true, Bool.or_false]
    rfl

/-- Settles O45: member by member. -/
theorem attnAckClearsOrMarks : Obligations.AttnAckClearsOrMarks := by
  refine ⟨fun s sources hw => ?_, fun a => and_ne_zero_iff _ _⟩
  refine ⟨(s.modAttn fun a => a.ack sources).setHandedBack (.attnAck sources) (done []), _, exec_serve hw rfl rfl, rfl, ?_,
    fun n => ?_, fun l => ?_, ?_, rfl, completeRequest_ack _ sources _⟩
  · change s.attn.ack sources = _
    rw [← ack_request]
    rfl
  · change (s.attn.ack sources).port.get n = _
    rw [ack_port, portLatch_ack]
  · change (s.attn.ack sources).starved.get l = _
    rw [ack_starved, markedLatch_ack]
  · change (s.attn.ack sources).tableLow = _
    rw [ack_tableLow, markedLatch_ack]

/-! ## The threshold (R178) -/

/-- The condition is the comparison; what stands in the latch follows its change. -/
theorem compareFree_eq (a : Attn) : a.compareFree = { a with
    tableLowCond := decide (a.lastSharedFree < a.threshold)
    tableLow :=
      if a.tableLowCond = false ∧ a.lastSharedFree < a.threshold then { set := true, mark := false }
      else if a.tableLowCond = true ∧ a.threshold ≤ a.lastSharedFree ∧ a.tableLow.mark = true then MarkedLatch.clear
      else a.tableLow } := by
  obtain ⟨port, starved, tableLow, proposal, cue, step, request, enables, portMode, starvedMode, tableLowMode, threshold,
    detachedCond, starvedCond, low, free⟩ := a
  unfold Attn.compareFree
  by_cases hlow : free < threshold
  · cases low <;> simp [hlow, Nat.not_le.2 hlow]
  · cases low <;> simp [hlow, Nat.not_lt.1 hlow]

theorem handOver_eq (a : Attn) (free : Nat) : a.handOver free = { a with
    lastSharedFree := free
    tableLowCond := decide (free < a.threshold)
    tableLow :=
      if a.tableLowCond = false ∧ free < a.threshold then { set := true, mark := false }
      else if a.tableLowCond = true ∧ a.threshold ≤ free ∧ a.tableLow.mark = true then MarkedLatch.clear
      else a.tableLow } :=
  compareFree_eq { a with lastSharedFree := free }

/-! ## Settings (R182) -/

/-- A mode of one bit, its reserved bit above it. -/
theorem attnModeOf_bits (modes : Byte) (k : Nat) : attnModeOf (modes.extractLsb' k 2) =
    if modes.getLsbD (k + 1) then none else some (if modes.getLsbD k then .level else .edge) := by
  have hlow : (modes.extractLsb' k 2).getLsbD 0 = modes.getLsbD k := by simp
  have hhigh : (modes.extractLsb' k 2).getLsbD 1 = modes.getLsbD (k + 1) := by simp
  rw [← hlow, ← hhigh]
  generalize modes.extractLsb' k 2 = b
  revert b
  decide

theorem setModes_port (a : Attn) (port starved tableLow : AttnMode) (n : Channel) :
    (a.setModes port starved tableLow).port.get n =
      if a.portMode = .level ∧ port = .edge ∧ (a.port.get n).mark = true then PortLatch.clear else a.port.get n := by
  unfold Attn.setModes
  by_cases h : a.portMode = .level ∧ port = .edge
  · simp [h, Vector.get_eq_getElem]
  · have hmark : ¬(a.portMode = .level ∧ port = .edge ∧ (a.port.get n).mark = true) := fun ⟨hl, he, _⟩ => h ⟨hl, he⟩
    simp only [if_neg h, if_neg hmark]

theorem setModes_starved (a : Attn) (port starved tableLow : AttnMode) (l : LaneId) :
    (a.setModes port starved tableLow).starved.get l =
      if a.starvedMode = .level ∧ starved = .edge ∧ (a.starved.get l).mark = true then MarkedLatch.clear
      else a.starved.get l := by
  unfold Attn.setModes
  by_cases h : a.starvedMode = .level ∧ starved = .edge
  · simp [h, Vector.get_eq_getElem]
  · have hmark : ¬(a.starvedMode = .level ∧ starved = .edge ∧ (a.starved.get l).mark = true) :=
      fun ⟨hl, he, _⟩ => h ⟨hl, he⟩
    simp only [if_neg h, if_neg hmark]

/-- An EDGE mode is a clear bit. -/
theorem mode_eq_edge (b : Bool) : (if b then AttnMode.level else AttnMode.edge) = .edge ↔ b = false := by
  cases b <;> simp

/-- A configuration replaces the settings and the condition. -/
theorem configure_rest (a : Attn) (enables : BitVec 7) (port starved tableLow : AttnMode) (threshold : Nat) :
    a.configure enables port starved tableLow threshold = { a with
      enables := enables
      portMode := port
      starvedMode := starved
      tableLowMode := tableLow
      threshold := threshold
      port := (a.configure enables port starved tableLow threshold).port
      starved := (a.configure enables port starved tableLow threshold).starved
      tableLow := (a.configure enables port starved tableLow threshold).tableLow
      tableLowCond := decide (a.lastSharedFree < threshold) } := by
  unfold Attn.configure
  rw [compareFree_eq]
  rfl

theorem configure_port (a : Attn) (enables : BitVec 7) (port starved tableLow : AttnMode) (threshold : Nat) (n : Channel) :
    (a.configure enables port starved tableLow threshold).port.get n =
      if a.portMode = .level ∧ port = .edge ∧ (a.port.get n).mark = true then PortLatch.clear else a.port.get n := by
  rw [← setModes_port a port starved tableLow n]
  unfold Attn.configure
  rw [compareFree_eq]

theorem configure_starved (a : Attn) (enables : BitVec 7) (port starved tableLow : AttnMode) (threshold : Nat) (l : LaneId) :
    (a.configure enables port starved tableLow threshold).starved.get l =
      if a.starvedMode = .level ∧ starved = .edge ∧ (a.starved.get l).mark = true then MarkedLatch.clear
      else a.starved.get l := by
  rw [← setModes_starved a port starved tableLow l]
  unfold Attn.configure
  rw [compareFree_eq]

/-- The TABLE_LOW member after a configuration: a change to EDGE first, then the comparison. -/
theorem configure_tableLow (a : Attn) (enables : BitVec 7) (port starved tableLow : AttnMode) (threshold : Nat) :
    (a.configure enables port starved tableLow threshold).tableLow =
      if a.tableLowCond = false ∧ a.lastSharedFree < threshold then { set := true, mark := false }
      else if a.tableLow.mark = true ∧ (a.tableLowCond = true ∧ threshold ≤ a.lastSharedFree ∨
        a.tableLowMode = .level ∧ tableLow = .edge) then MarkedLatch.clear
      else a.tableLow := by
  unfold Attn.configure
  rw [compareFree_eq]
  change (if a.tableLowCond = false ∧ a.lastSharedFree < threshold then (_ : MarkedLatch)
    else if a.tableLowCond = true ∧ threshold ≤ a.lastSharedFree ∧ ((if a.tableLowMode = .level ∧ tableLow = .edge ∧
      a.tableLow.mark = true then MarkedLatch.clear else a.tableLow) : MarkedLatch).mark = true then MarkedLatch.clear
    else if a.tableLowMode = .level ∧ tableLow = .edge ∧ a.tableLow.mark = true then MarkedLatch.clear else a.tableLow) = _
  refine ite_congr rfl (fun _ => rfl) fun _ => ?_
  by_cases hedge : a.tableLowMode = .level ∧ tableLow = .edge ∧ a.tableLow.mark = true
  · obtain ⟨hlevel, hto, hmark⟩ := hedge
    simp [hlevel, hto, hmark]
  · simp only [if_neg hedge]
    exact if_congr (by tauto) rfl rfl

theorem takeAttnSet_refused {s : State} {enables modes : Byte} {threshold : BitVec 16}
    (h : 1023 < threshold.toNat ∨ modes.getLsbD 1 = true ∨ modes.getLsbD 3 = true ∨ modes.getLsbD 5 = true) :
    s.takeAttnSet enables modes threshold = (s, refuse .range) := by
  simp only [State.takeAttnSet, attnModeOf_bits]
  cases h1 : modes.getLsbD 1 with
  | true => rfl
  | false =>
    cases h3 : modes.getLsbD 3 with
    | true => rfl
    | false =>
      cases h5 : modes.getLsbD 5 with
      | true => rfl
      | false =>
        simp only [h1, h3, h5, Bool.false_eq_true, or_false] at h
        exact if_pos h

theorem takeAttnSet_accepted {s : State} {enables modes : Byte} {threshold : BitVec 16} (hthreshold : threshold.toNat ≤ 1023)
    (h1 : modes.getLsbD 1 = false) (h3 : modes.getLsbD 3 = false) (h5 : modes.getLsbD 5 = false) :
    s.takeAttnSet enables modes threshold =
      (s.modAttn fun a => a.configure (enables.extractLsb' 0 7) (if modes.getLsbD 0 then .level else .edge)
        (if modes.getLsbD 2 then .level else .edge) (if modes.getLsbD 4 then .level else .edge) threshold.toNat, done []) := by
  simp only [State.takeAttnSet, attnModeOf_bits, h1, h3, h5, Bool.false_eq_true, if_false]
  exact if_neg (Nat.not_lt.2 hthreshold)

/-- Settles O46: the settings are replaced, then the threshold is compared. -/
theorem attnSetReplacesSettings : Obligations.AttnSetReplacesSettings := by
  refine ⟨handOver_eq, fun s enables modes threshold hw => ⟨fun hbad => exec_serve hw rfl (takeAttnSet_refused hbad),
    fun hthreshold h1 h3 h5 => ⟨_, exec_serve hw rfl (takeAttnSet_accepted hthreshold h1 h3 h5), rfl, ?_, fun n => ?_,
      fun l => ?_, ?_⟩⟩⟩
  · exact configure_rest s.attn _ _ _ _ _
  · exact (configure_port s.attn _ _ _ _ _ n).trans (if_congr (by rw [mode_eq_edge]) rfl rfl)
  · exact (configure_starved s.attn _ _ _ _ _ l).trans (if_congr (by rw [mode_eq_edge]) rfl rfl)
  · have hlow := configure_tableLow s.attn (enables.extractLsb' 0 7) (if modes.getLsbD 0 then .level else .edge)
      (if modes.getLsbD 2 then .level else .edge) (if modes.getLsbD 4 then .level else .edge) threshold.toNat
    simp only [mode_eq_edge] at hlow
    refine ⟨fun hcond hfree => hlow.trans ?_, fun hcond hfree hmark => hlow.trans ?_,
      fun hcond hfree hmark => hlow.trans ?_, fun hmark hfree => hlow.trans ?_⟩
    · exact if_pos ⟨hcond, hfree⟩
    · simp [hcond, hfree, hmark]
    · simp [hcond, hmark, Nat.not_le.2 hfree]
    · have hnew : ¬(s.attn.tableLowCond = false ∧ s.attn.lastSharedFree < threshold.toNat) := fun ⟨hc, hlt⟩ =>
        absurd ((hfree hlt).symm.trans hc) nofun
      simp [hnew, hmark]

end Sys2Proof.Machine
end

