-- ==== Sys2Proof/Proofs/CueRequests.lean ====
section
/-! CUE_ADD at its lane: the cue joins the list's tail, or the request is refused (R149, R151, R152). -/

namespace Sys2Proof.Machine

/-! ## Byte numbers -/

theorem laneOf_eq {b : Byte} {l : LaneId} (h : b.toNat = l.val) : laneOf b = some l := by
  have hlt : b.toNat < 4 := h ▸ l.isLt
  unfold laneOf
  rw [dif_pos hlt]
  exact congrArg some (Fin.ext h)

theorem laneOf_above {b : Byte} (h : 3 < b.toNat) : laneOf b = none := dif_neg (Nat.not_lt.2 h)

theorem channelOf_eq {b : Byte} {n : Channel} (h : b.toNat = n.val) : channelOf b = some n := by
  have hlt : b.toNat < 8 := h ▸ n.isLt
  unfold channelOf
  rw [dif_pos hlt]
  exact congrArg some (Fin.ext h)

theorem channelOf_above {b : Byte} (h : 7 < b.toNat) : channelOf b = none := dif_neg (Nat.not_lt.2 h)

theorem targetOf_slate : targetOf 8 = some none := rfl

theorem targetOf_channel {b : Byte} {n : Channel} (h : b.toNat = n.val) : targetOf b = some (some n) := by
  have hne : b ≠ 8 := by
    rintro rfl
    exact absurd h (by have := n.isLt; simp; omega)
  unfold targetOf
  rw [if_neg hne, channelOf_eq h]

theorem targetOf_above {b : Byte} (h : 8 < b.toNat) : targetOf b = none := by
  have hne : b ≠ 8 := by
    rintro rfl
    exact absurd h (by decide)
  unfold targetOf
  rw [if_neg hne, channelOf_above (by omega)]

/-! ## The checks of R152 -/

/-- CUE_ADD whose bytes name a lane, a target and a trigger: the lane's state, its room, and the target decide. -/
theorem takeCueAdd_eq {s : State} {lane target trigger : Byte} {number : FieldNum} {l : LaneId} {x : Option Channel}
    {g : Trigger} (hl : laneOf lane = some l) (ht : targetOf target = some x) (hg : triggerOf trigger number = some g) :
    s.takeCueAdd lane target trigger number =
      if (s.lane l).state = .idle then (s, refuse .wrongState)
      else if 4 ≤ (s.lane l).cues.length then (s, refuse .noRoom)
      else match s.targetCheck l x with
        | some code => (s, refuse code)
        | none => ((s.claimTarget l x).modLane l fun y =>
            { y with cues := y.cues ++ [y.newCue x g], cueCounter := y.cueCounter + 1 }, done [(s.lane l).cueCounter]) := by
  unfold State.takeCueAdd
  rw [hl, ht, hg]
  rfl

theorem takeCueAdd_range {s : State} {lane target trigger : Byte} {number : FieldNum}
    (h : 3 < lane.toNat ∨ 8 < target.toNat ∨ triggerOf trigger number = none) :
    s.takeCueAdd lane target trigger number = (s, refuse .range) := by
  unfold State.takeCueAdd
  split
  · rename_i l x g hl ht hg
    rcases h with h | h | h
    · rw [laneOf_above h] at hl
      exact absurd hl nofun
    · rw [targetOf_above h] at ht
      exact absurd ht nofun
    · rw [h] at hg
      exact absurd hg nofun
  · rfl

/-- Checks 4 and 5 of R152, for a channel target. -/
theorem targetCheck_channel (s : State) (l : LaneId) (n : Channel) : s.targetCheck l (some n) =
    if s.claims.get n ≠ none ∧ s.claims.get n ≠ some l then some .inUse
    else if (s.chan n).config.standard.rate ≠ (s.lane l).config.rate then some .range
    else none := rfl

theorem targetCheck_passes {s : State} {l : LaneId} {n : Channel} (hclaim : s.claims.get n = none ∨ s.claims.get n = some l)
    (hrate : (s.chan n).config.standard.rate = (s.lane l).config.rate) : s.targetCheck l (some n) = none := by
  rw [targetCheck_channel, if_neg (by tauto), if_neg (by simpa using hrate)]

/-! ## The claim of a new target (R149, R90) -/

theorem setClaim_chan (s : State) (n m : Channel) (claim : Option LaneId) : (s.setClaim n claim).chan m =
    if n = m then { s.chan m with stepOpen := false, tally := 0 } else s.chan m := chan_modChan _ n m _

theorem beginClaim_chan (s : State) (l : LaneId) (n m : Channel) : (s.beginClaim l n).chan m =
    if s.claims.get n ≠ some l ∧ n = m then { s.chan m with stepOpen := false, tally := 0 } else s.chan m := by
  unfold State.beginClaim
  by_cases hclaim : s.claims.get n = some l
  · rw [if_pos hclaim, if_neg fun h => h.1 hclaim]
  · rw [if_neg hclaim, setClaim_chan]
    exact if_congr (by tauto) rfl rfl

theorem beginClaim_rest (s : State) (l : LaneId) (n : Channel) : s.beginClaim l n =
    { s with chans := (s.beginClaim l n).chans, claims := (s.beginClaim l n).claims } := by
  unfold State.beginClaim
  split <;> rfl

/-! ## CUE_ADD -/

/-- A cue with a channel target joins the tail. -/
theorem cueAdd_channel {s : State} {lane target trigger : Byte} {number : FieldNum} {l : LaneId} {n : Channel} {g : Trigger}
    (hw : s.Waits (.cueAdd lane target trigger number)) (hl : lane.toNat = l.val) (hg : triggerOf trigger number = some g)
    (hstate : (s.lane l).state ≠ .idle) (hroom : (s.lane l).cues.length < 4) (hn : target.toNat = n.val)
    (hclaim : s.claims.get n = none ∨ s.claims.get n = some l)
    (hrate : (s.chan n).config.standard.rate = (s.lane l).config.rate) :
    exec (.cueAdd lane target trigger number) s = .next
      (((s.beginClaim l n).modLane l fun y =>
          { y with cues := y.cues ++ [y.newCue (some n) g], cueCounter := y.cueCounter + 1 }).setHandedBack
        (.cueAdd lane target trigger number) (done [(s.lane l).cueCounter])) := by
  refine exec_serve hw rfl ?_
  rw [takeCueAdd_eq (laneOf_eq hl) (targetOf_channel hn) hg, if_neg hstate, if_neg (Nat.not_le.2 hroom),
    targetCheck_passes hclaim hrate]
  rfl

/-- Settles O42, along the checks of R152. -/
theorem cueAddJoinsTailOrRefuses : Obligations.CueAddJoinsTailOrRefuses := by
  refine ⟨fun s lane target trigger number l g hw hl hg hstate hroom => ⟨?slate, ?channel⟩, ?range, ?slateRefused,
    ?channelRefused⟩
  case slate =>
    rintro rfl
    refine exec_serve hw rfl ?_
    rw [takeCueAdd_eq (laneOf_eq hl) targetOf_slate hg, if_neg hstate, if_neg (Nat.not_le.2 hroom)]
    rfl
  case channel =>
    intro n hn hclaim hrate
    refine ⟨_, cueAdd_channel hw hl hg hstate hroom hn hclaim hrate, ?_, fun m hm => ?_, fun m hm => ?_, ?_, ?_, ?_,
      fun m hm => ?_, fun hfree => ?_, fun hown => ?_⟩
    · rw [beginClaim_rest s l n]
      rfl
    · exact (lane_modLane_ne (s.beginClaim l n) _ (Ne.symm hm)).trans (beginClaim_lane s l n m)
    · exact (beginClaim_chan s l n m).trans (if_neg fun h => hm h.2.symm)
    · change (s.beginClaim l n).chan n = { s.chan n with
        stepOpen := ((s.beginClaim l n).chan n).stepOpen, tally := ((s.beginClaim l n).chan n).tally }
      rw [beginClaim_chan]
      split <;> rfl
    · refine (lane_modLane_same (s.beginClaim l n) l _).trans ?_
      rw [beginClaim_lane]
      rfl
    · exact (beginClaim_claims s l n n).trans (if_pos rfl)
    · exact (beginClaim_claims s l n m).trans (if_neg (Ne.symm hm))
    · change ((s.beginClaim l n).chan n).stepOpen = false ∧ ((s.beginClaim l n).chan n).tally = 0
      rw [beginClaim_chan, if_pos ⟨by rw [hfree]; exact nofun, rfl⟩]
      exact ⟨rfl, rfl⟩
    · exact (beginClaim_chan s l n n).trans (if_neg fun h => h.1 hown)
  case range => exact fun s lane target trigger number hw hbad => exec_serve hw rfl (takeCueAdd_range hbad)
  case slateRefused =>
    refine fun s lane trigger number l g hw hl hg => ⟨fun hidle => exec_serve hw rfl ?_,
      fun hstate hfull => exec_serve hw rfl ?_⟩
    · rw [takeCueAdd_eq (laneOf_eq hl) targetOf_slate hg, if_pos hidle]
      rfl
    · rw [takeCueAdd_eq (laneOf_eq hl) targetOf_slate hg, if_neg hstate, if_pos hfull]
      rfl
  case channelRefused =>
    intro s lane target trigger number l n g hw hl hn hg
    have htake := takeCueAdd_eq (s := s) (laneOf_eq hl) (targetOf_channel hn) hg
    rw [targetCheck_channel] at htake
    by_cases hidle : (s.lane l).state = .idle
    · rw [if_pos hidle] at htake
      exact .inl ⟨exec_serve hw rfl htake, hidle⟩
    · rw [if_neg hidle] at htake
      refine .inr ⟨hidle, fun hfull => exec_serve hw rfl ?_, fun hroom hnone hother => exec_serve hw rfl ?_,
        fun hroom hclaim hrate => exec_serve hw rfl ?_⟩
      · rw [htake, if_pos hfull]
        rfl
      · rw [htake, if_neg (Nat.not_le.2 hroom), if_pos ⟨hnone, hother⟩]
        rfl
      · rw [htake, if_neg (Nat.not_le.2 hroom), if_neg (by tauto), if_pos hrate]
        rfl

end Sys2Proof.Machine
end

