-- ==== Sys2Proof/Proofs/PoolOrders.lean ====
section
/-! The render pool at its starts and at the sequencer's orders (R73, R78, R129, R130, R133). What a removal leaves and the
arbiter then serves is said once (`poolAfter_arbitrate`), and so is which channels the reports reach (`haltsOnCancel_of`). -/

namespace Sys2Proof.Machine

/-! ## The arbiter's choice -/

theorem sooner_iff (a b : RenderRequest) : Sooner a b ↔ a.before b = true := (before_iff a b).symm

/-- The request that goes before every other one is chosen. -/
theorem chooseRequest_eq {queue : List RenderRequest} {r : RenderRequest} (hr : r ∈ queue)
    (hfirst : ∀ q ∈ queue, q ≠ r → Sooner r q) : chooseRequest queue = some r := by
  cases hc : chooseRequest queue with
  | none =>
    rw [chooseRequest_none hc] at hr
    exact absurd hr List.not_mem_nil
  | some c =>
    by_cases hcr : c = r
    · rw [hcr]
    · have hsooner := (sooner_iff r c).1 (hfirst c (chooseRequest_mem hc) hcr)
      exact absurd hsooner (by rw [chooseRequest_first hc r hr]; exact nofun)

/-- The IDLE engine below which all are BUSY is the one chosen. -/
theorem idleEngine_eq {s : State} {e : EngineId} (he : s.engines.get e = none)
    (hbelow : ∀ f : EngineId, f < e → s.engines.get f ≠ none) : s.idleEngine = some e := by
  obtain ⟨g, hg⟩ := idleEngine_some he
  have hfound (f : EngineId) (hf : s.engines.get f = none) : ¬f < e := fun hlt => hbelow f hlt hf
  have hge := hfound g (idleEngine_idle hg)
  have hmin (f : EngineId) (hlt : f < g) : s.engines.get f ≠ none := by
    have hall : ∀ i : EngineId, allEngines[i.val]? = some i := by decide
    obtain ⟨hsome, i, hi, hat, hbefore⟩ := List.find?_eq_some_iff_getElem.1 hg
    have hig : i = g.val := by
      have : ∀ (i : Nat) (hi : i < 3) (g : EngineId), allEngines[i]'hi = g → i = g.val := by decide
      exact this i hi g hat
    have hnot := hbefore f.val (hig ▸ hlt)
    have hfe : allEngines[f.val]'(lt_trans (hig ▸ hlt) hi) = f := by
      have : ∀ f : EngineId, allEngines[f.val]'(f.isLt) = f := by decide
      exact this f
    rw [hfe] at hnot
    exact Option.isSome_iff_ne_none.1 (by simpa using hnot)
  have heg : ¬e < g := fun hlt => hmin e hlt he
  rw [hg, le_antisymm (not_lt.1 heg) (not_lt.1 hge)]

theorem startOne_eq {s : State} {e : EngineId} {r : RenderRequest} (he : s.engines.get e = none)
    (hbelow : ∀ f : EngineId, f < e → s.engines.get f ≠ none) (hr : r ∈ s.queue)
    (hfirst : ∀ q ∈ s.queue, q ≠ r → Sooner r q) :
    s.startOne = { s with queue := s.queue.erase r, engines := setAt s.engines e (some (s.startCopy r)) } :=
  startOne_some s e r (idleEngine_eq he hbelow) (chooseRequest_eq hr hfirst)

/-- Settles O34: the chosen request starts on the chosen engine. -/
theorem jobStartTakesChosenRequest : Obligations.JobStartTakesChosenRequest := fun _ _ _ he hbelow hr hfirst =>
  congrArg Host.Outcome.next (startOne_eq he hbelow hr hfirst)

/-! ## What a removal leaves, served by the arbiter -/

/-- The pool of `u` is that of `s` without what `gone` picks, what stays changed by `moved`. -/
structure PoolLeft (s u : State) (gone : RenderRequest → Bool) (moved : RenderRequest → RenderRequest) : Prop where
  queue : u.queue = (s.queue.filter fun r => !gone r).map moved
  engines : ∀ e : EngineId, u.engines.get e =
    ((s.engines.get e).filter fun j => !gone j.request).map fun j => { j with request := moved j.request }

section
variable {s u t : State} {gone : RenderRequest → Bool} {moved : RenderRequest → RenderRequest}

theorem PoolLeft.job (h : PoolLeft s u gone moved) {e : EngineId} {j : Job} : u.engines.get e = some j ↔
    ∃ i : Job, s.engines.get e = some i ∧ gone i.request = false ∧ j = { i with request := moved i.request } := by
  rw [h.engines, Option.map_eq_some_iff]
  simp only [Option.filter_eq_some_iff, Bool.not_eq_true', and_assoc, @eq_comm _ _ j]

theorem PoolLeft.mem_queue (h : PoolLeft s u gone moved) {q : RenderRequest} : q ∈ u.queue ↔
    ∃ r ∈ s.queue, gone r = false ∧ q = moved r := by
  rw [h.queue]
  simp only [List.mem_map, List.mem_filter, Bool.not_eq_true', and_assoc, @eq_comm _ _ q]

/-- What is in the pool is what stayed. -/
theorem PoolLeft.inPool (h : PoolLeft s u gone moved) (q : RenderRequest) :
    InPool u q ↔ ∃ r : RenderRequest, InPool s r ∧ gone r = false ∧ q = moved r := by
  unfold InPool
  simp only [h.mem_queue, h.job]
  constructor
  · rintro (⟨r, hr, hstay, rfl⟩ | ⟨e, j, ⟨i, hi, hstay, rfl⟩, rfl⟩)
    · exact ⟨r, .inl hr, hstay, rfl⟩
    · exact ⟨i.request, .inr ⟨e, i, hi, rfl⟩, hstay, rfl⟩
  · rintro ⟨r, hr | ⟨e, i, hi, rfl⟩, hstay, rfl⟩
    · exact .inl ⟨r, hr, hstay, rfl⟩
    · exact .inr ⟨e, _, ⟨i, hi, hstay, rfl⟩, rfl⟩

/-- Starts leave in the pool what was there. -/
theorem Starts.inPool (h : Starts u t) (q : RenderRequest) : InPool t q ↔ InPool u q := by
  constructor
  · rintro (hq | ⟨e, j, hj, rfl⟩)
    · exact .inl (h.queue.subset hq)
    · cases hu : u.engines.get e with
      | none =>
        obtain ⟨r, hr, rfl, -⟩ := h.started e j hu hj
        exact .inl hr
      | some i =>
        have hij : i = j := Option.some.inj ((h.kept e i hu).symm.trans hj)
        exact .inr ⟨e, i, hu, by rw [hij]⟩
  · rintro (hq | ⟨e, j, hj, rfl⟩)
    · rcases h.placed q hq with hstay | ⟨e, j, -, hj, hrequest⟩
      · exact .inl hstay
      · exact .inr ⟨e, j, hj, hrequest⟩
    · exact .inr ⟨e, j, h.kept e j hj, rfl⟩

/-- The arbiter serves what a removal leaves. -/
theorem poolAfter_of_starts (h : PoolLeft s u gone moved) (hstarts : Starts u t)
    (hidle : ∀ e : EngineId, t.engines.get e = none → t.queue = [])
    (hcopy : ∀ r : RenderRequest, u.makeJob r = s.startCopy r) : PoolAfter s t gone moved := by
  refine ⟨fun q => (hstarts.inPool q).trans (h.inPool q), h.queue ▸ hstarts.queue, fun e j hj hstay =>
    hstarts.kept e _ (h.job.2 ⟨j, hj, hstay, rfl⟩), fun e j hj hgone => ?_, hidle⟩
  have hfree : u.engines.get e = none := by
    cases hu : u.engines.get e with
    | none => rfl
    | some i =>
      obtain ⟨i', hi', hstay, -⟩ := h.job.1 hu
      exact absurd (hgone i' hi') (by rw [hstay]; exact nofun)
  obtain ⟨r, hr, hmake, hfirst⟩ := hstarts.started e j hfree hj
  obtain ⟨q, hq, hstay, rfl⟩ := h.mem_queue.1 hr
  refine ⟨q, hq, hstay, hmake.trans (hcopy _), fun q' hq' hsooner => ?_⟩
  have hbefore := (sooner_iff q' j.request).1 hsooner
  rw [hmake] at hbefore
  exact absurd hbefore (by rw [show (u.makeJob (moved q)).request = moved q from rfl, hfirst q' hq']; exact nofun)

theorem poolAfter_arbitrate (h : PoolLeft s u gone moved) (hcopy : ∀ r : RenderRequest, u.makeJob r = s.startCopy r) :
    PoolAfter s u.arbitrate gone moved :=
  poolAfter_of_starts h (arbitrate_starts u) (arbitrate_idle u) hcopy

/-- A channel has a job left unless all of its jobs were removed. -/
theorem PoolLeft.lastJobs_iff (h : PoolLeft s u gone moved)
    (hchannel : ∀ r : RenderRequest, (moved r).channel = r.channel) (n : Channel) :
    s.LastJobs n gone ↔ s.inFlight n = true ∧ u.inFlight n = false := by
  refine and_congr_right fun _ => ?_
  rw [← Bool.not_eq_true, inFlight_iff]
  constructor
  · rintro hall ⟨e, j, hj, hn⟩
    obtain ⟨i, hi, hstay, rfl⟩ := h.job.1 hj
    have hgone := hall e i hi ((hchannel i.request).symm.trans hn)
    exact absurd hgone (by rw [hstay]; exact nofun)
  · intro hnone e j hj hn
    by_contra hstay
    rw [Bool.not_eq_true] at hstay
    exact hnone ⟨e, _, h.job.2 ⟨j, hj, hstay, rfl⟩, (hchannel j.request).trans hn⟩

end

/-! ## Requests in flight -/

theorem Halts.dropQueued {s t : State} (h : Halts s t) (p : RenderRequest → Bool) : Halts s (t.dropQueued p) :=
  h.of_same (u := t.dropQueued p) (fun _ => rfl) rfl

theorem Halts.cancelJobs {s t : State} (h : Halts s t) (p : RenderRequest → Bool) : Halts s (t.cancelJobs p) :=
  h.of_same (u := t.cancelJobs p) (fun _ => rfl) rfl

theorem Halts.arbitrate {s t : State} (h : Halts s t) : Halts s t.arbitrate :=
  h.of_same (fun n => congrArg (fun v => (Vector.get v n).state) (arbitrate_chans t)) (by rw [(arbitrate_starts t).rest])

/-- A CHANNEL_HALT is answered as the shared operations answer it. -/
theorem haltAnswered_of_halts {s t : State} (h : Halts s t) : HaltAnswered s t := by
  refine ⟨h.flight, fun mask n hflight hn hstate hall => h.answered mask hflight (fun hs => hstate (hs n hn)) hall⟩

/-! ## Withdraw and cancel orders (R133) -/

theorem report_rest (s : State) (n : Channel) : s.report n =
    { s with chans := (s.report n).chans, link := { s.link with flight := (s.report n).link.flight } } := by
  unfold State.report State.haltCheck State.handBack
  repeat' split
  all_goals rfl

theorem arbitrate_rest (s : State) : s.arbitrate = { s with queue := s.arbitrate.queue, engines := s.arbitrate.engines } :=
  (arbitrate_starts s).rest

theorem arbitrate_chan (s : State) (n : Channel) : s.arbitrate.chan n = s.chan n := by
  rw [arbitrate_rest]
  rfl

/-- A start copies what the state holds of window, configuration, profile and lane. -/
theorem makeJob_of_same {s u : State} {r : RenderRequest} (hwindow : (u.chan r.channel).window = (s.chan r.channel).window)
    (hconfig : (u.chan r.channel).config = (s.chan r.channel).config) (hprofiles : u.profiles = s.profiles)
    (hraster : (u.lane r.lane).config.raster = (s.lane r.lane).config.raster) : u.makeJob r = s.startCopy r := by
  unfold State.makeJob State.startCopy
  rw [hwindow, hconfig, hprofiles, hraster]

theorem PoolLeft.of_id {s u : State} {gone : RenderRequest → Bool} (hqueue : u.queue = s.queue.filter fun r => !gone r)
    (hengines : ∀ e : EngineId, u.engines.get e = (s.engines.get e).filter fun j => !gone j.request) :
    PoolLeft s u gone id :=
  ⟨hqueue.trans (List.map_id _).symm, fun e => (hengines e).trans Option.map_id'.symm⟩

theorem PoolAfter.of_keepsPool {s t u : State} {gone : RenderRequest → Bool} {moved : RenderRequest → RenderRequest}
    (h : PoolAfter s t gone moved) (k : KeepsPool t u) : PoolAfter s u gone moved := by
  unfold PoolAfter InPool at h ⊢
  rw [k.queue, k.engines]
  exact h

theorem takeWithdrawOrder_eq (s : State) (n : Channel) : s.takeWithdrawOrder n =
    { s.modChan n fun c => { c with withdrawOrder := false } with queue := s.queue.filter fun r => r.channel ≠ n } := by
  unfold State.takeWithdrawOrder State.dropQueued
  simp only [modChan_queue, ne_eq, decide_not, ← beq_eq_decide]

/-- What a cancel order of channel `n` removes, the report made and the arbiter not yet at work. -/
def State.cancelled (s : State) (n : Channel) : State :=
  (((s.modChan n fun c => { c with cancelOrder := false }).dropQueued fun r => r.channel == n).cancelJobs
    fun r => r.channel == n).report n

theorem takeCancelOrder_eq (s : State) (n : Channel) : s.takeCancelOrder n = (s.cancelled n).arbitrate := rfl

theorem cancelled_chan (s : State) (n m : Channel) : (s.cancelled n).chan m =
    if n = m then { s.chan m with
      cancelOrder := false
      state := if (s.chan m).state = .halting ∧ (s.chan m).releaseWaits = false then .halted else (s.chan m).state }
    else s.chan m := by
  unfold State.cancelled
  rw [report_chan]
  have hchan : ((((s.modChan n fun c => { c with cancelOrder := false }).dropQueued fun r => r.channel == n).cancelJobs
      fun r => r.channel == n).chan m) = if n = m then { s.chan m with cancelOrder := false } else s.chan m :=
    chan_modChan s n m _
  rw [hchan]
  by_cases hm : n = m
  · simp only [hm, true_and]
    change (if (s.chan m).state = .halting ∧ (s.chan m).releaseWaits = false then (_ : Chan) else _) = _
    split <;> rfl
  · simp only [hm, false_and, if_false]

theorem cancelled_pool (s : State) (n : Channel) : PoolLeft s (s.cancelled n) (fun r => r.channel == n) id := by
  have hpool := report_keepsPool (KeepsPool.refl (((s.modChan n fun c => { c with cancelOrder := false }).dropQueued
    fun r => r.channel == n).cancelJobs fun r => r.channel == n)) n
  refine .of_id hpool.queue fun e => ?_
  unfold State.cancelled
  rw [hpool.engines, cancelJobs_get]
  rfl

theorem cancelled_rest (s : State) (n : Channel) : s.cancelled n = { s with
    chans := (s.cancelled n).chans
    queue := (s.cancelled n).queue
    engines := (s.cancelled n).engines
    link := { s.link with flight := (s.cancelled n).link.flight } } := by
  unfold State.cancelled
  rw [report_rest]
  rfl

theorem cancelled_halts (s : State) (n : Channel) : Halts s (s.cancelled n) :=
  report_halts ((((Halts.refl s).modChan n (fun c => { c with cancelOrder := false }) fun _ => rfl).dropQueued _).cancelJobs _) n

theorem cancelled_makeJob (s : State) (n : Channel) (r : RenderRequest) : (s.cancelled n).makeJob r = s.startCopy r := by
  have hchan := cancelled_chan s n r.channel
  refine makeJob_of_same ?_ ?_ (by rw [cancelled_rest]) (by rw [cancelled_rest]; rfl) <;> rw [hchan] <;> split <;> rfl

/-- The pool after a removal holds nothing of what was removed. -/
theorem PoolAfter.inFlight_gone {s t : State} {gone : RenderRequest → Bool} (h : PoolAfter s t gone id) {n : Channel}
    (hgone : ∀ r : RenderRequest, r.channel = n → gone r = true) : t.inFlight n = false := by
  rw [← Bool.not_eq_true, inFlight_iff]
  rintro ⟨e, j, hj, hn⟩
  obtain ⟨r, -, hstay, hr⟩ := (h.1 j.request).1 (.inr ⟨e, j, hj, rfl⟩)
  have hr : j.request = r := hr
  exact absurd (hgone r (hr ▸ hn)) (by rw [hstay]; exact nofun)

/-- Settles O36: the withdraw order by its equation, the cancel order as removal, report and starts. -/
theorem sequencerOrdersTaken : Obligations.SequencerOrdersTaken := by
  refine ⟨fun s n horder => congrArg Host.Outcome.next ((if_pos horder).trans (takeWithdrawOrder_eq s n)), fun s n horder => ?_⟩
  have hpool := poolAfter_arbitrate (cancelled_pool s n) (cancelled_makeJob s n)
  have hchan (m : Channel) : (s.takeCancelOrder n).chan m = _ := (arbitrate_chan _ m).trans (cancelled_chan s n m)
  refine ⟨s.takeCancelOrder n, congrArg Host.Outcome.next (if_pos horder), hpool, hpool.inFlight_gone fun r hr => by simp [hr],
    ?_, ?_, fun m hm => (hchan m).trans (if_neg (Ne.symm hm)), ?_, fun hstate hwaits => ?_, fun hother => ?_⟩
  · rw [takeCancelOrder_eq, arbitrate_rest, cancelled_rest]
  · exact haltAnswered_of_halts (cancelled_halts s n).arbitrate
  · rw [hchan, if_pos rfl]
  · rw [hchan, if_pos rfl]
    exact if_pos ⟨hstate, hwaits⟩
  · rw [hchan, if_pos rfl]
    refine if_neg fun h => ?_
    rcases hother with hstate | hwaits
    · exact hstate h.1
    · exact absurd (hwaits.symm.trans h.2) nofun

/-! ## Completions (R131, R142) -/

theorem deliver_rest (s : State) (j : Job) : s.deliver j = { s with lanes := (s.deliver j).lanes } := by
  unfold State.deliver
  split <;> rfl

theorem deliver_lane (s : State) (j : Job) (m : LaneId) : (s.deliver j).lane m =
    if (s.chan j.request.channel).withholds = false ∧ j.request.lane = m then
      (s.lane m).accept j.request.role j.request.distance j.frame
    else s.lane m := by
  unfold State.deliver
  cases (s.chan j.request.channel).withholds with
  | true => simp
  | false => simp [lane_modLane]

theorem withholds_eq_true (c : Chan) : c.withholds = true ↔ c.state = .halting ∨ c.cancelOrder = true := by
  unfold Chan.withholds
  rw [Bool.or_eq_true, beq_iff_eq]

theorem withholds_eq_false {c : Chan} (hstate : c.state ≠ .halting) (horder : c.cancelOrder = false) :
    c.withholds = false := by
  rw [← Bool.not_eq_true, withholds_eq_true, horder]
  simpa using hstate

/-- The engine is IDLE after the delivery, the arbiter not yet at work. -/
def State.delivered (s : State) (e : EngineId) (j : Job) : State := (s.deliver j).setEngine e none

theorem delivered_rest (s : State) (e : EngineId) (j : Job) : s.delivered e j =
    { s with lanes := (s.deliver j).lanes, engines := setAt s.engines e none } := by
  unfold State.delivered
  rw [deliver_rest]
  rfl

theorem delivered_makeJob (s : State) (e : EngineId) (j : Job) (r : RenderRequest) :
    (s.delivered e j).makeJob r = s.startCopy r := by
  refine makeJob_of_same (by rw [delivered_rest]; rfl) (by rw [delivered_rest]; rfl) (by rw [delivered_rest]) ?_
  exact congrArg LaneConfig.raster ((deliver_lanesFollow s j).lane r.lane).config

theorem completeJob_eq {s : State} {e : EngineId} {j : Job} (h : s.engines.get e = some j) : s.completeJob e =
    if (s.delivered e j).arbitrate.inFlight j.request.channel then (s.delivered e j).arbitrate
    else (s.delivered e j).arbitrate.report j.request.channel := by
  unfold State.completeJob
  rw [h]
  rfl

/-- A completion changes channels, lanes, pool and the request in flight only. -/
theorem completeJob_rest (s : State) (e : EngineId) : s.completeJob e = { s with
    chans := (s.completeJob e).chans
    queue := (s.completeJob e).queue
    engines := (s.completeJob e).engines
    lanes := (s.completeJob e).lanes
    link := { s.link with flight := (s.completeJob e).link.flight } } := by
  cases h : s.engines.get e with
  | none =>
    have : s.completeJob e = s := by
      unfold State.completeJob
      rw [h]
    rw [this]
  | some j =>
    rw [completeJob_eq h]
    split
    · rw [arbitrate_rest, delivered_rest]
    · rw [report_rest, arbitrate_rest, delivered_rest]

section
variable {s : State} {e : EngineId} {j : Job}

/-- The report after a completion leaves the pool. -/
theorem completeJob_pool (h : s.engines.get e = some j) : KeepsPool (s.delivered e j).arbitrate (s.completeJob e) := by
  rw [completeJob_eq h]
  split
  · exact KeepsPool.refl _
  · exact report_keepsPool (KeepsPool.refl _) _

theorem completeJob_lanes (h : s.engines.get e = some j) : (s.completeJob e).lanes = (s.deliver j).lanes := by
  have hdelivered : (s.delivered e j).arbitrate.lanes = (s.deliver j).lanes := by
    rw [arbitrate_rest, delivered_rest]
  rw [completeJob_eq h]
  split
  · exact hdelivered
  · rw [report_rest]
    exact hdelivered

theorem completeJob_halts (h : s.engines.get e = some j) : Halts s (s.completeJob e) := by
  have hstart : Halts s (s.delivered e j).arbitrate :=
    Halts.arbitrate ((Halts.refl s).of_same (u := s.delivered e j) (fun n => by rw [delivered_rest]; rfl)
      (by rw [delivered_rest]))
  rw [completeJob_eq h]
  split
  · exact hstart
  · exact report_halts hstart _

theorem completeJob_inFlight (h : s.engines.get e = some j) (n : Channel) :
    (s.completeJob e).inFlight n = (s.delivered e j).arbitrate.inFlight n := by
  unfold State.inFlight
  rw [(completeJob_pool h).engines]

/-- A HALTING channel of which no release waits becomes HALTED with its last job. -/
theorem completeJob_chan (h : s.engines.get e = some j) (m : Channel) : (s.completeJob e).chan m =
    if j.request.channel = m ∧ (s.completeJob e).inFlight m = false ∧ (s.chan m).state = .halting ∧
      (s.chan m).releaseWaits = false then { s.chan m with state := .halted } else s.chan m := by
  have hchan : (s.delivered e j).arbitrate.chan m = s.chan m := by
    rw [arbitrate_chan, delivered_rest]
    rfl
  rw [completeJob_inFlight h, completeJob_eq h]
  split
  · rename_i hflight
    rw [hchan, if_neg]
    rintro ⟨rfl, hnone, -⟩
    exact absurd (hflight.symm.trans hnone) nofun
  · rename_i hflight
    rw [report_chan, hchan]
    refine if_congr (and_congr_right ?_) rfl rfl
    rintro rfl
    simp [hflight]

theorem report_chans_of_not {t : State} {n : Channel}
    (h : ¬((t.chan n).state = .halting ∧ (t.chan n).releaseWaits = false)) : t.report n = t := by
  unfold State.report
  exact if_neg h

/-- Without a HALTING channel to report, with a release of it waiting, or with another job of it, no channel changes. -/
theorem completeJob_chans (h : s.engines.get e = some j)
    (hkept : (s.chan j.request.channel).state ≠ .halting ∨ (s.chan j.request.channel).releaseWaits = true ∨
      (s.completeJob e).inFlight j.request.channel = true) : (s.completeJob e).chans = s.chans := by
  have hchans : (s.delivered e j).arbitrate.chans = s.chans := by
    rw [arbitrate_rest, delivered_rest]
  rw [completeJob_inFlight h] at hkept
  rw [completeJob_eq h]
  split
  · exact hchans
  · rename_i hflight
    rw [report_chans_of_not]
    · exact hchans
    · rw [show (s.delivered e j).arbitrate.chan j.request.channel = s.chan j.request.channel from
        congrArg (fun v => v.get j.request.channel) hchans]
      rintro ⟨hstate, hwaits⟩
      rcases hkept with hkept | hkept | hkept
      · exact hkept hstate
      · exact absurd (hkept.symm.trans hwaits) nofun
      · exact hflight hkept

theorem delivered_pool (s : State) (e : EngineId) (j : Job) :
    PoolLeft { s with engines := setAt s.engines e none } (s.delivered e j) (fun _ => false) id := by
  refine .of_id ?_ fun f => ?_
  · rw [delivered_rest]
    simp
  · rw [delivered_rest]
    cases (setAt s.engines e none).get f <;> rfl

/-- With nothing queued the arbiter starts nothing. -/
theorem arbitrate_empty {t : State} (h : t.queue = []) : t.arbitrate = t := by
  unfold State.arbitrate
  rw [startOne_none t (.inr h), startOne_none t (.inr h), startOne_none t (.inr h)]

/-- With one engine IDLE the arbiter starts one request. -/
theorem arbitrate_one {t : State} {r : RenderRequest} (he : t.engines.get e = none)
    (hother : ∀ f : EngineId, f ≠ e → t.engines.get f ≠ none) (hr : r ∈ t.queue)
    (hfirst : ∀ q ∈ t.queue, q ≠ r → Sooner r q) :
    t.arbitrate = { t with queue := t.queue.erase r, engines := setAt t.engines e (some (t.startCopy r)) } := by
  have hstart := startOne_eq he (fun f hlt => hother f (ne_of_lt hlt)) hr hfirst
  have hbusy : t.startOne.idleEngine = none := idleEngine_eq_none fun f => by
    rw [hstart]
    change ((setAt t.engines e (some (t.startCopy r))).get f).isSome = true
    rw [get_setAt]
    split
    · rfl
    · exact Option.isSome_iff_ne_none.2 (hother f (Ne.symm ‹_›))
  unfold State.arbitrate
  rw [startOne_none _ (.inl hbusy), startOne_none _ (.inl hbusy), hstart]

end

theorem setAt_setAt {α : Type} {n : Nat} (v : Vector α n) (i : Fin n) (x y : α) : setAt (setAt v i x) i y = setAt v i y :=
  Vector.set_set ..

/-- Where a frame goes: among the ready frames of its role, by its deadline. -/
theorem accept_program {x : Lane} {distance : Nat} {f : Frame} (hstate : x.state ≠ .idle) (hsource : x.source = some f.channel) :
    x.accept .program distance f = { x with programFrames := x.programFrames.place distance f } := if_pos ⟨hstate, hsource⟩

theorem accept_armed {x : Lane} {distance : Nat} {f : Frame} (hhead : x.cues.head?.map Cue.target = some (some f.channel)) :
    x.accept .armed distance f = { x with armedFrames := x.armedFrames.place distance f } := if_pos hhead

theorem accept_discards {x : Lane} {role : Role} {distance : Nat} {f : Frame}
    (hprogram : role = .program → x.source ≠ some f.channel)
    (harmed : role = .armed → x.cues.head?.map Cue.target ≠ some (some f.channel)) : x.accept role distance f = x := by
  cases role with
  | program => exact if_neg fun h => hprogram rfl h.2
  | armed => exact if_neg (harmed rfl)

theorem place_eq (r : Ready) (distance : Nat) (f : Frame) : r.place distance f =
    if distance ≤ 1 then { r with next := some f } else { r with after := some f } := rfl

theorem deliver_discards {s : State} {j : Job}
    (hprogram : j.request.role = .program → (s.lane j.request.lane).source ≠ some j.request.channel)
    (harmed : j.request.role = .armed →
      (s.lane j.request.lane).cues.head?.map Cue.target ≠ some (some j.request.channel)) : (s.deliver j).lanes = s.lanes := by
  unfold State.deliver
  split
  · rfl
  · unfold State.modLane modifyAt
    dsimp only
    rw [show (s.lanes.get j.request.lane).accept j.request.role j.request.distance j.frame = s.lanes.get j.request.lane from
      accept_discards hprogram harmed, setAt_get]

/-- Settles O35: delivery, then the arbiter, then the report. -/
theorem jobCompletionDeliversFrame : Obligations.JobCompletionDeliversFrame := by
  intro s e j hj
  have hlane (m : LaneId) : (s.completeJob e).lane m = _ :=
    (congrArg (fun v => Vector.get v m) (completeJob_lanes hj)).trans (deliver_lane s j m)
  have hplaced (hstate : (s.chan j.request.channel).state ≠ .halting)
      (horder : (s.chan j.request.channel).cancelOrder = false) : (s.completeJob e).lane j.request.lane =
        (s.lane j.request.lane).accept j.request.role j.request.distance j.frame :=
    (hlane _).trans (if_pos ⟨withholds_eq_false hstate horder, rfl⟩)
  have hidle : (s.delivered e j).engines.get e = none := by
    rw [delivered_rest]
    exact get_setAt_same ..
  have hpool := completeJob_pool hj
  refine ⟨s.completeJob e, rfl, completeJob_rest s e, haltAnswered_of_halts (completeJob_halts hj), fun m hm => ?others, ?own,
    fun hstate => completeJob_chans hj (.inl hstate), fun f hf hbusy => ?kept, fun hempty => ?nothing,
    fun r hr hbusy hfirst => ?started, (poolAfter_arbitrate (delivered_pool s e j) (delivered_makeJob s e j)).of_keepsPool hpool,
    fun m hm => ?lanes, fun hhalt => ?withheld, fun hstate hwaits hlast => ?halted,
    fun h => completeJob_chans hj (.inr h), fun hstate horder hrole hrun hsource => ?program,
    fun hstate horder hrole hhead => ?armed, fun hprogram harmed => (completeJob_lanes hj).trans (deliver_discards hprogram harmed)⟩
  case others => exact (completeJob_chan hj m).trans (if_neg fun h => hm h.1.symm)
  case own =>
    rw [completeJob_chan hj]
    split <;> rfl
  case kept =>
    cases hf' : s.engines.get f with
    | none => exact absurd hf' hbusy
    | some i =>
      rw [hpool.engines]
      refine (arbitrate_starts _).kept f i ?_
      rw [delivered_rest]
      exact (get_setAt_ne _ _ (Ne.symm hf)).trans hf'
  case nothing =>
    have hquiet : (s.delivered e j).arbitrate = s.delivered e j := arbitrate_empty (by rw [delivered_rest]; exact hempty)
    rw [hpool.engines, hpool.queue, hquiet, delivered_rest]
    exact ⟨rfl, hempty⟩
  case started =>
    have hone := arbitrate_one (r := r) hidle
      (fun f hf => by
        rw [delivered_rest]
        exact fun h => hbusy f hf ((get_setAt_ne _ _ (Ne.symm hf)).symm.trans h))
      (by rw [delivered_rest]; exact hr) (by rw [delivered_rest]; exact hfirst)
    have hcopy : (s.delivered e j).startCopy r = s.startCopy r := delivered_makeJob s e j r
    rw [hpool.engines, hpool.queue, hone, hcopy, delivered_rest]
    exact ⟨setAt_setAt .., rfl⟩
  case lanes => exact (hlane m).trans (if_neg fun h => hm h.2.symm)
  case withheld =>
    rw [completeJob_lanes hj]
    unfold State.deliver
    exact congrArg State.lanes (if_pos ((withholds_eq_true _).2 hhalt))
  case halted =>
    rw [completeJob_chan hj, if_pos ⟨rfl, hlast, hstate, hwaits⟩]
  case program =>
    rw [hplaced hstate horder, hrole, accept_program hrun hsource]
    rfl
  case armed =>
    rw [hplaced hstate horder, hrole, accept_armed hhead]
    rfl

end Sys2Proof.Machine
end

