-- ==== Sys2Proof/Proofs/LaneOrders.lean ====
section
/-! What the orders, the takes and the emission of one lane change: its own record and members in the attention unit, the
pool, claims that it releases, and the state of a HALTING channel (R73, R90, R149, R155 to R157). A tick without its step
judgements, a disable and an abort are all made of such parts. -/

namespace Sys2Proof.Machine

/-! ## The relation -/

/-- The later state differs from the earlier one by what a lane's part may do. -/
structure LaneOrders (s t : State) (l : LaneId) : Prop where
  rest : t = { s with
    chans := t.chans, claims := t.claims, queue := t.queue, engines := t.engines, lanes := t.lanes
    link := { s.link with flight := t.link.flight }, attn := t.attn }
  lanes : ∀ m : LaneId, m ≠ l → t.lane m = s.lane m
  claims : ∀ n : Channel, t.claims.get n = s.claims.get n ∨ s.claims.get n = some l ∧ t.claims.get n = none
  kept : ∀ n : Channel, t.claims.get n = s.claims.get n → t.chan n = { s.chan n with state := (t.chan n).state }
  released : ∀ n : Channel, t.claims.get n ≠ s.claims.get n → Released s t n
  halting : ∀ n : Channel, (t.chan n).state = (s.chan n).state ∨ (s.chan n).state = .halting ∧ (t.chan n).state = .halted
  attn : t.attn = { s.attn with starved := t.attn.starved, starvedCond := t.attn.starvedCond, cue := t.attn.cue }
  latches : ∀ m : LaneId, m ≠ l → LaneLatchesKept s t m
  halts : Halts s t

namespace LaneOrders
variable {s t u : State} {l : LaneId}

theorem refl (s : State) (l : LaneId) : LaneOrders s s l :=
  ⟨rfl, fun _ _ => rfl, fun _ => .inl rfl, fun _ _ => rfl, fun _ h => absurd rfl h, fun _ => .inl rfl, rfl,
    fun _ _ => ⟨rfl, rfl, rfl⟩, Halts.refl s⟩

theorem states (h : LaneOrders s t l) {n : Channel} (hn : (s.chan n).state ≠ .halting) : (t.chan n).state = (s.chan n).state := by
  rcases h.halting n with hsame | ⟨hhalting, -⟩
  · exact hsame
  · exact absurd hhalting hn

theorem trans (h : LaneOrders s t l) (k : LaneOrders t u l) : LaneOrders s u l := by
  have hclaims (n : Channel) : u.claims.get n = s.claims.get n ∨ s.claims.get n = some l ∧ u.claims.get n = none := by
    rcases k.claims n with hk | ⟨hk, hnone⟩
    · rw [hk]
      exact h.claims n
    · rcases h.claims n with hh | ⟨-, hh⟩
      · exact .inr ⟨hh.symm.trans hk, hnone⟩
      · exact absurd (hh.symm.trans hk) nofun
  refine ⟨?_, fun m hm => (k.lanes m hm).trans (h.lanes m hm), hclaims, fun n hn => ?_, fun n hn => ?_, fun n => ?_, ?_,
    fun m hm => ?_, h.halts.trans k.halts⟩
  · rw [k.rest, h.rest]
  · have hmid : t.claims.get n = s.claims.get n := by
      rcases h.claims n with hh | ⟨hs, ht⟩
      · exact hh
      · rcases k.claims n with hk | ⟨hk, -⟩
        · exact absurd (hs.symm.trans (hn.symm.trans (hk.trans ht))) nofun
        · exact absurd (ht.symm.trans hk) nofun
    rw [k.kept n (hn.trans hmid.symm), h.kept n hmid]
  · unfold Released
    by_cases hmid : t.claims.get n = s.claims.get n
    · have hlast := k.released n (fun hk => hn (hk.trans hmid))
      unfold Released at hlast
      rw [hlast, h.kept n hmid]
    · have hfirst := h.released n hmid
      unfold Released at hfirst
      have hkept : u.claims.get n = t.claims.get n := by
        rcases k.claims n with hk | ⟨hk, -⟩
        · exact hk
        · rcases h.claims n with hh | ⟨-, ht⟩
          · exact absurd hh hmid
          · exact absurd (ht.symm.trans hk) nofun
      rw [k.kept n hkept, hfirst]
  · rcases k.halting n with hsame | ⟨hhalting, hhalted⟩
    · rw [hsame]
      exact h.halting n
    · rcases h.halting n with hsame | ⟨-, hh⟩
      · exact .inr ⟨hsame ▸ hhalting, hhalted⟩
      · exact absurd (hh.symm.trans hhalting) nofun
  · rw [k.attn, h.attn]
  · obtain ⟨hcue, hstarved, hcond⟩ := h.latches m hm
    obtain ⟨kcue, kstarved, kcond⟩ := k.latches m hm
    exact ⟨kcue.trans hcue, kstarved.trans hstarved, kcond.trans hcond⟩

/-- A change of queue and engines. -/
theorem of_pool (h : t = { s with queue := t.queue, engines := t.engines }) : LaneOrders s t l := by
  have hclaims : t.claims = s.claims := by rw [h]
  have hchan (n : Channel) : t.chan n = s.chan n := by rw [h]; rfl
  have hlane (m : LaneId) : t.lane m = s.lane m := by rw [h]; rfl
  have hattn : t.attn = s.attn := by rw [h]
  refine ⟨by rw [h], fun m _ => hlane m, fun n => .inl (by rw [hclaims]), fun n _ => by rw [hchan],
    fun n hn => absurd (by rw [hclaims]) hn, fun n => .inl (by rw [hchan]), by rw [hattn],
    fun m _ => ⟨by rw [hattn], by rw [hattn], by rw [hattn]⟩,
    (Halts.refl s).of_same (fun n => by rw [hchan]) (by rw [h])⟩

theorem modLane (s : State) (l : LaneId) (f : Lane → Lane) : LaneOrders s (s.modLane l f) l :=
  ⟨rfl, fun _ hm => lane_modLane_ne s f (Ne.symm hm), fun _ => .inl rfl, fun _ _ => rfl, fun _ h => absurd rfl h,
    fun _ => .inl rfl, rfl, fun _ _ => ⟨rfl, rfl, rfl⟩, (Halts.refl s).of_same (fun _ => rfl) rfl⟩

/-- A change of the lane's members in the attention unit. -/
theorem modAttn {f : Attn → Attn}
    (hf : f s.attn = { s.attn with starved := (f s.attn).starved, starvedCond := (f s.attn).starvedCond, cue := (f s.attn).cue })
    (hl : ∀ m : LaneId, m ≠ l → (f s.attn).cue.get m = s.attn.cue.get m ∧ (f s.attn).starved.get m = s.attn.starved.get m ∧
      (f s.attn).starvedCond.get m = s.attn.starvedCond.get m) : LaneOrders s (s.modAttn f) l :=
  ⟨rfl, fun _ _ => rfl, fun _ => .inl rfl, fun _ _ => rfl, fun _ h => absurd rfl h, fun _ => .inl rfl, hf, hl,
    (Halts.refl s).of_same (fun _ => rfl) rfl⟩

theorem beginStarved (s : State) (l : LaneId) : LaneOrders s (s.modAttn fun a => a.beginStarved l) l :=
  modAttn rfl fun _ hm => ⟨rfl, get_setAt_ne _ _ (Ne.symm hm), get_setAt_ne _ _ (Ne.symm hm)⟩

theorem endStarved (s : State) (l : LaneId) : LaneOrders s (s.modAttn fun a => a.endStarved l) l :=
  modAttn rfl fun _ hm => ⟨rfl, get_setAt_ne _ _ (Ne.symm hm), get_setAt_ne _ _ (Ne.symm hm)⟩

theorem latchTaken (s : State) (l : LaneId) : LaneOrders s (s.modAttn fun a => a.latchTaken l) l :=
  modAttn rfl fun _ hm => ⟨get_setAt_ne _ _ (Ne.symm hm), rfl, rfl⟩

theorem latchAborted (s : State) (l : LaneId) : LaneOrders s (s.modAttn fun a => a.latchAborted l) l :=
  modAttn rfl fun _ hm => ⟨get_setAt_ne _ _ (Ne.symm hm), rfl, rfl⟩

/-- A claim of the lane is released. -/
theorem releaseClaim {n : Channel} (h : s.claims.get n = some l) : LaneOrders s (s.setClaim n none) l := by
  have hclaims (m : Channel) : (s.setClaim n none).claims.get m = if n = m then none else s.claims.get m :=
    setClaim_claims s n m none
  refine ⟨rfl, fun m _ => setClaim_lane s n none m, fun m => ?_, fun m hm => ?_, fun m hm => ?_, fun m => .inl ?_, rfl,
    fun _ _ => ⟨rfl, rfl, rfl⟩, (Halts.refl s).of_same (fun m => ?_) rfl⟩
  · rw [hclaims]
    by_cases hnm : n = m
    · exact .inr ⟨hnm ▸ h, if_pos hnm⟩
    · exact .inl (if_neg hnm)
  · have hnm : n ≠ m := by
      rintro rfl
      rw [hclaims, if_pos rfl, h] at hm
      exact absurd hm nofun
    rw [setClaim_chan, if_neg hnm]
  · have hnm : n = m := by
      by_contra hne
      exact hm ((hclaims m).trans (if_neg hne))
    unfold Released
    rw [setClaim_chan, if_pos hnm]
  · rw [setClaim_chan]
    split <;> rfl
  · rw [setClaim_chan]
    split <;> rfl

end LaneOrders

/-! ## The lane's orders to the pool -/

theorem reportEnded_rest (s before : State) : s.reportEnded before =
    { s with chans := (s.reportEnded before).chans, link := { s.link with flight := (s.reportEnded before).link.flight } } := by
  unfold State.reportEnded
  refine foldl_rel (R := fun s t => t = { s with chans := t.chans, link := { s.link with flight := t.link.flight } }) _ _ rfl
    fun u n hu => ?_
  split
  · rw [report_rest, hu]
  · exact hu

theorem LaneOrders.reportEnded (s before : State) (l : LaneId) : LaneOrders s (s.reportEnded before) l := by
  have hclaims : (s.reportEnded before).claims = s.claims := by rw [reportEnded_rest]
  have hattn : (s.reportEnded before).attn = s.attn := by rw [reportEnded_rest]
  refine ⟨by rw [reportEnded_rest], fun m _ => by rw [reportEnded_rest]; rfl, fun n => .inl (by rw [hclaims]), fun n _ => ?_,
    fun n hn => absurd (by rw [hclaims]) hn, fun n => ?_, by rw [hattn],
    fun m _ => ⟨by rw [hattn], by rw [hattn], by rw [hattn]⟩, reportEnded_halts (Halts.refl s) before⟩
  · rw [reportEnded_chan]
    split <;> rfl
  · rw [reportEnded_chan]
    split
    · rename_i hends
      obtain ⟨-, -, hstate, -⟩ := hends
      exact .inr ⟨hstate, rfl⟩
    · exact .inl rfl

theorem LaneOrders.dropQueued (s : State) (l : LaneId) (p : RenderRequest → Bool) : LaneOrders s (s.dropQueued p) l :=
  .of_pool (t := s.dropQueued p) rfl

theorem LaneOrders.cancelJobs (s : State) (l : LaneId) (p : RenderRequest → Bool) : LaneOrders s (s.cancelJobs p) l :=
  .of_pool (t := s.cancelJobs p) rfl

theorem LaneOrders.cancelByRole (s : State) (l : LaneId) (m : LaneId) (n : Channel) (role : Role) :
    LaneOrders s (s.cancelByRole m n role) l :=
  ((LaneOrders.dropQueued s l _).trans (.cancelJobs _ l _)).trans (.reportEnded _ s l)

theorem LaneOrders.reRole (s : State) (l : LaneId) (n : Channel) : LaneOrders s (s.reRole l n) l := .of_pool rfl

theorem LaneOrders.arbitrate (s : State) (l : LaneId) : LaneOrders s s.arbitrate l := .of_pool (arbitrate_rest s)

theorem LaneOrders.endStarvedOf (s : State) (l : LaneId) : LaneOrders s (s.endStarvedOf l) l := by
  unfold State.endStarvedOf
  split
  · exact .endStarved s l
  · exact .refl s l

theorem LaneOrders.cancelSource (s : State) (l : LaneId) : LaneOrders s (s.cancelSource l) l := by
  unfold State.cancelSource
  split
  · exact .cancelByRole s l l _ _
  · exact .refl s l

theorem LaneOrders.releaseOld (s : State) (l : LaneId) (old : Option Channel) : LaneOrders s (s.releaseOld l old) l := by
  unfold State.releaseOld State.releaseUnneeded
  split
  · split
    · rename_i hrelease
      exact .releaseClaim hrelease.1
    · exact .refl s l
  · exact .refl s l

/-! ## The parts of a tick -/

theorem LaneOrders.takeChannel (s : State) (l : LaneId) (x : Channel) : LaneOrders s (s.takeChannel l x) l :=
  ((((LaneOrders.cancelSource s l).trans (.reRole _ l x)).trans (.endStarvedOf _ l)).trans (.modLane _ l _)).trans
    (.releaseOld _ l _)

theorem LaneOrders.takeSlate (s : State) (l : LaneId) : LaneOrders s (s.takeSlate l) l :=
  (((LaneOrders.cancelSource s l).trans (.endStarvedOf _ l)).trans (.modLane _ l _)).trans (.releaseOld _ l _)

theorem LaneOrders.takeCue (s : State) (l : LaneId) (c : Cue) : LaneOrders s (s.takeCue l c) l := by
  unfold State.takeCue
  refine LaneOrders.trans ?_ (.latchTaken _ l)
  split
  · exact .takeSlate s l
  · split
    · exact .modLane s l _
    · exact .takeChannel s l _

theorem LaneOrders.takeCheck (s : State) (l : LaneId) : LaneOrders s (s.takeCheck l) l := by
  unfold State.takeCheck
  split
  · split
    · exact .takeCue s l _
    · exact .refl s l
  · exact .refl s l

theorem LaneOrders.emit (s : State) (l : LaneId) : LaneOrders s (s.emit l) l := by
  unfold State.emit
  dsimp only
  split
  · exact (LaneOrders.modLane s l _).trans (.beginStarved _ l)
  · split
    · exact (LaneOrders.modLane s l _).trans (.endStarved _ l)
    · exact .modLane s l _

theorem LaneOrders.lanePart (s : State) (l : LaneId) : LaneOrders s (s.lanePart l) l := by
  unfold State.lanePart
  split
  · exact .refl s l
  · exact ((LaneOrders.takeCheck s l).trans (.emit _ l)).trans (.modLane _ l _)

/-- A lane's late and cancelled counters at a tick. -/
def Lane.countDue (x : Lane) (late cancelled : Nat) : Lane :=
  { x with counters := { x.counters with late := bump x.counters.late late, cancelled := bump x.counters.cancelled cancelled } }

/-- What a tick takes out of the pool, with its counts, the arbiter not yet at work. -/
def State.withdrawDue (s : State) (l : LaneId) : State :=
  (((((s.modLane l fun x => x.countDue (s.queue.countP (RenderRequest.dueOn l)) (s.engines.toList.countP (jobDue l))).dropQueued
    (RenderRequest.dueOn l)).cancelJobs (RenderRequest.dueOn l)).advanceDeadlines l).reportEnded s)

theorem poolTick_eq (s : State) (l : LaneId) : s.poolTick l = (s.withdrawDue l).arbitrate := rfl

theorem LaneOrders.advanceDeadlines (s : State) (l : LaneId) : LaneOrders s (s.advanceDeadlines l) l :=
  .of_pool (t := s.advanceDeadlines l) rfl

theorem LaneOrders.withdrawDue (s : State) (l : LaneId) : LaneOrders s (s.withdrawDue l) l :=
  ((((LaneOrders.modLane s l _).trans (.dropQueued _ l _)).trans (.cancelJobs _ l _)).trans (.advanceDeadlines _ l)).trans
    (.reportEnded _ s l)

theorem LaneOrders.poolTick (s : State) (l : LaneId) : LaneOrders s (s.poolTick l) l :=
  (LaneOrders.withdrawDue s l).trans (.arbitrate _ l)

end Sys2Proof.Machine
end

