-- ==== Sys2Proof/Proofs/PoolParts.lean ====
section
/-! Cancellations put together (R73, R132, R134): what several orders of one event remove and change in the pool, and which
HALTING channels their reports reach, as one removal served by the arbiter at the event's end. -/

namespace Sys2Proof.Machine

/-- The pool of the later state is what a removal leaves, and the HALTING channels whose last jobs it took are HALTED. -/
structure Cancels (s t : State) (gone : RenderRequest → Bool) (moved : RenderRequest → RenderRequest) : Prop where
  pool : PoolLeft s t gone moved
  channel : ∀ r : RenderRequest, (moved r).channel = r.channel
  waits : ∀ n : Channel, (t.chan n).releaseWaits = (s.chan n).releaseWaits
  states : ∀ n : Channel, (t.chan n).state =
    if s.inFlight n = true ∧ t.inFlight n = false ∧ (s.chan n).state = .halting ∧ (s.chan n).releaseWaits = false then .halted
    else (s.chan n).state

namespace Cancels
variable {s t u : State} {gone gone' : RenderRequest → Bool} {moved moved' : RenderRequest → RenderRequest}

/-- A removal gives no channel a job. -/
theorem inFlight_mono (h : Cancels s t gone moved) {n : Channel} (hn : s.inFlight n = false) : t.inFlight n = false := by
  rw [← Bool.not_eq_true, inFlight_iff] at hn ⊢
  rintro ⟨e, j, hj, hchannel⟩
  obtain ⟨i, hi, -, rfl⟩ := h.pool.job.1 hj
  exact hn ⟨e, i, hi, (h.channel i.request).symm.trans hchannel⟩

theorem congr (h : Cancels s t gone moved) (hg : ∀ r : RenderRequest, gone r = gone' r)
    (hm : ∀ r : RenderRequest, moved r = moved' r) : Cancels s t gone' moved' := by
  have hg : gone = gone' := funext hg
  have hm : moved = moved' := funext hm
  exact hg ▸ hm ▸ h

/-- A change that leaves pool and channel states. -/
theorem of_same (hpool : KeepsPool s t) (hwaits : ∀ n : Channel, (t.chan n).releaseWaits = (s.chan n).releaseWaits)
    (hstates : ∀ n : Channel, (t.chan n).state = (s.chan n).state) : Cancels s t (fun _ => false) id := by
  refine ⟨.of_id ?_ fun e => ?_, fun _ => rfl, hwaits, fun n => ?_⟩
  · rw [hpool.queue]
    simp
  · rw [hpool.engines]
    cases s.engines.get e <;> rfl
  · rw [hstates, if_neg]
    rintro ⟨hs, ht, -⟩
    have hflight : t.inFlight n = s.inFlight n := by
      unfold State.inFlight
      rw [hpool.engines]
    exact absurd (hs.symm.trans (hflight.symm.trans ht)) nofun

theorem refl (s : State) : Cancels s s (fun _ => false) id := of_same (KeepsPool.refl s) (fun _ => rfl) fun _ => rfl

theorem trans (h : Cancels s t gone moved) (k : Cancels t u gone' moved') :
    Cancels s u (fun r => gone r || gone' (moved r)) fun r => moved' (moved r) := by
  refine ⟨⟨?_, fun e => ?_⟩, fun r => (k.channel _).trans (h.channel r), fun n => (k.waits n).trans (h.waits n), fun n => ?_⟩
  · rw [k.pool.queue, h.pool.queue, List.filter_map, List.map_map, List.filter_filter]
    refine congrArg₂ List.map rfl (List.filter_congr fun r _ => ?_)
    simp [Bool.not_or, Bool.and_comm]
  · rw [k.pool.engines, h.pool.engines]
    cases s.engines.get e with
    | none => rfl
    | some j =>
      cases hfirst : gone j.request with
      | true => simp [hfirst, Option.filter]
      | false => cases hsecond : gone' (moved j.request) <;> simp [hfirst, hsecond, Option.filter]
  · rw [k.states, h.states, h.waits]
    by_cases hhalting : (s.chan n).state = .halting ∧ (s.chan n).releaseWaits = false
    · obtain ⟨hstate, hwaits⟩ := hhalting
      cases hs : s.inFlight n with
      | false => simp [h.inFlight_mono hs]
      | true =>
        cases ht : t.inFlight n with
        | true => simp [hstate, hwaits]
        | false => simp [k.inFlight_mono ht, hstate, hwaits]
    · have hnone {a b : Prop} : ¬(a ∧ b ∧ (s.chan n).state = .halting ∧ (s.chan n).releaseWaits = false) :=
        fun ⟨_, _, hc⟩ => hhalting hc
      simp only [if_neg hnone]

/-- A removal, then the reports of the channels it took the last jobs of. -/
theorem of_reportEnded (hpool : PoolLeft s u gone moved) (hchannel : ∀ r : RenderRequest, (moved r).channel = r.channel)
    (hchans : ∀ n : Channel, u.chan n = s.chan n) : Cancels s (u.reportEnded s) gone moved := by
  have hkeeps := reportEnded_keepsPool (KeepsPool.refl u) s
  have hflight (n : Channel) : (u.reportEnded s).inFlight n = u.inFlight n := by
    unfold State.inFlight
    rw [hkeeps.engines]
  refine ⟨⟨hkeeps.queue.trans hpool.queue, fun e => by rw [hkeeps.engines]; exact hpool.engines e⟩, hchannel, fun n => ?_,
    fun n => ?_⟩
  · rw [reportEnded_chan, hchans]
    split <;> rfl
  · rw [hflight, reportEnded_chan, hchans]
    split <;> rfl

/-! ## What the event's end makes of it -/

/-- The states of the channels after the cancellations. -/
theorem haltsOnCancel (h : Cancels s t gone moved) (hstates : ∀ n : Channel, (u.chan n).state = (t.chan n).state) :
    HaltsOnCancel s u gone := fun n => by
  rw [h.pool.lastJobs_iff h.channel n, hstates, h.states]
  refine ⟨fun hstate hwaits ⟨hs, ht⟩ => if_pos ⟨hs, ht, hstate, hwaits⟩, fun hnot => if_neg fun hc => hnot ?_⟩
  obtain ⟨hs, ht, hstate, hwaits⟩ := hc
  exact ⟨hstate, hwaits, hs, ht⟩

/-- A channel none of whose jobs is removed keeps its state. -/
theorem state_of_stay (h : Cancels s t gone moved) {n : Channel} (hstay : ∀ r : RenderRequest, r.channel = n → gone r = false) :
    (t.chan n).state = (s.chan n).state := by
  rw [h.states, if_neg]
  rintro ⟨hs, ht, -⟩
  obtain ⟨hflight, hlast⟩ := (h.pool.lastJobs_iff h.channel n).2 ⟨hs, ht⟩
  obtain ⟨e, j, hj, hn⟩ := (inFlight_iff s n).1 hflight
  exact absurd (hlast e j hj hn) (by rw [hstay _ hn]; exact nofun)

end Cancels

/-- A start copies the same in a state that differs by a lane's part. -/
theorem LaneOrders.makeJob {s t : State} {l : LaneId} (h : LaneOrders s t l)
    (hraster : ∀ m : LaneId, (t.lane m).config.raster = (s.lane m).config.raster) (r : RenderRequest) :
    t.makeJob r = s.startCopy r := by
  have hsame : (t.chan r.channel).window = (s.chan r.channel).window ∧ (t.chan r.channel).config = (s.chan r.channel).config := by
    by_cases hclaim : t.claims.get r.channel = s.claims.get r.channel
    · rw [h.kept r.channel hclaim]
      exact ⟨rfl, rfl⟩
    · have hreleased := h.released r.channel hclaim
      unfold Released at hreleased
      rw [hreleased]
      exact ⟨rfl, rfl⟩
  exact makeJob_of_same hsame.1 hsame.2 (by rw [h.rest]) (hraster r.lane)

theorem LaneOrders.releaseWaits {s t : State} {l : LaneId} (h : LaneOrders s t l) (n : Channel) :
    (t.chan n).releaseWaits = (s.chan n).releaseWaits := by
  by_cases hclaim : t.claims.get n = s.claims.get n
  · rw [h.kept n hclaim]
    rfl
  · have hreleased := h.released n hclaim
    unfold Released at hreleased
    rw [hreleased]
    rfl

/-- The cancellations of an event, served by the arbiter at its end. -/
theorem Cancels.poolAfter {s t : State} {l : LaneId} {gone : RenderRequest → Bool} {moved : RenderRequest → RenderRequest}
    (h : Cancels s t gone moved) (ho : LaneOrders s t l)
    (hraster : ∀ m : LaneId, (t.lane m).config.raster = (s.lane m).config.raster) : PoolAfter s t.arbitrate gone moved :=
  poolAfter_arbitrate h.pool (ho.makeJob hraster)

/-! ## The lane's orders -/

theorem cancels_modLane (s : State) (l : LaneId) (f : Lane → Lane) : Cancels s (s.modLane l f) (fun _ => false) id :=
  .of_same ⟨rfl, rfl⟩ (fun _ => rfl) fun _ => rfl

theorem cancels_modAttn (s : State) (f : Attn → Attn) : Cancels s (s.modAttn f) (fun _ => false) id :=
  .of_same ⟨rfl, rfl⟩ (fun _ => rfl) fun _ => rfl

theorem cancels_setClaim (s : State) (n : Channel) (claim : Option LaneId) : Cancels s (s.setClaim n claim) (fun _ => false) id :=
  .of_same ⟨rfl, rfl⟩ (fun m => by rw [setClaim_chan]; split <;> rfl) fun m => by rw [setClaim_chan]; split <;> rfl

theorem cancels_endStarvedOf (s : State) (l : LaneId) : Cancels s (s.endStarvedOf l) (fun _ => false) id := by
  unfold State.endStarvedOf
  split
  · exact cancels_modAttn s _
  · exact .refl s

theorem cancels_releaseOld (s : State) (l : LaneId) (old : Option Channel) :
    Cancels s (s.releaseOld l old) (fun _ => false) id := by
  unfold State.releaseOld State.releaseUnneeded
  split
  · split
    · exact cancels_setClaim s _ none
    · exact .refl s
  · exact .refl s

theorem cancels_cancelByRole (s : State) (l : LaneId) (n : Channel) (role : Role) :
    Cancels s (s.cancelByRole l n role) (RenderRequest.isOf l n role) id :=
  .of_reportEnded (.of_id rfl fun _ => cancelJobs_get ..) (fun _ => rfl) fun _ => rfl

theorem cancels_cancelSource (s : State) (l : LaneId) :
    Cancels s (s.cancelSource l) (namedBy l (s.lane l).source .program) id := by
  unfold State.cancelSource
  cases hsource : (s.lane l).source with
  | none => exact (Cancels.refl s).congr (fun r => by simp [namedBy]) fun _ => rfl
  | some y =>
    exact (cancels_cancelByRole s l y .program).congr (fun r => by simp [namedBy, RenderRequest.isOf]) fun _ => rfl

theorem reRole_channel (l : LaneId) (n : Channel) (r : RenderRequest) : (r.reRole l n).channel = r.channel := by
  unfold RenderRequest.reRole
  split <;> rfl

theorem reRole_lane (l : LaneId) (n : Channel) (r : RenderRequest) : (r.reRole l n).lane = r.lane := by
  unfold RenderRequest.reRole
  split <;> rfl

theorem reRole_distance (l : LaneId) (n : Channel) (r : RenderRequest) : (r.reRole l n).distance = r.distance := by
  unfold RenderRequest.reRole
  split <;> rfl

theorem nearer_channel (l : LaneId) (r : RenderRequest) : (r.nearer l).channel = r.channel := by
  unfold RenderRequest.nearer
  split <;> rfl

theorem cancels_reRole (s : State) (l : LaneId) (n : Channel) :
    Cancels s (s.reRole l n) (fun _ => false) (RenderRequest.reRole l n) := by
  refine ⟨⟨?_, fun e => ?_⟩, reRole_channel l n, fun _ => rfl, fun m => ?_⟩
  · simp [State.reRole]
  · rw [reRole_get]
    cases s.engines.get e <;> rfl
  · have hflight : (s.reRole l n).inFlight m = s.inFlight m := by
      rw [Bool.eq_iff_iff, inFlight_iff, inFlight_iff]
      refine exists_congr fun e => ?_
      rw [reRole_get]
      cases s.engines.get e with
      | none => simp
      | some j => simp [reRole_channel]
    rw [hflight, if_neg]
    · rfl
    · rintro ⟨hs, ht, -⟩
      exact absurd (hs.symm.trans ht) nofun

theorem cancels_withdrawDue (s : State) (l : LaneId) :
    Cancels s (s.withdrawDue l) (RenderRequest.dueOn l) (RenderRequest.nearer l) := by
  refine .of_reportEnded ⟨rfl, fun e => ?_⟩ (nearer_channel l) fun _ => rfl
  rw [advanceDeadlines_get, cancelJobs_get]
  rfl

theorem dueOn_eq_dueAt (l : LaneId) : RenderRequest.dueOn l = dueAt l := rfl

theorem cancels_emit (s : State) (l : LaneId) : Cancels s (s.emit l) (fun _ => false) id :=
  .of_same (emit_keepsPool (KeepsPool.refl s) l) (LaneOrders.emit s l).releaseWaits fun n =>
    congrArg (fun v => (Vector.get v n).state) (emit_chans s l)

end Sys2Proof.Machine
end

