-- ==== Sys2Proof/Proofs/CueAborts.lean ====
section
/-! CUE_ABORT at its lane (R157): the cue leaves the list, the ARMED work of a head cue goes with it, and a claim that is
needed no longer is released. -/

namespace Sys2Proof.Machine

/-! ## The cue of a number -/

/-- The one cue that bears a number is found. -/
theorem findCue_eq {x : Lane} {before after : List Cue} {c : Cue} {number : Byte} (hcues : x.cues = before ++ c :: after)
    (hc : c.number = number) (hbefore : ∀ d ∈ before, d.number ≠ number) : x.findCue number = some c := by
  have hnone : before.find? (fun d => d.number == number) = none :=
    List.find?_eq_none.2 fun d hd => by simpa using hbefore d hd
  unfold Lane.findCue
  rw [hcues, List.find?_append, hnone, Option.none_or]
  exact List.find?_cons_of_pos (by simpa using hc)

theorem findCue_eq_none {x : Lane} {number : Byte} (h : ∀ c ∈ x.cues, c.number ≠ number) : x.findCue number = none :=
  List.find?_eq_none.2 fun c hc => by simpa using h c hc

/-- A cue among others of other numbers: its removal leaves them, and it is the head with nothing before it. -/
theorem erase_cue {before after : List Cue} {c : Cue} (hbefore : ∀ d ∈ before, d.number ≠ c.number) :
    (before ++ c :: after).erase c = before ++ after ∧ ((before ++ c :: after).head? = some c ↔ before = []) := by
  have hnot : c ∉ before := fun hc => hbefore c hc rfl
  refine ⟨?_, ?_⟩
  · rw [List.erase_append_right _ hnot, List.erase_cons_head]
  · cases before with
    | nil => simp
    | cons d rest =>
      have hne : d ≠ c := fun h => hnot (h ▸ List.mem_cons_self)
      simp [hne]

/-! ## Parts of an abort -/

theorem releaseOld_claims (s : State) (l : LaneId) (old : Option Channel) (n : Channel) : (s.releaseOld l old).claims.get n =
    if old = some n ∧ s.claims.get n = some l ∧ (s.lane l).needs n = false then none else s.claims.get n := by
  cases old with
  | none => simp [State.releaseOld]
  | some y =>
    change (s.releaseUnneeded l y).claims.get n = _
    unfold State.releaseUnneeded
    by_cases hrelease : s.claims.get y = some l ∧ (s.lane l).needs y = false
    · rw [if_pos hrelease, setClaim_claims]
      refine if_congr ?_ rfl rfl
      simp only [Option.some.injEq]
      exact ⟨fun h => ⟨h, h ▸ hrelease⟩, fun h => h.1⟩
    · rw [if_neg hrelease, if_neg]
      simp only [Option.some.injEq]
      rintro ⟨rfl, h⟩
      exact hrelease h

theorem releaseOld_attn (s : State) (l : LaneId) (old : Option Channel) : (s.releaseOld l old).attn = s.attn := by
  unfold State.releaseOld State.releaseUnneeded
  split
  · split <;> rfl
  · rfl

theorem LaneOrders.cancelArmed (s : State) (l : LaneId) (c : Cue) : LaneOrders s (s.cancelArmed l c) l := by
  unfold State.cancelArmed
  split
  · split
    · exact .refl s l
    · exact .cancelByRole s l l _ _
  · exact .refl s l

theorem cancelByRole_lane (s : State) (l m : LaneId) (n : Channel) (role : Role) :
    (s.cancelByRole l n role).lane m = s.lane m := by
  unfold State.cancelByRole
  rw [reportEnded_rest]
  rfl

theorem cancelByRole_attn (s : State) (l : LaneId) (n : Channel) (role : Role) : (s.cancelByRole l n role).attn = s.attn := by
  unfold State.cancelByRole
  rw [reportEnded_rest]
  rfl

theorem cancelByRole_claims (s : State) (l : LaneId) (n : Channel) (role : Role) :
    (s.cancelByRole l n role).claims = s.claims := by
  unfold State.cancelByRole
  rw [reportEnded_rest]
  rfl

section
variable (s : State) (l : LaneId) (c : Cue)

theorem cancelArmed_lane (m : LaneId) : (s.cancelArmed l c).lane m = s.lane m := by
  unfold State.cancelArmed
  split
  · split
    · rfl
    · exact cancelByRole_lane s l m _ _
  · rfl

theorem cancelArmed_attn : (s.cancelArmed l c).attn = s.attn := by
  unfold State.cancelArmed
  split
  · split
    · rfl
    · exact cancelByRole_attn s l _ _
  · rfl

theorem cancelArmed_claims : (s.cancelArmed l c).claims = s.claims := by
  unfold State.cancelArmed
  split
  · split
    · rfl
    · exact cancelByRole_claims s l _ _
  · rfl

theorem cancels_cancelArmed : Cancels s (s.cancelArmed l c)
    (fun r => decide ((s.lane l).source ≠ c.target) && namedBy l c.target .armed r) id := by
  unfold State.cancelArmed
  cases htarget : c.target with
  | none => exact (Cancels.refl s).congr (fun r => by simp [namedBy]) fun _ => rfl
  | some n =>
    dsimp only
    split
    · rename_i hsource
      exact (Cancels.refl s).congr (fun r => by simp [hsource]) fun _ => rfl
    · rename_i hsource
      exact (cancels_cancelByRole s l n .armed).congr (fun r => by simp [hsource, namedBy, RenderRequest.isOf]) fun _ => rfl

/-- What the abort of a head cue does first. -/
def State.disarmed : State := if (s.lane l).cues.head? = some c then s.disarm l c else s

theorem LaneOrders.disarmed : LaneOrders s (s.disarmed l c) l := by
  unfold State.disarmed
  split
  · exact (LaneOrders.cancelArmed s l c).trans (.modLane _ l _)
  · exact .refl s l

theorem disarmed_claims : (s.disarmed l c).claims = s.claims := by
  unfold State.disarmed
  split
  · exact cancelArmed_claims s l c
  · rfl

theorem disarmed_attn : (s.disarmed l c).attn = s.attn := by
  unfold State.disarmed
  split
  · exact cancelArmed_attn s l c
  · rfl

theorem disarmed_lane (m : LaneId) : (s.disarmed l c).lane m =
    if l = m ∧ (s.lane l).cues.head? = some c then { s.lane m with armedFrames := Ready.empty } else s.lane m := by
  unfold State.disarmed
  by_cases hhead : (s.lane l).cues.head? = some c
  · simp only [hhead, and_true]
    exact (lane_modLane _ l m _).trans (by rw [cancelArmed_lane])
  · rw [if_neg hhead, if_neg fun h => hhead h.2]

/-- The requests that an abort takes out of the pool. -/
def State.abortGone (r : RenderRequest) : Bool :=
  decide ((s.lane l).cues.head? = some c ∧ (s.lane l).source ≠ c.target) && namedBy l c.target .armed r

theorem cancels_disarmed : Cancels s (s.disarmed l c) (s.abortGone l c) id := by
  unfold State.disarmed
  by_cases hhead : (s.lane l).cues.head? = some c
  · rw [if_pos hhead]
    exact ((cancels_cancelArmed s l c).trans (cancels_modLane _ l _)).congr
      (fun r => by simp [State.abortGone, hhead]) fun _ => rfl
  · rw [if_neg hhead]
    exact (Cancels.refl s).congr (fun r => by simp [State.abortGone, hhead]) fun _ => rfl

/-- An abort, the arbiter not yet at work. -/
def State.aborted : State :=
  (((s.disarmed l c).modLane l fun x => { x with cues := x.cues.erase c }).releaseOld l c.target).modAttn
    fun a => a.latchAborted l

theorem abortCue_eq : s.abortCue l c = (s.aborted l c).arbitrate := rfl

theorem LaneOrders.aborted : LaneOrders s (s.aborted l c) l :=
  (((LaneOrders.disarmed s l c).trans (.modLane _ l _)).trans (.releaseOld _ l _)).trans (.latchAborted _ l)

theorem cancels_aborted : Cancels s (s.aborted l c) (s.abortGone l c) id :=
  ((((cancels_disarmed s l c).trans (cancels_modLane _ l _)).trans (cancels_releaseOld _ l _)).trans (cancels_modAttn _ _)).congr
    (fun r => by simp) fun _ => rfl

theorem aborted_attn : (s.aborted l c).attn = s.attn.latchAborted l := by
  unfold State.aborted
  rw [modAttn_attn, releaseOld_attn, modLane_attn, disarmed_attn]

theorem aborted_lane (m : LaneId) : (s.aborted l c).lane m =
    if l = m then { s.lane m with
      cues := (s.lane m).cues.erase c
      armedFrames := if (s.lane l).cues.head? = some c then Ready.empty else (s.lane m).armedFrames }
    else s.lane m := by
  unfold State.aborted
  rw [lane_modAttn_frame, releaseOld_lane, lane_modLane, disarmed_lane]
  by_cases hm : l = m
  · subst hm
    simp only [true_and, if_true]
    by_cases hhead : (s.lane l).cues.head? = some c
    · simp only [hhead, if_true]
    · simp only [hhead, if_false]
  · simp only [hm, false_and, if_false]

theorem aborted_claims (n : Channel) : (s.aborted l c).claims.get n =
    if c.target = some n ∧ s.claims.get n = some l ∧ (s.lane l).source ≠ some n ∧
      ((s.lane l).cues.erase c).any (fun d => d.target == some n) = false then none
    else s.claims.get n := by
  have hlane := aborted_lane s l c l
  unfold State.aborted at hlane ⊢
  rw [lane_modAttn_frame, releaseOld_lane] at hlane
  rw [modAttn_claims, releaseOld_claims, hlane, modLane_claims, disarmed_claims, if_pos rfl]
  refine if_congr ?_ rfl rfl
  simp [Lane.needs]

end

/-- An abort that gives the pool no order leaves it, under its law. -/
theorem arbitrate_of_poolLaw {s : State} (h : s.PoolLaw) : s.arbitrate = s := by
  unfold State.arbitrate
  rw [startOne_of_poolLaw h, startOne_of_poolLaw h, startOne_of_poolLaw h]

theorem PoolLeft.keepsPool {s u : State} {gone : RenderRequest → Bool} (h : PoolLeft s u gone id)
    (hstay : ∀ r : RenderRequest, gone r = false) : KeepsPool s u := by
  refine ⟨?_, Vector.ext fun i hi => ?_⟩
  · rw [h.queue]
    simp [hstay]
  · have hget := h.engines ⟨i, hi⟩
    simp only [hstay] at hget
    refine Eq.trans hget ?_
    change ((s.engines.get ⟨i, hi⟩).filter fun _ => true).map _ = s.engines.get ⟨i, hi⟩
    cases s.engines.get ⟨i, hi⟩ <;> rfl

/-- An abort elsewhere than at the head, of the program source, or of SLATE gives the pool no order. -/
theorem abortGone_of_quiet {s : State} {l : LaneId} {c : Cue} {before : List Cue}
    (hhead : (s.lane l).cues.head? = some c ↔ before = [])
    (hquiet : before ≠ [] ∨ (s.lane l).source = c.target ∨ c.target = none) (r : RenderRequest) :
    s.abortGone l c r = false := by
  unfold State.abortGone
  rcases hquiet with h | h | h
  · simp [hhead, h]
  · simp [h]
  · simp [namedBy, h]

/-- Settles O43: the cue leaves, then the arbiter serves the pool. -/
theorem cueAbortRemovesCue : Obligations.CueAbortRemovesCue := by
  refine ⟨fun s lane cue l before after c hw hl hcues hc hbefore hafter => ?_, fun s lane cue l hw hl hnone => ?_,
    fun s lane cue hw hl => exec_serve hw rfl ?_⟩
  · have hcue : s.takeCueAbort lane cue = (s.abortCue l c, done []) := by
      unfold State.takeCueAbort
      rw [laneOf_eq hl]
      dsimp only
      rw [findCue_eq hcues hc hbefore]
    obtain ⟨herase, hhead⟩ := erase_cue (before := before) (after := after) (c := c) fun d hd => by rw [hc]; exact hbefore d hd
    rw [← hcues] at herase hhead
    have horders := (LaneOrders.aborted s l c).trans (.arbitrate _ l)
    have hlane (m : LaneId) : (s.aborted l c).arbitrate.lane m = (s.aborted l c).lane m := by rw [arbitrate_rest]; rfl
    have hclaims (n : Channel) : (s.aborted l c).arbitrate.claims.get n = _ :=
      (by rw [arbitrate_rest] : (s.aborted l c).arbitrate.claims.get n = (s.aborted l c).claims.get n).trans
        (aborted_claims s l c n)
    have hattn : (s.aborted l c).arbitrate.attn = s.attn.latchAborted l := by
      rw [arbitrate_rest]
      exact aborted_attn s l c
    have hstates (n : Channel) : ((s.aborted l c).arbitrate.chan n).state = ((s.aborted l c).chan n).state := by
      rw [arbitrate_chan]
    rw [herase] at hclaims
    have hown : (s.aborted l c).arbitrate.lane l = { s.lane l with
        cues := before ++ after
        armedFrames := if before = [] then Ready.empty else (s.lane l).armedFrames } := by
      rw [hlane, aborted_lane, if_pos rfl, herase]
      simp only [hhead]
    have hothers (n : Channel) (hn : c.target ≠ some n) : (s.aborted l c).arbitrate.chan n = s.chan n := by
      have hkept := horders.kept n ((hclaims n).trans (if_neg fun h => hn h.1))
      have hstate := (hstates n).trans ((cancels_aborted s l c).state_of_stay (n := n) fun r hr => by
        simp [State.abortGone, namedBy, hr, Ne.symm hn])
      exact hkept.trans (by rw [hstate])
    have hgone (hfirst : before = []) (hsource : (s.lane l).source ≠ c.target) :
        Cancels s (s.aborted l c) (namedBy l c.target .armed) id :=
      (cancels_aborted s l c).congr (fun r => by simp [State.abortGone, hhead.2 hfirst, hsource]) fun _ => rfl
    have hafter (hfirst : before = []) (hsource : (s.lane l).source ≠ c.target) :=
      (hgone hfirst hsource).poolAfter (LaneOrders.aborted s l c) fun m => by rw [aborted_lane]; split <;> rfl
    have hhalts (hfirst : before = []) (hsource : (s.lane l).source ≠ c.target) :=
      (hgone hfirst hsource).haltsOnCancel hstates
    have hkept (hquiet : before ≠ [] ∨ (s.lane l).source = c.target ∨ c.target = none) (n : Channel) :
        ((s.aborted l c).arbitrate.chan n).state = (s.chan n).state :=
      (hstates n).trans ((cancels_aborted s l c).state_of_stay fun r _ => abortGone_of_quiet hhead hquiet r)
    have hpool (hquiet : before ≠ [] ∨ (s.lane l).source = c.target ∨ c.target = none) (hlaw : s.PoolLaw) :
        KeepsPool s (s.aborted l c).arbitrate := by
      have hleft := (cancels_aborted s l c).pool.keepsPool fun r => abortGone_of_quiet hhead hquiet r
      rw [arbitrate_of_poolLaw (hleft.poolLaw hlaw)]
      exact hleft
    rw [abortCue_eq] at hcue
    generalize (s.aborted l c).arbitrate = t at *
    refine ⟨t.setHandedBack (.cueAbort lane cue) (done []), exec_serve hw rfl hcue, ?_, horders.lanes, hothers, hown, hclaims,
      horders.released, horders.kept, fun hfirst hsource => ⟨(hafter hfirst hsource).of_keepsPool ⟨rfl, rfl⟩,
      hhalts hfirst hsource⟩, fun hquiet => ⟨hkept hquiet, fun hlaw => ⟨(hpool hquiet hlaw).queue, (hpool hquiet hlaw).engines⟩⟩⟩
    rw [horders.rest, hattn]
    rfl
  · refine exec_serve hw rfl ?_
    unfold State.takeCueAbort
    rw [laneOf_eq hl]
    dsimp only
    rw [findCue_eq_none hnone]
    rfl
  · unfold State.takeCueAbort
    rw [laneOf_above hl]
    rfl

end Sys2Proof.Machine
end

