-- ==== Sys2Proof/Proofs/LaneSets.lean ====
section
/-! LANE_SET at its lane (R138 to R140): the stored configuration, an enable, and a disable with its orders to the pool. -/

namespace Sys2Proof.Machine

/-! ## Every claim of a lane is released -/

theorem releaseClaims_chan (s : State) (l : LaneId) (n : Channel) : (s.releaseClaims l).chan n =
    if s.claims.get n = some l then { s.chan n with stepOpen := false, tally := 0 } else s.chan n := by
  have hfold (list : List Channel) (u : State) : (list.foldl (fun s n => s.setClaim n none) u).chan n =
      if n ∈ list then { u.chan n with stepOpen := false, tally := 0 } else u.chan n := by
    induction list generalizing u with
    | nil => simp
    | cons m list ih =>
      rw [List.foldl_cons, ih, setClaim_chan]
      by_cases hm : m = n
      · simp [hm]
      · simp [hm, Ne.symm hm]
  unfold State.releaseClaims
  rw [hfold]
  simp only [mem_claimed]

theorem releaseClaims_rest (s : State) (l : LaneId) : s.releaseClaims l =
    { s with chans := (s.releaseClaims l).chans, claims := (s.releaseClaims l).claims } := by
  unfold State.releaseClaims
  refine foldl_rel (R := fun s t => t = { s with chans := t.chans, claims := t.claims }) _ _ rfl fun u n hu => ?_
  change { u with chans := _, claims := _ } = _
  rw [hu]
  rfl

theorem LaneOrders.releaseClaims (s : State) (l : LaneId) : LaneOrders s (s.releaseClaims l) l := by
  have hattn : (s.releaseClaims l).attn = s.attn := by rw [releaseClaims_rest]
  have hclaims := releaseClaims_claims s l
  have hchan := releaseClaims_chan s l
  refine ⟨by rw [releaseClaims_rest], fun m _ => releaseClaims_lane s l m, fun n => ?_, fun n hn => ?_, fun n hn => ?_,
    fun n => .inl ?_, by rw [hattn], fun m _ => ⟨by rw [hattn], by rw [hattn], by rw [hattn]⟩,
    (Halts.refl s).of_same (fun n => ?_) (by rw [releaseClaims_rest])⟩
  · rw [hclaims]
    by_cases hown : s.claims.get n = some l
    · exact .inr ⟨hown, if_pos hown⟩
    · exact .inl (if_neg hown)
  · rw [hclaims] at hn
    have hother : s.claims.get n ≠ some l := fun hown => by
      rw [if_pos hown, hown] at hn
      exact absurd hn nofun
    rw [hchan, if_neg hother]
  · rw [hclaims] at hn
    have hown : s.claims.get n = some l := by
      by_contra hother
      exact hn (if_neg hother)
    unfold Released
    rw [hchan, if_pos hown]
  · rw [hchan]
    split <;> rfl
  · rw [hchan]
    split <;> rfl

theorem cancels_releaseClaims (s : State) (l : LaneId) : Cancels s (s.releaseClaims l) (fun _ => false) id :=
  .of_same ⟨by rw [releaseClaims_rest], by rw [releaseClaims_rest]⟩ (LaneOrders.releaseClaims s l).releaseWaits fun n => by
    rw [releaseClaims_chan]
    split <;> rfl

/-! ## The orders for every claimed channel -/

theorem LaneOrders.foldl {α : Type} {f : State → α → State} {l : LaneId} (h : ∀ (u : State) (a : α), LaneOrders u (f u a) l)
    (list : List α) (s : State) : LaneOrders s (list.foldl f s) l :=
  foldl_rel (R := fun s t => LaneOrders s t l) f list (.refl s l) fun u a hu => hu.trans (h u a)

theorem LaneOrders.cancelClaimed (s : State) (l : LaneId) : LaneOrders s (s.cancelClaimed l) l :=
  .foldl (fun u _ => (LaneOrders.cancelByRole u l l _ _).trans (.cancelByRole _ l l _ _)) _ s

theorem cancelClaimed_attn (s : State) (l : LaneId) : (s.cancelClaimed l).attn = s.attn := by
  unfold State.cancelClaimed
  exact foldl_rel (R := fun s t => t.attn = s.attn) _ _ rfl fun u n hu => by
    rw [cancelByRole_attn, cancelByRole_attn, hu]

/-- Both roles of a channel make up the lane's requests of it. -/
theorem isOf_either (l : LaneId) (n : Channel) (r : RenderRequest) :
    (RenderRequest.isOf l n .program r || RenderRequest.isOf l n .armed r) = (r.lane == l && r.channel == n) := by
  unfold RenderRequest.isOf
  cases r.role <;> simp

theorem cancels_cancelClaimed (s : State) (l : LaneId) :
    Cancels s (s.cancelClaimed l) (fun r => r.lane == l && s.claims.get r.channel == some l) id := by
  have hfold (list : List Channel) (u : State) :
      Cancels u (list.foldl (fun s n => (s.cancelByRole l n .program).cancelByRole l n .armed) u)
        (fun r => r.lane == l && decide (r.channel ∈ list)) id := by
    induction list generalizing u with
    | nil => exact (Cancels.refl u).congr (fun r => by simp) fun _ => rfl
    | cons n list ih =>
      refine (((cancels_cancelByRole u l n .program).trans (cancels_cancelByRole _ l n .armed)).trans (ih _)).congr
        (fun r => ?_) fun _ => rfl
      simp only [id_eq, isOf_either]
      cases hlane : r.lane == l <;> simp [List.mem_cons, Bool.decide_or, beq_eq_decide]
  refine (hfold (s.claimed l) s).congr (fun r => ?_) fun _ => rfl
  simp only [mem_claimed, beq_eq_decide]

/-! ## A disable (R140) -/

/-- A disabled lane's cues are latched as aborted. -/
def State.latchDisabled (s : State) (l : LaneId) : State :=
  if (s.lane l).cues.isEmpty then s else s.modAttn fun a => a.latchAborted l

/-- A disable, the arbiter not yet at work. -/
def State.disabled (s : State) (l : LaneId) : State :=
  ((((s.latchDisabled l).endStarvedOf l).cancelClaimed l).releaseClaims l).modLane l Lane.disable

theorem disableLane_eq (s : State) (l : LaneId) : s.disableLane l = (s.disabled l).arbitrate := rfl

theorem LaneOrders.latchDisabled (s : State) (l : LaneId) : LaneOrders s (s.latchDisabled l) l := by
  unfold State.latchDisabled
  split
  · exact .refl s l
  · exact .latchAborted s l

theorem LaneOrders.disabled (s : State) (l : LaneId) : LaneOrders s (s.disabled l) l :=
  ((((LaneOrders.latchDisabled s l).trans (.endStarvedOf _ l)).trans (.cancelClaimed _ l)).trans (.releaseClaims _ l)).trans
    (.modLane _ l _)

/-- Neither the latch nor the end of a starved condition changes more than the attention unit. -/
theorem beforeCancel_rest (s : State) (l : LaneId) : (s.latchDisabled l).endStarvedOf l =
    { s with attn := ((s.latchDisabled l).endStarvedOf l).attn } := by
  unfold State.endStarvedOf State.latchDisabled
  repeat' split
  all_goals rfl

theorem disabled_lane (s : State) (l m : LaneId) : (s.disabled l).lane m = if l = m then (s.lane m).disable else s.lane m := by
  unfold State.disabled
  rw [lane_modLane, releaseClaims_lane, (cancelClaimed_keepsLanes (KeepsLanes.refl _) l).lane, beforeCancel_rest]
  rfl

theorem disabled_claims (s : State) (l : LaneId) (n : Channel) : (s.disabled l).claims.get n =
    if s.claims.get n = some l then none else s.claims.get n := by
  unfold State.disabled
  rw [modLane_claims, releaseClaims_claims, (cancelClaimed_keepsLanes (KeepsLanes.refl _) l).claims, beforeCancel_rest]

theorem cancels_disabled (s : State) (l : LaneId) :
    Cancels s (s.disabled l) (fun r => r.lane == l && s.claims.get r.channel == some l) id := by
  have hbefore : Cancels s ((s.latchDisabled l).endStarvedOf l) (fun _ => false) id :=
    .of_same ⟨by rw [beforeCancel_rest], by rw [beforeCancel_rest]⟩ (fun n => by rw [beforeCancel_rest]; rfl)
      fun n => by rw [beforeCancel_rest]; rfl
  refine (((hbefore.trans (cancels_cancelClaimed _ l)).trans (cancels_releaseClaims _ l)).trans (cancels_modLane _ l _)).congr
    (fun r => ?_) fun _ => rfl
  rw [beforeCancel_rest]
  simp

theorem disabled_attn (s : State) (l : LaneId) : (s.disabled l).attn = ((s.latchDisabled l).endStarvedOf l).attn := by
  unfold State.disabled
  rw [modLane_attn, releaseClaims_rest]
  exact cancelClaimed_attn _ l

/-! ## What becomes of the lane's members in the attention unit -/

theorem endStarvedOf_attn (s : State) (l : LaneId) : (s.endStarvedOf l).attn =
    if (s.lane l).state = .slateStarved then s.attn.endStarved l else s.attn := by
  unfold State.endStarvedOf
  split <;> rfl

theorem endStarved_cue (a : Attn) (l : LaneId) : (a.endStarved l).cue = a.cue := rfl

theorem starvedEnds_of {s t : State} {l : LaneId}
    (hcond : t.attn.starvedCond = (s.endStarvedOf l).attn.starvedCond)
    (hstarved : t.attn.starved = (s.endStarvedOf l).attn.starved) : StarvedEnds s t l := by
  unfold StarvedEnds
  rw [hcond, hstarved, endStarvedOf_attn]
  by_cases h : (s.lane l).state = .slateStarved
  · rw [if_pos h]
    have hget : (s.attn.endStarved l).starved.get l =
        if (s.attn.starved.get l).mark then MarkedLatch.clear else s.attn.starved.get l :=
      (get_modifyAt s.attn.starved l l _).trans (if_pos rfl)
    refine ⟨?_, ?_⟩
    · exact (get_setAt_same s.attn.starvedCond l false).trans (by simp [h])
    · rw [hget]
      simp [h]
  · rw [if_neg h]
    simp [h]

theorem latchAborted_cue (a : Attn) (l : LaneId) : (a.latchAborted l).cue.get l = { a.cue.get l with aborted := true } :=
  (get_modifyAt a.cue l l _).trans (if_pos rfl)

theorem latchDisabled_attn (s : State) (l : LaneId) : (s.latchDisabled l).attn =
    if (s.lane l).cues.isEmpty then s.attn else s.attn.latchAborted l := by
  unfold State.latchDisabled
  split <;> rfl

theorem disabled_latches (s : State) (l : LaneId) :
    (s.disabled l).attn.cue.get l =
      (if (s.lane l).cues = [] then s.attn.cue.get l else { s.attn.cue.get l with aborted := true }) ∧
    StarvedEnds s (s.disabled l) l := by
  have hattn := disabled_attn s l
  have hlane : ((s.latchDisabled l).lane l).state = (s.lane l).state := by
    unfold State.latchDisabled
    split <;> rfl
  rw [endStarvedOf_attn, hlane, latchDisabled_attn] at hattn
  refine ⟨?_, starvedEnds_of ?_ ?_⟩
  · rw [hattn]
    by_cases hcues : (s.lane l).cues = []
    · rw [if_pos hcues, hcues]
      split <;> rfl
    · rw [if_neg hcues]
      simp only [List.isEmpty_iff, if_neg hcues]
      split <;> exact latchAborted_cue s.attn l
  · rw [hattn, endStarvedOf_attn]
    split <;> split <;> rfl
  · rw [hattn, endStarvedOf_attn]
    split <;> split <;> rfl

/-! ## LANE_SET -/

theorem modLane_modLane (s : State) (l : LaneId) (f g : Lane → Lane) :
    (s.modLane l f).modLane l g = s.modLane l fun x => g (f x) := by
  unfold State.modLane modifyAt
  dsimp only
  rw [get_setAt_same, setAt_setAt]

/-- LANE_SET with a lane and a record in range. -/
theorem takeLaneSet_eq {s : State} {lane : Byte} {record : BitVec 48} {l : LaneId} {cfg : LaneConfig}
    (hl : laneOf lane = some l) (hcfg : decodeLaneConfig record = some cfg) : s.takeLaneSet lane record =
      if (cfg.raster ≠ (s.lane l).config.raster ∨ cfg.rate ≠ (s.lane l).config.rate) ∧ (s.lane l).state ≠ .idle then
        (s, refuse .wrongState)
      else if cfg.enabled = true ∧ (s.lane l).state = .idle then
        ((s.modLane l fun x => { x with config := cfg }).modLane l Lane.enable, done [])
      else if cfg.enabled = false ∧ (s.lane l).state ≠ .idle then
        ((s.modLane l fun x => { x with config := cfg }).disableLane l, done [])
      else (s.modLane l fun x => { x with config := cfg }, done []) := by
  unfold State.takeLaneSet
  rw [hl, hcfg]

theorem takeLaneSet_range {s : State} {lane : Byte} {record : BitVec 48}
    (h : 3 < lane.toNat ∨ decodeLaneConfig record = none) : s.takeLaneSet lane record = (s, refuse .range) := by
  unfold State.takeLaneSet
  split
  · rename_i l cfg hl hcfg
    rcases h with h | h
    · rw [laneOf_above h] at hl
      exact absurd hl nofun
    · rw [h] at hcfg
      exact absurd hcfg nofun
  · rfl

/-- What a disable by LANE_SET leaves, in terms of the state before the record was stored. -/
theorem disabled_configured {s : State} {l : LaneId} {cfg : LaneConfig} (hraster : cfg.raster = (s.lane l).config.raster) :
    LaneOrders s ((s.modLane l fun x => { x with config := cfg }).disabled l) l ∧
      Cancels s ((s.modLane l fun x => { x with config := cfg }).disabled l)
        (fun r => r.lane == l && s.claims.get r.channel == some l) id ∧
      ∀ m : LaneId, (((s.modLane l fun x => { x with config := cfg }).disabled l).lane m).config.raster =
        (s.lane m).config.raster := by
  refine ⟨(LaneOrders.modLane s l _).trans (.disabled _ l),
    ((cancels_modLane s l _).trans (cancels_disabled _ l)).congr (fun r => by simp) fun _ => rfl, fun m => ?_⟩
  rw [disabled_lane, lane_modLane]
  split
  · rename_i hm
    rw [← hm]
    exact hraster
  · rfl

/-- Settles O41: by the branches of LANE_SET. -/
theorem laneSetEnablesOrDisables : Obligations.LaneSetEnablesOrDisables := by
  refine ⟨fun s lane record l cfg hw hl hcfg => ⟨fun hidle henabled => ?_, fun hrun hchanged => ?_, fun hstored => ?_⟩,
    fun s lane record hw hbad => exec_serve hw rfl (takeLaneSet_range hbad),
    fun s lane record l cfg hw hl hcfg henabled hrun hraster hrate => ?_⟩
  · refine exec_serve hw rfl ((takeLaneSet_eq (laneOf_eq hl) hcfg).trans ?_)
    rw [if_neg fun h => h.2 hidle, if_pos ⟨henabled, hidle⟩, modLane_modLane]
    rfl
  · refine exec_serve hw rfl ((takeLaneSet_eq (laneOf_eq hl) hcfg).trans ?_)
    rw [if_pos ⟨hchanged, hrun⟩]
    rfl
  · refine exec_serve hw rfl ((takeLaneSet_eq (laneOf_eq hl) hcfg).trans ?_)
    rcases hstored with ⟨henabled, hidle⟩ | ⟨henabled, hrun, hraster, hrate⟩
    · rw [if_neg fun h => h.2 hidle, if_neg (by simp [henabled]), if_neg fun h => h.2 hidle]
      rfl
    · rw [if_neg (by tauto), if_neg fun h => hrun h.2, if_neg (by simp [henabled])]
      rfl
  · have htake : s.takeLaneSet lane record =
        (((s.modLane l fun x => { x with config := cfg }).disabled l).arbitrate, done []) := by
      rw [takeLaneSet_eq (laneOf_eq hl) hcfg, if_neg (by tauto), if_neg (by simp [henabled]),
        if_pos ⟨henabled, hrun⟩, disableLane_eq]
    obtain ⟨hparts, hcancels, hkept⟩ := disabled_configured hraster
    have hlane := disabled_lane (s.modLane l fun x => { x with config := cfg }) l l
    have hclaims := disabled_claims (s.modLane l fun x => { x with config := cfg }) l
    obtain ⟨hcue, hstarved⟩ := disabled_latches (s.modLane l fun x => { x with config := cfg }) l
    have hcuesKept : ((s.modLane l fun x => { x with config := cfg }).lane l).cues = (s.lane l).cues := by
      rw [lane_modLane_same]
    have hstateKept : ((s.modLane l fun x => { x with config := cfg }).lane l).state = (s.lane l).state := by
      rw [lane_modLane_same]
    rw [if_pos rfl, lane_modLane_same] at hlane
    rw [hcuesKept] at hcue
    unfold StarvedEnds at hstarved
    rw [hstateKept] at hstarved
    generalize (s.modLane l fun x => { x with config := cfg }).disabled l = u at *
    have horders := hparts.trans (.arbitrate u l)
    have hafter := hcancels.poolAfter hparts hkept
    have hhalts := hcancels.haltsOnCancel (u := u.arbitrate) fun n => by rw [arbitrate_chan]
    have hrest := arbitrate_rest u
    have hclaimsAfter (n : Channel) : u.arbitrate.claims.get n = if s.claims.get n = some l then none else s.claims.get n := by
      rw [hrest]
      exact hclaims n
    have hunclaimed (n : Channel) (hn : s.claims.get n ≠ some l) : u.arbitrate.chan n = s.chan n := by
      refine (horders.kept n ((hclaimsAfter n).trans (if_neg hn))).trans ?_
      rw [arbitrate_chan, hcancels.state_of_stay fun r hr => by simp [hr, hn]]
    have hattn : u.arbitrate.attn = u.attn := by rw [hrest]
    have hlaneAfter : u.arbitrate.lane l = u.lane l := by rw [hrest]; rfl
    rw [← hattn] at hcue hstarved
    rw [← hlaneAfter] at hlane
    generalize u.arbitrate = t at *
    refine ⟨t.setHandedBack (.laneSet lane record) (done []), exec_serve hw rfl htake, hlane, horders.lanes, hclaimsAfter,
      hafter.of_keepsPool ⟨rfl, rfl⟩, hhalts, ?_, horders.latches, hcue, hstarved, fun n hn => horders.released n ?_,
      hunclaimed, ?_⟩
    · refine horders.attn.trans ?_
      rfl
    · rw [hclaimsAfter, if_pos hn, hn]
      exact nofun
    · rw [horders.rest]
      rfl

end Sys2Proof.Machine
end

