-- ==== Sys2Proof/Proofs/Ticks.lean ====
section
/-! The tick of a lane, put together from its parts (R90, R91, R144): the lane's part, the pool's part, the step judgements,
and the record of a waiting snapshot. -/

namespace Sys2Proof.Machine

/-! ## Step judgements (R90) -/

/-- A RUNNING channel after its step judgement. -/
def Chan.judged (c : Chan) : Chan :=
  { c with
    stepOpen := true
    tally := 0
    noneSteps := if c.stepOpen = true ∧ c.tally = 0 then bump c.noneSteps 1 else c.noneSteps
    doubleSteps := if c.stepOpen = true ∧ 2 ≤ c.tally then bump c.doubleSteps 1 else c.doubleSteps }

/-- The step latch of a channel after its step judgement. -/
def StepLatch.judged (p : StepLatch) (c : Chan) : StepLatch :=
  if c.stepOpen = true ∧ c.tally = 0 then { p with none := true }
  else if c.stepOpen = true ∧ 2 ≤ c.tally then { p with double := true }
  else p

/-- A channel whose step opens, and one with one step in its tally. -/
theorem chan_judged_quiet {c : Chan} (h : c.stepOpen = false ∨ c.tally = 1) :
    c.judged = { c with stepOpen := true, tally := 0 } := by
  unfold Chan.judged
  rcases h with h | h <;> simp [h]

theorem chan_judged_none {c : Chan} (hopen : c.stepOpen = true) (hzero : c.tally = 0) :
    c.judged = { c with noneSteps := bump c.noneSteps 1 } := by
  cases c
  subst hopen hzero
  rfl

theorem chan_judged_double {c : Chan} (hopen : c.stepOpen = true) (htwo : 2 ≤ c.tally) :
    c.judged = { c with tally := 0, doubleSteps := bump c.doubleSteps 1 } := by
  have hzero : c.tally ≠ 0 := by omega
  unfold Chan.judged
  simp [hopen, hzero, htwo]

theorem stepLatch_judged_quiet {p : StepLatch} {c : Chan} (h : c.stepOpen = false ∨ c.tally = 1) : p.judged c = p := by
  unfold StepLatch.judged
  rcases h with h | h <;> simp [h]

theorem judgeStep_rest (s : State) (n : Channel) : s.judgeStep n =
    { s with chans := (s.judgeStep n).chans, attn := { s.attn with step := (s.judgeStep n).attn.step } } := by
  unfold State.judgeStep
  dsimp only
  repeat' split
  all_goals rfl

/-- The four judgements of a channel: none yet, NONE, DOUBLE, and one step. -/
theorem judgeStep_parts (s : State) (n : Channel) :
    (s.judgeStep n).chan n = (s.chan n).judged ∧
    (∀ m : Channel, n ≠ m → (s.judgeStep n).chan m = s.chan m ∧
      (s.judgeStep n).attn.step.get m = s.attn.step.get m) ∧
    (s.judgeStep n).attn.step.get n = (s.attn.step.get n).judged (s.chan n) := by
  unfold State.judgeStep Chan.judged StepLatch.judged
  dsimp only
  split
  · rename_i hclosed
    exact ⟨by simp [hclosed], fun m hm => ⟨chan_modChan_ne s _ hm, rfl⟩, by simp [hclosed]⟩
  · rename_i hopen
    rw [Bool.not_eq_false] at hopen
    split
    · rename_i hzero
      refine ⟨by simp [hopen, hzero], fun m hm => ⟨?_, get_setAt_ne _ _ hm⟩, ?_⟩
      · rw [chan_modAttn_frame, chan_modChan_ne _ _ hm, chan_modChan_ne _ _ hm]
      · rw [if_pos ⟨hopen, hzero⟩]
        exact (get_modifyAt s.attn.step n n _).trans (if_pos rfl)
    · rename_i hzero
      split
      · rename_i htwo
        refine ⟨by simp [hopen, hzero, htwo], fun m hm => ⟨?_, get_setAt_ne _ _ hm⟩, ?_⟩
        · rw [chan_modAttn_frame, chan_modChan_ne _ _ hm, chan_modChan_ne _ _ hm]
        · rw [if_neg fun h => hzero h.2, if_pos ⟨hopen, htwo⟩]
          exact (get_modifyAt s.attn.step n n _).trans (if_pos rfl)
      · rename_i htwo
        exact ⟨by simp [hopen, hzero, htwo], fun m hm => ⟨chan_modChan_ne s _ hm, rfl⟩, by simp [hzero, htwo]⟩

/-- The step judgements of a list of channels. -/
theorem judgeFold_parts (list : List Channel) (hnodup : list.Nodup) (s : State) (n : Channel) :
    (list.foldl (fun s n => if (s.chan n).state = .running then s.judgeStep n else s) s).chan n =
      (if n ∈ list ∧ (s.chan n).state = .running then (s.chan n).judged else s.chan n) ∧
    (list.foldl (fun s n => if (s.chan n).state = .running then s.judgeStep n else s) s).attn.step.get n =
      (if n ∈ list ∧ (s.chan n).state = .running then (s.attn.step.get n).judged (s.chan n) else s.attn.step.get n) := by
  induction list generalizing s with
  | nil => simp
  | cons m list ih =>
    obtain ⟨hnew, hrest⟩ := List.nodup_cons.1 hnodup
    rw [List.foldl_cons]
    obtain ⟨hchan, hstep⟩ := ih hrest (if (s.chan m).state = .running then s.judgeStep m else s)
    obtain ⟨hown, hother, hlatch⟩ := judgeStep_parts s m
    rw [hchan, hstep]
    by_cases hm : m = n
    · subst hm
      simp only [hnew, false_and, if_false, List.mem_cons, true_or, true_and]
      by_cases hrun : (s.chan m).state = .running
      · rw [if_pos hrun, if_pos hrun, if_pos hrun]
        exact ⟨hown, hlatch⟩
      · rw [if_neg hrun, if_neg hrun, if_neg hrun]
        exact ⟨rfl, rfl⟩
    · obtain ⟨hchanKept, hstepKept⟩ := hother n hm
      have hsame : (if (s.chan m).state = .running then s.judgeStep m else s).chan n = s.chan n ∧
          (if (s.chan m).state = .running then s.judgeStep m else s).attn.step.get n = s.attn.step.get n := by
        split
        · exact ⟨hchanKept, hstepKept⟩
        · exact ⟨rfl, rfl⟩
      rw [hsame.1, hsame.2]
      simp only [List.mem_cons, Ne.symm hm, false_or]
      exact ⟨trivial, trivial⟩

theorem claimed_nodup (s : State) (l : LaneId) : (s.claimed l).Nodup := allChannels_nodup.filter _

theorem judgeSteps_chan (s : State) (l : LaneId) (n : Channel) : (s.judgeSteps l).chan n =
    if s.claims.get n = some l ∧ (s.chan n).state = .running then (s.chan n).judged else s.chan n := by
  have h := (judgeFold_parts (s.claimed l) (claimed_nodup s l) s n).1
  simp only [mem_claimed] at h
  exact h

theorem judgeSteps_step (s : State) (l : LaneId) (n : Channel) : (s.judgeSteps l).attn.step.get n =
    if s.claims.get n = some l ∧ (s.chan n).state = .running then (s.attn.step.get n).judged (s.chan n)
    else s.attn.step.get n := by
  have h := (judgeFold_parts (s.claimed l) (claimed_nodup s l) s n).2
  simp only [mem_claimed] at h
  exact h

theorem judgeSteps_rest (s : State) (l : LaneId) : s.judgeSteps l =
    { s with chans := (s.judgeSteps l).chans, attn := { s.attn with step := (s.judgeSteps l).attn.step } } := by
  unfold State.judgeSteps
  refine foldl_rel (R := fun s t => t = { s with chans := t.chans, attn := { s.attn with step := t.attn.step } }) _ _ rfl
    fun u n hu => ?_
  split
  · rw [judgeStep_rest, hu]
  · exact hu

theorem judgeSteps_state (s : State) (l : LaneId) (n : Channel) : ((s.judgeSteps l).chan n).state = (s.chan n).state := by
  rw [judgeSteps_chan]
  split <;> rfl

/-! ## The record of a waiting snapshot (R91) -/

theorem recordSnapshot_rest (s : State) (l : LaneId) : s.recordSnapshot l = { s with
    store := (s.recordSnapshot l).store, link := { s.link with flight := (s.recordSnapshot l).link.flight } } := by
  unfold State.recordSnapshot State.handBackSnapshot State.handBack
  repeat' split
  all_goals rfl

theorem recordSnapshot_chan (s : State) (l : LaneId) (n : Channel) : (s.recordSnapshot l).chan n = s.chan n := by
  rw [recordSnapshot_rest]
  rfl

theorem recordSnapshot_lane (s : State) (l m : LaneId) : (s.recordSnapshot l).lane m = s.lane m := by
  rw [recordSnapshot_rest]
  rfl

theorem recordSnapshot_none {s : State} {l : LaneId} (h : s.store.waiting.map Prod.snd ≠ some l) : s.recordSnapshot l = s := by
  unfold State.recordSnapshot
  split
  · rename_i mask lane hw
    rw [if_neg]
    rintro rfl
    exact h (by rw [hw]; rfl)
  · rfl

/-- The snapshot that lane `l` records. -/
def State.snapshotOf (s : State) (l : LaneId) (mask : Byte) : Snapshot :=
  { lane := l, items := (maskChannels mask).map s.snapshotItem }

theorem recordSnapshot_some {s : State} {l : LaneId} {mask : Byte} (h : s.store.waiting = some (mask, l)) :
    s.recordSnapshot l = { s with store := { snapshot := some (s.snapshotOf l mask), waiting := none } }.handBackSnapshot
      (done []) := by
  unfold State.recordSnapshot
  rw [h]
  exact if_pos rfl

theorem handBackSnapshot_carried {s : State} {mask lane : Byte} (h : s.link.flight = .carried (.syncSnapshot mask lane))
    (res : Result) : s.handBackSnapshot res = s.setHandedBack (.syncSnapshot mask lane) res := by
  unfold State.handBackSnapshot State.handBack
  rw [h]
  rfl

theorem handBackSnapshot_other {s : State} (h : ∀ mask lane : Byte, s.link.flight ≠ .carried (.syncSnapshot mask lane))
    (res : Result) : s.handBackSnapshot res = s := by
  unfold State.handBackSnapshot
  split
  · rename_i mask lane hflight
    exact absurd hflight (h mask lane)
  · rfl

theorem recordSnapshot_flight (s : State) (l : LaneId) :
    (∀ mask lane : Byte, s.link.flight = .carried (.syncSnapshot mask lane) → (s.recordSnapshot l).link.flight =
      if s.store.waiting.map Prod.snd = some l then .handedBack (.syncSnapshot mask lane) (done []) else s.link.flight) ∧
    ((∀ mask lane : Byte, s.link.flight ≠ .carried (.syncSnapshot mask lane)) →
      (s.recordSnapshot l).link.flight = s.link.flight) := by
  by_cases hwaits : s.store.waiting.map Prod.snd = some l
  · obtain ⟨⟨mask, l'⟩, hw, rfl⟩ := Option.map_eq_some_iff.1 hwaits
    rw [recordSnapshot_some hw]
    refine ⟨fun mask' lane hflight => ?_, fun hflight => ?_⟩
    · have hcarried := handBackSnapshot_carried
        (s := { s with store := { snapshot := some (s.snapshotOf l' mask), waiting := none } }) hflight
      rw [if_pos hwaits, hcarried]
      rfl
    · have hother := handBackSnapshot_other
        (s := { s with store := { snapshot := some (s.snapshotOf l' mask), waiting := none } }) hflight
      rw [hother]
  · rw [recordSnapshot_none hwaits]
    exact ⟨fun _ _ _ => (if_neg hwaits).symm, fun _ => rfl⟩

/-! ## The tick as a whole -/

/-- The lane's part and the pool's part of a tick. -/
def State.worked (s : State) (l : LaneId) : State := (s.lanePart l).poolTick l

theorem tick_eq (s : State) (l : LaneId) : s.tick l = ((s.worked l).judgeSteps l).recordSnapshot l := rfl

theorem LaneOrders.worked (s : State) (l : LaneId) : LaneOrders s (s.worked l) l :=
  (LaneOrders.lanePart s l).trans (.poolTick _ l)

section
variable {s u : State} {l : LaneId}

/-- What becomes of a channel at the rest of a tick. -/
theorem judged_chan (n : Channel) : ((u.judgeSteps l).recordSnapshot l).chan n = (u.judgeSteps l).chan n :=
  recordSnapshot_chan _ l n

theorem judged_rest : (u.judgeSteps l).recordSnapshot l = { u with
    chans := ((u.judgeSteps l).recordSnapshot l).chans
    store := ((u.judgeSteps l).recordSnapshot l).store
    link := { u.link with flight := ((u.judgeSteps l).recordSnapshot l).link.flight }
    attn := { u.attn with step := ((u.judgeSteps l).recordSnapshot l).attn.step } } := by
  have hrecord := recordSnapshot_rest (u.judgeSteps l) l
  have hjudge := judgeSteps_rest u l
  generalize (u.judgeSteps l).recordSnapshot l = t at *
  rw [hrecord, hjudge]

theorem judged_attn : ((u.judgeSteps l).recordSnapshot l).attn = { u.attn with step := (u.judgeSteps l).attn.step } := by
  have hattn : ((u.judgeSteps l).recordSnapshot l).attn = (u.judgeSteps l).attn := by rw [recordSnapshot_rest]
  rw [hattn, judgeSteps_rest]

theorem judged_attn_rest : ((u.judgeSteps l).recordSnapshot l).attn =
    { u.attn with step := ((u.judgeSteps l).recordSnapshot l).attn.step } := by
  rw [judged_attn]

theorem judged_claims : ((u.judgeSteps l).recordSnapshot l).claims = u.claims := by rw [judged_rest]

theorem judged_lane (m : LaneId) : ((u.judgeSteps l).recordSnapshot l).lane m = u.lane m := by
  rw [judged_rest]
  rfl

theorem judged_store (h : u.store.waiting.map Prod.snd ≠ some l) : ((u.judgeSteps l).recordSnapshot l).store = u.store := by
  have hstore : (u.judgeSteps l).store = u.store := by rw [judgeSteps_rest]
  rw [recordSnapshot_none (by rw [hstore]; exact h)]
  exact hstore

theorem judged_keepsPool : KeepsPool u ((u.judgeSteps l).recordSnapshot l) := ⟨by rw [judged_rest], by rw [judged_rest]⟩

theorem judged_state (n : Channel) : (((u.judgeSteps l).recordSnapshot l).chan n).state = (u.chan n).state := by
  rw [judged_chan, judgeSteps_state]

theorem judged_flight : 
    (∀ mask lane : Byte, u.link.flight = .carried (.syncSnapshot mask lane) →
      ((u.judgeSteps l).recordSnapshot l).link.flight =
        if u.store.waiting.map Prod.snd = some l then .handedBack (.syncSnapshot mask lane) (done []) else u.link.flight) ∧
    ((∀ mask lane : Byte, u.link.flight ≠ .carried (.syncSnapshot mask lane)) →
      ((u.judgeSteps l).recordSnapshot l).link.flight = u.link.flight) := by
  have hlink : (u.judgeSteps l).link = u.link := by rw [judgeSteps_rest]
  have hstore : (u.judgeSteps l).store = u.store := by rw [judgeSteps_rest]
  have h := recordSnapshot_flight (u.judgeSteps l) l
  rw [hlink, hstore] at h
  exact h

/-- What a tick leaves unchanged, from what its parts before the step judgements leave. -/
theorem tickFrame_of (h : LaneOrders s u l) : TickFrame s ((u.judgeSteps l).recordSnapshot l) l := by
  have hstore : u.store = s.store := by rw [h.rest]
  have hrest := judged_rest (u := u) (l := l)
  have hlane := judged_lane (u := u) (l := l)
  have hclaims := judged_claims (u := u) (l := l)
  have hstates := judged_state (u := u) (l := l)
  have hattn := judged_attn (u := u) (l := l)
  have hflight := judged_flight (u := u) (l := l)
  have hstoreKept := judged_store (u := u) (l := l)
  have hunjudged (n : Channel) (hn : u.claims.get n ≠ some l) :
      ((u.judgeSteps l).recordSnapshot l).chan n = u.chan n ∧ (u.judgeSteps l).attn.step.get n = u.attn.step.get n :=
    ⟨by rw [judged_chan, judgeSteps_chan, if_neg fun hc => hn hc.1], by rw [judgeSteps_step, if_neg fun hc => hn hc.1]⟩
  generalize (u.judgeSteps l).recordSnapshot l = t at *
  have hother (n : Channel) (hn : s.claims.get n ≠ some l) : u.claims.get n = s.claims.get n := by
    rcases h.claims n with hsame | ⟨hown, -⟩
    · exact hsame
    · exact absurd hown hn
  have hstep : u.attn.step = s.attn.step := by rw [h.attn]
  refine ⟨?_, fun m hm => (hlane m).trans (h.lanes m hm), fun n hn => ⟨by rw [hclaims]; exact hother n hn, ?_⟩, fun n hn => ?_,
    fun hw => ?_, ?_, fun m hm => ?_, fun n hn => ?_, fun mask lane hcarried => ?_, fun hnone => ?_⟩
  · rw [hrest, h.rest]
  · rw [(hunjudged n (by rw [hother n hn]; exact hn)).1]
    exact h.kept n (hother n hn)
  · rw [hstates]
    exact h.states hn
  · rw [hstoreKept (by rw [hstore]; exact hw), hstore]
  · rw [hattn, h.attn]
  · obtain ⟨hcue, hstarved, hcond⟩ := h.latches m hm
    rw [hattn]
    exact ⟨hstarved, hcond, hcue⟩
  · rw [hattn]
    exact (hunjudged n (by rw [hother n hn]; exact hn)).2.trans (by rw [hstep])
  · have hkept : u.link.flight = s.link.flight := by
      rcases h.halts.flight with hsame | ⟨m, hhalt, -⟩
      · exact hsame
      · exact absurd (hcarried.symm.trans hhalt) nofun
    have hout := hflight.1 mask lane (hkept.trans hcarried)
    rw [hkept, hstore] at hout
    exact hout
  · have hnone' (mask lane : Byte) : u.link.flight ≠ .carried (.syncSnapshot mask lane) := by
      rcases h.halts.flight with hsame | ⟨m, -, -, hback⟩
      · rw [hsame]
        exact hnone mask lane
      · rw [hback]
        exact nofun
    exact haltAnswered_of_halts (h.halts.of_same hstates (hflight.2 hnone'))

/-- The step judgements of a tick, from what its parts before them leave. -/
theorem stepsJudged_of (h : LaneOrders s u l) : StepsJudged s ((u.judgeSteps l).recordSnapshot l) l := by
  have hclaims := judged_claims (u := u) (l := l)
  have hstates := judged_state (u := u) (l := l)
  have hattn := judged_attn (u := u) (l := l)
  have hchan (n : Channel) := (judged_chan (u := u) (l := l) n).trans (judgeSteps_chan u l n)
  have hlatch := judgeSteps_step u l
  have hstep : u.attn.step = s.attn.step := by rw [h.attn]
  generalize (u.judgeSteps l).recordSnapshot l = t at *
  intro n hn
  rw [hattn, hclaims]
  dsimp only
  rw [hlatch, hstep]
  refine ⟨fun hreleased => ?_, fun hclaim hrun => ?_, fun hclaim hrun => ?_⟩
  · have hnot : ¬(u.claims.get n = some l ∧ (u.chan n).state = .running) := fun hc => hreleased hc.1
    have hout := h.released n (fun hsame => hreleased (hsame.trans hn))
    refine ⟨?_, if_neg hnot⟩
    unfold Released at hout ⊢
    rw [hchan, if_neg hnot]
    exact hout
  · have hnot : ¬(u.claims.get n = some l ∧ (u.chan n).state = .running) := fun ⟨_, hrunning⟩ => by
      rcases h.halting n with hsame | ⟨-, hhalted⟩
      · exact hrun (hsame.symm.trans hrunning)
      · exact absurd (hhalted.symm.trans hrunning) nofun
    rw [hchan, if_neg hnot]
    exact ⟨h.kept n (hclaim.trans hn.symm), if_neg hnot⟩
  · have hsame : u.chan n = s.chan n := by
      rw [h.kept n (hclaim.trans hn.symm), h.states (by rw [hrun]; exact nofun)]
    have hjudged : u.claims.get n = some l ∧ (u.chan n).state = .running := ⟨hclaim, by rw [hsame]; exact hrun⟩
    rw [hchan, if_pos hjudged, hsame, if_pos ⟨hclaim, hrun⟩]
    refine ⟨fun hone => ⟨chan_judged_quiet hone, stepLatch_judged_quiet hone⟩,
      fun hopen hzero => ⟨chan_judged_none hopen hzero, if_pos ⟨hopen, hzero⟩⟩, fun hopen htwo =>
      ⟨chan_judged_double hopen htwo, ?_⟩⟩
    have hzero : ¬((s.chan n).stepOpen = true ∧ (s.chan n).tally = 0) := fun h => by omega
    exact (if_neg hzero).trans (if_pos ⟨hopen, htwo⟩)

end

end Sys2Proof.Machine
end

