-- ==== Sys2Proof/Proofs/Deadlines.lean ====
section
/-! The lane's record and its members in the attention unit along a tick, a SYNC_SNAPSHOT that waits for one (R91), and the
deadlines that fall at one (R132, R144). -/

namespace Sys2Proof.Machine

/-! ## The parts of a tick, one after the other -/

theorem takePart_idle {s : State} {l : LaneId} (h : (s.lane l).state = .idle) : s.takePart l = s := if_pos h

theorem takePart_running {s : State} {l : LaneId} (h : (s.lane l).state ≠ .idle) : s.takePart l = s.takeCheck l := if_neg h

/-- A take check without a cue whose condition holds. -/
theorem takeCheck_none {s : State} {l : LaneId}
    (h : ∀ c : Cue, (s.lane l).cues.head? = some c → (s.lane l).conditionHolds c = false) : s.takeCheck l = s := by
  unfold State.takeCheck
  split
  · rename_i c hc
    rw [if_neg (by rw [h c hc]; exact nofun)]
  · rfl

theorem takeCheck_some {s : State} {l : LaneId} {c : Cue} (hc : (s.lane l).cues.head? = some c)
    (h : (s.lane l).conditionHolds c = true) : s.takeCheck l = s.takeCue l c := by
  unfold State.takeCheck
  rw [hc]
  exact if_pos h

theorem emit_lane (s : State) (l m : LaneId) : (s.emit l).lane m = if l = m then (s.lane m).emit else s.lane m := by
  unfold State.emit
  dsimp only
  rw [← lane_modLane]
  repeat' split
  all_goals rfl

theorem emit_attn (s : State) (l : LaneId) : (s.emit l).attn =
    if (s.lane l).starves then s.attn.beginStarved l
    else if (s.lane l).state = .slateStarved ∧ (s.lane l).programFrames.next.isSome = true then s.attn.endStarved l
    else s.attn := by
  unfold State.emit
  dsimp only
  repeat' split
  all_goals rfl

theorem emit_claims (s : State) (l : LaneId) : (s.emit l).claims = s.claims := by
  unfold State.emit
  dsimp only
  repeat' split
  all_goals rfl

theorem withdrawDue_lane (s : State) (l m : LaneId) : (s.withdrawDue l).lane m =
    if l = m then (s.lane m).countDue (s.queue.countP (dueAt l)) (s.engines.toList.countP (jobDue l)) else s.lane m := by
  unfold State.withdrawDue
  rw [reportEnded_rest]
  exact lane_modLane s l m _

theorem withdrawDue_attn (s : State) (l : LaneId) : (s.withdrawDue l).attn = s.attn := by
  unfold State.withdrawDue
  rw [reportEnded_rest]
  rfl

theorem withdrawDue_claims (s : State) (l : LaneId) : (s.withdrawDue l).claims = s.claims := by
  unfold State.withdrawDue
  rw [reportEnded_rest]
  rfl

theorem poolTick_lane (s : State) (l m : LaneId) : (s.poolTick l).lane m =
    if l = m then (s.lane m).countDue (s.queue.countP (dueAt l)) (s.engines.toList.countP (jobDue l)) else s.lane m := by
  rw [poolTick_eq, arbitrate_rest]
  exact withdrawDue_lane s l m

theorem poolTick_attn (s : State) (l : LaneId) : (s.poolTick l).attn = s.attn := by
  rw [poolTick_eq, arbitrate_rest]
  exact withdrawDue_attn s l

theorem poolTick_claims (s : State) (l : LaneId) : (s.poolTick l).claims = s.claims := by
  rw [poolTick_eq, arbitrate_rest]
  exact withdrawDue_claims s l

/-! ## From the take check to the rest of the tick -/

/-- The lane's part of a tick after its take check. -/
def State.emitPart (s : State) (l : LaneId) : State :=
  if (s.lane l).state = .idle then s else (s.emit l).modLane l Lane.age

/-- A lane that is not IDLE is not made IDLE by its take check. -/
theorem takeChannel_lane (s : State) (l : LaneId) (x : Channel) : (s.takeChannel l x).lane l = (s.lane l).afterTake x := by
  unfold State.takeChannel
  dsimp only
  rw [releaseOld_lane, lane_modLane_same, (endStarvedOf_keepsLanes (reRole_keepsLanes (cancelSource_keepsLanes
    (KeepsLanes.refl s) l) l x) l).lane]

theorem takeSlate_lane (s : State) (l : LaneId) : (s.takeSlate l).lane l = (s.lane l).afterSlateTake := by
  unfold State.takeSlate
  dsimp only
  rw [releaseOld_lane, lane_modLane_same, (endStarvedOf_keepsLanes (cancelSource_keepsLanes (KeepsLanes.refl s) l) l).lane]

/-- The lane's record after a take. -/
def Lane.taken (x : Lane) (c : Cue) : Lane :=
  match c.target with
  | none => x.afterSlateTake
  | some n => if x.source = some n then { x with cues := x.cues.tail } else x.afterTake n

theorem takeCue_lane (s : State) (l : LaneId) (c : Cue) : (s.takeCue l c).lane l = (s.lane l).taken c := by
  unfold State.takeCue Lane.taken
  rw [lane_modAttn_frame]
  cases c.target with
  | none => exact takeSlate_lane s l
  | some n =>
    dsimp only
    split
    · exact lane_modLane_same s l _
    · exact takeChannel_lane s l n

theorem taken_counters (x : Lane) (c : Cue) : (x.taken c).counters = x.counters := by
  unfold Lane.taken
  repeat' split
  all_goals rfl

theorem taken_config (x : Lane) (c : Cue) : (x.taken c).config = x.config := by
  unfold Lane.taken
  repeat' split
  all_goals rfl

theorem taken_running {x : Lane} (h : x.state ≠ .idle) (c : Cue) : (x.taken c).state ≠ .idle := by
  unfold Lane.taken
  repeat' split
  · exact nofun
  · exact h
  · exact nofun

theorem takeCheck_lane (s : State) (l : LaneId) :
    (s.takeCheck l).lane l = s.lane l ∨ ∃ c : Cue, (s.takeCheck l).lane l = (s.lane l).taken c := by
  unfold State.takeCheck
  split
  · split
    · exact .inr ⟨_, takeCue_lane s l _⟩
    · exact .inl rfl
  · exact .inl rfl

/-- What the take check leaves of the lane's record. -/
theorem takePart_lane (s : State) (l : LaneId) : ((s.takePart l).lane l).counters = (s.lane l).counters ∧
    (((s.takePart l).lane l).state = .idle ↔ (s.lane l).state = .idle) := by
  by_cases hidle : (s.lane l).state = .idle
  · rw [takePart_idle hidle]
    exact ⟨rfl, Iff.rfl⟩
  · rw [takePart_running hidle]
    rcases takeCheck_lane s l with h | ⟨c, h⟩
    · rw [h]
      exact ⟨rfl, Iff.rfl⟩
    · rw [h]
      exact ⟨taken_counters _ c, iff_of_false (taken_running hidle c) hidle⟩

theorem lanePart_eq (s : State) (l : LaneId) : s.lanePart l = (s.takePart l).emitPart l := by
  have hidle := (takePart_lane s l).2
  unfold State.emitPart
  by_cases h : (s.lane l).state = .idle
  · rw [lanePart_idle h, if_pos (hidle.2 h), takePart_idle h]
  · rw [lanePart_running h, if_neg fun hi => h (hidle.1 hi), takePart_running h]

theorem LaneOrders.emitPart (s : State) (l : LaneId) : LaneOrders s (s.emitPart l) l := by
  unfold State.emitPart
  split
  · exact .refl s l
  · exact (LaneOrders.emit s l).trans (.modLane _ l _)

theorem LaneOrders.takePart (s : State) (l : LaneId) : LaneOrders s (s.takePart l) l := by
  unfold State.takePart
  split
  · exact .refl s l
  · exact .takeCheck s l

theorem emitPart_keepsPool (s : State) (l : LaneId) : KeepsPool s (s.emitPart l) := by
  unfold State.emitPart
  split
  · exact .refl s
  · exact modLane_keepsPool (emit_keepsPool (.refl s) l) l _

theorem cancels_emitPart (s : State) (l : LaneId) : Cancels s (s.emitPart l) (fun _ => false) id :=
  .of_same (emitPart_keepsPool s l) (LaneOrders.emitPart s l).releaseWaits fun n => by
    unfold State.emitPart
    split
    · rfl
    · exact congrArg (fun v => (Vector.get v n).state) (emit_chans s l)

theorem emitPart_lane (s : State) (l : LaneId) : (s.emitPart l).lane l =
    if (s.lane l).state = .idle then s.lane l else (s.lane l).emit.age := by
  unfold State.emitPart
  split
  · rfl
  · rw [lane_modLane_same, emit_lane, if_pos rfl]

/-- The lane's record at the end of a tick. -/
theorem worked_lane (s : State) (l : LaneId) : (s.worked l).lane l = ((s.takePart l).emitPart l |>.lane l).countDue
    ((s.takePart l).queue.countP (dueAt l)) ((s.takePart l).engines.toList.countP (jobDue l)) := by
  unfold State.worked
  rw [lanePart_eq, poolTick_lane, if_pos rfl, (emitPart_keepsPool _ l).queue, (emitPart_keepsPool _ l).engines]

theorem emit_config (x : Lane) : x.emit.config = x.config := (emit_follows x).config

/-- An emission counts what it emits or holds, and nothing of deadlines. -/
theorem emit_dueCounters (x : Lane) : x.emit.counters.late = x.counters.late ∧ x.emit.counters.cancelled = x.counters.cancelled := by
  unfold Lane.emit
  repeat' split
  all_goals exact ⟨rfl, rfl⟩

theorem emitPart_counters (s : State) (l : LaneId) :
    ((s.emitPart l).lane l).counters.late = (s.lane l).counters.late ∧
      ((s.emitPart l).lane l).counters.cancelled = (s.lane l).counters.cancelled := by
  rw [emitPart_lane]
  split
  · exact ⟨rfl, rfl⟩
  · exact emit_dueCounters _

theorem worked_counters (s : State) (l : LaneId) :
    ((s.worked l).lane l).counters.late =
      bump (s.lane l).counters.late ((s.takePart l).queue.countP (dueAt l)) ∧
    ((s.worked l).lane l).counters.cancelled =
      bump (s.lane l).counters.cancelled ((s.takePart l).engines.toList.countP (jobDue l)) := by
  obtain ⟨hlate, hcancelled⟩ := emitPart_counters (s.takePart l) l
  rw [(takePart_lane s l).1] at hlate hcancelled
  rw [worked_lane]
  unfold Lane.countDue
  dsimp only
  rw [hlate, hcancelled]
  exact ⟨rfl, rfl⟩

/-! ## SYNC_SNAPSHOT (R91) -/

theorem exec_syncSnapshot {s : State} {mask lane : Byte} (hw : s.Waits (.syncSnapshot mask lane)) :
    exec (.syncSnapshot mask lane) s = .next (s.takeSyncSnapshot mask lane) := by
  change Host.Outcome.next _ = _
  rw [reachOwner_launched s _ hw]

/-- Settles O31: the request at its taking, at the end of its wait, and at the tick of its lane. -/
theorem syncSnapshotWaitsAndRecords : Obligations.SyncSnapshotWaitsAndRecords := by
  refine ⟨⟨fun s mask lane l hw hl => ?_, fun s mask lane hw hl => ?_, fun s mask lane l hstore hflight => ?_⟩,
    fun s mask lane l hwaiting hflight => ?_⟩
  · rw [exec_syncSnapshot hw]
    unfold State.takeSyncSnapshot
    rw [laneOf_eq hl]
    refine ⟨fun hidle => congrArg Host.Outcome.next (if_pos hidle), fun hrun hfull => congrArg Host.Outcome.next ?_,
      fun hrun hempty => congrArg Host.Outcome.next ?_⟩
    · exact (if_neg hrun).trans (if_pos (Option.isSome_iff_ne_none.2 hfull))
    · exact ((if_neg hrun).trans (if_neg (by rw [hempty]; exact nofun))).trans (congrArg (fun x => { s with
        store := { snapshot := x, waiting := some (mask, l) }
        link := { s.link with flight := .carried (.syncSnapshot mask lane) } }) hempty)
  · rw [exec_syncSnapshot hw]
    unfold State.takeSyncSnapshot
    rw [laneOf_above hl]
    rfl
  · refine congrArg Host.Outcome.next ((if_pos (by rw [hstore]; rfl)).trans ?_)
    rw [handBackSnapshot_carried (s := { s with store := { s.store with waiting := none } }) hflight, hstore]
    rfl
  · have horders := LaneOrders.worked s l
    have hstore : ((s.worked l).judgeSteps l).store = s.store := by rw [judgeSteps_rest, horders.rest]
    have hlink : ((s.worked l).judgeSteps l).link.flight = .carried (.syncSnapshot mask lane) := by
      rcases horders.halts.flight with hsame | ⟨m, hhalt, -⟩
      · rw [judgeSteps_rest]
        exact hsame.trans hflight
      · exact absurd (hflight.symm.trans hhalt) nofun
    have htick := tick_eq s l
    generalize (s.worked l).judgeSteps l = u at *
    rw [recordSnapshot_some (by rw [hstore]; exact hwaiting), handBackSnapshot_carried
      (s := { u with store := { snapshot := some (u.snapshotOf l mask), waiting := none } }) hlink] at htick
    refine ⟨s.tick l, u.snapshotOf l mask, rfl, by rw [htick]; rfl, by rw [htick]; rfl, rfl, ?_, fun i hi => ?_⟩
    · unfold State.snapshotOf
      rw [List.map_map]
      exact List.map_id _
    · obtain ⟨n, -, rfl⟩ := List.mem_map.1 hi
      rw [htick]
      exact ⟨rfl, rfl⟩

/-! ## Deadlines (R132) -/

/-- A tick's cancellations and starts, after its take check. -/
theorem tick_pool (s : State) (l : LaneId) :
    PoolAfter (s.takePart l) (s.tick l) (dueAt l)
        (fun r => if r.lane = l then { r with distance := r.distance - 1 } else r) ∧
      HaltsOnCancel (s.takePart l) (s.tick l) (dueAt l) := by
  have hcancels : Cancels (s.takePart l) (((s.takePart l).emitPart l).withdrawDue l) (dueAt l) (RenderRequest.nearer l) :=
    ((cancels_emitPart _ l).trans (cancels_withdrawDue _ l)).congr (fun r => by simp [dueOn_eq_dueAt]) fun _ => rfl
  have horders := (LaneOrders.emitPart (s.takePart l) l).trans (.withdrawDue _ l)
  have hraster (m : LaneId) : ((((s.takePart l).emitPart l).withdrawDue l).lane m).config.raster =
      ((s.takePart l).lane m).config.raster := by
    by_cases hm : m = l
    · subst m
      rw [withdrawDue_lane, if_pos rfl, emitPart_lane]
      split
      · rfl
      · exact congrArg LaneConfig.raster (emit_config _)
    · rw [horders.lanes m hm]
  have hafter := hcancels.poolAfter horders hraster
  have htick : s.tick l = (((((s.takePart l).emitPart l).withdrawDue l).arbitrate).judgeSteps l).recordSnapshot l := by
    rw [← poolTick_eq, ← lanePart_eq]
    rfl
  rw [htick]
  exact ⟨hafter.of_keepsPool judged_keepsPool, hcancels.haltsOnCancel fun n => by rw [judged_state, arbitrate_chan]⟩

/-- What is left of a lane in the pool after its tick is at least one tick from its deadline. -/
theorem tick_distance {s : State} {l : LaneId} {q : RenderRequest} (hq : InPool (s.tick l) q) (hl : q.lane = l) :
    1 ≤ q.distance := by
  obtain ⟨r, -, hstay, rfl⟩ := ((tick_pool s l).1.1 q).1 hq
  have hlane : r.lane = l := by
    dsimp only at hl
    split at hl
    · assumption
    · exact hl
  have hdistance : ¬r.distance ≤ 1 := by simpa [dueAt, hlane] using hstay
  have hnearer : r.nearer l = { r with distance := r.distance - 1 } := if_pos hlane
  change 1 ≤ (r.nearer l).distance
  rw [hnearer]
  change 1 ≤ r.distance - 1
  omega

theorem tick_frame (s : State) (l : LaneId) : TickFrame s (s.tick l) l := tickFrame_of (LaneOrders.worked s l)

theorem tick_lane (s : State) (l : LaneId) : (s.tick l).lane l = (s.worked l).lane l := judged_lane l

/-- Settles O37: the deadlines that fall at a lane's tick. -/
theorem deadlinesWithdrawAndCancel : Obligations.DeadlinesWithdrawAndCancel := by
  refine ⟨⟨fun s l r hr hlane hdistance => ?_, fun s l e j hj hlane hdistance => ?_⟩, fun s l => ⟨s.tick l, rfl, tick_pool s l⟩,
    fun s l hquiet => ?_⟩
  · have hdue : (s.takePart l).queue.any (fun q => q.channel == r.channel && q.dueOn l) = true :=
      List.any_eq_true.2 ⟨r, hr, by simp [RenderRequest.dueOn, hlane, hdistance]⟩
    refine ⟨s.tick l, congrArg Host.Outcome.next (if_pos hdue), rfl, tick_frame s l, ?_, fun q hq hl => tick_distance (.inl hq) hl⟩
    rw [tick_lane]
    exact (worked_counters s l).1
  · have hdue : jobDue l ((s.takePart l).engines.get e) = true := by
      rw [hj]
      simp [jobDue, RenderRequest.dueOn, hlane, hdistance]
    refine ⟨s.tick l, congrArg Host.Outcome.next (if_pos hdue), rfl, tick_frame s l, ?_,
      fun f i hi hl => tick_distance (.inr ⟨f, i, hi, rfl⟩) hl⟩
    rw [tick_lane]
    exact (worked_counters s l).2
  · rcases hquiet with hidle | hnone
    · exact takePart_idle hidle
    · unfold State.takePart
      split
      · rfl
      · exact takeCheck_none hnone

end Sys2Proof.Machine
end

