-- ==== Sys2Proof/Proofs/Emissions.lean ====
section
/-! Ticks that take no cue: what the lane emits by its state, and what the attention unit hears of it (R143 to R146, R148). -/

namespace Sys2Proof.Machine

/-! ## Emission by state -/

section
variable {x : Lane}

theorem emit_fresh {f : Frame} (hstate : x.state = .program ∨ x.state = .slateStarved) (hnext : x.programFrames.next = some f) :
    x.emit = x.emitFresh f := by
  unfold Lane.emit
  rw [hnext]
  rcases hstate with h | h <;> rw [h]

theorem emit_hold (hstate : x.state = .program) (hnext : x.programFrames.next = none) : x.emit = x.hold := by
  unfold Lane.emit
  rw [hnext, hstate]

theorem emit_noProgram (hstate : x.state = .slateNoProgram) : x.emit = { x with output := x.slateOutput } := by
  unfold Lane.emit
  rw [hstate]

theorem emit_starved (hstate : x.state = .slateStarved) (hnext : x.programFrames.next = none) : x.emit =
    { x with counters := { x.counters with held := bump x.counters.held 1 }, output := x.slateOutput } := by
  unfold Lane.emit
  rw [hnext, hstate]

theorem slateOutput_sampled {r : SlateRecord} (h : x.sampledSlate = some r) : x.slateOutput = .slate r x.config.raster := by
  unfold Lane.slateOutput
  rw [h]

theorem repeatOutput_last {f : Frame} (h : x.lastFrame = some f) : x.repeatOutput = .frame f := by
  unfold Lane.repeatOutput
  rw [h]

/-- A tick starves the lane exactly when, in PROGRAM and without a frame, it brings the hold count to the limit. -/
theorem starves_iff (x : Lane) : x.starves = true ↔
    x.state = .program ∧ x.programFrames.next = none ∧ x.config.holdLimit ≤ x.holdCount + 1 := by
  unfold Lane.starves
  simp [and_assoc]

theorem starves_eq_false (h : ¬(x.state = .program ∧ x.programFrames.next = none ∧ x.config.holdLimit ≤ x.holdCount + 1)) :
    x.starves = false := by
  rw [← Bool.not_eq_true, starves_iff]
  exact h

/-- A hold within the limit, and the one that reaches it. -/
theorem hold_within {f : Frame} (hlast : x.lastFrame = some f) (hstarves : x.starves = false) : x.hold =
    { x with
      output := .frame f
      holdCount := x.holdCount + 1
      counters := { x.counters with held := bump x.counters.held 1 } } := by
  unfold Lane.hold
  rw [repeatOutput_last hlast, hstarves]
  rfl

theorem hold_limit {f : Frame} (hlast : x.lastFrame = some f) (hstarves : x.starves = true) : x.hold =
    { x with
      state := .slateStarved
      output := .frame f
      sampledSlate := some x.config.slate
      holdCount := x.holdCount + 1
      counters := { x.counters with held := bump x.counters.held 1 } } := by
  unfold Lane.hold
  rw [repeatOutput_last hlast, hstarves]
  rfl

end

/-! ## Ticks without a take -/

/-- Whether the head cue, if there is one, is not taken. -/
def State.Quiet (s : State) (l : LaneId) : Prop :=
  ∀ c : Cue, (s.lane l).cues.head? = some c → (s.lane l).conditionHolds c = false

section
variable {s : State} {l : LaneId}

theorem takePart_quiet (h : s.Quiet l) : s.takePart l = s := by
  unfold State.takePart
  split
  · rfl
  · exact takeCheck_none h

theorem emitPart_claims (s : State) (l : LaneId) : (s.emitPart l).claims = s.claims := by
  unfold State.emitPart
  split
  · rfl
  · exact emit_claims s l

theorem tick_claims (s : State) (l : LaneId) : (s.tick l).claims = (s.takePart l).claims := by
  have hworked : (s.worked l).claims = (s.takePart l).claims := by
    unfold State.worked
    rw [poolTick_claims, lanePart_eq, emitPart_claims]
  rw [tick_eq, judged_claims, hworked]

/-- A tick changes the lane's members in the attention unit at the take check and at the emission. -/
theorem tick_attn (s : State) (l : LaneId) :
    (s.tick l).attn = { ((s.takePart l).emitPart l).attn with step := (s.tick l).attn.step } := by
  have hworked : (s.worked l).attn = ((s.takePart l).emitPart l).attn := by
    unfold State.worked
    rw [poolTick_attn, lanePart_eq]
  rw [← hworked, tick_eq]
  exact judged_attn_rest (u := s.worked l)

theorem tick_lane_eq (s : State) (l : LaneId) : (s.tick l).lane l = (((s.takePart l).emitPart l).lane l).countDue
    ((s.takePart l).queue.countP (dueAt l)) ((s.takePart l).engines.toList.countP (jobDue l)) :=
  (tick_lane s l).trans (worked_lane s l)

/-- The lane after a tick in which it took no cue. -/
theorem quiet_lane (h : s.Quiet l) (hrun : (s.lane l).state ≠ .idle) : (s.tick l).lane l =
    (s.lane l).emit.age.countDue (s.queue.countP (dueAt l)) (s.engines.toList.countP (jobDue l)) := by
  rw [tick_lane_eq, takePart_quiet h, emitPart_lane, if_neg hrun]

theorem quiet_claims (h : s.Quiet l) : (s.tick l).claims = s.claims := by
  rw [tick_claims, takePart_quiet h]

theorem quiet_attn (h : s.Quiet l) (hrun : (s.lane l).state ≠ .idle) : (s.tick l).attn =
    { (if (s.lane l).starves then s.attn.beginStarved l
      else if (s.lane l).state = .slateStarved ∧ (s.lane l).programFrames.next.isSome = true then s.attn.endStarved l
      else s.attn : Attn) with step := (s.tick l).attn.step } := by
  have hemit : (s.emitPart l).attn = (s.emit l).attn := by
    unfold State.emitPart
    rw [if_neg hrun]
    rfl
  rw [tick_attn, takePart_quiet h, hemit, emit_attn]

/-- A tick that neither starves the lane nor ends its starved condition. -/
theorem quiet_latches (h : s.Quiet l) (hrun : (s.lane l).state ≠ .idle) (hstarves : (s.lane l).starves = false)
    (hends : ¬((s.lane l).state = .slateStarved ∧ (s.lane l).programFrames.next.isSome = true)) :
    LaneLatchesKept s (s.tick l) l := by
  have hattn := quiet_attn h hrun
  rw [hstarves, if_neg nofun, if_neg hends] at hattn
  rw [LaneLatchesKept, hattn]
  exact ⟨rfl, rfl, rfl⟩

theorem idle_latches (hidle : (s.lane l).state = .idle) : LaneLatchesKept s (s.tick l) l := by
  have hattn := tick_attn s l
  rw [takePart_idle hidle, State.emitPart, if_pos hidle] at hattn
  rw [LaneLatchesKept, hattn]
  exact ⟨rfl, rfl, rfl⟩

/-- A fresh frame in PROGRAM. -/
theorem emitFresh_program {x : Lane} (hstate : x.state = .program) (f : Frame) (late cancelled : Nat) :
    (x.emitFresh f).age.countDue late cancelled = { x with
      output := .frame f
      lastFrame := some f
      holdCount := 0
      programFrames := { next := x.programFrames.after, after := none }
      armedFrames := { next := x.armedFrames.after, after := none }
      counters := ((x.emitFresh f).age.countDue late cancelled).counters } := by
  cases x
  subst hstate
  rfl

end

/-- Settles O38: by the lane's state. -/
theorem tickEmitsOrHolds : Obligations.TickEmitsOrHolds := by
  refine ⟨fun s l hstate hquiet => ⟨fun f hnext => ?fresh, fun f hnext hlast hlimit => ?hold⟩, fun s l hidle => ?idle,
    fun s l hrun => ⟨s.tick l, rfl, tick_frame s l, stepsJudged_of (LaneOrders.worked s l), quiet_claims⟩⟩
  case fresh =>
    have hrun : (s.lane l).state ≠ .idle := by rw [hstate]; exact nofun
    have hlane := quiet_lane hquiet hrun
    rw [emit_fresh (.inl hstate) hnext] at hlane
    refine ⟨s.tick l, rfl, tick_frame s l, quiet_latches hquiet hrun (starves_eq_false (by rw [hnext]; exact fun h => nomatch h.2.1))
      (fun h => absurd (hstate.symm.trans h.1) nofun), quiet_claims hquiet, ?_, ?_, ?_⟩
    · rw [hlane]
      exact emitFresh_program hstate f _ _
    · rw [hlane]
      rfl
    · rw [hlane]
      rfl
  case hold =>
    have hrun : (s.lane l).state ≠ .idle := by rw [hstate]; exact nofun
    have hstarves : (s.lane l).starves = false := starves_eq_false fun h => absurd h.2.2 (Nat.not_le.2 hlimit)
    have hlane := quiet_lane hquiet hrun
    rw [emit_hold hstate hnext, hold_within hlast hstarves] at hlane
    refine ⟨s.tick l, rfl, tick_frame s l, quiet_latches hquiet hrun hstarves
      (fun h => absurd (hstate.symm.trans h.1) nofun), quiet_claims hquiet, ?_, ?_, ?_⟩
    · rw [hlane]
      rfl
    · rw [hlane]
      rfl
    · rw [hlane]
      rfl
  case idle =>
    have hlane := tick_lane_eq s l
    rw [takePart_idle hidle, emitPart_lane, if_pos hidle] at hlane
    refine ⟨s.tick l, rfl, tick_frame s l, idle_latches hidle, (tick_claims s l).trans (by rw [takePart_idle hidle]), ?_, ?_, ?_⟩
    · rw [hlane]
      rfl
    · rw [hlane]
      rfl
    · rw [hlane]
      rfl

/-- Settles O39: the tick that starves, and the ticks in SLATE. -/
theorem starvationShowsSlate : Obligations.StarvationShowsSlate := by
  refine ⟨fun s l f hstate hquiet hnext hlast hlimit => ?starves, fun s l hquiet => ⟨fun r hstate hslate => ?noProgram,
    fun f hstate hnext => ?returns, fun r hstate hnext hslate => ?starved⟩⟩
  case starves =>
    have hrun : (s.lane l).state ≠ .idle := by rw [hstate]; exact nofun
    have hstarves : (s.lane l).starves = true := (starves_iff _).2 ⟨hstate, hnext, hlimit⟩
    have hlane := quiet_lane hquiet hrun
    rw [emit_hold hstate hnext, hold_limit hlast hstarves] at hlane
    have hattn := quiet_attn hquiet hrun
    rw [if_pos hstarves] at hattn
    refine ⟨s.tick l, congrArg Host.Outcome.next (if_pos (by rw [takePart_quiet hquiet]; exact hstarves)), rfl, tick_frame s l,
      quiet_claims hquiet, ?_, ?_, ?_, ?_, ?_, ?_⟩
    · rw [hlane]
      rfl
    · rw [hlane]
      rfl
    · rw [hlane]
      rfl
    · rw [hattn]
      exact get_setAt_same ..
    · rw [hattn]
      exact get_setAt_same ..
    · rw [hattn]
      rfl
  case noProgram =>
    have hrun : (s.lane l).state ≠ .idle := by rw [hstate]; exact nofun
    have hlane := quiet_lane hquiet hrun
    rw [emit_noProgram hstate, slateOutput_sampled hslate] at hlane
    refine ⟨s.tick l, rfl, tick_frame s l, quiet_latches hquiet hrun
      (starves_eq_false fun h => absurd (hstate.symm.trans h.1) nofun) (fun h => absurd (hstate.symm.trans h.1) nofun),
      quiet_claims hquiet, ?_, ?_, ?_⟩
    · rw [hlane]
      rfl
    · rw [hlane]
      rfl
    · rw [hlane]
      rfl
  case returns =>
    have hrun : (s.lane l).state ≠ .idle := by rw [hstate]; exact nofun
    have hstarves : (s.lane l).starves = false := starves_eq_false fun h => absurd (hstate.symm.trans h.1) nofun
    have hlane := quiet_lane hquiet hrun
    rw [emit_fresh (.inr hstate) hnext] at hlane
    have hattn := quiet_attn hquiet hrun
    rw [hstarves, if_neg nofun, if_pos ⟨hstate, by rw [hnext]; rfl⟩] at hattn
    have hends := endStarvedOf_attn s l
    rw [if_pos hstate] at hends
    refine ⟨s.tick l, rfl, tick_frame s l, quiet_claims hquiet, ?_, ?_, ?_, starvedEnds_of ?_ ?_, ?_⟩
    · rw [hlane]
      rfl
    · rw [hlane]
      rfl
    · rw [hlane]
      rfl
    · rw [hattn, hends]
    · rw [hattn, hends]
    · rw [hattn]
      rfl
  case starved =>
    have hrun : (s.lane l).state ≠ .idle := by rw [hstate]; exact nofun
    have hlane := quiet_lane hquiet hrun
    rw [emit_starved hstate hnext, slateOutput_sampled hslate] at hlane
    refine ⟨s.tick l, rfl, tick_frame s l, quiet_latches hquiet hrun
      (starves_eq_false fun h => absurd (hstate.symm.trans h.1) nofun) (fun h => absurd h.2 (by rw [hnext]; exact nofun)),
      quiet_claims hquiet, ?_, ?_, ?_⟩
    · rw [hlane]
      rfl
    · rw [hlane]
      rfl
    · rw [hlane]
      rfl

end Sys2Proof.Machine
end

