-- ==== Sys2Proof/Proofs/Takes.lean ====
section
/-! Ticks that take a cue (R149, R154 to R156): to another channel, to SLATE, and to the program source itself. -/

namespace Sys2Proof.Machine

/-! ## What a take leaves -/

section
variable (s : State) (l : LaneId)

theorem cancelSource_lane (m : LaneId) : (s.cancelSource l).lane m = s.lane m :=
  (cancelSource_keepsLanes (KeepsLanes.refl s) l).lane m

theorem cancelSource_attn : (s.cancelSource l).attn = s.attn := by
  unfold State.cancelSource
  split
  · exact cancelByRole_attn ..
  · rfl

theorem cancelSource_claims : (s.cancelSource l).claims = s.claims :=
  (cancelSource_keepsLanes (KeepsLanes.refl s) l).claims

theorem endStarvedOf_claims : (s.endStarvedOf l).claims = s.claims := by
  unfold State.endStarvedOf
  split <;> rfl

theorem takeChannel_attn (x : Channel) : (s.takeChannel l x).attn = (s.endStarvedOf l).attn := by
  unfold State.takeChannel
  dsimp only
  rw [releaseOld_attn, modLane_attn, endStarvedOf_attn, endStarvedOf_attn]
  change (if ((s.cancelSource l).lane l).state = .slateStarved then (s.cancelSource l).attn.endStarved l
    else (s.cancelSource l).attn) = _
  rw [cancelSource_lane, cancelSource_attn]

theorem takeSlate_attn : (s.takeSlate l).attn = (s.endStarvedOf l).attn := by
  unfold State.takeSlate
  dsimp only
  rw [releaseOld_attn, modLane_attn, endStarvedOf_attn, endStarvedOf_attn, cancelSource_lane, cancelSource_attn]

theorem takeChannel_claims (x n : Channel) : (s.takeChannel l x).claims.get n =
    if (s.lane l).source = some n ∧ s.claims.get n = some l ∧ ((s.lane l).afterTake x).needs n = false then none
    else s.claims.get n := by
  unfold State.takeChannel
  dsimp only
  rw [releaseOld_claims, modLane_claims, endStarvedOf_claims, lane_modLane_same,
    (endStarvedOf_keepsLanes (reRole_keepsLanes (cancelSource_keepsLanes (KeepsLanes.refl s) l) l x) l).lane,
    (reRole_keepsLanes (KeepsLanes.refl _) l x).claims, cancelSource_claims]

theorem takeSlate_claims (n : Channel) : (s.takeSlate l).claims.get n =
    if (s.lane l).source = some n ∧ s.claims.get n = some l ∧ (s.lane l).afterSlateTake.needs n = false then none
    else s.claims.get n := by
  unfold State.takeSlate
  dsimp only
  rw [releaseOld_claims, modLane_claims, endStarvedOf_claims, lane_modLane_same,
    (endStarvedOf_keepsLanes (cancelSource_keepsLanes (KeepsLanes.refl s) l) l).lane, cancelSource_claims]

theorem cancels_takeChannel (x : Channel) :
    Cancels s (s.takeChannel l x) (namedBy l (s.lane l).source .program) (RenderRequest.reRole l x) :=
  (((((cancels_cancelSource s l).trans (cancels_reRole _ l x)).trans (cancels_endStarvedOf _ l)).trans
    (cancels_modLane _ l _)).trans (cancels_releaseOld _ l _)).congr (fun r => by simp) fun _ => rfl

theorem cancels_takeSlate : Cancels s (s.takeSlate l) (namedBy l (s.lane l).source .program) id :=
  ((((cancels_cancelSource s l).trans (cancels_endStarvedOf _ l)).trans (cancels_modLane _ l _)).trans
    (cancels_releaseOld _ l _)).congr (fun r => by simp) fun _ => rfl

end

/-! ## The pool at a tick with a take -/

section
variable {s : State} {l : LaneId} {gone : RenderRequest → Bool} {moved : RenderRequest → RenderRequest}

theorem takePart_raster (s : State) (l m : LaneId) : ((s.takePart l).lane m).config = (s.lane m).config := by
  by_cases hm : m = l
  · subst m
    by_cases hidle : (s.lane l).state = .idle
    · rw [takePart_idle hidle]
    · rw [takePart_running hidle]
      rcases takeCheck_lane s l with h | ⟨c, h⟩
      · rw [h]
      · rw [h, taken_config]
  · rw [(LaneOrders.takePart s l).lanes m hm]

theorem worked_config (s : State) (l m : LaneId) : (((s.lanePart l).withdrawDue l).lane m).config = (s.lane m).config := by
  rw [lanePart_eq]
  by_cases hm : m = l
  · subst m
    rw [withdrawDue_lane, if_pos rfl, emitPart_lane]
    refine Eq.trans ?_ (takePart_raster s l l)
    split
    · rfl
    · exact emit_config _
  · rw [((LaneOrders.emitPart (s.takePart l) l).trans (.withdrawDue _ l)).lanes m hm, takePart_raster]

/-- The orders of a take and the deadlines of its tick, as one removal served by the arbiter. -/
theorem tick_pool_of_take (h : Cancels s (s.takePart l) gone moved) :
    PoolAfter s (s.tick l) (fun r => gone r || dueAt l (moved r)) (fun r => (moved r).nearer l) ∧
      HaltsOnCancel s (s.tick l) (fun r => gone r || dueAt l (moved r)) := by
  have hcancels : Cancels s ((s.lanePart l).withdrawDue l) (fun r => gone r || dueAt l (moved r)) fun r => (moved r).nearer l := by
    rw [lanePart_eq]
    exact ((h.trans (cancels_emitPart _ l)).trans (cancels_withdrawDue _ l)).congr (fun r => by simp [dueOn_eq_dueAt]) fun _ => rfl
  have hafter := hcancels.poolAfter ((LaneOrders.lanePart s l).trans (.withdrawDue _ l))
    fun m => congrArg LaneConfig.raster (worked_config s l m)
  have htick : s.tick l = ((((s.lanePart l).withdrawDue l).arbitrate).judgeSteps l).recordSnapshot l := rfl
  rw [htick]
  exact ⟨hafter.of_keepsPool judged_keepsPool, hcancels.haltsOnCancel fun n => by rw [judged_state, arbitrate_chan]⟩

/-- The engines a removal leaves, as a list. -/
theorem PoolLeft.engines_toList {u : State} (h : PoolLeft s u gone moved) : u.engines.toList =
    s.engines.toList.map fun o => (o.filter fun j => !gone j.request).map fun j => { j with request := moved j.request } := by
  rw [← Vector.toList_map]
  refine congrArg Vector.toList (Vector.ext fun i hi => ?_)
  rw [Vector.getElem_map]
  exact h.engines ⟨i, hi⟩

/-- The counts of a tick, when a take's orders go before them. -/
theorem take_counts (h : Cancels s (s.takePart l) gone moved) (hlane : ∀ r : RenderRequest, (moved r).lane = r.lane)
    (hdistance : ∀ r : RenderRequest, (moved r).distance = r.distance) :
    (s.takePart l).queue.countP (dueAt l) = (s.queue.countP fun r => dueAt l r && !gone r) ∧
      (s.takePart l).engines.toList.countP (jobDue l) =
        s.engines.toList.countP fun o => o.any fun j => dueAt l j.request && !gone j.request := by
  have hdue (r : RenderRequest) : dueAt l (moved r) = dueAt l r := by
    unfold dueAt
    rw [hlane, hdistance]
  refine ⟨?_, ?_⟩
  · rw [h.pool.queue, List.countP_map, List.countP_filter]
    exact List.countP_congr fun r _ => by simp [hdue]
  · rw [h.pool.engines_toList, List.countP_map]
    refine List.countP_congr fun o _ => ?_
    cases o with
    | none => simp [jobDue]
    | some j =>
      cases hgone : gone j.request <;> simp [hgone, jobDue, Option.filter, ← dueOn_eq_dueAt] 
      rw [dueOn_eq_dueAt, hdue]

end

/-! ## A cue to the program source (R156) -/

/-- What a take of the program source does: the cue leaves, and CUE is latched. -/
def State.cueTaken (s : State) (l : LaneId) (rest : List Cue) : State :=
  (s.modLane l fun x => { x with cues := rest }).modAttn fun a => a.latchTaken l

section
variable (s : State) (l : LaneId) (rest : List Cue)

theorem cueTaken_lane (m : LaneId) : (s.cueTaken l rest).lane m =
    if l = m then { s.lane m with cues := rest } else s.lane m := lane_modLane s l m _

/-- An update of the lane that does not look at its cues. -/
theorem cueTaken_modLane {f : Lane → Lane} (hf : ∀ x : Lane, f { x with cues := rest } = { f x with cues := rest }) :
    (s.cueTaken l rest).modLane l f = (s.modLane l f).cueTaken l rest := by
  have h := modLane_modLane s l (fun x => { x with cues := rest }) f
  have k := modLane_modLane s l f fun x => { x with cues := rest }
  simp only [hf] at h
  exact congrArg (fun v => v.modAttn fun a => a.latchTaken l) (h.trans k.symm)

theorem emit_cues (x : Lane) : ({ x with cues := rest } : Lane).emit = { x.emit with cues := rest } := by
  unfold Lane.emit
  dsimp only
  split <;> rfl

theorem cueTaken_emit : (s.cueTaken l rest).emit l = (s.emit l).cueTaken l rest := by
  have hlane : (s.cueTaken l rest).lane l = { s.lane l with cues := rest } := (cueTaken_lane s l rest l).trans (if_pos rfl)
  have hmod := cueTaken_modLane s l rest (f := Lane.emit) (emit_cues rest)
  unfold State.emit
  rw [hlane, hmod]
  change (if (s.lane l).starves = true then _ else if (s.lane l).state = .slateStarved ∧
    (s.lane l).programFrames.next.isSome = true then _ else _) = _
  dsimp only
  repeat' split
  all_goals rfl

theorem cueTaken_emitPart : (s.cueTaken l rest).emitPart l = (s.emitPart l).cueTaken l rest := by
  have hstate : ((s.cueTaken l rest).lane l).state = (s.lane l).state := by
    rw [cueTaken_lane, if_pos rfl]
  unfold State.emitPart
  rw [hstate, cueTaken_emit, cueTaken_modLane _ l rest (f := Lane.age) fun _ => rfl]
  split <;> rfl

theorem cueTaken_handBack (res : Result) : (s.cueTaken l rest).handBack res = (s.handBack res).cueTaken l rest := by
  have hlink : (s.cueTaken l rest).link = s.link := rfl
  unfold State.handBack
  rw [hlink]
  split <;> rfl

theorem cueTaken_handBackSnapshot (res : Result) :
    (s.cueTaken l rest).handBackSnapshot res = (s.handBackSnapshot res).cueTaken l rest := by
  have hlink : (s.cueTaken l rest).link = s.link := rfl
  unfold State.handBackSnapshot
  rw [hlink]
  split
  · exact cueTaken_handBack s l rest res
  · rfl

theorem cueTaken_haltCheck : (s.cueTaken l rest).haltCheck = s.haltCheck.cueTaken l rest := by
  have hlink : (s.cueTaken l rest).link = s.link := rfl
  have hchan (n : Channel) : (s.cueTaken l rest).chan n = s.chan n := rfl
  unfold State.haltCheck
  simp only [hlink, hchan, cueTaken_handBack]
  split
  · split <;> rfl
  · rfl

theorem cueTaken_report (n : Channel) : (s.cueTaken l rest).report n = (s.report n).cueTaken l rest := by
  have hchan : (s.cueTaken l rest).chan n = s.chan n := rfl
  unfold State.report
  rw [hchan]
  split
  · exact cueTaken_haltCheck (s.modChan n fun c => { c with state := .halted }) l rest
  · rfl

/-- A fold of steps that each go before the take as after it. -/
theorem foldl_cueTaken {α : Type} {f g : State → α → State}
    (h : ∀ (u : State) (a : α), f (u.cueTaken l rest) a = (g u a).cueTaken l rest) (list : List α) :
    list.foldl f (s.cueTaken l rest) = (list.foldl g s).cueTaken l rest := by
  induction list generalizing s with
  | nil => rfl
  | cons a list ih => rw [List.foldl_cons, List.foldl_cons, h, ih]

theorem cueTaken_reportEnded (before : State) :
    (s.cueTaken l rest).reportEnded (before.cueTaken l rest) = (s.reportEnded before).cueTaken l rest := by
  refine foldl_cueTaken s l rest (fun u n => ?_) allChannels
  have hflight : (u.cueTaken l rest).inFlight n = u.inFlight n := rfl
  have hbefore : (before.cueTaken l rest).inFlight n = before.inFlight n := rfl
  rw [hflight, hbefore, cueTaken_report]
  split <;> rfl

theorem cueTaken_makeJob (r : RenderRequest) : (s.cueTaken l rest).makeJob r = s.makeJob r := by
  have hconfig : ((s.cueTaken l rest).lane r.lane).config = (s.lane r.lane).config := by
    rw [cueTaken_lane]
    split <;> rfl
  exact makeJob_of_same rfl rfl rfl (congrArg LaneConfig.raster hconfig)

theorem cueTaken_startOne : (s.cueTaken l rest).startOne = s.startOne.cueTaken l rest := by
  have hidle : (s.cueTaken l rest).idleEngine = s.idleEngine := rfl
  have hqueue : (s.cueTaken l rest).queue = s.queue := rfl
  unfold State.startOne
  simp only [hidle, hqueue, cueTaken_makeJob]
  split <;> rfl

theorem cueTaken_arbitrate : (s.cueTaken l rest).arbitrate = s.arbitrate.cueTaken l rest := by
  unfold State.arbitrate
  rw [cueTaken_startOne, cueTaken_startOne, cueTaken_startOne]

theorem cueTaken_poolTick : (s.cueTaken l rest).poolTick l = (s.poolTick l).cueTaken l rest := by
  have hcount := cueTaken_modLane s l rest
    (f := fun x => x.countDue (s.queue.countP (RenderRequest.dueOn l)) (s.engines.toList.countP (jobDue l))) fun _ => rfl
  have hqueue : (s.cueTaken l rest).queue = s.queue := rfl
  have hengines : (s.cueTaken l rest).engines = s.engines := rfl
  have hprune (v : State) (p : RenderRequest → Bool) : (((v.cueTaken l rest).dropQueued p).cancelJobs p).advanceDeadlines l =
      (((v.dropQueued p).cancelJobs p).advanceDeadlines l).cueTaken l rest := rfl
  have hwithdraw : (s.cueTaken l rest).withdrawDue l = (s.withdrawDue l).cueTaken l rest := by
    unfold State.withdrawDue
    rw [hqueue, hengines, hcount, hprune, cueTaken_reportEnded]
  rw [poolTick_eq, hwithdraw, cueTaken_arbitrate, poolTick_eq]

theorem cueTaken_judgeStep (n : Channel) : (s.cueTaken l rest).judgeStep n = (s.judgeStep n).cueTaken l rest := by
  have hchan : (s.cueTaken l rest).chan n = s.chan n := rfl
  unfold State.judgeStep
  rw [hchan]
  dsimp only
  repeat' split
  all_goals rfl

theorem cueTaken_judgeSteps : (s.cueTaken l rest).judgeSteps l = (s.judgeSteps l).cueTaken l rest := by
  have hclaimed : (s.cueTaken l rest).claimed l = s.claimed l := rfl
  unfold State.judgeSteps
  rw [hclaimed]
  refine foldl_cueTaken s l rest (fun u n => ?_) _
  have hchan : (u.cueTaken l rest).chan n = u.chan n := rfl
  rw [hchan, cueTaken_judgeStep]
  split <;> rfl

theorem cueTaken_recordSnapshot : (s.cueTaken l rest).recordSnapshot l = (s.recordSnapshot l).cueTaken l rest := by
  by_cases hwaits : s.store.waiting.map Prod.snd = some l
  · obtain ⟨⟨mask, l'⟩, hw, rfl⟩ := Option.map_eq_some_iff.1 hwaits
    rw [recordSnapshot_some hw, recordSnapshot_some (s := s.cueTaken l' rest) hw]
    exact cueTaken_handBackSnapshot { s with store := { snapshot := some (s.snapshotOf l' mask), waiting := none } } l' rest
      (done [])
  · rw [recordSnapshot_none hwaits, recordSnapshot_none (s := s.cueTaken l rest) hwaits]

/-- The rest of a tick after a take of the program source is that of a lane without cues. -/
theorem tick_of_cueTaken {v : State} (hs : s.takePart l = v.cueTaken l rest) (hv : v.takePart l = v) :
    s.tick l = (v.tick l).cueTaken l rest := by
  rw [tick_eq, tick_eq]
  unfold State.worked
  rw [lanePart_eq, lanePart_eq, hs, hv, cueTaken_emitPart, cueTaken_poolTick, cueTaken_judgeSteps, cueTaken_recordSnapshot]

end

/-! ## Conditions of a head cue (R154) -/

theorem conditionHolds_slate {x : Lane} {c : Cue} (h : c.target = none) : x.conditionHolds c = true := by
  unfold Lane.conditionHolds
  rw [h]

theorem conditionHolds_source {x : Lane} {c : Cue} {n : Channel} (h : c.target = some n) (hsource : x.source = some n) :
    x.conditionHolds c = true := by
  unfold Lane.conditionHolds
  rw [h, hsource]
  simp

theorem conditionHolds_armed {x : Lane} {c : Cue} {n : Channel} {f : Frame} (h : c.target = some n)
    (harmed : x.armedFrames.next = some f)
    (htrigger : ∀ number : FieldNum, c.trigger = .atField number → number.toNat ≤ f.number.toNat) :
    x.conditionHolds c = true := by
  have hmet : c.trigger.metBy f = true := by
    unfold Trigger.metBy
    split
    · rfl
    · rename_i number hnumber
      exact decide_eq_true (htrigger number hnumber)
  unfold Lane.conditionHolds
  rw [h, harmed]
  simp [hmet]

theorem latchTaken_cue (a : Attn) (l : LaneId) : (a.latchTaken l).cue.get l = { a.cue.get l with taken := true } :=
  (get_modifyAt a.cue l l _).trans (if_pos rfl)

/-! ## What a tick with a take shows -/

section
variable {s t : State} {l : LaneId}

/-- The lane's members in the attention unit, when the emission changes none of them. -/
theorem take_latches (hpart : ((s.takePart l).emitPart l).attn = (s.endStarvedOf l).attn.latchTaken l) :
    (s.tick l).attn.cue.get l = { s.attn.cue.get l with taken := true } ∧ StarvedEnds s (s.tick l) l := by
  have hattn := tick_attn s l
  rw [hpart] at hattn
  have hcue : (s.endStarvedOf l).attn.cue = s.attn.cue := by
    rw [endStarvedOf_attn]
    split <;> rfl
  refine ⟨?_, starvedEnds_of ?_ ?_⟩
  · rw [hattn]
    refine (latchTaken_cue _ l).trans ?_
    rw [hcue]
  · rw [hattn]
    rfl
  · rw [hattn]
    rfl

theorem emitPart_attn_quiet {v : State} (hrun : (v.lane l).state ≠ .idle) (hstarves : (v.lane l).starves = false)
    (hends : (v.lane l).state ≠ .slateStarved) : (v.emitPart l).attn = v.attn := by
  have hemit : (v.emitPart l).attn = (v.emit l).attn := by
    unfold State.emitPart
    rw [if_neg hrun]
    rfl
  rw [hemit, emit_attn, hstarves, if_neg nofun, if_neg fun h => hends h.1]

/-- The counts of a tick that takes a cue to another channel or to SLATE. -/
theorem countsAtTake_of {moved : RenderRequest → RenderRequest}
    (h : Cancels s (s.takePart l) (namedBy l (s.lane l).source .program) moved)
    (hlane : ∀ r : RenderRequest, (moved r).lane = r.lane) (hdistance : ∀ r : RenderRequest, (moved r).distance = r.distance) :
    CountsAtTake s (s.tick l) l := by
  obtain ⟨hqueue, hengines⟩ := take_counts h hlane hdistance
  obtain ⟨hlate, hcancelled⟩ := worked_counters s l
  rw [hqueue] at hlate
  rw [hengines] at hcancelled
  unfold CountsAtTake
  rw [tick_lane]
  exact ⟨hlate, hcancelled⟩

/-- The claims after a take whose lane needs, besides its new source, what its remaining cues name. -/
theorem take_claims {rest : List Cue} {x : Lane} (hclaims : ∀ n : Channel, t.claims.get n =
      if (s.lane l).source = some n ∧ s.claims.get n = some l ∧ x.needs n = false then none else s.claims.get n)
    (hsource : ∀ n : Channel, (s.lane l).source = some n → x.source ≠ some n) (hcues : x.cues = rest) :
    (∀ y : Channel, (s.lane l).source = some y → s.claims.get y = some l →
      t.claims.get y = if rest.any (fun c => c.target == some y) then some l else none) ∧
    ∀ n : Channel, (s.lane l).source ≠ some n → t.claims.get n = s.claims.get n := by
  refine ⟨fun y hy hclaim => ?_, fun n hn => (hclaims n).trans (if_neg fun h => hn h.1)⟩
  have hneeds : x.needs y = rest.any fun c => c.target == some y := by
    unfold Lane.needs
    rw [hcues, beq_eq_false_iff_ne.2 (hsource y hy), Bool.false_or]
  rw [hclaims, hneeds, hclaim]
  cases rest.any fun c => c.target == some y <;> simp [hy]

end

/-- A take to another channel. -/
theorem takePart_channel {s : State} {l : LaneId} {c : Cue} {rest : List Cue} {x : Channel} {f : Frame}
    (hrun : (s.lane l).state ≠ .idle) (hcues : (s.lane l).cues = c :: rest) (htarget : c.target = some x)
    (hsource : (s.lane l).source ≠ some x) (harmed : (s.lane l).armedFrames.next = some f)
    (htrigger : ∀ number : FieldNum, c.trigger = .atField number → number.toNat ≤ f.number.toNat) :
    s.takePart l = (s.takeChannel l x).modAttn fun a => a.latchTaken l := by
  rw [takePart_running hrun, takeCheck_some (by rw [hcues]; rfl) (conditionHolds_armed htarget harmed htrigger)]
  unfold State.takeCue
  rw [htarget]
  exact congrArg (fun v => State.modAttn v fun a => a.latchTaken l) (if_neg hsource)

theorem takePart_slate {s : State} {l : LaneId} {c : Cue} {rest : List Cue} (hrun : (s.lane l).state ≠ .idle)
    (hcues : (s.lane l).cues = c :: rest) (htarget : c.target = none) :
    s.takePart l = (s.takeSlate l).modAttn fun a => a.latchTaken l := by
  rw [takePart_running hrun, takeCheck_some (by rw [hcues]; rfl) (conditionHolds_slate htarget)]
  unfold State.takeCue
  rw [htarget]

/-- An update of a lane is what it makes of the lane's record. -/
theorem modLane_congr {s : State} {l : LaneId} {f g : Lane → Lane} (h : f (s.lane l) = g (s.lane l)) :
    s.modLane l f = s.modLane l g := by
  unfold State.modLane modifyAt
  exact congrArg (fun x => { s with lanes := setAt s.lanes l x }) h

theorem emitPart_cue (s : State) (l : LaneId) : (s.emitPart l).attn.cue = s.attn.cue := by
  unfold State.emitPart
  split
  · rfl
  · rw [modLane_attn, emit_attn]
    repeat' split
    all_goals rfl

/-- A take of the program source, from the state in which the lane has no cues. -/
theorem takePart_source {s : State} {l : LaneId} {c : Cue} {rest : List Cue} {x : Channel} (hrun : (s.lane l).state ≠ .idle)
    (hcues : (s.lane l).cues = c :: rest) (htarget : c.target = some x) (hsource : (s.lane l).source = some x) :
    s.takePart l = (s.modLane l fun lane => { lane with cues := [] }).cueTaken l rest := by
  rw [takePart_running hrun, takeCheck_some (by rw [hcues]; rfl) (conditionHolds_source htarget hsource)]
  unfold State.takeCue State.cueTaken
  rw [htarget, modLane_modLane]
  refine congrArg (fun v => State.modAttn v fun a => a.latchTaken l) ((if_pos hsource).trans (modLane_congr ?_))
  rw [hcues]
  rfl

/-- What a re-role and a tick make of a request of the pool. -/
theorem reRole_nearer (l : LaneId) (x : Channel) (r : RenderRequest) : (r.reRole l x).nearer l =
    if r.lane = l then { r with role := if r.channel = x then .program else r.role, distance := r.distance - 1 } else r := by
  unfold RenderRequest.reRole RenderRequest.isOf RenderRequest.nearer
  by_cases hlane : r.lane = l
  · by_cases hchannel : r.channel = x
    · cases hrole : r.role <;> simp [hlane, hchannel, hrole]
    · simp [hlane, hchannel]
  · simp [hlane]

/-- Settles O40: the three kinds of take. -/
theorem tickTakesArmedCue : Obligations.TickTakesArmedCue := by
  refine ⟨fun s l c rest x f hrun hcues htarget hsource harmed htrigger => ?channel,
    fun s l c rest hrun hcues => ⟨fun htarget => ?slate, fun x htarget hsource => ?source⟩⟩
  case channel =>
    have hpart := takePart_channel hrun hcues htarget hsource harmed htrigger
    have hown : (s.takePart l).lane l = (s.lane l).afterTake x := by
      rw [hpart]
      exact takeChannel_lane s l x
    have hcancels : Cancels s (s.takePart l) (namedBy l (s.lane l).source .program) (RenderRequest.reRole l x) := by
      rw [hpart]
      exact ((cancels_takeChannel s l x).trans (cancels_modAttn _ _)).congr (fun r => by simp) fun _ => rfl
    have hattn : ((s.takePart l).emitPart l).attn = (s.endStarvedOf l).attn.latchTaken l := by
      rw [emitPart_attn_quiet (by rw [hown]; exact nofun)
        (starves_eq_false (by rw [hown]; exact fun h => absurd (harmed.symm.trans h.2.1) nofun)) (by rw [hown]; exact nofun), hpart,
        modAttn_attn, takeChannel_attn]
    have hlane := tick_lane_eq s l
    rw [emitPart_lane, hown, if_neg nofun, emit_fresh (x := (s.lane l).afterTake x) (.inl rfl) harmed] at hlane
    have htail : (s.lane l).cues.tail = rest := by rw [hcues]; rfl
    have hclaims (n : Channel) : (s.tick l).claims.get n =
        if (s.lane l).source = some n ∧ s.claims.get n = some l ∧ ((s.lane l).afterTake x).needs n = false then none
        else s.claims.get n := by
      rw [tick_claims, hpart]
      exact takeChannel_claims s l x n
    obtain ⟨hclaim, hothers⟩ := take_claims (t := s.tick l) hclaims
      (fun n hn hx => hsource (hn.trans hx.symm)) htail
    obtain ⟨hcue, hstarved⟩ := take_latches hattn
    obtain ⟨hafter, hhalts⟩ := tick_pool_of_take hcancels
    have hgone : (fun r => namedBy l (s.lane l).source .program r || dueAt l (r.reRole l x)) =
        fun r => namedBy l (s.lane l).source .program r || dueAt l r := by
      funext r
      unfold dueAt
      rw [reRole_lane, reRole_distance]
    rw [hgone, funext (reRole_nearer l x)] at hafter
    rw [hgone] at hhalts
    refine ⟨s.tick l, rfl, tick_frame s l, ?_, ?_, ?_, countsAtTake_of hcancels (reRole_lane l x) (reRole_distance l x),
      hcue, hstarved, hafter, hhalts, stepsJudged_of (LaneOrders.worked s l), hclaim, hothers⟩
    · rw [hlane, ← htail]
      rfl
    · rw [hlane]
      rfl
    · rw [hlane]
      rfl
  case slate =>
    have hpart := takePart_slate hrun hcues htarget
    have hown : (s.takePart l).lane l = (s.lane l).afterSlateTake := by
      rw [hpart]
      exact takeSlate_lane s l
    have hcancels : Cancels s (s.takePart l) (namedBy l (s.lane l).source .program) id := by
      rw [hpart]
      exact ((cancels_takeSlate s l).trans (cancels_modAttn _ _)).congr (fun r => by simp) fun _ => rfl
    have hattn : ((s.takePart l).emitPart l).attn = (s.endStarvedOf l).attn.latchTaken l := by
      rw [emitPart_attn_quiet (by rw [hown]; exact nofun)
        (starves_eq_false (by rw [hown]; exact fun h => nomatch h.1)) (by rw [hown]; exact nofun), hpart,
        modAttn_attn, takeSlate_attn]
    have hlane := tick_lane_eq s l
    rw [emitPart_lane, hown, if_neg nofun, emit_noProgram (x := (s.lane l).afterSlateTake) rfl] at hlane
    have htail : (s.lane l).cues.tail = rest := by rw [hcues]; rfl
    have hclaims (n : Channel) : (s.tick l).claims.get n =
        if (s.lane l).source = some n ∧ s.claims.get n = some l ∧ (s.lane l).afterSlateTake.needs n = false then none
        else s.claims.get n := by
      rw [tick_claims, hpart]
      exact takeSlate_claims s l n
    obtain ⟨hclaim, hothers⟩ := take_claims (t := s.tick l) hclaims (fun _ _ => nofun) htail
    obtain ⟨hcue, hstarved⟩ := take_latches hattn
    obtain ⟨hafter, hhalts⟩ := tick_pool_of_take hcancels
    refine ⟨s.tick l, rfl, tick_frame s l, ?_, fun r hr => ?_, ?_, ?_, countsAtTake_of hcancels (fun _ => rfl) (fun _ => rfl),
      hcue, hstarved, hafter, hhalts, stepsJudged_of (LaneOrders.worked s l), hclaim, hothers⟩
    · rw [hlane, ← htail]
      rfl
    · rw [hlane] at hr ⊢
      exact slateOutput_sampled (x := (s.lane l).afterSlateTake) hr
    · rw [hlane]
      rfl
    · rw [hlane]
      rfl
  case source =>
    have hpart := takePart_source hrun hcues htarget hsource
    have hquiet : (s.modLane l fun lane => { lane with cues := [] }).takePart l = s.modLane l fun lane => { lane with cues := [] } :=
      takePart_quiet fun c hc => by
        rw [lane_modLane_same] at hc
        exact absurd hc nofun
    have htick := tick_of_cueTaken s l rest hpart hquiet
    have hsourceKept : (((s.modLane l fun lane => { lane with cues := [] }).tick l).lane l).source = some x := by
      rw [tick_lane_eq, hquiet, emitPart_lane, if_neg (by rw [lane_modLane_same]; exact hrun)]
      exact (emit_follows _).source.trans (by rw [lane_modLane_same]; exact hsource)
    have hcue : (s.tick l).attn.cue.get l = { s.attn.cue.get l with taken := true } := by
      have hattn := tick_attn s l
      rw [hpart, cueTaken_emitPart] at hattn
      rw [hattn]
      refine (latchTaken_cue _ l).trans ?_
      rw [modLane_attn, emitPart_cue]
      rfl
    have hclaims : (s.tick l).claims = s.claims := by
      rw [tick_claims, hpart]
      rfl
    have hexec : exec (.laneTick l) s = .next (s.tick l) := rfl
    have hexecEmpty : exec (.laneTick l) (s.modLane l fun lane => { lane with cues := [] }) =
      .next ((s.modLane l fun lane => { lane with cues := [] }).tick l) := rfl
    have hframe := tick_frame s l
    generalize s.tick l = t at *
    generalize (s.modLane l fun lane => { lane with cues := [] }).tick l = u at *
    have hown : t.lane l = { u.lane l with cues := rest } := by rw [htick, cueTaken_lane, if_pos rfl]
    refine ⟨t, u, hexec, hframe, hexecEmpty, ?_, hown, ?_, hclaims, hcue⟩
    · rw [htick]
      rfl
    · rw [hown]
      exact hsourceKept

end Sys2Proof.Machine
end

