-- ==== Sys2Proof/Proofs/Ports.lean ====
section
/-! The ports: what a header, a packet and a silence timeout make of their channel (R2 to R19). Every port event replaces one
channel and changes the attention unit at most, so each operation is read as an update of these two (`withChan`). -/

namespace Sys2Proof.Machine

/-! ## One channel and the attention unit -/

/-- The state with channel `n` and the attention unit replaced. -/
def State.withChan (s : State) (n : Channel) (c : Chan) (a : Attn) : State := { s with chans := setAt s.chans n c, attn := a }

section
variable (s : State) (n : Channel) (c : Chan) (a : Attn)

theorem withChan_self : s.withChan n (s.chan n) s.attn = s := by
  unfold State.withChan State.chan
  rw [setAt_get]

theorem withChan_chan : (s.withChan n c a).chan n = c := get_setAt_same ..

theorem withChan_modChan (f : Chan → Chan) : (s.withChan n c a).modChan n f = s.withChan n (f c) a := by
  unfold State.withChan State.modChan modifyAt
  dsimp only
  rw [get_setAt_same, setAt_setAt]

theorem withChan_modPort (f : Port → Port) : (s.withChan n c a).modPort n f = s.withChan n { c with port := f c.port } a :=
  withChan_modChan s n c a _

theorem withChan_modAttn (f : Attn → Attn) : (s.withChan n c a).modAttn f = s.withChan n c (f a) := rfl

theorem modChan_eq_withChan (f : Chan → Chan) : s.modChan n f = s.withChan n (f (s.chan n)) s.attn := rfl

theorem modPort_eq_withChan (f : Port → Port) :
    s.modPort n f = s.withChan n { s.chan n with port := f (s.chan n).port } s.attn := rfl

theorem onlyChannel_withChan : OnlyChannel s (s.withChan n c a) n :=
  ⟨rfl, fun _ hm => get_setAt_ne s.chans c (Ne.symm hm)⟩

/-- A change of the fault count latches a change of the level (R14). -/
theorem withChan_setFaults (v : Nat) : (s.withChan n c a).setFaults n v =
    s.withChan n { c with port := { c.port with faultCount := v } } (levelNews a n c.port.faultCount v) := by
  unfold State.setFaults levelNews
  rw [withChan_modPort, withChan_chan]
  have hlevel : c.level = levelOf c.port.faultCount := rfl
  rw [hlevel]
  by_cases h : levelOf v = levelOf c.port.faultCount
  · rw [if_pos h, if_pos h.symm]
  · rw [if_neg h, if_neg (Ne.symm h)]
    rfl

theorem withChan_modPortCounters (f : PortCounters → PortCounters) : (s.withChan n c a).modPortCounters n f =
    s.withChan n { c with port := { c.port with counters := f c.port.counters } } a := withChan_modPort s n c a _

/-- A channel that becomes DETACHED (R15), its departure included. -/
def Chan.detached (c : Chan) : Chan :=
  Chan.depart { c with
    state := .detached
    port := { c.port with
      faultCount := 255
      slot := none
      silence := .stopped
      rejoinCount := 0
      previous := none
      counters := { c.port.counters with detachments := bump c.port.counters.detachments 1 } } }

theorem withChan_detach : (s.withChan n c a).detach n =
    s.withChan n c.detached ((levelNews a n c.port.faultCount 255).beginDetached n) := by
  unfold State.detach
  dsimp only
  rw [withChan_setFaults, withChan_modChan, withChan_modChan]
  rfl

/-- The level does not change when a count past the limit becomes 255. -/
theorem levelNews_past (a : Attn) (n : Channel) {faults : Nat} (h : 255 < faults + 8) : levelNews a n faults 255 = a := by
  refine if_pos ?_
  unfold levelOf
  rw [if_neg (by omega), if_neg (by omega)]
  rfl

/-- A fault that the count bears, and one that carries it past 255. -/
theorem withChan_addFault (h : c.port.faultCount + 8 ≤ 255) : (s.withChan n c a).addFault n =
    s.withChan n { c with port := { c.port with faultCount := c.port.faultCount + 8 } }
      (levelNews a n c.port.faultCount (c.port.faultCount + 8)) := by
  have hcount : (s.withChan n c a).faultDetaches n = false := by
    unfold State.faultDetaches
    rw [withChan_chan]
    exact decide_eq_false (Nat.not_lt.2 h)
  unfold State.addFault
  rw [hcount, withChan_chan]
  exact withChan_setFaults s n c a _

theorem withChan_addFault_past (h : 255 < c.port.faultCount + 8) : (s.withChan n c a).addFault n =
    s.withChan n c.detached (a.beginDetached n) := by
  have hcount : (s.withChan n c a).faultDetaches n = true := by
    unfold State.faultDetaches
    rw [withChan_chan]
    exact decide_eq_true h
  unfold State.addFault
  rw [hcount, if_pos rfl, withChan_detach, levelNews_past a n h]

theorem withChan_badPacket_running (h : c.state = .running) : (s.withChan n c a).badPacket n = (s.withChan n c a).addFault n := by
  unfold State.badPacket
  rw [withChan_chan, if_pos h]

theorem withChan_badPacket_other (h : c.state ≠ .running) : (s.withChan n c a).badPacket n =
    s.withChan n { c with port := c.port.breakRun c.state } a := by
  unfold State.badPacket
  rw [withChan_chan, if_neg h, withChan_modPort]

end

/-- The run of a SEEKING or DETACHED channel ends; a RUNNING one has none. -/
theorem breakRun_eq (p : Port) {state : ChannelState} (h : state.judges = true) : p.breakRun state = { p with
    lockCount := if state = .seeking then 0 else p.lockCount
    rejoinCount := if state = .detached then 0 else p.rejoinCount
    previous := if state = .running then p.previous else none } := by
  cases state with
  | halted => exact absurd h nofun
  | halting => exact absurd h nofun
  | seeking => rfl
  | running => rfl
  | detached => rfl

/-! ## Headers (R2, R3, R6) -/

theorem headerAt_of_arrives {s : State} {n : Channel} {received : List Byte} {h : HeaderBytes}
    (hjudges : (s.chan n).state.judges = true) (harrives : HeaderArrives s n received h) :
    s.headerAt n received = some h := by
  obtain ⟨skipped, before, hstands, hsync, hlength, rfl⟩ := harrives
  rcases hstands with ⟨hreceiver, rfl⟩ | ⟨k, hreceiver, hskipped⟩
  · exact headerAt_searching s n before h hjudges hreceiver hsync hlength
  · exact headerAt_skipping s n k skipped before h hjudges hreceiver hskipped hsync hlength

theorem headerCompletion_of_arrives {s : State} {n : Channel} {received : List Byte} {h : HeaderBytes}
    (hjudges : (s.chan n).state.judges = true) (harrives : HeaderArrives s n received h) :
    s.headerCompletion n received = s.judgeHeader n h := by
  unfold State.headerCompletion
  rw [headerAt_of_arrives hjudges harrives]

section
variable {cfg : ChannelConfig} {h : HeaderBytes}

theorem judgeHeader_badCheck (hcheck : crc16 h.bytes ≠ h.check) : cfg.judgeHeader h = .badCheck := if_pos hcheck

theorem judgeHeader_mismatch (hcheck : crc16 h.bytes = h.check)
    (hbad : h.standard ≠ cfg.standard.code ∨ h.lineCount ≠ cfg.standard.lines) : cfg.judgeHeader h = .mismatch :=
  (if_neg (not_not.2 hcheck)).trans (if_pos hbad)

theorem judgeHeader_passed (hcheck : crc16 h.bytes = h.check) (hstandard : h.standard = cfg.standard.code)
    (hlines : h.lineCount = cfg.standard.lines) : cfg.judgeHeader h =
      match cfg.lookupKey h.tag with
      | none => .rejected
      | some key => .accepted key :=
  (if_neg (not_not.2 hcheck)).trans (if_neg (not_or.2 ⟨not_not.2 hstandard, not_not.2 hlines⟩))

end

section
variable {s : State} {n : Channel} {h : HeaderBytes}

theorem judgeHeader_of_accepted {key : Key} (hverdict : (s.chan n).config.judgeHeader h = .accepted key) :
    s.judgeHeader n h = s.modPort n fun p =>
      { p with receiver := .reading { number := h.number, parity := h.parity, key := key, lineCount := h.lineCount } } := by
  unfold State.judgeHeader
  rw [hverdict]
  rfl

theorem judgeHeader_of_rejected (hverdict : (s.chan n).config.judgeHeader h = .rejected)
    (hjudges : (s.chan n).state.judges = true) : s.judgeHeader n h = s.modPort n fun p =>
      { p with
        receiver := .skipping h.lineCount
        counters := { p.counters with rejected := bump p.counters.rejected 1 }
        lockCount := if (s.chan n).state = .seeking then 0 else p.lockCount
        rejoinCount := if (s.chan n).state = .detached then 0 else p.rejoinCount
        previous := if (s.chan n).state = .running then p.previous else none } := by
  unfold State.judgeHeader
  rw [hverdict]
  dsimp only
  rw [modPort_eq_withChan s n, withChan_modPortCounters, withChan_modPort, withChan_chan, breakRun_eq _ hjudges]
  rfl

theorem judgeHeader_of_badCheck (hverdict : (s.chan n).config.judgeHeader h = .badCheck) : s.judgeHeader n h =
    (s.withChan n { s.chan n with port := { (s.chan n).port with
      receiver := .searching
      counters := { (s.chan n).port.counters with headerFaults := bump (s.chan n).port.counters.headerFaults 1 } } }
      s.attn).badPacket n := by
  unfold State.judgeHeader
  rw [hverdict]
  dsimp only
  rw [modPort_eq_withChan s n, withChan_modPortCounters]
  rfl

theorem judgeHeader_of_mismatch (hverdict : (s.chan n).config.judgeHeader h = .mismatch) : s.judgeHeader n h =
    (s.withChan n { s.chan n with port := { (s.chan n).port with
      receiver := .skipping h.lineCount
      counters := { (s.chan n).port.counters with mismatches := bump (s.chan n).port.counters.mismatches 1 } } }
      s.attn).badPacket n := by
  unfold State.judgeHeader
  rw [hverdict]
  dsimp only
  rw [modPort_eq_withChan s n, withChan_modPortCounters]
  rfl

end

theorem judges_running {c : Chan} (h : c.state = .running) : c.state.judges = true := by rw [h]; rfl

theorem not_judges {c : Chan} (h : c.state = .halted ∨ c.state = .halting) : c.state.judges = false := by
  rcases h with h | h <;> rw [h] <;> rfl

/-- Settles O4: by the verdict on the header. -/
theorem headerCompletionAcceptsOrRejects : Obligations.HeaderCompletionAcceptsOrRejects := by
  refine ⟨fun s n received h hjudges harrives hcheck hstandard hlines => ⟨fun key hkey => ?_, fun hnone => ?_⟩,
    fun s n received p hreading => ?_, fun s n received lines check hstate => ⟨?_, ?_⟩⟩
  · refine congrArg Host.Outcome.next ((headerCompletion_of_arrives hjudges harrives).trans (judgeHeader_of_accepted ?_))
    rw [judgeHeader_passed hcheck hstandard hlines, hkey]
  · refine congrArg Host.Outcome.next ((headerCompletion_of_arrives hjudges harrives).trans (judgeHeader_of_rejected ?_ hjudges))
    rw [judgeHeader_passed hcheck hstandard hlines, hnone]
  · refine congrArg Host.Outcome.next ?_
    unfold State.headerCompletion
    rw [headerAt_reading s n received p hreading]
  · refine congrArg Host.Outcome.next ?_
    unfold State.headerCompletion State.headerAt
    rw [not_judges hstate]
    rfl
  · refine congrArg Host.Outcome.next ?_
    unfold State.packetCompletion State.packetAt
    rw [not_judges hstate]
    rfl

/-- Settles O5: the two header faults, in RUNNING and outside it. -/
theorem headerFaultAddsEight : Obligations.HeaderFaultAddsEight := by
  refine ⟨fun s n received h hstate harrives hcount => ⟨fun hcheck => ?_, fun hcheck hbad => ?_⟩,
    fun s n received h hstate harrives => ?_⟩
  · have hheader := headerCompletion_of_arrives (judges_running hstate) harrives
    rw [judgeHeader_of_badCheck (judgeHeader_badCheck hcheck), withChan_badPacket_running, withChan_addFault] at hheader
    · exact ⟨_, congrArg Host.Outcome.next hheader, onlyChannel_withChan .., withChan_chan .., rfl⟩
    · exact hcount
    · exact hstate
  · have hheader := headerCompletion_of_arrives (judges_running hstate) harrives
    rw [judgeHeader_of_mismatch (judgeHeader_mismatch hcheck hbad), withChan_badPacket_running, withChan_addFault] at hheader
    · exact ⟨_, congrArg Host.Outcome.next hheader, onlyChannel_withChan .., withChan_chan .., rfl⟩
    · exact hcount
    · exact hstate
  · have hjudges : (s.chan n).state.judges = true := by rcases hstate with h | h <;> rw [h] <;> rfl
    have hrun : (s.chan n).state ≠ .running := by rcases hstate with h | h <;> rw [h] <;> exact nofun
    have hheader := headerCompletion_of_arrives hjudges harrives
    refine ⟨fun hcheck => ?_, fun hcheck hbad => ?_⟩
    · rw [judgeHeader_of_badCheck (judgeHeader_badCheck hcheck), withChan_badPacket_other, breakRun_eq _ hjudges,
        if_neg hrun] at hheader
      · exact congrArg Host.Outcome.next hheader
      · exact hrun
    · rw [judgeHeader_of_mismatch (judgeHeader_mismatch hcheck hbad), withChan_badPacket_other, breakRun_eq _ hjudges,
        if_neg hrun] at hheader
      · exact congrArg Host.Outcome.next hheader
      · exact hrun

end Sys2Proof.Machine
end

