-- ==== Sys2Proof/Proofs/Packets.lean ====
section
/-! Packets, detachment, rejoining and silence at a port (R4, R7 to R19). -/

namespace Sys2Proof.Machine

/-! ## Completed packets (R4) -/

section
variable {s : State} {n : Channel} {lines : List Byte} {check : BitVec 16} {h : PacketHeader}

/-- The field that the announced lines and the check word complete. -/
theorem packetAt_of_reading (hjudges : (s.chan n).state.judges = true) (hreading : (s.chan n).port.receiver = .reading h)
    (hlines : lines.length = 1440 * h.lineCount) :
    s.packetAt n lines (bytes16 check) = some (h.field lines (crc16 lines != check)) :=
  packetAt_complete s n h lines check hjudges hreading hlines

theorem packetCompletion_of_reading (hjudges : (s.chan n).state.judges = true)
    (hreading : (s.chan n).port.receiver = .reading h) (hlines : lines.length = 1440 * h.lineCount) :
    s.packetCompletion n lines (bytes16 check) = s.judgePacket n (h.field lines (crc16 lines != check)) := by
  unfold State.packetCompletion
  rw [packetAt_of_reading hjudges hreading hlines]

end

/-- The port of a channel that judges a completed packet. -/
def Port.completed (p : Port) (damaged : Bool) : Port :=
  { p with
    receiver := .searching
    counters := { p.counters with damaged := bump p.counters.damaged (if damaged then 1 else 0) } }

/-- A channel whose packet has completed, the field not yet judged. -/
def Chan.completed (c : Chan) (damaged : Bool) : Chan := { c with port := c.port.completed damaged }

section
variable {s : State} {n : Channel} {f : Field}

/-- The state that judges a completed packet. -/
def State.packetCompleted (s : State) (n : Channel) (damaged : Bool) : State :=
  s.withChan n ((s.chan n).completed damaged) s.attn

theorem packetCompleted_state (s : State) (n : Channel) (damaged : Bool) :
    ((s.packetCompleted n damaged).chan n).state = (s.chan n).state := by
  unfold State.packetCompleted
  rw [withChan_chan]
  rfl

theorem judgePacket_eq (s : State) (n : Channel) (f : Field) : s.judgePacket n f =
    match (s.chan n).state with
    | .seeking => (s.packetCompleted n f.damaged).seekField n f
    | .running => (s.packetCompleted n f.damaged).runField n f
    | .detached => (s.packetCompleted n f.damaged).detachedField n f
    | _ => s.packetCompleted n f.damaged := by
  rw [← packetCompleted_state s n f.damaged]
  rfl

theorem judgePacket_seeking (hstate : (s.chan n).state = .seeking) : s.judgePacket n f =
    (s.withChan n ((s.chan n).completed f.damaged) s.attn).seekField n f := by
  rw [judgePacket_eq, hstate]
  rfl

theorem judgePacket_running (hstate : (s.chan n).state = .running) : s.judgePacket n f =
    (s.withChan n ((s.chan n).completed f.damaged) s.attn).runField n f := by
  rw [judgePacket_eq, hstate]
  rfl

theorem judgePacket_detached (hstate : (s.chan n).state = .detached) : s.judgePacket n f =
    (s.withChan n ((s.chan n).completed f.damaged) s.attn).detachedField n f := by
  rw [judgePacket_eq, hstate]
  rfl

end

/-! ## Fields in RUNNING (R9 to R13) -/

section
variable (s : State) (n : Channel) (c : Chan) (a : Attn) (f : Field)

theorem withChan_runField_clean (h : f.damaged = false) : (s.withChan n c a).runField n f =
    s.withChan n (Chan.take { c with port := { c.port with faultCount := c.port.faultCount - 1 } } f)
      (levelNews a n c.port.faultCount (c.port.faultCount - 1)) := by
  unfold State.runField
  rw [h, if_neg nofun, withChan_chan, withChan_setFaults, withChan_modChan]

theorem withChan_runField_damaged (h : f.damaged = true) (hcount : c.port.faultCount + 8 ≤ 255) :
    (s.withChan n c a).runField n f =
      s.withChan n (Chan.take { c with port := { c.port with faultCount := c.port.faultCount + 8 } } f)
        (levelNews a n c.port.faultCount (c.port.faultCount + 8)) := by
  have hstays : (s.withChan n c a).faultDetaches n = false := by
    unfold State.faultDetaches
    rw [withChan_chan]
    exact decide_eq_false (Nat.not_lt.2 hcount)
  unfold State.runField
  rw [h, if_pos rfl, hstays, if_neg nofun, withChan_addFault _ _ _ _ hcount, withChan_modChan]

theorem withChan_runField_detaches (h : f.damaged = true) (hcount : 255 < c.port.faultCount + 8) :
    (s.withChan n c a).runField n f =
      s.withChan n c.detached (a.beginDetached n) := by
  have hdetaches : (s.withChan n c a).faultDetaches n = true := by
    unfold State.faultDetaches
    rw [withChan_chan]
    exact decide_eq_true hcount
  unfold State.runField
  rw [h, if_pos rfl, hdetaches, if_pos rfl, withChan_detach, levelNews_past a n hcount]

end

/-- A field without a reference starts. -/
theorem classify_none (f : Field) : classify none f = .start := rfl

section
variable {r : WindowField} {f : Field}

theorem classify_next (h : r.field.key = f.key ∧ f.number.toNat = r.field.number.toNat + 1) :
    classify (some r) f = .next := if_pos h

theorem classify_gap (hkey : r.field.key = f.key) (hlow : r.field.number.toNat + 2 ≤ f.number.toNat)
    (hhigh : f.number.toNat ≤ r.field.number.toNat + 8) : classify (some r) f = .gap :=
  (if_neg fun h => by omega).trans (if_pos ⟨hkey, hlow, hhigh⟩)

theorem classify_discontinuity (h : r.field.key ≠ f.key ∨ f.number.toNat ≤ r.field.number.toNat ∨
    r.field.number.toNat + 8 < f.number.toNat) : classify (some r) f = .discontinuity := by
  refine (if_neg fun hnext => ?_).trans (if_neg fun hgap => ?_)
  · rcases h with h | h | h
    · exact h hnext.1
    · omega
    · omega
  · rcases h with h | h | h
    · exact h hgap.1
    · omega
    · omega

end

/-- The slip flag of a field taken into the arrival slot (R10). -/
def Chan.slipOf (c : Chan) (f : Field) : Bool := classify c.window.newer f == .next && slips c.window.newer f

/-- What the rest of a take into the slot says, for a channel whose packet has completed and whose fault count is `faults`. -/
theorem take_eq (c : Chan) (f : Field) : c.take f = { c with port := { c.port with
    slot := some { field := { f with slip := c.slipOf f }, cls := classify c.window.newer f }
    counters := { c.port.counters with
      taken := bump c.port.counters.taken 1
      overruns := bump c.port.counters.overruns (if c.port.slot.isSome then 1 else 0)
      missing := bump c.port.counters.missing
        (if classify c.window.newer f = .gap then missingFields c.window.newer f else 0)
      discontinuities := bump c.port.counters.discontinuities
        (if classify c.window.newer f = .discontinuity then 1 else 0)
      slips := bump c.port.counters.slips (if c.slipOf f then 1 else 0) } } } := rfl

/-- A completed packet in RUNNING is taken into the slot, its fault count moved to `faults`. -/
theorem judgePacket_takes {s : State} {n : Channel} {f : Field} {faults : Nat} (hstate : (s.chan n).state = .running)
    (hdamaged : f.damaged = true → (s.chan n).port.faultCount + 8 ≤ 255 ∧ faults = (s.chan n).port.faultCount + 8)
    (hclean : f.damaged = false → faults = (s.chan n).port.faultCount - 1) : s.judgePacket n f =
      s.withChan n (Chan.take { s.chan n with port := { (s.chan n).port.completed f.damaged with faultCount := faults } } f)
        (levelNews s.attn n (s.chan n).port.faultCount faults) := by
  rw [judgePacket_running hstate]
  cases h : f.damaged with
  | false =>
    rw [withChan_runField_clean _ _ _ _ _ h, hclean h]
    rfl
  | true =>
    obtain ⟨hcount, rfl⟩ := hdamaged h
    rw [withChan_runField_damaged _ _ _ _ _ h (by exact hcount)]
    rfl

/-- Settles O7: the field is classified against the NEWER field and put into the slot. -/
theorem packetCompletionTakesField : Obligations.PacketCompletionTakesField := by
  refine ⟨fun s n lines check h hreading hbytes => congrArg Host.Outcome.next ?_,
    fun s n lines check h damaged faults hstate hreading hlines hdamaged hbad hclean => ?_⟩
  · unfold State.packetCompletion
    rw [packetAt_incomplete s n h lines check hreading hbytes]
  · have hpacket := packetCompletion_of_reading (check := check) (judges_running hstate) hreading hlines
    rw [← hdamaged, judgePacket_takes (faults := faults) hstate hbad hclean, take_eq] at hpacket
    refine ⟨_, classify (s.chan n).window.newer (h.field lines damaged), (s.chan n).slipOf (h.field lines damaged),
      congrArg Host.Outcome.next hpacket, onlyChannel_withChan .., rfl, ?_⟩
    rw [withChan_chan]
    refine ⟨rfl, rfl, rfl, rfl, rfl, rfl, rfl, rfl, fun hnone => ?_, fun r hr => ⟨fun hnext => ?_, fun hgap => ?_, fun hjump => ?_⟩⟩
    · rw [Chan.slipOf, hnone]
      exact ⟨rfl, rfl⟩
    · rw [Chan.slipOf, hr, classify_next (f := h.field lines damaged) hnext]
      refine ⟨rfl, ?_⟩
      change (r.field.parity == h.parity) = _
      rw [beq_eq_decide]
    · obtain ⟨hkey, hlow, hhigh⟩ := hgap
      have hclass := classify_gap (f := h.field lines damaged) hkey hlow hhigh
      rw [Chan.slipOf, hr, hclass]
      exact ⟨rfl, rfl, rfl⟩
    · have hclass := classify_discontinuity (f := h.field lines damaged) hjump
      rw [Chan.slipOf, hr, hclass]
      exact ⟨rfl, rfl, rfl⟩

/-! ## Departures (R44, R72) -/

section
variable {c : Chan}

theorem depart_free (hwaits : c.releaseWaits = false) (hentry : c.currentEntry = none) : c.depart = c.departed := by
  unfold Chan.depart
  rw [hwaits, if_neg nofun, hentry]
  rfl

theorem depart_entry {e : Handle} (hwaits : c.releaseWaits = false) (hentry : c.currentEntry = some e) :
    c.depart = { c with sequencerClaim := some (.release true) } := by
  unfold Chan.depart
  rw [hwaits, if_neg nofun, hentry]
  rfl

theorem depart_port (c : Chan) : c.depart.port = c.port := by
  unfold Chan.depart
  repeat' split
  all_goals rfl

theorem depart_state (c : Chan) : c.depart.state = c.state := by
  unfold Chan.depart
  repeat' split
  all_goals rfl

end

/-! ## Detachment (R13 to R15) -/

/-- A channel that a fault has reached, its port not yet detached. -/
structure Chan.Faulted (c d : Chan) : Prop where
  rest : d = { c with port := d.port }
  faults : d.port.faultCount = c.port.faultCount
  detachments : d.port.counters.detachments = c.port.counters.detachments

theorem beginDetached_eq (a : Attn) (n : Channel) : a.beginDetached n = { a with
    port := setAt a.port n { a.port.get n with detached := true, mark := false }
    detachedCond := setAt a.detachedCond n true } := rfl

section
variable {s : State} {n : Channel}

/-- Both port events that detach come to the same. -/
theorem portEvent_detaches {event : PortEvent} (hstate : (s.chan n).state = .running)
    (hfault : match event with
      | .header received => ∃ h : HeaderBytes, HeaderArrives s n received h ∧ (crc16 h.bytes ≠ h.check ∨
          h.standard ≠ (s.chan n).config.standard.code ∨ h.lineCount ≠ (s.chan n).config.standard.lines)
      | .packet lines check => ∃ (p : PacketHeader) (w : BitVec 16), (s.chan n).port.receiver = .reading p ∧
          lines.length = 1440 * p.lineCount ∧ check = bytes16 w ∧ crc16 lines ≠ w)
    (hpast : 255 < (s.chan n).port.faultCount + 8) :
    s.detaches n event = true ∧ ∃ c : Chan, (s.chan n).Faulted c ∧
      s.portEvent n event = s.withChan n c.detached (s.attn.beginDetached n) := by
  have hjudges := judges_running hstate
  have hcounts : ((s.chan n).state == .running && s.faultDetaches n) = true := by
    rw [hstate]
    exact decide_eq_true hpast
  cases event with
  | header received =>
    obtain ⟨h, harrives, hbad⟩ := hfault
    have hheader : s.portEvent n (.header received) = s.judgeHeader n h := headerCompletion_of_arrives hjudges harrives
    unfold State.detaches
    dsimp only
    rw [hcounts, Bool.true_and, headerAt_of_arrives hjudges harrives, hheader]
    by_cases hcheck : crc16 h.bytes = h.check
    · have hverdict := judgeHeader_mismatch hcheck (hbad.resolve_left (not_not.2 hcheck))
      rw [judgeHeader_of_mismatch hverdict, withChan_badPacket_running, withChan_addFault_past]
      · refine ⟨by dsimp only; rw [hverdict], _, ?_, rfl⟩
        exact ⟨rfl, rfl, rfl⟩
      · exact hpast
      · exact hstate
    · have hverdict := judgeHeader_badCheck (cfg := (s.chan n).config) hcheck
      rw [judgeHeader_of_badCheck hverdict, withChan_badPacket_running, withChan_addFault_past]
      · refine ⟨by dsimp only; rw [hverdict], _, ?_, rfl⟩
        exact ⟨rfl, rfl, rfl⟩
      · exact hpast
      · exact hstate
  | packet lines check =>
    obtain ⟨p, w, hreading, hlines, rfl, hcheck⟩ := hfault
    have hdamaged : (p.field lines (crc16 lines != w)).damaged = true := bne_iff_ne.2 hcheck
    have hpacket : s.portEvent n (.packet lines (bytes16 w)) = s.judgePacket n (p.field lines (crc16 lines != w)) :=
      packetCompletion_of_reading hjudges hreading hlines
    unfold State.detaches
    dsimp only
    rw [hcounts, Bool.true_and, packetAt_of_reading hjudges hreading hlines, hpacket, judgePacket_running hstate,
      withChan_runField_detaches _ _ _ _ _ hdamaged (by exact hpast)]
    refine ⟨hdamaged, _, ?_, rfl⟩
    exact ⟨rfl, rfl, rfl⟩

/-- Settles O6: a fault past the limit detaches, with the effects of a departure. -/
theorem detachmentPastLimit : Obligations.DetachmentPastLimit := by
  intro s n event hstate hfault hpast hwaits
  obtain ⟨hdetaches, c, ⟨hrest, -, hdetachments⟩, hevent⟩ := portEvent_detaches hstate hfault hpast
  have hport : c.detached.port = _ := depart_port _
  have hcwaits : c.releaseWaits = false := by rw [hrest]; exact hwaits
  have hentry : c.currentEntry = (s.chan n).currentEntry := by rw [hrest]
  refine ⟨s.withChan n c.detached (s.attn.beginDetached n), congrArg Host.Outcome.next ((if_pos hdetaches).trans hevent), ?_,
    onlyChannel_withChan .., ?_⟩
  · cases event <;> exact congrArg Host.Outcome.next hevent
  · rw [withChan_chan, hport]
    refine ⟨depart_state _, ?_, rfl, rfl, rfl, rfl, rfl, ?_, beginDetached_eq s.attn n, fun hnone => ?_, fun e he => ?_⟩
    · refine (depart_config _).trans ?_
      rw [hrest]
    · dsimp only
      rw [hdetachments]
    · have hdepart := depart_free (c := { c with
        state := .detached
        port := { c.port with
          faultCount := 255
          slot := none
          silence := .stopped
          rejoinCount := 0
          previous := none
          counters := { c.port.counters with detachments := bump c.port.counters.detachments 1 } } }) hcwaits (hentry.trans hnone)
      unfold Chan.detached
      rw [hdepart]
      exact ⟨rfl, rfl, rfl, rfl, rfl, rfl⟩
    · have hdepart := depart_entry (c := { c with
        state := .detached
        port := { c.port with
          faultCount := 255
          slot := none
          silence := .stopped
          rejoinCount := 0
          previous := none
          counters := { c.port.counters with detachments := bump c.port.counters.detachments 1 } } }) hcwaits (hentry.trans he)
      unfold Chan.detached
      rw [hdepart]
      refine ⟨rfl, hentry.trans he, ?_, ?_⟩ <;> dsimp only <;> rw [hrest]

end

/-! ## Gaining lock (R7, R8) -/

/-- The run a field number continues, or begins again. -/
theorem continuesRun_of {previous : Option FieldNum} {p number : FieldNum} (hprevious : previous = some p)
    (hnext : number.toNat = p.toNat + 1) : continuesRun previous number = true := by
  rw [hprevious]
  exact beq_iff_eq.2 hnext

/-- A run count that the two cases determine. -/
theorem runCount_of {previous : Option FieldNum} {number : FieldNum} {count longer : Nat}
    (hnext : ∀ p : FieldNum, previous = some p → number.toNat = p.toNat + 1 → count = longer)
    (hbreak : (∀ p : FieldNum, previous = some p → number.toNat ≠ p.toNat + 1) → count = 1) :
    (if continuesRun previous number then longer else 1) = count := by
  cases previous with
  | none => exact (hbreak nofun).symm
  | some p =>
    by_cases h : number.toNat = p.toNat + 1
    · rw [if_pos (continuesRun_of rfl h), hnext p rfl h]
    · have hno : continuesRun (some p) number ≠ true := fun hc => h (beq_iff_eq.1 hc)
      rw [if_neg hno, hbreak fun q hq => by rw [← Option.some.inj hq]; exact h]

section
variable (s : State) (n : Channel) (c : Chan) (a : Attn) (f : Field)

/-- A channel that gains lock. -/
def Chan.locked (c : Chan) (f : Field) : Chan :=
  { c with
    state := .running
    port := { c.port with
      lockCount := 0
      previous := none
      slot := some { field := f, cls := .start }
      silence := .running
      counters := { c.port.counters with taken := bump c.port.counters.taken 1 } } }

theorem withChan_seekField_gains (h : 4 ≤ c.port.lockCountWith f.number) : (s.withChan n c a).seekField n f =
    s.withChan n (c.locked f) (a.latchPort n .lockGained) := by
  unfold State.seekField
  dsimp only
  rw [withChan_chan]
  refine (if_pos h).trans ?_
  unfold State.gainLock
  rw [withChan_modChan]
  rfl

theorem withChan_seekField_counts (h : c.port.lockCountWith f.number < 4) : (s.withChan n c a).seekField n f =
    s.withChan n { c with port := { c.port with lockCount := c.port.lockCountWith f.number, previous := some f.number } } a := by
  unfold State.seekField
  dsimp only
  rw [withChan_chan]
  exact (if_neg (Nat.not_le.2 h)).trans (withChan_modPort ..)

end

theorem judges_seeking {c : Chan} (h : c.state = .seeking) : c.state.judges = true := by rw [h]; rfl

theorem judges_detached {c : Chan} (h : c.state = .detached) : c.state.judges = true := by rw [h]; rfl

/-- Settles O8: the packet that completes the run, and the others. -/
theorem lockGainedStartsRunning : Obligations.LockGainedStartsRunning := by
  refine ⟨fun s n lines check h p hstate hreading hlines hcount hprevious hnext => ?_,
    fun s n lines check h count hstate hreading hlines hlonger hbreak hbelow => ?_⟩
  · have hrun : 4 ≤ (s.chan n).port.lockCountWith h.number := by
      unfold Port.lockCountWith
      rw [if_pos (continuesRun_of hprevious hnext), hcount]
    have hjudge : s.judgePacket n (h.field lines (crc16 lines != check)) = _ :=
      (judgePacket_seeking hstate).trans (withChan_seekField_gains s n _ _ _ (by exact hrun))
    have hpacket := (packetCompletion_of_reading (check := check) (judges_seeking hstate) hreading hlines).trans hjudge
    have hcompletes : s.completesLock n (h.field lines (crc16 lines != check)) = true := by
      unfold State.completesLock
      rw [hstate]
      exact decide_eq_true hrun
    refine ⟨_, congrArg Host.Outcome.next ?_, congrArg Host.Outcome.next hpacket, onlyChannel_withChan .., rfl, ?_⟩
    · rw [packetAt_of_reading (judges_seeking hstate) hreading hlines]
      exact (if_pos hcompletes).trans hjudge
    · exact withChan_chan ..
  · have hcount : (s.chan n).port.lockCountWith h.number = count := runCount_of hlonger hbreak
    have hpacket := packetCompletion_of_reading (check := check) (judges_seeking hstate) hreading hlines
    have hjudge : s.judgePacket n (h.field lines (crc16 lines != check)) = _ :=
      (judgePacket_seeking hstate).trans (withChan_seekField_counts s n _ _ _ (by exact hcount ▸ hbelow))
    refine congrArg Host.Outcome.next (hpacket.trans (hjudge.trans ?_))
    change s.withChan n { s.chan n with port := { (s.chan n).port.completed (crc16 lines != check) with
      lockCount := (s.chan n).port.lockCountWith h.number, previous := some h.number } } s.attn = _
    rw [hcount]
    rfl

/-! ## Rejoining (R17, R18) -/

section
variable (s : State) (n : Channel) (c : Chan) (a : Attn) (f : Field)

/-- A channel that leaves DETACHED by its rejoin run. -/
def Chan.rejoined (c : Chan) (number : FieldNum) : Chan :=
  { c with
    state := .seeking
    port := Port.enterSeeking { c.port with
      rejoinCount := c.port.rejoinCountWith number, previous := some number, faultCount := 0 }
    monitor := Monitor.reset }

theorem withChan_detachedField_damaged (h : f.damaged = true) : (s.withChan n c a).detachedField n f =
    s.withChan n { c with port := { c.port with rejoinCount := 0, previous := none } } a := by
  unfold State.detachedField
  rw [h, if_pos rfl, withChan_modPort]
  rfl

theorem withChan_detachedField_rejoins (h : f.damaged = false) (hrun : c.port.rejoinCountWith f.number = 64)
    (hauto : c.config.autoRejoin = true) : (s.withChan n c a).detachedField n f =
      s.withChan n (c.rejoined f.number) (levelNews (a.endDetached n) n c.port.faultCount 0) := by
  unfold State.detachedField
  dsimp only
  rw [h, if_neg nofun, withChan_chan, withChan_modPort, if_pos ⟨hrun, hauto⟩]
  unfold State.rejoin
  rw [withChan_modAttn, withChan_setFaults, withChan_modChan]
  rfl

theorem withChan_detachedField_counts (h : f.damaged = false)
    (hrun : ¬(c.port.rejoinCountWith f.number = 64 ∧ c.config.autoRejoin = true)) : (s.withChan n c a).detachedField n f =
      s.withChan n { c with port := { c.port with
        rejoinCount := c.port.rejoinCountWith f.number, previous := some f.number } } a := by
  unfold State.detachedField
  dsimp only
  rw [h, if_neg nofun, withChan_chan, withChan_modPort]
  exact if_neg hrun

end

/-- A clean packet leaves the damaged counter. -/
theorem completed_clean (p : Port) : p.completed false = { p with receiver := .searching } := by
  unfold Port.completed
  rw [if_neg nofun, bump_zero]

/-- Settles O9: the packet that completes the rejoin run, and the others. -/
theorem autoRejoinSeeksLock : Obligations.AutoRejoinSeeksLock := by
  refine ⟨fun s n lines check h p hstate hreading hlines hcheck hauto hcount hprevious hnext hfaults => ?_,
    fun s n lines check h hstate hreading hlines => ⟨fun hcheck => ?_, fun count hcheck hlonger hbreak hstays => ?_⟩⟩
  · have hclean : (crc16 lines != check) = false := bne_eq_false_iff_eq.2 hcheck
    have hrun : (s.chan n).port.rejoinCountWith h.number = 64 := by
      unfold Port.rejoinCountWith
      rw [if_pos (continuesRun_of hprevious hnext), hcount]
      rfl
    have hjudge : s.judgePacket n (h.field lines false) = _ := (judgePacket_detached hstate).trans
      (withChan_detachedField_rejoins s n _ _ _ rfl (by exact hrun) (by exact hauto))
    have hpacket := packetCompletion_of_reading (check := check) (judges_detached hstate) hreading hlines
    rw [hclean, hjudge] at hpacket
    have hcompletes : s.completesRejoin n (h.field lines false) = true := by
      unfold State.completesRejoin
      rw [hstate, hauto]
      exact beq_iff_eq.2 hrun
    refine ⟨_, congrArg Host.Outcome.next ?_, congrArg Host.Outcome.next hpacket, onlyChannel_withChan .., ?_, ?_⟩
    · rw [packetAt_of_reading (judges_detached hstate) hreading hlines, hclean]
      exact (if_pos hcompletes).trans hjudge
    · refine if_neg ?_
      change ¬levelOf (s.chan n).port.faultCount = levelOf 0
      rw [hfaults]
      decide
    · rw [withChan_chan]
      refine ⟨rfl, rfl, rfl, rfl, rfl, rfl, rfl, ?_⟩
      change ((s.chan n).port.completed false).counters = _
      rw [completed_clean]
  · have hdamaged : (crc16 lines != check) = true := bne_iff_ne.2 hcheck
    have hpacket := packetCompletion_of_reading (check := check) (judges_detached hstate) hreading hlines
    rw [hdamaged, judgePacket_detached hstate, withChan_detachedField_damaged s n _ _ _ rfl] at hpacket
    exact congrArg Host.Outcome.next hpacket
  · have hclean : (crc16 lines != check) = false := bne_eq_false_iff_eq.2 hcheck
    have hcount : (s.chan n).port.rejoinCountWith h.number = count := runCount_of hlonger hbreak
    have hpacket := packetCompletion_of_reading (check := check) (judges_detached hstate) hreading hlines
    rw [hclean] at hpacket
    have hjudge : s.judgePacket n (h.field lines false) = _ := (judgePacket_detached hstate).trans
      (withChan_detachedField_counts s n _ _ _ rfl (by
        rintro ⟨hfull, hauto⟩
        rcases hstays with hbelow | hoff
        · exact absurd (hcount.symm.trans hfull) (by omega)
        · exact absurd (hauto.symm.trans hoff) nofun))
    refine congrArg Host.Outcome.next (hpacket.trans (hjudge.trans ?_))
    change s.withChan n { s.chan n with port := { (s.chan n).port.completed false with
      rejoinCount := (s.chan n).port.rejoinCountWith h.number, previous := some h.number } } s.attn = _
    rw [hcount, completed_clean]
    rfl

/-! ## Silence (R16) -/

/-- Settles O10: a departure to SEEKING. -/
theorem silenceTimeoutReturnsToSeeking : Obligations.SilenceTimeoutReturnsToSeeking := by
  intro s n hstate hsilence hwaits
  refine ⟨s.loseLock n, congrArg Host.Outcome.next (if_pos ⟨hstate, hsilence⟩), onlyChannel_withChan s n _ _, rfl, ?_⟩
  have hchan : (s.loseLock n).chan n = { (s.chan n).depart with
      state := .seeking
      port := { (s.chan n).port.enterSeeking with
        counters := { (s.chan n).port.counters with silenceTimeouts := bump (s.chan n).port.counters.silenceTimeouts 1 } } } :=
    withChan_chan s n _ _
  rw [hchan]
  refine ⟨rfl, rfl, fun hnone => ?_, fun e he => ?_⟩
  · rw [depart_free hwaits hnone]
    exact ⟨rfl, rfl, rfl, rfl, rfl, rfl⟩
  · rw [depart_entry hwaits he]
    exact ⟨rfl, he, rfl, rfl⟩

end Sys2Proof.Machine
end

