-- ==== Sys2Proof/Proofs/ChannelStates.lean ====
section
/-! CHANNEL_START and CHANNEL_HALT (R21, R73, R77, R78): what each makes of every masked channel and of its members in the
attention unit. -/

namespace Sys2Proof.Machine

/-! ## Channels one by one -/

/-- An operation on one channel: what it makes of the channel, of its PORT member and of its DETACHED condition, in the
states that `Inv` picks. -/
structure ActsOnChannel (f : State → Channel → State) (Inv : State → Prop) (chan : Channel → Chan → Chan)
    (latch : Chan → PortLatch → PortLatch) (cond : Chan → Bool → Bool) : Prop where
  inv : ∀ (u : State) (n : Channel), Inv u → Inv (f u n)
  chan : ∀ (u : State) (n m : Channel), Inv u → (f u n).chan m = if n = m then chan m (u.chan m) else u.chan m
  latch : ∀ (u : State) (n m : Channel), Inv u →
    (f u n).attn.port.get m = if n = m then latch (u.chan m) (u.attn.port.get m) else u.attn.port.get m
  cond : ∀ (u : State) (n m : Channel), Inv u →
    (f u n).attn.detachedCond.get m = if n = m then cond (u.chan m) (u.attn.detachedCond.get m) else u.attn.detachedCond.get m

/-- The operation on every channel of a list. -/
theorem ActsOnChannel.foldl {f : State → Channel → State} {Inv : State → Prop} {chan : Channel → Chan → Chan}
    {latch : Chan → PortLatch → PortLatch} {cond : Chan → Bool → Bool} (h : ActsOnChannel f Inv chan latch cond)
    (list : List Channel) (hnodup : list.Nodup) (s : State) (hs : Inv s) (m : Channel) :
    (list.foldl f s).chan m = (if m ∈ list then chan m (s.chan m) else s.chan m) ∧
    (list.foldl f s).attn.port.get m = (if m ∈ list then latch (s.chan m) (s.attn.port.get m) else s.attn.port.get m) ∧
    (list.foldl f s).attn.detachedCond.get m =
      (if m ∈ list then cond (s.chan m) (s.attn.detachedCond.get m) else s.attn.detachedCond.get m) := by
  induction list generalizing s with
  | nil => simp
  | cons n list ih =>
    obtain ⟨hnew, hrest⟩ := List.nodup_cons.1 hnodup
    rw [List.foldl_cons]
    obtain ⟨hchan, hlatch, hcond⟩ := ih hrest (f s n) (h.inv s n hs)
    rw [hchan, hlatch, hcond, h.chan s n m hs, h.latch s n m hs, h.cond s n m hs]
    by_cases hn : n = m
    · subst hn
      simp [hnew]
    · simp [hn, Ne.symm hn]

theorem maskChannels_nodup (mask : Byte) : (maskChannels mask).Nodup := allChannels_nodup.filter _

/-! ## The end of a DETACHED condition (R178, R179) -/

/-- The PORT member of a channel after the end of its DETACHED condition. -/
def PortLatch.afterEnd (c : Chan) (p : PortLatch) : PortLatch :=
  if c.state = .detached ∧ p.mark = true then PortLatch.clear else p

/-- The DETACHED condition of a channel that leaves DETACHED. -/
def condAfterEnd (c : Chan) (b : Bool) : Bool := b && decide (c.state ≠ .detached)

theorem endDetachedOf_latch (s : State) (n m : Channel) : (s.endDetachedOf n).attn.port.get m =
    if n = m then (s.attn.port.get m).afterEnd (s.chan m) else s.attn.port.get m := by
  rw [endDetachedOf_attn]
  unfold PortLatch.afterEnd
  by_cases hn : n = m
  · subst hn
    by_cases hstate : (s.chan n).state = .detached
    · simp [hstate, endDetached_get]
    · simp [hstate]
  · rw [if_neg hn]
    split
    · rw [endDetached_get, if_neg hn]
    · rfl

theorem endDetachedOf_cond (s : State) (n m : Channel) : (s.endDetachedOf n).attn.detachedCond.get m =
    if n = m then condAfterEnd (s.chan m) (s.attn.detachedCond.get m) else s.attn.detachedCond.get m := by
  rw [endDetachedOf_attn]
  unfold condAfterEnd
  by_cases hn : n = m
  · subst hn
    by_cases hstate : (s.chan n).state = .detached
    · simp [hstate, endDetached_cond]
    · simp [hstate]
  · rw [if_neg hn]
    split
    · rw [endDetached_cond, if_neg hn]
    · rfl

/-! ## CHANNEL_START (R77) -/

/-- A channel as CHANNEL_START leaves it, its fault count included. -/
def Chan.startedFresh (c : Chan) : Chan := Chan.started { c with port := { c.port with faultCount := 0 } }

/-- The PORT member of a channel that is started: the end of its condition, then the change of its level. -/
def PortLatch.afterStart (c : Chan) (p : PortLatch) : PortLatch :=
  if c.level = .normal then p.afterEnd c else (p.afterEnd c).add .levelChange

theorem startChannel_own (s : State) (n : Channel) : (s.startChannel n).chan n = (s.chan n).startedFresh := by
  unfold State.startChannel State.setFaults
  rw [chan_modChan_same]
  unfold Chan.startedFresh
  split
  · rw [chan_modPort_same, endDetachedOf_chan]
  · rw [chan_modAttn_frame, chan_modPort_same, endDetachedOf_chan]

theorem startChannel_acts : ActsOnChannel State.startChannel (fun _ => True) (fun _ => Chan.startedFresh)
    PortLatch.afterStart condAfterEnd where
  inv := fun _ _ _ => trivial
  chan u n m _ := by
    by_cases hn : n = m
    · subst hn
      rw [startChannel_own, if_pos rfl]
    · rw [startChannel_chan u hn, if_neg hn]
  latch u n m _ := by
    rw [startChannel_attn]
    by_cases hn : n = m
    · subst hn
      rw [if_pos rfl]
      unfold PortLatch.afterStart
      by_cases hlevel : (u.chan n).level = .normal
      · rw [if_pos hlevel, if_pos hlevel, endDetachedOf_latch, if_pos rfl]
      · rw [if_neg hlevel, if_neg hlevel, latchPort_get, if_pos rfl, endDetachedOf_latch, if_pos rfl]
    · rw [if_neg hn]
      split
      · rw [endDetachedOf_latch, if_neg hn]
      · rw [latchPort_get, if_neg hn, endDetachedOf_latch, if_neg hn]
  cond u n m _ := by
    rw [startChannel_attn, ← endDetachedOf_cond]
    split <;> rfl

/-- What an operation on channels leaves: all but the channels and their members in the attention unit. -/
def OnlyPorts (s t : State) : Prop :=
  t = { s with chans := t.chans, attn := { s.attn with port := t.attn.port, detachedCond := t.attn.detachedCond } }

theorem endDetachedOf_onlyPorts (s : State) (n : Channel) : OnlyPorts s (s.endDetachedOf n) := by
  unfold OnlyPorts State.endDetachedOf
  split <;> rfl

theorem startChannel_onlyPorts (s : State) (n : Channel) : OnlyPorts s (s.startChannel n) := by
  have hend := endDetachedOf_onlyPorts s n
  unfold OnlyPorts at hend ⊢
  unfold State.startChannel State.setFaults
  generalize s.endDetachedOf n = u at *
  rw [hend]
  dsimp only
  split <;> rfl

theorem OnlyPorts.trans {s t u : State} (h : OnlyPorts s t) (k : OnlyPorts t u) : OnlyPorts s u := by
  unfold OnlyPorts at h k ⊢
  rw [k, h]

theorem mayStart_iff (c : Chan) :
    c.mayStart = true ↔ c.state = .halted ∨ c.state = .detached ∧ c.port.rejoinCount = 64 := by
  unfold Chan.mayStart
  rw [Bool.or_eq_true, Bool.and_eq_true, beq_iff_eq, beq_iff_eq, beq_iff_eq]
  rfl

/-- What a request that takes channels out of DETACHED does, from what it does to each. -/
theorem leavesDetached_of {s t : State} {mask : Byte} {latch : Channel → PortLatch → PortLatch}
    (hattn : t.attn = { s.attn with port := t.attn.port, detachedCond := t.attn.detachedCond })
    (hlatch : ∀ n : Channel, t.attn.port.get n =
      if n ∈ maskChannels mask then latch n ((s.attn.port.get n).afterEnd (s.chan n)) else s.attn.port.get n)
    (hcond : ∀ n : Channel, t.attn.detachedCond.get n =
      if n ∈ maskChannels mask then condAfterEnd (s.chan n) (s.attn.detachedCond.get n) else s.attn.detachedCond.get n) :
    LeavesDetached s t mask latch := by
  refine ⟨hattn, fun n => ⟨fun hn => ?_, fun hn => ?_⟩⟩
  · have hnot : n ∉ maskChannels mask := fun h => absurd ((mem_maskChannels mask n).1 h) (by rw [hn]; exact nofun)
    rw [hlatch, hcond, if_neg hnot, if_neg hnot]
    exact ⟨rfl, rfl⟩
  · have hin := (mem_maskChannels mask n).2 hn
    rw [hlatch, hcond, if_pos hin, if_pos hin]
    exact ⟨rfl, rfl⟩

/-- Settles O28: all of the masked channels start, or none. -/
theorem channelStartSeeksLock : Obligations.ChannelStartSeeksLock := by
  refine fun s mask hw => ⟨fun hmay => ?_, fun n hn hnot => exec_serve hw rfl ?_⟩
  · have hall : ((maskChannels mask).all fun n => (s.chan n).mayStart) = true :=
      List.all_eq_true.2 fun n hn => (mayStart_iff _).2 (hmay n ((mem_maskChannels mask n).1 hn))
    have htake : s.takeChannelStart mask = ((maskChannels mask).foldl State.startChannel s, done []) := if_pos hall
    have hparts := startChannel_acts.foldl (maskChannels mask) (maskChannels_nodup mask) s trivial
    have hrest : OnlyPorts s ((maskChannels mask).foldl State.startChannel s) :=
      foldl_rel (R := OnlyPorts) _ _ rfl fun u n hu => hu.trans (startChannel_onlyPorts u n)
    generalize (maskChannels mask).foldl State.startChannel s = t at *
    unfold OnlyPorts at hrest
    refine ⟨t.setHandedBack (.channelStart mask) (done []), exec_serve hw rfl htake, ?_, fun n => ?_, leavesDetached_of ?_
      (fun n => ?_) (fun n => (hparts n).2.2)⟩
    · rw [hrest]
      rfl
    · obtain ⟨hchan, -, -⟩ := hparts n
      refine ⟨fun hn => ?_, fun hn => ?_⟩
      · refine hchan.trans (if_neg fun h => ?_)
        exact absurd ((mem_maskChannels mask n).1 h) (by rw [hn]; exact nofun)
      · exact hchan.trans (if_pos ((mem_maskChannels mask n).2 hn))
    · change t.attn = _
      rw [hrest]
      rfl
    · exact (hparts n).2.1
  · refine if_neg fun hall => hnot ((mayStart_iff _).1 ?_)
    exact List.all_eq_true.1 hall n ((mem_maskChannels mask n).2 hn)

/-! ## CHANNEL_HALT (R73, R78) -/

/-- A channel whose halt takes effect at once: HALTED, or HALTING while a job of it is in flight. -/
def Chan.haltedNow (c : Chan) (inFlight : Bool) : Chan :=
  { Chan.halted { c with port := c.port.halt } with state := if inFlight then .halting else .halted }

/-- A channel as a halt leaves it, from whether a job of it is in flight. -/
def Chan.haltedBy (c : Chan) (inFlight : Bool) : Chan :=
  if c.state.halts = false then c
  else if c.releaseWaits then { c with state := .halting, port := c.port.halt }
  else if c.state = .running ∧ c.currentEntry.isSome = true then
    { c with state := .halting, port := c.port.halt, sequencerClaim := some (.release false) }
  else c.haltedNow inFlight

/-- The state in which the sequencer's part of a halt is decided. -/
def State.enterHalting (s : State) (n : Channel) : State :=
  (s.endDetachedOf n).modChan n fun c => { c with state := .halting, port := c.port.halt }

theorem haltChannel_eq (s : State) (n : Channel) : s.haltChannel n =
    if (s.chan n).state.halts then (s.enterHalting n).haltSequencer n ((s.chan n).state == .running) else s := rfl

theorem enterHalting_chan (s : State) (n m : Channel) : (s.enterHalting n).chan m =
    if n = m then { s.chan m with state := .halting, port := (s.chan m).port.halt } else s.chan m := by
  unfold State.enterHalting
  rw [chan_modChan, endDetachedOf_chan]

theorem judgeHalted_chan_ne (s : State) {n m : Channel} (hn : n ≠ m) : (s.judgeHalted n).chan m = s.chan m := by
  unfold State.judgeHalted
  split
  · rfl
  · rw [report_chan, if_neg (fun h => hn h.1)]

theorem haltSequencer_chan_ne (s : State) {n m : Channel} (running : Bool) (hn : n ≠ m) :
    (s.haltSequencer n running).chan m = s.chan m := by
  unfold State.haltSequencer
  dsimp only
  split
  · rfl
  · split
    · exact chan_modChan_ne _ _ hn
    · rw [judgeHalted_chan_ne _ hn, chan_modChan_ne _ _ hn]

/-- The judgement of a channel that has just entered HALTING, its effects made. -/
theorem judgeHalted_halted (s : State) (n : Channel) (hstate : (s.chan n).state = .halting)
    (hwaits : (s.chan n).releaseWaits = false) : ((s.modChan n Chan.halted).judgeHalted n).chan n =
      { (s.chan n).halted with state := if s.inFlight n then .halting else .halted } := by
  have hsame : (s.modChan n Chan.halted).chan n = (s.chan n).halted := chan_modChan_same s n _
  have hflight : (s.modChan n Chan.halted).inFlight n = s.inFlight n := rfl
  have hhalting : (s.chan n).halted.state = .halting := hstate
  unfold State.judgeHalted
  rw [hflight]
  by_cases h : s.inFlight n = true
  · rw [if_pos h, if_pos h, hsame, ← hhalting]
  · rw [if_neg h, if_neg h, report_chan, hsame, if_pos ⟨rfl, hhalting, hwaits⟩]

theorem haltChannel_own (s : State) (n : Channel) : (s.haltChannel n).chan n = (s.chan n).haltedBy (s.inFlight n) := by
  rw [haltChannel_eq]
  unfold Chan.haltedBy
  by_cases hhalts : (s.chan n).state.halts = true
  · have hflight : (s.enterHalting n).inFlight n = s.inFlight n := by
      unfold State.enterHalting State.endDetachedOf
      split <;> rfl
    have hown : (s.enterHalting n).chan n = { s.chan n with state := .halting, port := (s.chan n).port.halt } := by
      rw [enterHalting_chan, if_pos rfl]
    rw [if_pos hhalts, if_neg (by rw [hhalts]; exact nofun)]
    generalize s.enterHalting n = u at *
    have hwaits : (u.chan n).releaseWaits = (s.chan n).releaseWaits := by rw [hown]; rfl
    have hcurrent : (u.chan n).currentEntry = (s.chan n).currentEntry := by rw [hown]
    unfold State.haltSequencer
    dsimp only
    rw [hwaits, hcurrent]
    cases hrelease : (s.chan n).releaseWaits with
    | true => exact hown
    | false =>
      rw [if_neg Bool.false_ne_true, if_neg Bool.false_ne_true]
      by_cases hrun : (s.chan n).state = .running ∧ (s.chan n).currentEntry.isSome = true
      · rw [if_pos hrun, if_pos (by simp [hrun]), chan_modChan_same, hown]
      · rw [if_neg hrun, if_neg (by simpa using hrun),
          judgeHalted_halted u n (by rw [hown]) (hwaits.trans hrelease), hflight, hown]
        rfl
  · rw [if_neg hhalts, if_pos (by simpa using hhalts)]

/-- The halt of a channel, as an operation on it alone; the jobs in flight are those of `s`. -/
theorem haltChannel_acts (s : State) : ActsOnChannel State.haltChannel (fun u => u.engines = s.engines)
    (fun n c => c.haltedBy (s.inFlight n)) (fun c p => p.afterEnd c) condAfterEnd where
  inv u n hu := by
    have h := haltChannel_keepsPool (KeepsPool.refl u) n
    exact h.engines.trans hu
  chan u n m hu := by
    have hflight : u.inFlight m = s.inFlight m := by unfold State.inFlight; rw [hu]
    by_cases hn : n = m
    · subst hn
      rw [if_pos rfl, haltChannel_own, hflight]
    · rw [if_neg hn, haltChannel_eq]
      split
      · rw [haltSequencer_chan_ne _ _ hn, enterHalting_chan, if_neg hn]
      · rfl
  latch u n m _ := by
    rw [haltChannel_attn, endDetachedOf_latch]
  cond u n m _ := by
    rw [haltChannel_attn, endDetachedOf_cond]

theorem not_halts_of_halted {c : ChannelState} (h : c = .halted) : ¬c.halts = true := by
  subst h
  exact nofun

theorem enterHalting_halts (s : State) (n : Channel) (h : (s.chan n).state.halts = true) : Halts s (s.enterHalting n) := by
  have hlink : (s.enterHalting n).link = s.link := by
    unfold State.enterHalting State.endDetachedOf
    split <;> rfl
  refine ⟨fun m hm => ?_, .inl (congrArg Link.flight hlink), fun mask _ hnot hall => absurd (fun m hm => ?_) hnot⟩
  · have hne : n ≠ m := fun e => not_halts_of_halted hm (e ▸ h)
    rw [enterHalting_chan, if_neg hne, hm]
  · have hhalted := hall m hm
    rw [enterHalting_chan] at hhalted
    split at hhalted
    · exact absurd hhalted nofun
    · exact hhalted

theorem haltSequencer_halts {s t : State} (h : Halts s t) (n : Channel) (running : Bool) :
    Halts s (t.haltSequencer n running) := by
  unfold State.haltSequencer
  dsimp only
  split
  · exact h
  · split
    · exact h.modChan n _ fun _ => rfl
    · exact judgeHalted_halts (h.modChan n Chan.halted fun _ => rfl) n

theorem haltChannel_halts (s : State) (n : Channel) : Halts s (s.haltChannel n) := by
  rw [haltChannel_eq]
  split
  · rename_i h
    exact haltSequencer_halts (enterHalting_halts s n h) n _
  · exact Halts.refl s

/-- What a halt leaves: all but the channels, their members in the attention unit and the request in flight. -/
def OnlyPortsAndFlight (s t : State) : Prop :=
  t = { s with
    chans := t.chans
    attn := { s.attn with port := t.attn.port, detachedCond := t.attn.detachedCond }
    link := { s.link with flight := t.link.flight } }

theorem OnlyPortsAndFlight.trans {s t u : State} (h : OnlyPortsAndFlight s t) (k : OnlyPortsAndFlight t u) :
    OnlyPortsAndFlight s u := by
  unfold OnlyPortsAndFlight at h k ⊢
  rw [k, h]

theorem OnlyPortsAndFlight.of_onlyPorts {s t : State} (h : OnlyPorts s t) : OnlyPortsAndFlight s t := by
  unfold OnlyPorts at h
  unfold OnlyPortsAndFlight
  rw [h]

theorem modChan_onlyPortsAndFlight (s : State) (n : Channel) (f : Chan → Chan) : OnlyPortsAndFlight s (s.modChan n f) := rfl

theorem report_onlyPortsAndFlight (s : State) (n : Channel) : OnlyPortsAndFlight s (s.report n) := by
  unfold OnlyPortsAndFlight
  rw [report_rest s n]

theorem haltSequencer_onlyPortsAndFlight (s : State) (n : Channel) (running : Bool) :
    OnlyPortsAndFlight s (s.haltSequencer n running) := by
  unfold State.haltSequencer State.judgeHalted
  dsimp only
  split
  · rfl
  · split
    · rfl
    · split
      · rfl
      · exact (modChan_onlyPortsAndFlight s n _).trans (report_onlyPortsAndFlight _ n)

theorem haltChannel_onlyPortsAndFlight (s : State) (n : Channel) : OnlyPortsAndFlight s (s.haltChannel n) := by
  rw [haltChannel_eq]
  split
  · have hend : OnlyPortsAndFlight s (s.endDetachedOf n) := .of_onlyPorts (endDetachedOf_onlyPorts s n)
    exact (hend.trans (modChan_onlyPortsAndFlight _ n _)).trans (haltSequencer_onlyPortsAndFlight _ n _)
  · rfl

/-! ## The CHANNEL_HALT at its taking -/

/-- The halts of the masked channels, before the check of their end. -/
def State.haltMasked (s : State) (mask : Byte) : State :=
  (maskChannels mask).foldl State.haltChannel (s.setCarried (.channelHalt mask))

/-- What the halts of the masked channels do to a state. -/
structure HaltsMasked (s t : State) (mask : Byte) : Prop where
  rest : OnlyPortsAndFlight (s.setCarried (.channelHalt mask)) t
  halts : Halts (s.setCarried (.channelHalt mask)) t
  unmasked : ∀ n : Channel, mask.getLsbD n.val = false → t.chan n = s.chan n
  masked : ∀ n : Channel, mask.getLsbD n.val = true → t.chan n = (s.chan n).haltedBy (s.inFlight n)
  leaves : LeavesDetached s t mask fun _ latch => latch

theorem haltMasked_haltsMasked (s : State) (mask : Byte) : HaltsMasked s (s.haltMasked mask) mask := by
  have hparts := (haltChannel_acts (s.setCarried (.channelHalt mask))).foldl (maskChannels mask) (maskChannels_nodup mask)
    (s.setCarried (.channelHalt mask)) rfl
  have hrest : OnlyPortsAndFlight (s.setCarried (.channelHalt mask)) (s.haltMasked mask) :=
    foldl_rel (R := OnlyPortsAndFlight) _ _ rfl fun u n hu => hu.trans (haltChannel_onlyPortsAndFlight u n)
  have hhalts : Halts (s.setCarried (.channelHalt mask)) (s.haltMasked mask) :=
    foldl_rel (R := Halts) _ _ (Halts.refl _) fun u n hu => hu.trans (haltChannel_halts u n)
  have hattn : (s.haltMasked mask).attn = { s.attn with
      port := (s.haltMasked mask).attn.port, detachedCond := (s.haltMasked mask).attn.detachedCond } :=
    congrArg State.attn hrest
  refine ⟨hrest, hhalts, fun n hn => ?_, fun n hn => ?_, leavesDetached_of hattn (fun n => (hparts n).2.1)
    fun n => (hparts n).2.2⟩
  · refine (hparts n).1.trans (if_neg fun h => ?_)
    exact absurd ((mem_maskChannels mask n).1 h) (by rw [hn]; exact nofun)
  · exact (hparts n).1.trans (if_pos ((mem_maskChannels mask n).2 hn))

/-- A waiting CHANNEL_HALT whose channels are not all HALTED after the halts stays with its owner. -/
theorem exec_channelHalt_waits {s : State} {mask : Byte} (hw : s.Waits (.channelHalt mask)) {n : Channel}
    (hn : mask.getLsbD n.val = true) (hnot : ((s.haltMasked mask).chan n).state ≠ .halted) :
    exec (.channelHalt mask) s = .next (s.haltMasked mask) ∧
    s.haltMasked mask = { s with
      chans := (s.haltMasked mask).chans
      attn := (s.haltMasked mask).attn
      link := { s.link with flight := .carried (.channelHalt mask) } } := by
  have hmasked := haltMasked_haltsMasked s mask
  have hexec : exec (.channelHalt mask) s = .next (s.haltMasked mask).haltCheck := by
    change Host.Outcome.next _ = _
    rw [reachOwner_launched s _ hw]
    rfl
  generalize s.haltMasked mask = t at *
  have hflight : t.link.flight = .carried (.channelHalt mask) := by
    rcases hmasked.halts.flight with h | ⟨other, hcarried, hall, -⟩
    · exact h
    · cases hcarried
      exact absurd (hall n hn) hnot
  have hcheck : t.haltCheck = t := by
    refine (haltCheck_flight t).2 fun other hother hall => hnot (hall n ?_)
    rw [hflight] at hother
    cases hother
    exact hn
  refine ⟨by rw [hexec, hcheck], ?_⟩
  have hrest := hmasked.rest
  unfold OnlyPortsAndFlight at hrest
  rw [hflight] at hrest
  have hattn := congrArg State.attn hrest
  rw [hrest]
  rfl

/-- A waiting CHANNEL_HALT whose channels are all HALTED after the halts completes. -/
theorem exec_channelHalt_done {s : State} {mask : Byte} (hw : s.Waits (.channelHalt mask))
    (hall : (s.haltMasked mask).AllHalted mask) :
    ∃ t : State, exec (.channelHalt mask) s = .next t ∧ t.chans = (s.haltMasked mask).chans ∧
      t.attn = (s.haltMasked mask).attn ∧
      t = { s with chans := t.chans, attn := t.attn }.setHandedBack (.channelHalt mask) (done []) := by
  have hmasked := haltMasked_haltsMasked s mask
  have hexec : exec (.channelHalt mask) s = .next (s.haltMasked mask).haltCheck := by
    change Host.Outcome.next _ = _
    rw [reachOwner_launched s _ hw]
    rfl
  generalize s.haltMasked mask = t at *
  refine ⟨t.haltCheck, hexec, haltCheck_chans t, haltCheck_attn t, ?_⟩
  have hrest := hmasked.rest
  unfold OnlyPortsAndFlight at hrest
  have hflight : t.haltCheck.link.flight = .handedBack (.channelHalt mask) (done []) := by
    rcases hmasked.halts.flight with h | ⟨other, hcarried, -, hanswered⟩
    · exact (haltCheck_flight t).1 mask h hall
    · cases hcarried
      rw [(haltCheck_flight t).2 fun other hother => by rw [hanswered] at hother; exact nomatch hother]
      exact hanswered
  have hcheck : t.haltCheck = { t with link := { t.link with flight := t.haltCheck.link.flight } } := by
    unfold State.haltCheck State.handBack
    repeat' split
    all_goals rfl
  rw [hflight] at hcheck
  rw [hcheck, hrest]
  rfl

/-- A channel that is acted on with no release waiting and no current entry to release. -/
theorem haltedBy_now {c : Chan} {inFlight : Bool} (hhalts : c.state.halts = true) (hwaits : c.releaseWaits = false)
    (hcurrent : c.currentEntry = none) : c.haltedBy inFlight = c.haltedNow inFlight := by
  unfold Chan.haltedBy
  rw [if_neg (by rw [hhalts]; exact nofun), hwaits, if_neg Bool.false_ne_true, if_neg (by rw [hcurrent]; exact nofun ∘ And.right)]

theorem haltedBy_halting {c : Chan} (hhalts : c.state.halts = true) : (c.haltedBy true).state = .halting := by
  unfold Chan.haltedBy
  rw [if_neg (by rw [hhalts]; exact nofun)]
  split
  · rfl
  · split
    · rfl
    · rfl

theorem haltedBy_halted {c : Chan} {inFlight : Bool} (h : c.state = .halted) : c.haltedBy inFlight = c :=
  if_pos (by rw [h]; rfl)

theorem halts_of_ne {c : ChannelState} (hhalted : c ≠ .halted) (hhalting : c ≠ .halting) : c.halts = true := by
  cases c with
  | seeking | running | detached => rfl
  | halted => exact absurd rfl hhalted
  | halting => exact absurd rfl hhalting

/-- Settles O29: a CHANNEL_HALT completes at its taking, or waits for a job in flight or for a release. -/
theorem channelHaltCompletesOrWaits : Obligations.ChannelHaltCompletesOrWaits := by
  refine ⟨fun s mask hw hfree => ?_, fun s mask n hw hn hflight hstate => ?_, fun s mask n e hw hn hrun hcurrent hwaits => ?_⟩
  · have hmasked := haltMasked_haltsMasked s mask
    have hown : ∀ n : Channel, mask.getLsbD n.val = true → (s.chan n).state ≠ .halted →
        (s.haltMasked mask).chan n = (s.chan n).haltedNow false := fun n hn hnot => by
      obtain ⟨hflight, hcurrent, hwaits, hhalting⟩ := hfree n hn
      rw [hmasked.masked n hn, hflight, haltedBy_now (halts_of_ne hnot hhalting) hwaits hcurrent]
    have hkept : ∀ n : Channel, (s.chan n).state = .halted → (s.haltMasked mask).chan n = s.chan n := fun n h => by
      cases hn : mask.getLsbD n.val with
      | false => exact hmasked.unmasked n hn
      | true => rw [hmasked.masked n hn, haltedBy_halted h]
    have hall : (s.haltMasked mask).AllHalted mask := fun n hn => by
      by_cases h : (s.chan n).state = .halted
      · rw [hkept n h, h]
      · rw [hown n hn h]
        rfl
    obtain ⟨t, hexec, hchans, hattn, ht⟩ := exec_channelHalt_done hw hall
    have hchan : ∀ n : Channel, t.chan n = (s.haltMasked mask).chan n := fun n => congrArg (fun v => v.get n) hchans
    refine ⟨t, hexec, ht, ?_, fun n => ⟨?_, fun hn hnot => (hchan n).trans (hown n hn hnot)⟩⟩
    · have hleaves := hmasked.leaves
      unfold LeavesDetached at hleaves ⊢
      rw [hattn]
      exact hleaves
    · rintro (hn | hhalted)
      · exact (hchan n).trans (hmasked.unmasked n hn)
      · exact (hchan n).trans (hkept n hhalted)
  · have hmasked := haltMasked_haltsMasked s mask
    have hhalts : (s.chan n).state.halts = true := by
      rcases hstate with h | h | h <;> rw [h] <;> rfl
    have hhalting : ((s.haltMasked mask).chan n).state = .halting := by
      rw [hmasked.masked n hn, hflight, haltedBy_halting hhalts]
    obtain ⟨hexec, ht⟩ := exec_channelHalt_waits hw hn (by rw [hhalting]; exact nofun)
    exact ⟨_, hexec, hhalting, ht, hmasked.leaves, hmasked.unmasked⟩
  · have hmasked := haltMasked_haltsMasked s mask
    have hown : (s.haltMasked mask).chan n =
        { s.chan n with state := .halting, port := (s.chan n).port.halt, sequencerClaim := some (.release false) } := by
      rw [hmasked.masked n hn]
      unfold Chan.haltedBy
      rw [if_neg (by rw [hrun]; exact nofun), hwaits, if_neg Bool.false_ne_true, if_pos ⟨hrun, by rw [hcurrent]; rfl⟩]
    obtain ⟨hexec, ht⟩ := exec_channelHalt_waits hw hn (by rw [hown]; exact nofun)
    exact ⟨_, hexec, hown, ht, hmasked.leaves, hmasked.unmasked⟩

end Sys2Proof.Machine
end

