-- ==== Sys2Proof/Proofs/LinkTransfers.lean ====
section
/-! The transfers of the management link (R161 to R169): pieces, their check and judgement, and result reads. -/

namespace Sys2Proof.Machine

/-! ## The check byte (R165) -/

/-- The register before one bit of the check was taken in. -/
def crc8BitBack (crc : Byte) (bit : Bool) : Byte :=
  (if crc.getLsbD 0 then crc ^^^ 0x07 else crc) >>> 1 ||| bitAt 7 (bit != crc.getLsbD 0)

theorem crc8BitBack_crc8Bit (bit : Bool) (crc : Byte) : crc8BitBack (crc8Bit crc bit) bit = crc := by
  revert bit crc
  decide +kernel

theorem crc8Bit_injective (bit : Bool) : Function.Injective fun crc => crc8Bit crc bit :=
  Function.LeftInverse.injective (g := fun crc => crc8BitBack crc bit) (crc8BitBack_crc8Bit bit)

theorem crc8Bits_injective (b : Byte) (bits : List Nat) :
    Function.Injective fun crc => bits.foldl (fun c k => crc8Bit c (b.getLsbD k)) crc := by
  induction bits with
  | nil => exact Function.injective_id
  | cons k bits ih => exact ih.comp (crc8Bit_injective (b.getLsbD k))

theorem crc8Byte_self (b : Byte) : crc8Byte b b = 0 := by
  revert b
  decide +kernel

/-- A byte brings the register to 0 exactly when the register held that byte. -/
theorem crc8Byte_eq_zero_iff (crc b : Byte) : crc8Byte crc b = 0 ↔ b = crc := by
  refine ⟨fun h => ?_, fun h => h ▸ crc8Byte_self b⟩
  exact (crc8Bits_injective b _ (h.trans (crc8Byte_self b).symm)).symm

theorem crc8_append_check_eq_zero_iff (bytes : List Byte) (check : Byte) :
    crc8 (bytes ++ [check]) = 0 ↔ check = crc8 bytes := by
  unfold crc8
  rw [List.foldl_append, List.foldl_cons, List.foldl_nil]
  exact crc8Byte_eq_zero_iff _ check

/-! ## A transfer that opens a transaction at the part's address -/

theorem timesOut_opening {s : State} {low : Nat} (hnone : s.link.transaction = none) (hlow : low < 30) :
    s.link.timesOut s.link.address low = false := by
  unfold Link.timesOut Link.lowWith
  rw [hnone]
  have hshort : ¬30 ≤ low := by omega
  simp [Config.clockLowLimit, hshort]

theorem writeTransfer_opening {s : State} {low : Nat} (hnone : s.link.transaction = none) (hlow : low < 30)
    (bytes : List Byte) (ending : Ending) :
    s.writeTransfer s.link.address bytes low ending = s.openWrite bytes low ending := by
  unfold State.writeTransfer
  rw [timesOut_opening hnone hlow, if_neg Bool.false_ne_true, if_neg (fun h => h rfl), hnone]

theorem busy_iff (f : Flight) : f.busy = true ↔ f ≠ .idle := by
  cases f <;> simp [Flight.busy]

/-- The command bytes that R162 refuses. -/
theorem commandRefused_iff (c : Byte) (f : Flight) : commandRefused c f.busy = true ↔
    isResult c = false ∧ f ≠ .idle ∨ c.extractLsb' 0 4 ≠ 0 ∨ isResult c = true ∧ (isFirst c = true ∨ isLast c = true) := by
  unfold commandRefused
  rw [← busy_iff]
  generalize c.extractLsb' 0 4 = low
  by_cases h : low = 0 <;> cases isResult c <;> cases f.busy <;> simp [h]

/-- The end of the transfer: the transaction after it. -/
def State.endTransfer (s : State) (bytes : List Byte) (c : Byte) (low : Nat) (ending : Ending) : State :=
  s.modLink fun k => { k with transaction := transactionAfter ending (Transaction.opened c bytes low) }

/-- A transfer whose command byte is refused changes nothing but the transaction and what the wires show. -/
theorem writeTransfer_refused {s : State} {c : Byte} {low : Nat} (hnone : s.link.transaction = none) (hlow : low < 30)
    (hrefused : isResult c = false ∧ s.link.flight ≠ .idle ∨ c.extractLsb' 0 4 ≠ 0 ∨
      isResult c = true ∧ (isFirst c = true ∨ isLast c = true)) (rest : List Byte) (ending : Ending) :
    s.writeTransfer s.link.address (c :: rest) low ending = s.modLink fun k => { k with
      acks := [true, false] ++ rest.map fun _ => false
      transaction := transactionAfter ending (Transaction.bare low) } := by
  rw [writeTransfer_opening hnone hlow]
  unfold State.openWrite
  exact if_pos ((commandRefused_iff c s.link.flight).2 hrefused)

/-- A piece whose command byte is accepted. -/
theorem writeTransfer_piece {s : State} {c : Byte} {low : Nat} (hnone : s.link.transaction = none) (hlow : low < 30)
    (hlowBits : c.extractLsb' 0 4 = 0) (hresult : isResult c = false) (hidle : s.link.flight = .idle)
    (rest : List Byte) (ending : Ending) :
    s.writeTransfer s.link.address (c :: rest) low ending = (s.piece c rest).endTransfer (c :: rest) c low ending := by
  have haccepted : ¬commandRefused c s.link.flight.busy = true := fun h => by
    rcases (commandRefused_iff c s.link.flight).1 h with ⟨-, h⟩ | h | ⟨h, -⟩
    · exact h hidle
    · exact h hlowBits
    · rw [hresult] at h
      exact nomatch h
  rw [writeTransfer_opening hnone hlow]
  unfold State.openWrite
  dsimp only
  rw [if_neg haccepted, if_neg (by rw [hresult]; exact nofun)]
  rfl

theorem opened_eq {c : Byte} (hresult : isResult c = false) (bytes : List Byte) (low : Nat) :
    Transaction.opened c bytes low = { command := some c, received := bytes, readPending := none, clockLow := low } := by
  unfold Transaction.opened
  rw [hresult]
  rfl

theorem endTransfer_transaction {s : State} {c : Byte} (hresult : isResult c = false) (bytes : List Byte) (low : Nat) :
    (s.endTransfer bytes c low .repeatedStart).link.transaction =
      some { command := some c, received := bytes, readPending := none, clockLow := low } :=
  congrArg some (opened_eq hresult bytes low)

/-- A piece launches, refuses or stages; the acknowledge bits it sends are not touched by that. -/
theorem endPiece_acks (s : State) (c : Byte) (outcome : CheckOutcome) : (s.endPiece c outcome).link.acks = s.link.acks := by
  unfold State.endPiece State.judgeLast
  repeat' split
  all_goals rfl

/-! ## The end of a piece (R164, R166) -/

/-- The state with the staged bytes, overflow mark and acknowledge bits of a piece. -/
def State.staged (s : State) (bytes : List Byte) (overflow : Bool) (acks : List Bool) : State :=
  s.modLink fun k => { k with staging := bytes, overflow := overflow, acks := acks }

theorem judgeLast_judged (s : State) (staged : List Byte) (overflowed : Bool) (acks : List Bool) (bytes : List Byte)
    (c : Byte) (low : Nat) (ending : Ending) :
    LastJudged s (((s.staged staged overflowed acks).judgeLast).endTransfer bytes c low ending) staged overflowed := by
  refine ⟨fun hover r hdecode => ?_, fun hbad => ?_⟩
  · subst hover
    have hjudged : (s.staged staged false acks).judgeLast = (s.staged staged false acks).launchStaged r := by
      unfold State.judgeLast State.staged State.modLink
      dsimp only
      rw [if_neg Bool.false_ne_true, hdecode]
    rw [hjudged]
    rfl
  · have hjudged : (s.staged staged overflowed acks).judgeLast =
        (s.staged staged overflowed acks).writeRefusal .badRequest := by
      unfold State.judgeLast State.staged State.modLink
      dsimp only
      cases overflowed with
      | true => rw [if_pos rfl]
      | false =>
        rcases hbad with h | h
        · exact nomatch h
        · rw [if_neg Bool.false_ne_true, h]
    rw [hjudged]
    rfl

/-- A piece that stands or whose count was refused leaves what it staged, judged if it is the last. -/
theorem endPiece_staged {s : State} {outcome : CheckOutcome} (houtcome : outcome ≠ .failed) (c : Byte)
    (staged : List Byte) (overflowed : Bool) (acks : List Bool) (bytes : List Byte) (low : Nat) (ending : Ending) {t : State}
    (ht : t = ((s.staged staged overflowed acks).endPiece c outcome).endTransfer bytes c low ending) :
    t.link.acks = acks ∧
    (isLast c = false → t = { s with link := { s.link with
      staging := staged, overflow := overflowed, acks := t.link.acks, transaction := t.link.transaction } }) ∧
    (isLast c = true → LastJudged s t staged overflowed) := by
  subst ht
  refine ⟨endPiece_acks _ c outcome, fun hlast => ?_, fun hlast => ?_⟩
  · have hend : (s.staged staged overflowed acks).endPiece c outcome = s.staged staged overflowed acks := by
      unfold State.endPiece
      rw [if_neg houtcome, if_neg (by rw [hlast]; exact nofun)]
    rw [hend]
    rfl
  · have hend : (s.staged staged overflowed acks).endPiece c outcome = (s.staged staged overflowed acks).judgeLast := by
      unfold State.endPiece
      rw [if_neg houtcome, if_pos hlast]
    rw [hend]
    exact judgeLast_judged s staged overflowed acks bytes c low ending

/-- A piece whose check fails. -/
theorem endPiece_failed {s : State} (c : Byte) (staged : List Byte) (overflowed : Bool) (acks : List Bool)
    (bytes : List Byte) (low : Nat) (ending : Ending) {t : State}
    (ht : t = ((s.staged staged overflowed acks).endPiece c .failed).endTransfer bytes c low ending) :
    CheckFails s t ∧ t.link.acks = acks := by
  subst ht
  exact ⟨rfl, rfl⟩

/-! ## Unchecked pieces (R163) -/

theorem first_eq (k : Link) (c : Byte) : k.first c = { k with
    staging := if isFirst c then [] else k.staging, overflow := if isFirst c then false else k.overflow } := by
  unfold Link.first
  split <;> rfl

theorem piece_unchecked {s : State} {c : Byte} (hunchecked : isChecked c = false) {staged : List Byte} {overflowed : Bool}
    (hstaged : staged = if isFirst c then [] else s.link.staging)
    (hover : overflowed = if isFirst c then false else s.link.overflow) (hroom : staged.length ≤ 64) (payload : List Byte) :
    s.piece c payload = (s.staged (staged ++ payload.take (64 - staged.length))
      (overflowed || decide (64 < staged.length + payload.length))
      ([true, true] ++ (payload.take (64 - staged.length)).map (fun _ => true)
        ++ (payload.drop (64 - staged.length)).map (fun _ => false))).endPiece c .stands := by
  have hfits : decide (64 - staged.length < payload.length) = decide (64 < staged.length + payload.length) :=
    decide_eq_decide.2 (by omega)
  unfold State.piece
  rw [hunchecked, if_neg Bool.false_ne_true, first_eq, ← hstaged, ← hover, ← hfits]
  rfl

/-- Settles O47: an unchecked piece stages its payload, and LAST launches or refuses what is staged. -/
theorem uncheckedPieceStagesAndLaunches : Obligations.UncheckedPieceStagesAndLaunches := by
  refine ⟨fun s address bytes low ending h => ?_,
    fun s c payload staged overflowed low ending hnone hlow hbits hunchecked hresult hidle hsize hstaged hover => ?_,
    fun s c payload low ending hnone hlow hrefused => ?_⟩
  · obtain ⟨hsame, hnone⟩ := writeTransfer_ended s address bytes low h
    exact ⟨_, rfl, congrArg _ hsame.symm, hnone⟩
  · have hroom : staged.length ≤ 64 := by
      rw [hstaged]
      split
      · exact Nat.zero_le _
      · exact hsize
    have hwrite := writeTransfer_piece hnone hlow hbits hresult hidle payload ending
    obtain ⟨hacks, hkept, hjudged⟩ := endPiece_staged (outcome := .stands) nofun c _ _ _ (c :: payload) low ending
      (hwrite.trans (congrArg (State.endTransfer · (c :: payload) c low ending)
        (piece_unchecked hunchecked hstaged hover hroom payload)))
    refine ⟨_, rfl, hacks, fun hend => ?_, hkept, hjudged⟩
    subst hend
    rw [hwrite]
    exact endTransfer_transaction hresult _ low
  · have hwrite := writeTransfer_refused hnone hlow hrefused payload ending
    refine ⟨_, rfl, ?_, ?_⟩
    · rw [hwrite]
      rfl
    · rw [hwrite]
      rfl

/-! ## Checked pieces (R164) -/

/-- `n` acknowledge bits for the payload and those before it. -/
theorem acks_payload (payload : List Byte) :
    true :: true :: true :: payload.map (fun _ => true) = List.replicate (payload.length + 3) true := by
  rw [List.map_const', List.replicate_succ, List.replicate_succ, List.replicate_succ]

/-- A count byte within the room, its payload received whole. -/
theorem stageChecked_whole (k : Link) (c count check : Byte) (payload extra : List Byte)
    (hcount : count.toNat = payload.length) (hroom : k.staging.length + payload.length ≤ 64) :
    k.stageChecked c (count :: (payload ++ check :: extra)) =
      if check = crc8 (writeAddress k.address :: c :: count :: payload) then
        ({ k with
          staging := k.staging ++ payload
          acks := List.replicate (payload.length + 4) true ++ extra.map fun _ => false }, .stands)
      else ({ k with
        staging := k.staging ++ payload
        acks := List.replicate (payload.length + 3) true ++ false :: extra.map fun _ => false }, .failed) := by
  have hacks : List.replicate (payload.length + 3) true ++ true :: extra.map (fun _ => false) =
      List.replicate (payload.length + 4) true ++ extra.map fun _ => false := by
    rw [List.replicate_succ' (n := payload.length + 3), List.append_assoc]
    rfl
  unfold Link.stageChecked
  dsimp only
  rw [if_neg (by unfold Config.stagingSize; omega), if_neg (by unfold Config.stagingSize; omega), hcount,
    List.take_left, List.drop_left, acks_payload]
  dsimp only
  rw [hacks]

/-- A count byte within the room, no more bytes received than its payload. -/
theorem stageChecked_short (k : Link) (c count : Byte) (payload : List Byte) (hcount : payload.length ≤ count.toNat)
    (hroom : k.staging.length + count.toNat ≤ 64) : k.stageChecked c (count :: payload) =
      ({ k with staging := k.staging ++ payload, acks := List.replicate (payload.length + 3) true }, .failed) := by
  unfold Link.stageChecked
  dsimp only
  rw [if_neg (by unfold Config.stagingSize; omega), if_neg (by unfold Config.stagingSize; omega),
    List.take_of_length_le hcount, List.drop_of_length_le hcount, acks_payload]

theorem stageChecked_beyond (k : Link) (c count : Byte) (rest : List Byte) (hcount : count.toNat ≤ 64)
    (hroom : 64 < k.staging.length + count.toNat) : k.stageChecked c (count :: rest) =
      ({ k with overflow := true, acks := [true, true, false] ++ rest.map fun _ => false }, .countRefused) := by
  unfold Link.stageChecked
  dsimp only
  rw [if_neg (by unfold Config.stagingSize; omega), if_pos (by unfold Config.stagingSize; omega)]
  rfl

theorem stageChecked_huge (k : Link) (c count : Byte) (rest : List Byte) (hcount : 64 < count.toNat) :
    k.stageChecked c (count :: rest) =
      ({ k with acks := [true, true, false] ++ rest.map fun _ => false }, .countRefused) := by
  unfold Link.stageChecked
  exact if_pos hcount

/-- The link on which the bytes after the command byte are staged. -/
def Link.withStaged (k : Link) (staged : List Byte) (overflowed : Bool) : Link :=
  { k with staging := staged, overflow := overflowed }

/-- A checked piece, from what its bytes come to. -/
theorem piece_checked {s : State} {c : Byte} {staged : List Byte} {overflowed : Bool} (hchecked : isChecked c = true)
    (hstaged : staged = if isFirst c then [] else s.link.staging)
    (hover : overflowed = if isFirst c then false else s.link.overflow) {rest bytes : List Byte} {overflow : Bool}
    {acks : List Bool} {outcome : CheckOutcome}
    (h : (s.link.withStaged staged overflowed).stageChecked c rest =
      ({ s.link.withStaged bytes overflow with acks := acks }, outcome)) :
    s.piece c rest = (s.staged bytes overflow acks).endPiece c outcome := by
  have hfirst : s.link.first c = s.link.withStaged staged overflowed := by
    rw [first_eq, ← hstaged, ← hover]
    rfl
  unfold State.piece
  rw [hchecked, if_pos rfl, hfirst, h]
  rfl

/-- Settles O48: a checked piece stands, or fails, or has its count byte refused. -/
theorem checkedPieceStandsOrFails : Obligations.CheckedPieceStandsOrFails := by
  refine ⟨fun s address bytes low ending h => ?_,
    fun s c staged overflowed low ending hnone hlow hbits hchecked hresult hidle hstaged hover => ?_,
    fun s c rest low ending hnone hlow hrefused => ?_, crc8_append_check_eq_zero_iff⟩
  · obtain ⟨hsame, hnone⟩ := writeTransfer_ended s address bytes low h
    exact ⟨_, rfl, congrArg _ hsame.symm, hnone⟩
  · have hwrite : ∀ {rest : List Byte} (ending : Ending), s.writeTransfer s.link.address (c :: rest) low ending =
        (s.piece c rest).endTransfer (c :: rest) c low ending :=
      fun {rest} ending => writeTransfer_piece hnone hlow hbits hresult hidle rest ending
    have hpiece := @piece_checked s c staged overflowed hchecked hstaged hover
    refine ⟨fun count check payload extra hcount hroom hcheck => ?_, fun count check payload hcount hroom hcheck => ?_,
      fun count payload hcount hroom => ?_, ?_, fun count rest hcount hroom => ?_, fun count rest hcount => ?_,
      fun rest => ⟨_, rfl, ?_⟩⟩
    · have hstage := (stageChecked_whole (s.link.withStaged staged overflowed) c count check payload extra hcount
        hroom).trans (if_pos hcheck)
      exact ⟨_, rfl, endPiece_staged (outcome := .stands) nofun c _ _ _ _ low ending ((hwrite ending).trans
        (congrArg (State.endTransfer · _ c low ending) (hpiece hstage)))⟩
    · have hstage := (stageChecked_whole (s.link.withStaged staged overflowed) c count check payload [] hcount
        hroom).trans (if_neg hcheck)
      exact ⟨_, rfl, endPiece_failed c _ _ _ _ low ending ((hwrite ending).trans
        (congrArg (State.endTransfer · _ c low ending) (hpiece (bytes := staged ++ payload) (overflow := overflowed) hstage)))⟩
    · have hstage := stageChecked_short (s.link.withStaged staged overflowed) c count payload hcount hroom
      exact ⟨_, rfl, endPiece_failed c _ _ _ _ low ending ((hwrite ending).trans
        (congrArg (State.endTransfer · _ c low ending) (hpiece (bytes := staged ++ payload) (overflow := overflowed) hstage)))⟩
    · have hstage : (s.link.withStaged staged overflowed).stageChecked c [] =
          ({ s.link.withStaged staged overflowed with acks := [true, true] }, .failed) := rfl
      exact ⟨_, rfl, endPiece_failed c _ _ _ _ low ending ((hwrite ending).trans
        (congrArg (State.endTransfer · _ c low ending) (hpiece (bytes := staged) (overflow := overflowed) hstage)))⟩
    · have hstage := stageChecked_beyond (s.link.withStaged staged overflowed) c count rest hcount hroom
      exact ⟨_, rfl, endPiece_staged (outcome := .countRefused) nofun c _ _ _ _ low ending ((hwrite ending).trans
        (congrArg (State.endTransfer · _ c low ending) (hpiece hstage)))⟩
    · have hstage := stageChecked_huge (s.link.withStaged staged overflowed) c count rest hcount
      exact ⟨_, rfl, endPiece_staged (outcome := .countRefused) nofun c _ _ _ _ low ending ((hwrite ending).trans
        (congrArg (State.endTransfer · _ c low ending) (hpiece hstage)))⟩
    · rw [hwrite]
      exact endTransfer_transaction hresult _ low
  · have hwrite := writeTransfer_refused hnone hlow hrefused rest ending
    refine ⟨_, rfl, ?_, ?_⟩
    · rw [hwrite]
      rfl
    · rw [hwrite]
      rfl

/-! ## Result reads (R168, R169) -/

/-- What is sent, byte by byte. -/
theorem padded_getElem? (response : List Byte) {clocked i : Nat} (hi : i < clocked) :
    (padded response clocked)[i]? = some (response.getD i 0xFF) := by
  unfold padded
  by_cases h : i < response.length
  · rw [List.getElem?_append_left (by rw [List.length_take]; omega), List.getElem?_take_of_lt hi,
      List.getD_eq_getElem?_getD, List.getElem?_eq_getElem h]
    rfl
  · rw [List.getElem?_append_right (by rw [List.length_take]; omega), List.getElem?_replicate_of_lt
      (by rw [List.length_take]; omega), List.getD_eq_default _ _ (by omega)]

theorem padded_length (response : List Byte) (clocked : Nat) : (padded response clocked).length = clocked := by
  unfold padded
  rw [List.length_append, List.length_take, List.length_replicate]
  omega

/-- A response without a check byte. -/
theorem padded_plain (plain : List Byte) {clocked i : Nat} (hi : i < clocked) :
    (padded plain clocked)[i]? = some (if i < plain.length then plain.getD i 0 else 0xFF) := by
  rw [padded_getElem? plain hi]
  congr 1
  split
  · rename_i h
    rw [List.getD_eq_getElem _ _ h, List.getD_eq_getElem _ _ h]
  · exact List.getD_eq_default _ _ (by omega)

/-- A response with its check byte. -/
theorem padded_checked (plain : List Byte) (check : Byte) {clocked i : Nat} (hi : i < clocked) :
    (padded (plain ++ [check]) clocked)[i]? =
      some (if i < plain.length then plain.getD i 0 else if i = plain.length then check else 0xFF) := by
  rw [padded_getElem? _ hi]
  congr 1
  by_cases h : i < plain.length
  · rw [if_pos h, List.getD_append _ _ _ _ h, List.getD_eq_getElem _ _ h, List.getD_eq_getElem _ _ h]
  · rw [if_neg h, List.getD_append_right _ _ _ _ (by omega)]
    by_cases he : i = plain.length
    · rw [if_pos he, he, Nat.sub_self]
      rfl
    · rw [if_neg he]
      exact List.getD_eq_default _ _ (by rw [List.length_singleton]; omega)

/-- The state after the written bytes of a result read: RESULT marks a read as pending. -/
def State.asked (s : State) (c : Byte) (extra : List Byte) : State :=
  s.modLink fun k => { k with
    acks := true :: true :: extra.map fun _ => false
    transaction := some
      { command := some c, received := c :: extra, readPending := some (isChecked c), clockLow := 0 } }

theorem writeTransfer_resultRead {s : State} {c : Byte} (hnone : s.link.transaction = none)
    (hbits : c.extractLsb' 0 4 = 0) (hresult : isResult c = true) (hfirst : isFirst c = false)
    (hlast : isLast c = false) (extra : List Byte) :
    s.writeTransfer s.link.address (c :: extra) 0 .repeatedStart = s.asked c extra := by
  have haccepted : ¬commandRefused c s.link.flight.busy = true := fun h => by
    rcases (commandRefused_iff c s.link.flight).1 h with ⟨h, -⟩ | h | ⟨-, h | h⟩
    · rw [hresult] at h
      exact nomatch h
    · exact h hbits
    · rw [hfirst] at h
      exact nomatch h
    · rw [hlast] at h
      exact nomatch h
  rw [writeTransfer_opening hnone (by decide)]
  unfold State.openWrite Transaction.opened
  dsimp only
  rw [if_neg haccepted, hresult, if_pos rfl, if_pos rfl]
  rfl

/-- A read transfer at the part's address that does not reach the clock-low limit. -/
theorem readTransfer_reached {s : State} {low : Nat} (hshort : s.link.timesOut s.link.address low = false)
    (clocked : Nat) (ending : Ending) : s.readTransfer s.link.address clocked low ending = s.modLink fun k => { k with
      acks := [true], sent := padded s.response clocked, transaction := k.afterRead low ending } := by
  unfold State.readTransfer
  rw [hshort, if_neg Bool.false_ne_true, if_neg (fun h => h rfl)]

/-- The status byte, bit by bit. -/
theorem statusByte_bits (busy attn : Bool) (code : ResultCode) {b : Byte}
    (hb : b = bitAt 7 busy ||| bitAt 6 attn ||| code.code) : b.getLsbD 7 = busy ∧ b.getLsbD 6 = attn ∧
      b.getLsbD 5 = false ∧ b.getLsbD 4 = false ∧ (b.extractLsb' 0 4).zeroExtend 8 = code.code := by
  subst hb
  cases code <;> revert busy attn <;> decide

/-- The response to a read whose transaction asked for it. -/
theorem response_of_pending {s : State} {t : Transaction} (ht : s.link.transaction = some t) {c : Byte}
    (hcommand : t.command = some c) {checked : Bool} (hpending : t.readPending = some checked) : s.response =
      if checked then s.plainResponse ++
        [crc8 (writeAddress s.link.address :: c :: readAddress s.link.address :: s.plainResponse)]
      else s.plainResponse := by
  unfold State.response Link.checkedRead
  rw [ht]
  dsimp only
  rw [hpending]
  cases checked with
  | true => rw [if_pos rfl, if_pos rfl, hcommand]
  | false => rw [if_neg nofun, if_neg Bool.false_ne_true]

/-- The state after the two transfers of a result read that asks for a result. -/
theorem resultRead_asked {s : State} {c : Byte} {low : Nat} (hnone : s.link.transaction = none) (hlow : low < 30)
    (hbits : c.extractLsb' 0 4 = 0) (hresult : isResult c = true) (hfirst : isFirst c = false) (hlast : isLast c = false)
    (extra : List Byte) (clocked : Nat) (ending : Ending) :
    ∃ t : State, exec (.resultRead s.link.address (c :: extra) clocked low ending) s = .next t ∧
      t = { s with link := { s.link with acks := t.link.acks, sent := t.link.sent, transaction := t.link.transaction } } ∧
      t.link.sent = padded (if isChecked c then s.plainResponse ++
        [crc8 (writeAddress s.link.address :: c :: readAddress s.link.address :: s.plainResponse)]
        else s.plainResponse) clocked := by
  have hwrite := writeTransfer_resultRead hnone hbits hresult hfirst hlast extra
  have hexec : exec (.resultRead s.link.address (c :: extra) clocked low ending) s =
      .next ((s.writeTransfer s.link.address (c :: extra) 0 .repeatedStart).readTransfer s.link.address clocked low ending) :=
    rfl
  have hshort : (s.asked c extra).link.timesOut (s.asked c extra).link.address low = false := by
    have hlow' : ¬30 ≤ low := by omega
    unfold Link.timesOut Link.lowWith
    rw [show (s.asked c extra).link.transaction = some _ from rfl]
    simp [Config.clockLowLimit, hlow']
  have hread := readTransfer_reached hshort clocked ending
  rw [response_of_pending (s := s.asked c extra) rfl rfl rfl] at hread
  rw [hexec, hwrite]
  refine ⟨_, congrArg _ hread, rfl, rfl⟩

/-- Settles O49: a result read sends the last result. -/
theorem resultReadSendsLastResult : Obligations.ResultReadSendsLastResult := by
  refine ⟨fun s address written clocked low ending h => ?_,
    fun s c extra plain clocked low ending hnone hlow hbits hresult hfirst hlast hplain => ?_,
    fun s clocked low ending plain hnone hlow hplain => ?_, fun s => ?_⟩
  · obtain ⟨hsame, hnone⟩ := readTransfer_ended
      (if written.isEmpty then s else s.writeTransfer address written 0 .repeatedStart) address clocked low h
    exact ⟨_, rfl, congrArg _ hsame.symm, hnone⟩
  · obtain ⟨t, hexec, ht, hsent⟩ := resultRead_asked hnone hlow hbits hresult hfirst hlast extra clocked ending
    have hplain' : s.plainResponse = plain := hplain.symm
    rw [hplain'] at hsent
    refine ⟨t, hexec, ht, by rw [hsent, padded_length], fun i hi => ?_⟩
    rw [hsent]
    cases isChecked c with
    | true =>
      rw [if_pos rfl, padded_checked _ _ hi]
      simp only [and_true]
    | false =>
      rw [if_neg Bool.false_ne_true, padded_plain _ hi]
      simp only [Bool.false_eq_true, and_false, if_false]
  · have hplain' : s.response = plain := by
      unfold State.response Link.checkedRead
      rw [hnone, hplain]
      rfl
    have hread := readTransfer_reached (timesOut_opening hnone hlow) clocked ending
    rw [hplain'] at hread
    refine ⟨s.readTransfer s.link.address clocked low ending, rfl, ?_, ?_, fun i hi => ?_⟩
    · rw [hread]
      rfl
    · rw [hread]
      exact padded_length plain clocked
    · rw [hread]
      exact padded_plain plain hi
  · obtain ⟨hbusy, hattn, h5, h4, hcode⟩ :=
      statusByte_bits s.link.flight.busy s.attn.anySet s.link.lastResult.code (b := s.statusByte) rfl
    refine ⟨by rw [hbusy, busy_iff], ?_, h5, h4, hcode⟩
    rw [hattn]
    unfold Attn.anySet
    exact bne_iff_ne

end Sys2Proof.Machine
end

