-- ==== Sys2Proof/Proofs/Readings.lean ====
section
/-! The records that results carry, item by item at their offsets (10; R59, R172, R181, R185). -/

namespace Sys2Proof.Machine

/-! ## Fields of a word -/

theorem extract_above {n m : Nat} (x : BitVec n) (y : BitVec m) {start : Nat} (len : Nat) (h : m ≤ start) :
    (x ++ y).extractLsb' start len = x.extractLsb' (start - m) len := by
  refine BitVec.eq_of_getLsbD_eq fun i hi => ?_
  rw [BitVec.getLsbD_extractLsb', BitVec.getLsbD_extractLsb', BitVec.getLsbD_append, if_neg (by omega)]
  congr 2
  omega

theorem extract_within {n m : Nat} (x : BitVec n) (y : BitVec m) {start len : Nat} (h : start + len ≤ m) :
    (x ++ y).extractLsb' start len = y.extractLsb' start len := by
  refine BitVec.eq_of_getLsbD_eq fun i hi => ?_
  rw [BitVec.getLsbD_extractLsb', BitVec.getLsbD_extractLsb', BitVec.getLsbD_append, if_pos (by omega)]

theorem bit_above {n m : Nat} (x : BitVec n) (y : BitVec m) {i : Nat} (h : m ≤ i) :
    (x ++ y).getLsbD i = x.getLsbD (i - m) := by
  rw [BitVec.getLsbD_append, if_neg (Nat.not_lt.2 h)]

/-- The fields of a directives record, in their order. -/
theorem record24_fields (dominance : BitVec 1) (cadence : BitVec 2) (hasPhase : BitVec 1) (method : BitVec 2)
    (repair hasMask : BitVec 1) (phase profile top bottom : BitVec 4) {v : BitVec 24}
    (hv : v = dominance ++ cadence ++ hasPhase ++ method ++ repair ++ hasMask ++ phase ++ profile ++ top ++ bottom) :
    v.getLsbD 23 = dominance.getLsbD 0 ∧ v.extractLsb' 21 2 = cadence ∧ v.getLsbD 20 = hasPhase.getLsbD 0 ∧
    v.extractLsb' 18 2 = method ∧ v.getLsbD 17 = repair.getLsbD 0 ∧ v.getLsbD 16 = hasMask.getLsbD 0 ∧
    v.extractLsb' 12 4 = phase ∧ v.extractLsb' 8 4 = profile ∧ v.extractLsb' 4 4 = top ∧ v.extractLsb' 0 4 = bottom := by
  subst hv
  refine ⟨?_, ?_, ?_, ?_, ?_, ?_, ?_, ?_, ?_, ?_⟩
  · iterate 9 rw [bit_above _ _ (by decide)]
  · iterate 8 rw [extract_above _ _ _ (by decide)]
    rw [extract_within _ _ (by decide)]
    exact BitVec.extractLsb'_eq_self
  · iterate 7 rw [bit_above _ _ (by decide)]
    exact BitVec.getLsbD_append
  · iterate 6 rw [extract_above _ _ _ (by decide)]
    rw [extract_within _ _ (by decide)]
    exact BitVec.extractLsb'_eq_self
  · iterate 5 rw [bit_above _ _ (by decide)]
    exact BitVec.getLsbD_append
  · iterate 4 rw [bit_above _ _ (by decide)]
    exact BitVec.getLsbD_append
  · iterate 3 rw [extract_above _ _ _ (by decide)]
    rw [extract_within _ _ (by decide)]
    exact BitVec.extractLsb'_eq_self
  · iterate 2 rw [extract_above _ _ _ (by decide)]
    rw [extract_within _ _ (by decide)]
    exact BitVec.extractLsb'_eq_self
  · rw [extract_above _ _ _ (by decide), extract_within _ _ (by decide)]
    exact BitVec.extractLsb'_eq_self
  · rw [extract_within _ _ (by decide)]
    exact BitVec.extractLsb'_eq_self

theorem ofBool_bit (b : Bool) : (BitVec.ofBool b).getLsbD 0 = b := by
  cases b <;> rfl

theorem directivesAre_encode (d : Directives) : DirectivesAre (encodeDirectives d) d := by
  obtain ⟨hdominance, hcadence, hphase, hmethod, hrepair, hmask, hphaseNo, hprofile, htop, hbottom⟩ :=
    record24_fields _ _ _ _ _ _ _ _ _ _ (v := encodeDirectives d) rfl
  refine ⟨hdominance.trans ?_, hcadence.trans ?_, hphase.trans ?_, hmethod.trans ?_, hrepair.trans ?_, hmask.trans ?_,
    (congrArg BitVec.toNat hphaseNo).trans ?_, (congrArg BitVec.toNat hprofile).trans ?_,
    (congrArg BitVec.toNat htop).trans ?_, (congrArg BitVec.toNat hbottom).trans ?_⟩
  · cases d.dominance <;> rfl
  · cases d.cadence <;> rfl
  · exact ofBool_bit _
  · cases d.method <;> rfl
  · exact ofBool_bit _
  · exact ofBool_bit _
  · cases d.phase with
    | none => rfl
    | some p => exact Nat.mod_eq_of_lt (Nat.lt_trans p.isLt (by decide))
  · exact Nat.mod_eq_of_lt d.profile.isLt
  · cases d.mask with
    | none => rfl
    | some m => exact Nat.mod_eq_of_lt m.top.isLt
  · cases d.mask with
    | none => rfl
    | some m => exact Nat.mod_eq_of_lt m.bottom.isLt

/-- A handle, or 0 where it is absent, in 16 bits. -/
theorem handle_toNat (h : Option Handle) : (BitVec.ofNat 16 ((h.map Fin.val).getD 0)).toNat = (h.map Fin.val).getD 0 := by
  cases h with
  | none => rfl
  | some h => exact Nat.mod_eq_of_lt (Nat.lt_trans h.isLt (by decide))

/-! ## ENTRY_READ (R59) -/

theorem entryFlags_bits (monitor reserve parent : Bool) (owner : Option Channel) {b : Byte}
    (hb : b = bitAt 7 monitor ||| bitAt 6 owner.isSome ||| bitAt 5 reserve ||| bitAt 4 parent |||
      (match owner with | some c => byte c.val | none => 0)) :
    b.getLsbD 7 = monitor ∧ b.getLsbD 6 = owner.isSome ∧ b.getLsbD 5 = reserve ∧ b.getLsbD 4 = parent ∧
    b.getLsbD 3 = false ∧ (b.extractLsb' 0 3).toNat = (owner.map Fin.val).getD 0 := by
  subst hb
  cases owner with
  | none => revert monitor reserve parent; decide
  | some c => revert monitor reserve parent c; decide

theorem isReserve_eq (c : Charge) : c.isReserve = decide (c ≠ .shared) := by
  cases c <;> rfl

/-- The parent of an entry, as its record carries it. -/
theorem parent_bytes (parent : Option (Handle × Gen)) :
    (match parent with | some (h, g) => num16 h.val ++ [g] | none => [0, 0, 0]) =
      bytes16 (BitVec.ofNat 16 ((parent.map fun p => p.1.val).getD 0)) ++ [(parent.map Prod.snd).getD 0] := by
  cases parent with
  | none => rfl
  | some p => rfl

theorem entryRecord_is {e : Entry} (h : e.state ≠ .free) : EntryRecordIs e (entryRecord e) := by
  have hrecord : entryRecord e = [e.state.code, e.gen] ++ bytes32 e.key ++ bytes24 e.first ++ bytes24 e.last
      ++ [entryFlags e, byte e.useCount] ++ bytes24 (encodeDirectives e.directives)
      ++ (bytes16 (BitVec.ofNat 16 ((e.parent.map fun p => p.1.val).getD 0)) ++ [(e.parent.map Prod.snd).getD 0]) := by
    rw [← parent_bytes]
    exact if_neg h
  have hparent : (BitVec.ofNat 16 ((e.parent.map fun p => p.1.val).getD 0)).toNat =
      (e.parent.map fun p => p.1.val).getD 0 := by
    cases e.parent with
    | none => rfl
    | some p => exact Nat.mod_eq_of_lt (Nat.lt_trans p.1.isLt (by decide))
  obtain ⟨hmonitor, howner, hcharge, hhasParent, hreserved, hchannel⟩ :=
    entryFlags_bits (e.origin == .monitor) e.charge.isReserve e.parent.isSome e.owner (b := entryFlags e) rfl
  have hdirectives := directivesAre_encode e.directives
  rw [← join_bytes24 (encodeDirectives e.directives)] at hdirectives
  rw [← join_bytes16 (BitVec.ofNat 16 _)] at hparent
  rw [isReserve_eq] at hcharge
  rw [hrecord]
  refine ⟨rfl, ?_, rfl, join_bytes32 e.key, join_bytes24 e.first, join_bytes24 e.last, hmonitor.trans ?_, howner, hcharge,
    hhasParent, hreserved, hchannel, rfl, hdirectives, hparent, rfl⟩
  · change e.state.code = _
    cases e.state <;> rfl
  · cases e.origin <;> rfl

/-! ## Members of a vector, in order -/

theorem toList_eight {α : Type} (v : Vector α 8) :
    v.toList = [v.get 0, v.get 1, v.get 2, v.get 3, v.get 4, v.get 5, v.get 6, v.get 7] := by
  refine List.ext_getElem (by simp) fun i hi _ => ?_
  have hi8 : i < 8 := by simpa using hi
  interval_cases i <;> rfl

theorem toList_four {α : Type} (v : Vector α 4) : v.toList = [v.get 0, v.get 1, v.get 2, v.get 3] := by
  refine List.ext_getElem (by simp) fun i hi _ => ?_
  have hi4 : i < 4 := by simpa using hi
  interval_cases i <;> rfl

theorem any_toList {α : Type} {n : Nat} (v : Vector α n) (f : α → Bool) :
    v.toList.any f = true ↔ ∃ i : Fin n, f (v.get i) = true := by
  rw [List.any_eq_true]
  constructor
  · rintro ⟨x, hx, hf⟩
    obtain ⟨i, hi, rfl⟩ := Vector.getElem_of_mem (Vector.mem_toList_iff.1 hx)
    exact ⟨⟨i, hi⟩, hf⟩
  · rintro ⟨i, hf⟩
    exact ⟨v.get i, Vector.mem_toList_iff.2 (Vector.getElem_mem i.isLt), hf⟩

/-! ## Bytes of flags -/

theorem bitAt_bit (k j : Fin 8) (b : Bool) : (bitAt k b).getLsbD j = (decide (k = j) && b) := by
  revert k j b
  decide

/-- A byte to which a flag was added at its place for each member of a list. -/
theorem foldl_bitAt_bit {α : Type} (place : α → Fin 8) (flag : α → Bool) (list : List α) (init : Byte) (j : Fin 8) :
    (list.foldl (fun b k => b ||| bitAt (place k) (flag k)) init).getLsbD j =
      (init.getLsbD j || list.any fun k => decide (place k = j) && flag k) := by
  induction list generalizing init with
  | nil => rw [List.foldl_nil, List.any_nil, Bool.or_false]
  | cons k list ih => rw [List.foldl_cons, ih, List.any_cons, BitVec.getLsbD_or, bitAt_bit, Bool.or_assoc]

theorem zero_bit (n : Nat) : (0 : Byte).getLsbD n = false := BitVec.getLsbD_zero

theorem channelSetByte_bit (v : Vector Bool 8) (n : Channel) : (channelSetByte v).getLsbD n.val = v.get n := by
  refine (foldl_bitAt_bit (fun k : Channel => k) v.get allChannels 0 n).trans ?_
  rw [Bool.eq_iff_iff, zero_bit, Bool.false_or, List.any_eq_true]
  constructor
  · rintro ⟨k, -, hk⟩
    obtain ⟨he, hv⟩ := (Bool.and_eq_true_iff).1 hk
    exact of_decide_eq_true he ▸ hv
  · exact fun hv => ⟨n, mem_allChannels n, by rw [hv]; simp⟩

/-- The byte of the STARVED conditions and of that of TABLE_LOW. -/
def conditionsByte (v : Vector Bool 4) (tableLow : Bool) : Byte :=
  allLanes.foldl (fun b l => b ||| bitAt l.val (v.get l)) 0 ||| bitAt 7 tableLow

theorem conditionsByte_bit (v : Vector Bool 4) (tableLow : Bool) (j : Fin 8) : (conditionsByte v tableLow).getLsbD j =
    ((allLanes.any fun l => decide (Fin.castLE (by decide) l = j) && v.get l) || (decide (7 = j) && tableLow)) := by
  unfold conditionsByte
  rw [BitVec.getLsbD_or]
  refine congr (congrArg or ?_) (bitAt_bit 7 j tableLow)
  refine (foldl_bitAt_bit (fun l : LaneId => Fin.castLE (by decide) l) v.get allLanes 0 j).trans ?_
  rw [zero_bit, Bool.false_or]

theorem conditionsByte_bits (v : Vector Bool 4) (tableLow : Bool) :
    (∀ l : LaneId, (conditionsByte v tableLow).getLsbD l.val = v.get l) ∧
    (conditionsByte v tableLow).extractLsb' 4 3 = 0 ∧ (conditionsByte v tableLow).getLsbD 7 = tableLow := by
  have hbit := conditionsByte_bit v tableLow
  refine ⟨fun l => (hbit (Fin.castLE (by decide) l)).trans ?_, BitVec.eq_of_getLsbD_eq fun i hi => ?_, (hbit 7).trans ?_⟩
  · fin_cases l <;> simp [allLanes]
  · rw [BitVec.getLsbD_extractLsb']
    interval_cases i
    · exact hbit 4
    · exact hbit 5
    · exact hbit 6
  · simp [allLanes]

/-! ## ATTN_READ (R181) -/

theorem portLatch_byte (p : PortLatch) : p.byte = BitVec.ofBool p.mark ++ 0#3 ++ BitVec.ofBool p.detached
    ++ BitVec.ofBool p.lockGained ++ BitVec.ofBool p.lockLost ++ BitVec.ofBool p.levelChange := by
  obtain ⟨levelChange, lockLost, lockGained, detached, mark⟩ := p
  revert levelChange lockLost lockGained detached mark
  decide

theorem flags_low (first second : Bool) :
    bitAt 0 first ||| bitAt 1 second = 0#6 ++ BitVec.ofBool second ++ BitVec.ofBool first := by
  revert first second
  decide

theorem flags_marked (set mark : Bool) : bitAt 0 set ||| bitAt 7 mark = BitVec.ofBool mark ++ 0#6 ++ BitVec.ofBool set := by
  revert set mark
  decide

theorem attnMode_bits (m : AttnMode) : m.bits = 0#1 ++ BitVec.ofBool (decide (m = .level)) := by
  cases m <;> rfl

theorem modesByte_eq (a : Attn) : a.modesByte = 0#3 ++ BitVec.ofBool (decide (a.tableLowMode = .level)) ++ 0#1
    ++ BitVec.ofBool (decide (a.starvedMode = .level)) ++ 0#1 ++ BitVec.ofBool (decide (a.portMode = .level)) := by
  unfold Attn.modesByte
  rw [attnMode_bits, attnMode_bits, attnMode_bits]
  generalize decide (a.tableLowMode = .level) = tableLow
  generalize decide (a.starvedMode = .level) = starved
  generalize decide (a.portMode = .level) = port
  revert tableLow starved port
  decide

/-- The bits of a byte of seven flags. -/
theorem sources_bits (f6 f5 f4 f3 f2 f1 f0 : Bool) {v : BitVec 7}
    (hv : v = BitVec.ofBool f6 ++ BitVec.ofBool f5 ++ BitVec.ofBool f4 ++ BitVec.ofBool f3 ++ BitVec.ofBool f2
      ++ BitVec.ofBool f1 ++ BitVec.ofBool f0) :
    v.getLsbD 0 = f0 ∧ v.getLsbD 1 = f1 ∧ v.getLsbD 2 = f2 ∧ v.getLsbD 3 = f3 ∧ v.getLsbD 4 = f4 ∧ v.getLsbD 5 = f5 ∧
    v.getLsbD 6 = f6 := by
  subst hv
  revert f6 f5 f4 f3 f2 f1 f0
  decide

theorem bit_zero_append (v : BitVec 7) (k : Fin 7) : ((0#1 ++ v : BitVec 8)).getLsbD k.val = v.getLsbD k.val := by
  rw [BitVec.getLsbD_append, if_pos k.isLt]

/-- The highest-priority source that stands in both masks. -/
theorem topSource_of (a : Attn) : (∀ k : Fin 7, a.setSources.getLsbD k.val = true → a.enables.getLsbD k.val = true →
      (∀ j : Fin 7, j < k → a.setSources.getLsbD j.val = false ∨ a.enables.getLsbD j.val = false) →
      a.topSource = BitVec.ofNat 8 k.val) ∧
    ((∀ k : Fin 7, a.setSources.getLsbD k.val = false ∨ a.enables.getLsbD k.val = false) → a.topSource = 0xFF) := by
  have hlist : [0, 1, 2, 3, 4, 5, 6] = (List.finRange 7).map Fin.val := by decide
  have hoff : ∀ k : Fin 7, (a.setSources.getLsbD k.val = false ∨ a.enables.getLsbD k.val = false) →
      (a.setSources &&& a.enables).getLsbD k.val = false := fun k h => by
    rw [BitVec.getLsbD_and]
    rcases h with h | h
    · rw [h, Bool.false_and]
    · rw [h, Bool.and_false]
  unfold Attn.topSource
  rw [hlist, List.find?_map]
  refine ⟨fun k hset hon hlower => ?_, fun hnone => ?_⟩
  · have hfound : (List.finRange 7).find? ((fun k => (a.setSources &&& a.enables).getLsbD k) ∘ Fin.val) = some k := by
      refine List.find?_eq_some_iff_getElem.2 ⟨?_, k.val, by simp, by simp, fun j hj => ?_⟩
      · rw [Function.comp, BitVec.getLsbD_and, hset, hon]
        rfl
      · simpa using hlower ⟨j, by omega⟩ hj
    rw [hfound]
    rfl
  · have hnot : (List.finRange 7).find? ((fun k => (a.setSources &&& a.enables).getLsbD k) ∘ Fin.val) = none :=
      List.find?_eq_none.2 fun k _ => by simp only [Function.comp, hoff k (hnone k)]; exact nofun
    rw [hnot]
    rfl

/-- The result of ATTN_READ, its vectors written out. -/
theorem attnRead_is (a : Attn) : AttnReadIs a a.readBytes := by
  obtain ⟨hport, hstarved, htable, hproposal, hcue, hstep, hrequest⟩ := sources_bits _ _ _ _ _ _ _ (v := a.setSources) rfl
  obtain ⟨hstarvedCond, hreserved, htableCond⟩ := conditionsByte_bits a.starvedCond a.tableLowCond
  obtain ⟨htop, hquiet⟩ := topSource_of a
  have hbytes : a.readBytes = [0#1 ++ a.setSources, 0#1 ++ a.enables, a.modesByte] ++ num16 a.threshold
      ++ num16 a.lastSharedFree
      ++ [channelSetByte a.detachedCond, conditionsByte a.starvedCond a.tableLowCond, a.topSource]
      ++ [a.port.get 0, a.port.get 1, a.port.get 2, a.port.get 3, a.port.get 4, a.port.get 5, a.port.get 6,
          a.port.get 7].map PortLatch.byte
      ++ [channelSetByte a.proposal]
      ++ [a.step.get 0, a.step.get 1, a.step.get 2, a.step.get 3, a.step.get 4, a.step.get 5, a.step.get 6,
          a.step.get 7].map (fun p => bitAt 0 p.none ||| bitAt 1 p.double)
      ++ [a.starved.get 0, a.starved.get 1, a.starved.get 2, a.starved.get 3].map (fun p => bitAt 0 p.set ||| bitAt 7 p.mark)
      ++ [a.cue.get 0, a.cue.get 1, a.cue.get 2, a.cue.get 3].map (fun p => bitAt 0 p.taken ||| bitAt 1 p.aborted)
      ++ [bitAt 7 a.tableLow.mark] := by
    unfold Attn.readBytes conditionsByte
    rw [toList_eight, toList_eight, toList_four, toList_four]
  have hlatched : ∀ p : PortLatch, p.inLatch = true ↔
      p.levelChange = true ∨ p.lockLost = true ∨ p.lockGained = true ∨ p.detached = true := fun p => by
    simp [PortLatch.inLatch, or_assoc]
  have hsource := bit_zero_append a.setSources
  rw [hbytes]
  refine ⟨rfl, ?_, ?_, (hsource 2).trans htable, ?_, ?_, ?_, (hsource 6).trans hrequest, ?_, rfl, modesByte_eq a,
    join_bytes16 _, join_bytes16 _, channelSetByte_bit a.detachedCond, hstarvedCond, hreserved, htableCond,
    fun k hset hon hlower => htop k ((hsource k).symm.trans hset) hon fun j hj => ?_, fun hnone => hquiet fun k => ?_,
    fun n => ?_, channelSetByte_bit a.proposal, fun n => ?_, fun l => ?_, fun l => ?_, ?_⟩
  · refine (Eq.congr_left ((hsource 0).trans hport)).trans ((any_toList a.port _).trans (exists_congr fun n => hlatched _))
  · exact (Eq.congr_left ((hsource 1).trans hstarved)).trans (any_toList a.starved _)
  · exact (Eq.congr_left ((hsource 3).trans hproposal)).trans (any_toList a.proposal _)
  · refine (Eq.congr_left ((hsource 4).trans hcue)).trans ((any_toList a.cue _).trans (exists_congr fun l => ?_))
    exact Bool.or_eq_true_iff
  · refine (Eq.congr_left ((hsource 5).trans hstep)).trans ((any_toList a.step _).trans (exists_congr fun n => ?_))
    exact Bool.or_eq_true_iff
  · exact bit_above _ _ (by decide)
  · exact (hlower j hj).imp_left (hsource j).symm.trans
  · exact (hnone k).imp_left (hsource k).symm.trans
  · fin_cases n <;> exact portLatch_byte _
  · fin_cases n <;> exact flags_low _ _
  · fin_cases l <;> exact flags_marked _ _
  · fin_cases l <;> exact flags_low _ _
  · cases a.tableLow.mark <;> rfl

/-- Settles O23: each read hands back its record and leaves the state. -/
theorem readsReportWithoutChange : Obligations.ReadsReportWithoutChange := by
  refine ⟨fun s handle h hw hc heq => ⟨fun hfree => ?_, fun hlive => ⟨entryRecord (s.entry h), entryRecord_is hlive, ?_⟩⟩,
    fun s handle hw hc habove => ?_, fun s hw hc => exec_serveTable hw hc rfl rfl,
    fun s hw => ⟨s.attn.readBytes, attnRead_is s.attn, exec_serve hw rfl rfl⟩⟩
  · have htake : s.takeEntryRead handle = (s, done [0, (s.entry h).gen]) := by
      unfold State.takeEntryRead entryRecord
      rw [handleOf_eq heq]
      dsimp only
      rw [if_pos hfree, hfree]
      rfl
    exact exec_serveTable hw hc rfl htake
  · have htake : s.takeEntryRead handle = (s, done (entryRecord (s.entry h))) := by
      unfold State.takeEntryRead
      rw [handleOf_eq heq]
    exact exec_serveTable hw hc rfl htake
  · have htake : s.takeEntryRead handle = (s, refuse .range) := by
      unfold State.takeEntryRead
      rw [handleOf_above habove]
    exact exec_serveTable hw hc rfl htake

end Sys2Proof.Machine
end

