-- ==== Sys2Proof/Proofs/CounterReads.lean ====
section
/-! CHANNEL_READ and LANE_READ (R79, R102, R158): their records, item by item, and the clearing of counters. -/

namespace Sys2Proof.Machine

/-! ## Places in a list of bytes -/

/-- A byte behind leading bytes. -/
theorem byteAt_append {before after : List Byte} {i : Nat} (j : Nat) (h : i = before.length + j) :
    byteAt (before ++ after) i = byteAt after j := by
  subst h
  unfold byteAt
  rw [List.getD_append_right _ _ _ _ (Nat.le_add_right _ _), Nat.add_sub_cancel_left]

theorem word16At_append {before after : List Byte} {i : Nat} (j : Nat) (h : i = before.length + j) :
    word16At (before ++ after) i = word16At after j := by
  unfold word16At
  rw [byteAt_append j h, byteAt_append (j + 1) (by omega)]

theorem word24At_append {before after : List Byte} {i : Nat} (j : Nat) (h : i = before.length + j) :
    word24At (before ++ after) i = word24At after j := by
  unfold word24At
  rw [byteAt_append j h, word16At_append (j + 1) (by omega)]

theorem word16At_num16 (v : Nat) (after : List Byte) : word16At (num16 v ++ after) 0 = BitVec.ofNat 16 v :=
  join_bytes16 _

theorem num16_length (v : Nat) : (num16 v).length = 2 := rfl

/-- A counter of a list, two bytes each. -/
theorem counter_at (counters : List Nat) (after : List Byte) {k : Nat} (h : k < counters.length) :
    word16At (counters.flatMap num16 ++ after) (2 * k) = BitVec.ofNat 16 counters[k] := by
  induction counters generalizing k with
  | nil => exact absurd h (Nat.not_lt_zero k)
  | cons v counters ih =>
    rw [List.flatMap_cons, List.append_assoc]
    cases k with
    | zero => exact word16At_num16 v _
    | succ k =>
      have hk : k < counters.length := Nat.lt_of_succ_lt_succ h
      rw [word16At_append (2 * k) (by rw [num16_length]; omega), List.getElem_cons_succ]
      exact ih hk

theorem counters_length (counters : List Nat) : (counters.flatMap num16).length = 2 * counters.length := by
  induction counters with
  | nil => rfl
  | cons v counters ih => rw [List.flatMap_cons, List.length_append, ih, num16_length, List.length_cons]; omega

/-- Some of the counters behind leading bytes. -/
theorem counters_at (head : List Byte) (before counters after : List Nat) {b : List Byte} {start n : Nat}
    (hb : b = head ++ (before ++ (counters ++ after)).flatMap num16) (hstart : start = head.length + 2 * before.length)
    (hn : n = counters.length) :
    (List.range n).map (fun k => word16At b (start + 2 * k)) = counters.map (BitVec.ofNat 16) := by
  subst hb hn
  refine List.ext_getElem (by simp) fun k hk _ => ?_
  have hlt : k < counters.length := by simpa using hk
  rw [List.getElem_map, List.getElem_map, List.getElem_range, List.flatMap_append, List.flatMap_append,
    word16At_append (2 * before.length + 2 * k) (by omega), word16At_append (2 * k) (by rw [counters_length]),
    counter_at counters _ hlt]

/-! ## The parts of a CHANNEL_READ result -/

theorem slotBytes_eq (x : Option WindowField) : slotBytes x = bytes24 (slotNumber x) := by
  cases x <;> rfl

/-- The bytes of a latched set at offsets 9 to 16. -/
structure LatchedSetIs (x : Option LatchedSet) (kind : Byte) (handle : BitVec 16) (gen state : Byte) (record : BitVec 24) :
    Prop where
  bytes : latchedSetBytes x = kind :: (bytes16 handle ++ [gen, state] ++ bytes24 record)
  none : x = none → kind = 0 ∧ handle = 0 ∧ gen = 0 ∧ state = 0 ∧ record = 0
  default : ∀ d : Directives, x = some (.default d) →
    kind = 1 ∧ handle = 0 ∧ gen = 0 ∧ state = 0 ∧ record = encodeDirectives d
  entry : ∀ (h : Handle) (g : Gen) (st : LiveState) (first : FieldNum) (d : Directives), x = some (.entry h g st first d) →
    kind = 2 ∧ handle = BitVec.ofNat 16 h.val ∧ gen = g ∧ state = st.code ∧ record = encodeDirectives d

theorem latchedSet_is (x : Option LatchedSet) :
    ∃ (kind : Byte) (handle : BitVec 16) (gen state : Byte) (record : BitVec 24),
      LatchedSetIs x kind handle gen state record := by
  cases x with
  | none => exact ⟨0, 0, 0, 0, 0, rfl, fun _ => ⟨rfl, rfl, rfl, rfl, rfl⟩, nofun, nofun⟩
  | some set =>
    cases set with
    | default d =>
      refine ⟨1, 0, 0, 0, encodeDirectives d, rfl, nofun, fun d' h => ?_, nofun⟩
      cases h
      exact ⟨rfl, rfl, rfl, rfl, rfl⟩
    | entry h g st first d =>
      refine ⟨2, BitVec.ofNat 16 h.val, g, st.code, encodeDirectives d, rfl, nofun, nofun, fun h' g' st' first' d' e => ?_⟩
      cases e
      exact ⟨rfl, rfl, rfl, rfl, rfl⟩

/-- The position of a field in a film cycle fits a byte. -/
theorem position_toNat (mode : Film) (align : Nat) (f : FieldNum) :
    (byte (mode.position align f)).toNat = (align + f.toNat) % mode.cycle := by
  have hcycle : mode.cycle ≤ 10 ∧ 0 < mode.cycle := by cases mode <;> decide
  have hlt := Nat.mod_lt (align + f.toNat) hcycle.2
  exact Nat.mod_eq_of_lt (by unfold Film.position; omega)

/-- Offsets 27 to 29 for a detector that has a mode and an alignment. -/
def FilmBytes (newer : Option WindowField) (state mode position detector : Byte) (film : Film) (align : Nat) : Prop :=
  state = detector ∧ mode = (match film with | .film22 => 2 | .film32 => 3) ∧ (newer = none → position = 0xFF) ∧
  ∀ f : WindowField, newer = some f → position.toNat = (align + f.field.number.toNat) % film.cycle

theorem filmBytes_of (newer : Option WindowField) (detector : Byte) (film : Film) (align : Nat) :
    FilmBytes newer detector film.code
      (match newer with | some f => byte (film.position align f.field.number) | none => 0xFF) detector film align := by
  refine ⟨rfl, by cases film <;> rfl, fun h => by rw [h], fun f h => ?_⟩
  rw [h]
  exact position_toNat film align f.field.number

/-- The bytes of a detector at offsets 27 to 29. -/
structure DetectorBytesAre (d : Detector) (newer : Option WindowField) (state mode position : Byte) : Prop where
  bytes : detectorBytes d newer = [state, mode, position]
  searching : d = .searching → state = 0 ∧ mode = 0 ∧ position = 0xFF
  candidate : ∀ (film : Film) (align count : Nat) (start : FieldRecord), d = .candidate film align count start →
    FilmBytes newer state mode position 1 film align
  locked : ∀ (film : Film) (align misses : Nat) (miss : Option FieldRecord), d = .locked film align misses miss →
    FilmBytes newer state mode position 2 film align

theorem detectorBytes_are (d : Detector) (newer : Option WindowField) :
    ∃ state mode position : Byte, DetectorBytesAre d newer state mode position := by
  cases d with
  | searching => exact ⟨0, 0, 0xFF, rfl, fun _ => ⟨rfl, rfl, rfl⟩, fun _ _ _ _ h => Detector.noConfusion h,
      fun _ _ _ _ h => Detector.noConfusion h⟩
  | candidate film align count start =>
    refine ⟨1, film.code, _, rfl, nofun, fun film' align' count' start' h => ?_,
      fun _ _ _ _ h => Detector.noConfusion h⟩
    cases h
    exact filmBytes_of newer 1 film align
  | locked film align misses miss =>
    refine ⟨2, film.code, _, rfl, nofun, fun _ _ _ _ h => Detector.noConfusion h, fun film' align' misses' miss' h => ?_⟩
    cases h
    exact filmBytes_of newer 2 film align

/-- Offset 30: which settled state it is. -/
def Settled.kindByte : Settled → Byte
  | .none => 0
  | .video => 1
  | .film .film22 _ => 2
  | .film .film32 _ => 3

/-- Offset 31: the alignment of a settled film state. -/
def Settled.alignByte : Settled → Byte
  | .none => 0
  | .video => 0
  | .film _ align => BitVec.ofNat 8 align

theorem settled_bytes (x : Settled) : x.bytes = [x.kindByte, x.alignByte] := by
  cases x with
  | none | video => rfl
  | film mode align => cases mode <;> rfl

/-- The two bytes of a current entry, or of none. -/
def handleBytes : Option Handle → List Byte
  | some h => num16 h.val
  | none => [0, 0]

theorem handleBytes_eq (x : Option Handle) : handleBytes x = bytes16 (BitVec.ofNat 16 ((x.map Fin.val).getD 0)) := by
  cases x <;> rfl

/-- The result of CHANNEL_READ, part by part. -/
theorem chanReadBytes_eq (c : Chan) : c.readBytes = [c.state.code, c.level.code, byte c.port.faultCount,
      byte c.port.lockCount, byte c.port.rejoinCount, bitAt 0 c.currentEntry.isSome ||| bitAt 1 c.relatch]
    ++ handleBytes c.currentEntry ++ [c.latchedGen.getD 0] ++ latchedSetBytes (c.window.current.map WindowField.set)
    ++ [bitAt 0 c.window.older.isSome ||| bitAt 1 c.window.current.isSome ||| bitAt 2 c.window.newer.isSome]
    ++ slotBytes c.window.older ++ slotBytes c.window.current ++ slotBytes c.window.newer
    ++ detectorBytes c.monitor.detector c.window.newer ++ c.monitor.settled.bytes
    ++ c.port.counters.bytes ++ num16 c.noneSteps ++ num16 c.doubleSteps ++ c.monitorCounters.bytes := rfl

theorem marks_two (first second : Bool) :
    bitAt 0 first ||| bitAt 1 second = 0#6 ++ BitVec.ofBool second ++ BitVec.ofBool first := flags_low first second

theorem marks_three (first second third : Bool) : bitAt 0 first ||| bitAt 1 second ||| bitAt 2 third =
    0#5 ++ BitVec.ofBool third ++ BitVec.ofBool second ++ BitVec.ofBool first := by
  revert first second third
  decide

/-- The first 32 bytes of a CHANNEL_READ result, from its items. -/
def channelHead (state level faults locks rejoins marks : Byte) (current : BitVec 16) (latched kind : Byte)
    (handle : BitVec 16) (gen setState : Byte) (record : BitVec 24) (slots : Byte) (older middle newer : BitVec 24)
    (detector mode position settled align : Byte) : List Byte :=
  [state, level, faults, locks, rejoins, marks] ++ bytes16 current ++ [latched]
    ++ (kind :: (bytes16 handle ++ [gen, setState] ++ bytes24 record)) ++ [slots]
    ++ bytes24 older ++ bytes24 middle ++ bytes24 newer ++ [detector, mode, position] ++ [settled, align]

/-- Each item of the first 32 bytes stands at its offset. -/
theorem channelHead_reads (state level faults locks rejoins marks : Byte) (current : BitVec 16) (latched kind : Byte)
    (handle : BitVec 16) (gen setState : Byte) (record : BitVec 24) (slots : Byte) (older middle newer : BitVec 24)
    (detector mode position settled align : Byte) (rest : List Byte) {b : List Byte}
    (hb : b = channelHead state level faults locks rejoins marks current latched kind handle gen setState record slots
      older middle newer detector mode position settled align ++ rest) :
    (b.length = 32 + rest.length ∧ byteAt b 0 = state ∧ byteAt b 1 = level ∧ byteAt b 2 = faults ∧ byteAt b 3 = locks ∧
      byteAt b 4 = rejoins ∧ byteAt b 5 = marks ∧ word16At b 6 = current ∧ byteAt b 8 = latched) ∧
    (byteAt b 9 = kind ∧ byteAt b 10 = handle.extractLsb' 8 8 ∧ byteAt b 11 = handle.extractLsb' 0 8 ∧
      word16At b 10 = handle ∧ byteAt b 12 = gen ∧ byteAt b 13 = setState ∧ word24At b 14 = record) ∧
    (byteAt b 17 = slots ∧ word24At b 18 = older ∧ word24At b 21 = middle ∧ word24At b 24 = newer) ∧
    (byteAt b 27 = detector ∧ byteAt b 28 = mode ∧ byteAt b 29 = position ∧ byteAt b 30 = settled ∧ byteAt b 31 = align) := by
  simp only [channelHead, bytes16, bytes24, List.cons_append, List.nil_append] at hb
  subst hb
  refine ⟨⟨?_, rfl, rfl, rfl, rfl, rfl, rfl, join_bytes16 current, rfl⟩,
    ⟨rfl, rfl, rfl, join_bytes16 handle, rfl, rfl, join_bytes24 record⟩,
    ⟨rfl, join_bytes24 older, join_bytes24 middle, join_bytes24 newer⟩, ⟨rfl, rfl, rfl, rfl, rfl⟩⟩
  simp only [List.length_cons]
  omega

/-- The counters that end a CHANNEL_READ result. -/
def Chan.counterList (c : Chan) : List Nat :=
  [c.port.counters.taken, c.port.counters.headerFaults, c.port.counters.mismatches, c.port.counters.rejected,
    c.port.counters.damaged, c.port.counters.overruns, c.port.counters.missing, c.port.counters.discontinuities,
    c.port.counters.slips, c.port.counters.silenceTimeouts, c.port.counters.detachments] ++
  [c.noneSteps, c.doubleSteps, c.monitorCounters.proposals, c.monitorCounters.suppressed,
    c.monitorCounters.abandoned, c.monitorCounters.disagreements]

theorem chanReadBytes_split (c : Chan) {kind : Byte} {handle : BitVec 16} {gen setState : Byte} {record : BitVec 24}
    {state mode position : Byte} (hset : LatchedSetIs (c.window.current.map WindowField.set) kind handle gen setState record)
    (hdetector : DetectorBytesAre c.monitor.detector c.window.newer state mode position) :
    c.readBytes = channelHead c.state.code c.level.code (byte c.port.faultCount) (byte c.port.lockCount)
      (byte c.port.rejoinCount) (0#6 ++ BitVec.ofBool c.relatch ++ BitVec.ofBool c.currentEntry.isSome)
      (BitVec.ofNat 16 ((c.currentEntry.map Fin.val).getD 0)) (c.latchedGen.getD 0) kind handle gen setState record
      (0#5 ++ BitVec.ofBool c.window.newer.isSome ++ BitVec.ofBool c.window.current.isSome
        ++ BitVec.ofBool c.window.older.isSome)
      (slotNumber c.window.older) (slotNumber c.window.current) (slotNumber c.window.newer) state mode position
      c.monitor.settled.kindByte c.monitor.settled.alignByte ++ c.counterList.flatMap num16 := by
  rw [chanReadBytes_eq, handleBytes_eq, marks_two, marks_three, hset.bytes, slotBytes_eq, slotBytes_eq, slotBytes_eq,
    hdetector.bytes, settled_bytes]
  unfold channelHead Chan.counterList PortCounters.bytes MonitorCounters.bytes
  simp only [List.append_assoc, List.flatMap_cons, List.flatMap_nil, List.nil_append, List.cons_append,
    List.append_nil]

theorem channelRead_is (c : Chan) : ChannelReadIs c c.readBytes := by
  obtain ⟨kind, handle, gen, setState, record, hset⟩ := latchedSet_is (c.window.current.map WindowField.set)
  obtain ⟨state, mode, position, hdetector⟩ := detectorBytes_are c.monitor.detector c.window.newer
  have hsplit := chanReadBytes_split c hset hdetector
  obtain ⟨⟨hlength, h0, h1, h2, h3, h4, h5, h6, h8⟩, ⟨h9, hhigh, hlow, h10, h12, h13, h14⟩, ⟨h17, h18, h21, h24⟩,
    ⟨h27, h28, h29, h30, h31⟩⟩ := channelHead_reads _ _ _ _ _ _ _ _ _ _ _ _ _ _ _ _ _ _ _ _ _ _ _ hsplit
  generalize channelHead _ _ _ _ _ _ _ _ _ _ _ _ _ _ _ _ _ _ _ _ _ _ = head at hsplit
  generalize c.readBytes = b at *
  have hhead : head.length = 32 := by
    have h := congrArg List.length hsplit
    rw [List.length_append] at h
    omega
  have hhandle : word32At b 10 = handle.extractLsb' 8 8 ++ (handle.extractLsb' 0 8 ++ (gen ++ setState)) := by
    rw [← hhigh, ← hlow, ← h12, ← h13]
    rfl
  refine ⟨hlength.trans rfl, h0.trans ?_, h1.trans ?_, h2, h3, h4, h5, (congrArg BitVec.toNat h6).trans (handle_toNat _), h8,
    fun h => ?_, fun f d h hd => ?_, fun f e g st first d h he => ?_, h17, h18, h21, h24, fun h => ?_,
    fun film align count start h => ?_, fun film align misses miss h => ?_, h30, h31,
    counters_at head [] _ _ hsplit (by rw [hhead]; rfl) rfl, counters_at head _ _ [] hsplit (by rw [hhead]; rfl) rfl⟩
  · cases c.state <;> rfl
  · cases c.level <;> rfl
  · obtain ⟨hkind, rfl, rfl, rfl, hrecord⟩ := hset.none (by rw [h]; rfl)
    exact ⟨h9.trans hkind, hhandle, h14.trans hrecord⟩
  · obtain ⟨hkind, rfl, rfl, rfl, hrecord⟩ := hset.default d (by rw [h, ← hd]; rfl)
    refine ⟨h9.trans hkind, hhandle, ?_⟩
    rw [h14, hrecord]
    exact directivesAre_encode d
  · obtain ⟨hkind, hentry, hgen, hstate, hrecord⟩ := hset.entry e g st first d (by rw [h, ← he]; rfl)
    refine ⟨h9.trans hkind, ?_, h12.trans hgen, ?_, ?_⟩
    · rw [h10, hentry]
      exact handle_toNat (some e)
    · rw [h13, hstate]
      cases st <;> rfl
    · rw [h14, hrecord]
      exact directivesAre_encode d
  · rw [h27, h28, h29]
    exact hdetector.searching h
  · unfold DetectorIs
    rw [h27, h28, h29]
    exact hdetector.candidate film align count start h
  · unfold DetectorIs
    rw [h27, h28, h29]
    exact hdetector.locked film align misses miss h

/-! ## The parts of a LANE_READ result -/

/-- The four bytes of a trigger. -/
def triggerBytes : Trigger → List Byte
  | .nextTick => [0, 0, 0, 0]
  | .atField f => 1 :: bytes24 f

theorem encodeCue_eq (c : Cue) : encodeCue c =
    [c.number, match c.target with | some n => BitVec.ofNat 8 n.val | none => 8] ++ triggerBytes c.trigger := rfl

theorem triggerBytes_length (t : Trigger) : (triggerBytes t).length = 4 := by
  cases t <;> rfl

theorem encodeCue_length (c : Cue) : (encodeCue c).length = 6 := by
  rw [encodeCue_eq, List.length_append, triggerBytes_length]
  rfl

theorem cues_length (cues : List Cue) : (cues.flatMap encodeCue).length = 6 * cues.length := by
  induction cues with
  | nil => rfl
  | cons c cues ih => rw [List.flatMap_cons, List.length_append, ih, encodeCue_length, List.length_cons]; omega

/-- A cue of the list stands at its offset. -/
theorem cues_split {cues : List Cue} {i : Nat} {c : Cue} (h : cues[i]? = some c) (after : List Byte) :
    ∃ before rest : List Byte, before.length = 6 * i ∧
      cues.flatMap encodeCue ++ after = before ++ (encodeCue c ++ rest) := by
  obtain ⟨hi, rfl⟩ := List.getElem?_eq_some_iff.1 h
  refine ⟨(cues.take i).flatMap encodeCue, (cues.drop (i + 1)).flatMap encodeCue ++ after, ?_, ?_⟩
  · rw [cues_length, List.length_take]
    omega
  · conv => lhs; rw [← List.take_append_drop i cues, List.drop_eq_getElem_cons hi, List.flatMap_append, List.flatMap_cons]
    rw [List.append_assoc, List.append_assoc]

/-- The five bytes before the cues. -/
def Lane.head (x : Lane) : List Byte :=
  [x.state.code, match x.source with | some n => BitVec.ofNat 8 n.val | none => 0xFF, BitVec.ofNat 8 x.holdCount,
    x.cueCounter, BitVec.ofNat 8 x.cues.length]

/-- The counters that end a LANE_READ result. -/
def Lane.counterList (x : Lane) : List Nat :=
  [x.counters.emitted, x.counters.held, x.counters.late, x.counters.cancelled]

theorem laneReadBytes_eq (x : Lane) :
    x.readBytes = x.head ++ (x.cues.flatMap encodeCue ++ x.counterList.flatMap num16) := by
  have hshape : x.readBytes = x.head ++ x.cues.flatMap encodeCue ++ num16 x.counters.emitted ++ num16 x.counters.held
      ++ num16 x.counters.late ++ num16 x.counters.cancelled := rfl
  rw [hshape]
  unfold Lane.counterList
  simp only [List.append_assoc, List.flatMap_cons, List.flatMap_nil, List.append_nil]

theorem laneRead_is (x : Lane) : LaneReadIs x x.readBytes := by
  have hbytes := laneReadBytes_eq x
  have hlength : x.readBytes.length = 13 + 6 * x.cues.length := by
    rw [hbytes, List.length_append, List.length_append, cues_length, counters_length,
      show x.head.length = 5 from rfl, show x.counterList.length = 4 from rfl]
    omega
  have hcue : ∀ (i : Nat) (c : Cue), x.cues[i]? = some c →
      ∃ before rest : List Byte, before.length = 5 + 6 * i ∧ x.readBytes = before ++ (encodeCue c ++ rest) := by
    intro i c h
    obtain ⟨before, rest, hbefore, hsplit⟩ := cues_split h (x.counterList.flatMap num16)
    refine ⟨x.head ++ before, rest, ?_, ?_⟩
    · rw [List.length_append, hbefore]
      rfl
    · rw [hbytes, hsplit, List.append_assoc]
  have hcounters : (List.range 4).map (fun k => word16At x.readBytes (5 + 6 * x.cues.length + 2 * k)) =
      x.counterList.map (BitVec.ofNat 16) := by
    refine counters_at (x.head ++ x.cues.flatMap encodeCue) [] x.counterList [] ?_ ?_ rfl
    · rw [hbytes, List.nil_append, List.append_nil, List.append_assoc]
    · rw [List.length_append, cues_length]
      rfl
  have hhead : ∀ i : Nat, i < 5 → byteAt x.readBytes i = byteAt x.head i := fun i hi => by
    rw [hbytes]
    exact List.getD_append _ _ _ _ hi
  generalize x.readBytes = b at *
  refine ⟨hlength, (hhead 0 (by decide)).trans ?_, hhead 1 (by decide), hhead 2 (by decide), hhead 3 (by decide),
    hhead 4 (by decide), fun i c h => ?_, hcounters⟩
  · change x.state.code = _
    cases x.state <;> rfl
  · obtain ⟨before, rest, hbefore, hsplit⟩ := hcue i c h
    subst hsplit
    rw [byteAt_append (i := 5 + 6 * i) 0 (by omega), byteAt_append (i := 6 + 6 * i) 1 (by omega),
      byteAt_append (i := 7 + 6 * i) 2 (by omega), word24At_append (i := 8 + 6 * i) 3 (by omega), encodeCue_eq]
    refine ⟨rfl, rfl, fun htrigger => ?_, fun number htrigger => ?_⟩
    · have hzero : 0#8 ++ (0#8 ++ 0#8) = 0#24 := by decide
      rw [htrigger]
      exact ⟨rfl, hzero⟩
    · rw [htrigger]
      exact ⟨rfl, join_bytes24 number⟩

/-! ## The requests -/

/-- Settles O30: both reads hand back their record, and clear the counters if they are asked to. -/
theorem counterReadsReportAndClear : Obligations.CounterReadsReportAndClear := by
  refine ⟨fun s channel flags n hw heq => ⟨(s.chan n).readBytes, channelRead_is _, exec_serve hw rfl ?_⟩,
    fun s lane flags l hw heq => ⟨(s.lane l).readBytes, laneRead_is _, exec_serve hw rfl ?_⟩,
    fun s channel flags hw habove => exec_serve hw rfl ?_, fun s lane flags hw habove => exec_serve hw rfl ?_⟩
  · unfold State.takeChannelRead
    rw [channelOf_eq heq]
    rfl
  · unfold State.takeLaneRead
    rw [laneOf_eq heq]
    rfl
  · unfold State.takeChannelRead
    rw [channelOf_above habove]
    rfl
  · unfold State.takeLaneRead
    rw [laneOf_above habove]
    rfl

end Sys2Proof.Machine
end

