-- ==== Sys2Proof/Proofs/UnitResets.lean ====
section
/-! The stages of a UNIT_RESET (R48, R93, R135, R160, R173, R183). -/

namespace Sys2Proof.Machine

/-! ## Table and channels -/

theorem endDetachedOf_acts :
    ActsOnChannel State.endDetachedOf (fun _ => True) (fun _ c => c) (fun c p => p.afterEnd c) condAfterEnd where
  inv _ _ _ := trivial
  chan u n m _ := by rw [endDetachedOf_chan, ite_self]
  latch u n m _ := endDetachedOf_latch u n m
  cond u n m _ := endDetachedOf_cond u n m

theorem endAllDetached_onlyPorts (s : State) : OnlyPorts s s.endAllDetached :=
  foldl_rel (R := OnlyPorts) _ _ rfl fun u n hu => hu.trans (endDetachedOf_onlyPorts u n)

theorem endAllDetached_parts (s : State) (n : Channel) : s.endAllDetached.chan n = s.chan n ∧
    s.endAllDetached.attn.detachedCond.get n = condAfterEnd (s.chan n) (s.attn.detachedCond.get n) := by
  obtain ⟨hchan, -, hcond⟩ := endDetachedOf_acts.foldl allChannels allChannels_nodup s trivial n
  unfold State.endAllDetached
  generalize allChannels.foldl State.endDetachedOf s = t at *
  rw [if_pos (mem_allChannels n)] at hchan hcond
  exact ⟨hchan, hcond⟩

/-- Every channel and every entry as the first stage leaves them. -/
def State.resetBoth (s : State) : State :=
  { s with chans := s.chans.map Chan.unitReset, table := s.table.map Entry.unitReset }

theorem resetBoth_chan (s : State) (n : Channel) : s.resetBoth.chan n = (s.chan n).unitReset :=
  Vector.getElem_map _ n.isLt

theorem resetBoth_entry (s : State) (h : Handle) : s.resetBoth.entry h = (s.entry h).unitReset :=
  Vector.getElem_map _ h.isLt

/-- The first stage, whole. -/
theorem exec_unitReset {s : State} (hw : s.Waits .unitReset) : exec .unitReset s =
    .next ({ s.endAllDetached.resetBoth.handOver with unitReset := some ResetProgress.start }.setCarried .unitReset) := by
  change Host.Outcome.next _ = _
  rw [reachOwner_launched s _ hw]
  rfl

theorem handOver_frees (s : State) : s.handOver.attn.lastSharedFree = s.sharedFree ∧
    s.handOver.attn.detachedCond = s.attn.detachedCond := by
  unfold State.handOver State.modAttn
  dsimp only
  rw [handOver_eq]
  exact ⟨rfl, rfl⟩

theorem unitReset_first {s : State} (hw : s.Waits .unitReset) : ∃ t : State, exec .unitReset s = .next t ∧
    t = { s with
      chans := t.chans, table := t.table, attn := t.attn
      link := { s.link with flight := .carried .unitReset }
      unitReset := some { pool := false, lanes := Vector.replicate 4 false, store := false } } ∧
    (∀ n : Channel, t.chan n = (s.chan n).unitReset ∧
      t.attn.detachedCond.get n = condAfterEnd (s.chan n) (s.attn.detachedCond.get n)) ∧
    (∀ h : Handle, t.entry h = (s.entry h).unitReset) ∧ t.attn.lastSharedFree = t.sharedFree := by
  have hrest := endAllDetached_onlyPorts s
  have hparts := endAllDetached_parts s
  have hexec := exec_unitReset hw
  unfold OnlyPorts at hrest
  generalize s.endAllDetached = u at *
  have hchan := resetBoth_chan u
  have hentry := resetBoth_entry u
  obtain ⟨hfree, hkept⟩ := handOver_frees u.resetBoth
  refine ⟨_, hexec, ?_, fun n => ⟨(hchan n).trans ?_, ?_⟩, fun h => (hentry h).trans ?_, hfree⟩
  · rw [hrest]
    rfl
  · rw [(hparts n).1]
  · refine (congrArg (fun v : Vector Bool 8 => v.get n) hkept).trans (hparts n).2
  · rw [hrest]
    rfl

/-! ## Pool and lanes -/

theorem resetPool_chan (s : State) (n : Channel) :
    s.resetPool.chan n = { s.chan n with withdrawOrder := false, cancelOrder := false } := by
  simp [State.resetPool, State.chan, Vector.get_eq_getElem]

theorem unitReset_pool {s : State} {p : ResetProgress} (h : s.unitReset = some p) (hpool : p.pool = false) :
    exec .unitResetPoolPart s = .next { s.resetPool with unitReset := some { p with pool := true } } := by
  change Host.Outcome.next _ = _
  rw [h]
  dsimp only
  rw [hpool, if_neg Bool.false_ne_true]

theorem unitReset_lane {s : State} {p : ResetProgress} {l : LaneId} (h : s.unitReset = some p)
    (hlane : p.lanes.get l = false) : exec (.unitResetLanePart l) s =
      .next { s.resetLane l with unitReset := some { p with lanes := setAt p.lanes l true } } := by
  change Host.Outcome.next _ = _
  rw [h]
  dsimp only
  rw [hlane, if_neg Bool.false_ne_true]

theorem endStarvedOf_rest (s : State) (l : LaneId) : s.endStarvedOf l = { s with attn := { s.attn with
    starved := (s.endStarvedOf l).attn.starved, starvedCond := (s.endStarvedOf l).attn.starvedCond } } := by
  unfold State.endStarvedOf
  split <;> rfl

/-- What the part of a lane changes, and what it leaves. -/
theorem resetLane_rest (s : State) (l : LaneId) : s.resetLane l = { s with
    chans := (s.resetLane l).chans, claims := (s.resetLane l).claims, lanes := (s.resetLane l).lanes
    attn := { s.attn with
      starved := (s.endStarvedOf l).attn.starved, starvedCond := (s.endStarvedOf l).attn.starvedCond } } := by
  have hend := endStarvedOf_rest s l
  have hrelease := releaseClaims_rest (s.endStarvedOf l) l
  unfold State.resetLane State.modLane
  generalize (s.endStarvedOf l).releaseClaims l = u at *
  rw [hrelease, hend]

theorem resetLane_lane (s : State) (l m : LaneId) : (s.resetLane l).lane m =
    if l = m then (s.lane m).unitReset else s.lane m := by
  unfold State.resetLane
  rw [lane_modLane, releaseClaims_lane, endStarvedOf_rest]
  rfl

theorem resetLane_claims (s : State) (l : LaneId) (n : Channel) : (s.resetLane l).claims.get n =
    if s.claims.get n = some l then none else s.claims.get n := by
  unfold State.resetLane
  rw [modLane_claims, releaseClaims_claims, endStarvedOf_claims]

theorem resetLane_chan (s : State) (l : LaneId) (n : Channel) : (s.resetLane l).chan n =
    if s.claims.get n = some l then { s.chan n with stepOpen := false, tally := 0 } else s.chan n := by
  have hchan : (s.resetLane l).chan n = ((s.endStarvedOf l).releaseClaims l).chan n := rfl
  rw [hchan, releaseClaims_chan, endStarvedOf_claims, endStarvedOf_rest]
  rfl

theorem resetLane_latches (s : State) (l : LaneId) :
    (∀ m : LaneId, m ≠ l → LaneLatchesKept s (s.resetLane l) m) ∧ StarvedEnds s (s.resetLane l) l := by
  have hattn : (s.resetLane l).attn = (s.endStarvedOf l).attn := by
    unfold State.resetLane
    rw [modLane_attn, releaseClaims_rest]
  refine ⟨fun m hm => ?_, starvedEnds_of (by rw [hattn]) (by rw [hattn])⟩
  have hkept := (LaneOrders.endStarvedOf s l).latches m hm
  unfold LaneLatchesKept at hkept ⊢
  rw [hattn]
  exact hkept

/-! ## The attention unit -/

theorem complete_of {p : ResetProgress} (hpool : p.pool = true) (hstore : p.store = true)
    (hlanes : ∀ l : LaneId, p.lanes.get l = true) : p.complete = true := by
  have hall : p.lanes.toList.all id = true := by
    rw [toList_four, hlanes, hlanes, hlanes, hlanes]
    rfl
  unfold ResetProgress.complete
  rw [hpool, hall, hstore]
  rfl

theorem clearLatches_setSources (a : Attn) : a.clearLatches.setSources = 0 := attnReset_quiet.1

theorem unitReset_attention {s : State} {p : ResetProgress} (h : s.unitReset = some p) (hcomplete : p.complete = true)
    (hflight : s.link.flight = .carried .unitReset) : exec .unitResetAttentionPart s =
      .next ({ s.modAttn Attn.clearLatches with unitReset := none }.setHandedBack .unitReset (done [])) := by
  have hback : { s.modAttn Attn.clearLatches with unitReset := none }.handBack (done []) =
      { s.modAttn Attn.clearLatches with unitReset := none }.setHandedBack .unitReset (done []) := by
    unfold State.handBack
    rw [show ({ s.modAttn Attn.clearLatches with unitReset := none } : State).link.flight = _ from hflight]
    rfl
  change Host.Outcome.next _ = _
  rw [h]
  dsimp only
  rw [hcomplete, if_pos rfl, hback]

/-- Settles O52: stage by stage. -/
theorem unitResetRunsInStages : Obligations.UnitResetRunsInStages := by
  refine ⟨fun s hw => ?_, fun s p h hpool => ?_, fun s p l h hlane => ?_, fun s p h hstore => ?_,
    fun s p h hpool hstore hlanes hflight => ?_⟩
  · obtain ⟨t, hexec, hrest, hchan, hentry, hfree⟩ := unitReset_first hw
    refine ⟨t, hexec, hrest, fun n => ?_, hentry, hfree⟩
    obtain ⟨hn, hcond⟩ := hchan n
    rw [hn, hcond]
    exact ⟨rfl, rfl, rfl, rfl, rfl, rfl, rfl, rfl, rfl, rfl, rfl, rfl, rfl, rfl, rfl⟩
  · exact ⟨_, unitReset_pool h hpool, rfl, fun e => Vector.getElem_replicate e.isLt, resetPool_chan s, rfl⟩
  · have hrest := resetLane_rest s l
    have hlanes := resetLane_lane s l
    have hclaims := resetLane_claims s l
    have hchan := resetLane_chan s l
    obtain ⟨hkept, hends⟩ := resetLane_latches s l
    have hexec := unitReset_lane h hlane
    generalize s.resetLane l = u at *
    refine ⟨_, hexec, (hlanes l).trans (if_pos rfl), fun m hm => (hlanes m).trans (if_neg (Ne.symm hm)), hclaims, ?_,
      hkept, hends, hchan, ?_⟩
    · change u.attn = _
      rw [hrest]
    · rw [hrest]
  · change Host.Outcome.next _ = _
    rw [h]
    dsimp only
    rw [hstore, if_neg Bool.false_ne_true]
  · exact ⟨_, unitReset_attention h (complete_of hpool hstore hlanes) hflight, rfl, clearLatches_setSources _, rfl⟩

end Sys2Proof.Machine
end

