-- ==== Sys2Proof/Proofs/Releases.lean ====
section
/-! The taking of a release at the Table Controller (R44): the use count, the current entry and the departure's effects. -/

namespace Sys2Proof.Machine

/-! ## One user less -/

theorem lowerUse_entry (s : State) (h g : Handle) : (s.lowerUse h).entry g =
    if h = g then
      if (s.entry g).state = .retiring ∧ (s.entry g).useCount ≤ 1 then Entry.free (s.entry g).gen
      else { s.entry g with useCount := (s.entry g).useCount - 1 }
    else s.entry g := by
  unfold State.lowerUse
  dsimp only
  by_cases hg : h = g
  · subst hg
    rw [if_pos rfl]
    split
    · rw [entry_freeEntry, if_pos rfl]
    · rw [entry_setEntry, if_pos rfl]
  · rw [if_neg hg]
    split
    · rw [entry_freeEntry, if_neg hg]
    · rw [entry_setEntry, if_neg hg]

theorem lowerUse_rest (s : State) (h : Handle) :
    s.lowerUse h = { s with table := (s.lowerUse h).table, attn := (s.lowerUse h).attn } := by
  unfold State.lowerUse
  dsimp only
  split <;> rfl

theorem moveUse_leave (s : State) (h : Handle) : s.moveUse (some h) none = s.lowerUse h := if_neg nofun

/-! ## The claim's turn (R38) -/

/-- With no lower sequencer claim waiting, none is taken before. -/
theorem takeSequencerBelow_turn {s : State} {n : Channel} (h : s.TurnOf n) : s.takeSequencerBelow n = s := by
  have hfold : ∀ list : List Channel, (∀ m ∈ list, m < n) → list.foldl State.takeSequencerClaim s = s := by
    intro list hlist
    induction list with
    | nil => rfl
    | cons m list ih =>
      rw [List.foldl_cons, takeSequencerClaim_none s m (h m (hlist m List.mem_cons_self))]
      exact ih fun k hk => hlist k (List.mem_cons_of_mem m hk)
  exact hfold _ fun m hm => by simpa using (List.mem_filter.1 hm).2

/-! ## The release -/

/-- The state before the order, the current entry of the channel being `h`. -/
def State.releasing (s : State) (n : Channel) (h : Handle) (resetsMonitor : Bool) : State :=
  (s.lowerUse h).modChan n fun c => c.released resetsMonitor

theorem lowerUse_chan (s : State) (h : Handle) (n : Channel) : (s.lowerUse h).chan n = s.chan n := by
  rw [lowerUse_rest]
  rfl

theorem releasing_chan (s : State) (n m : Channel) (h : Handle) (resetsMonitor : Bool) :
    (s.releasing n h resetsMonitor).chan m = if n = m then (s.chan m).released resetsMonitor else s.chan m := by
  unfold State.releasing
  rw [chan_modChan, lowerUse_chan]

theorem takeRelease_eq {s : State} {n : Channel} {h : Handle} (hcurrent : (s.chan n).currentEntry = some h)
    (resetsMonitor : Bool) : s.takeRelease n resetsMonitor =
      if (s.chan n).state = .halting then
        ((s.releasing n h resetsMonitor).modChan n fun c => { c with cancelOrder := true }).judgeHalted n
      else (s.releasing n h resetsMonitor).modChan n fun c => { c with withdrawOrder := true } := by
  have hstate : ((s.releasing n h resetsMonitor).chan n).state = (s.chan n).state := by
    rw [releasing_chan, if_pos rfl]
    rfl
  rw [← hstate]
  unfold State.takeRelease
  rw [hcurrent, moveUse_leave]
  rfl

theorem judgeHalted_own {u : State} {n : Channel} (hstate : (u.chan n).state = .halting)
    (hwaits : (u.chan n).releaseWaits = false) :
    (u.judgeHalted n).chan n = { u.chan n with state := if u.inFlight n then .halting else .halted } := by
  unfold State.judgeHalted
  by_cases h : u.inFlight n = true
  · rw [if_pos h, if_pos h, ← hstate]
  · rw [if_neg h, if_neg h, report_chan, if_pos ⟨rfl, hstate, hwaits⟩]

/-- What a report leaves. -/
structure Reported (u t : State) (n : Channel) : Prop where
  rest : t = { u with chans := t.chans, link := { u.link with flight := t.link.flight } }
  others : ∀ m : Channel, m ≠ n → t.chan m = u.chan m
  config : ∀ m : Channel, (t.chan m).config = (u.chan m).config
  halts : Halts u t

theorem judgeHalted_reported (u : State) (n : Channel) : Reported u (u.judgeHalted n) n := by
  refine ⟨?_, fun m hm => judgeHalted_chan_ne u (Ne.symm hm), fun m => ?_, judgeHalted_halts (Halts.refl u) n⟩
  · unfold State.judgeHalted
    split
    · rfl
    · exact report_rest u n
  · unfold State.judgeHalted
    split
    · rfl
    · rw [report_chan]
      split <;> rfl

/-- What the taking of a release does, its order being `order`. -/
structure TakesRelease (s t : State) (n : Channel) (h : Handle) : Prop where
  rest : t = { s with
    chans := t.chans, table := t.table, attn := t.attn, link := { s.link with flight := t.link.flight } }
  others : ∀ m : Channel, m ≠ n → t.chan m = s.chan m
  table : t.table = (s.lowerUse h).table
  attn : t.attn = (s.lowerUse h).attn
  config : ∀ m : Channel, (t.chan m).config = (s.chan m).config
  halts : Halts s t

/-- The order and the judgement that follow it keep what a release does. -/
theorem takesRelease_of {s t : State} {n : Channel} {h : Handle} {resetsMonitor : Bool} {order : Chan → Chan}
    (hconfig : ∀ c : Chan, (order c).config = c.config) (hstate : ∀ c : Chan, (order c).state = c.state)
    (ht : Reported ((s.releasing n h resetsMonitor).modChan n order) t n) : TakesRelease s t n h := by
  have hlower := lowerUse_rest s h
  have hchan : ∀ m : Channel, ((s.releasing n h resetsMonitor).modChan n order).chan m =
      if n = m then order ((s.chan m).released resetsMonitor) else s.chan m := fun m => by
    rw [chan_modChan, releasing_chan]
    split <;> rfl
  have hrest := ht.rest
  have hhalts : Halts s ((s.releasing n h resetsMonitor).modChan n order) := by
    refine (Halts.refl s).of_same (fun m => ?_) ?_
    · rw [hchan]
      split
      · exact hstate _
      · rfl
    · change (s.lowerUse h).link.flight = _
      rw [hlower]
  have hu : (s.releasing n h resetsMonitor).modChan n order = { s.lowerUse h with
      chans := ((s.releasing n h resetsMonitor).modChan n order).chans } := rfl
  generalize (s.releasing n h resetsMonitor).modChan n order = u at *
  refine ⟨?_, fun m hm => ?_, ?_, ?_, fun m => ?_, hhalts.trans ht.halts⟩
  · rw [hrest, hu, hlower]
  · rw [ht.others m hm, hchan, if_neg (Ne.symm hm)]
  · rw [hrest, hu]
  · rw [hrest, hu]
  · rw [ht.config, hchan]
    split
    · exact hconfig _
    · rfl

theorem Reported.refl (u : State) (n : Channel) : Reported u u n := ⟨rfl, fun _ _ => rfl, fun _ => rfl, Halts.refl u⟩

theorem takeRelease_takes {s : State} {n : Channel} {h : Handle} (hcurrent : (s.chan n).currentEntry = some h)
    (resetsMonitor : Bool) : TakesRelease s (s.takeRelease n resetsMonitor) n h := by
  rw [takeRelease_eq hcurrent]
  split
  · exact takesRelease_of (order := fun c => { c with cancelOrder := true }) (fun _ => rfl) (fun _ => rfl)
      (judgeHalted_reported _ n)
  · exact takesRelease_of (order := fun c => { c with withdrawOrder := true }) (fun _ => rfl) (fun _ => rfl)
      (Reported.refl _ n)

/-- The released channel: the orders and the state that follow the departure, and nothing else of it. -/
theorem takeRelease_own {s : State} {n : Channel} {h : Handle} (hcurrent : (s.chan n).currentEntry = some h)
    (resetsMonitor : Bool) : (s.takeRelease n resetsMonitor).chan n =
      if (s.chan n).state = .halting then
        { (s.chan n).released resetsMonitor with
          cancelOrder := true, state := if s.inFlight n then .halting else .halted }
      else { (s.chan n).released resetsMonitor with withdrawOrder := true } := by
  rw [takeRelease_eq hcurrent]
  by_cases hstate : (s.chan n).state = .halting
  · have hchan : ((s.releasing n h resetsMonitor).modChan n fun c => { c with cancelOrder := true }).chan n =
        { (s.chan n).released resetsMonitor with cancelOrder := true } := by
      rw [chan_modChan_same, releasing_chan, if_pos rfl]
    have hflight : ((s.releasing n h resetsMonitor).modChan n fun c => { c with cancelOrder := true }).inFlight n =
        s.inFlight n := by
      change (s.lowerUse h).inFlight n = _
      rw [lowerUse_rest]
      rfl
    rw [if_pos hstate, if_pos hstate]
    generalize (s.releasing n h resetsMonitor).modChan n _ = u at *
    rw [judgeHalted_own (by rw [hchan]; exact hstate) (by rw [hchan]; rfl), hchan, hflight]
  · rw [if_neg hstate, if_neg hstate, chan_modChan_same, releasing_chan, if_pos rfl]

theorem takeRelease_released {s : State} {n : Channel} {h : Handle} (hcurrent : (s.chan n).currentEntry = some h)
    (resetsMonitor : Bool) : ∃ (state : ChannelState) (withdraws cancels : Bool),
      (s.takeRelease n resetsMonitor).chan n = { (s.chan n).released resetsMonitor with
        state := state, withdrawOrder := withdraws, cancelOrder := cancels } ∧
      ((s.chan n).state ≠ .halting → withdraws = true ∧ state = (s.chan n).state) ∧
      ((s.chan n).state = .halting → cancels = true ∧ state = if s.inFlight n then .halting else .halted) := by
  rw [takeRelease_own hcurrent]
  by_cases hstate : (s.chan n).state = .halting
  · rw [if_pos hstate]
    exact ⟨_, _, _, rfl, fun hne => absurd hstate hne, fun _ => ⟨rfl, rfl⟩⟩
  · rw [if_neg hstate]
    exact ⟨_, _, _, rfl, fun _ => ⟨rfl, rfl⟩, fun he => absurd he hstate⟩

/-- Settles O14: the taking of a release, its turn having come. -/
theorem releaseLowersUseCount : Obligations.ReleaseLowersUseCount := by
  intro s n resetsMonitor h hclaim hturn hcurrent
  have hexec : exec (.release n) s = .next (s.takeRelease n resetsMonitor) := by
    change Host.Outcome.next _ = _
    rw [hclaim]
    dsimp only
    rw [takeSequencerBelow_turn hturn]
  obtain ⟨state, withdraws, cancels, hown, hleft, hhalting⟩ := takeRelease_released hcurrent resetsMonitor
  have htakes := takeRelease_takes hcurrent resetsMonitor
  have hentry := lowerUse_entry s h
  have hattn := lowerUse_attn s h
  have hfree : (s.takeRelease n resetsMonitor).sharedFree = (s.lowerUse h).sharedFree :=
    sharedFree_of_same htakes.table fun m => by rw [htakes.config, lowerUse_chan]
  generalize s.takeRelease n resetsMonitor = t at *
  have hentries : ∀ g : Handle, t.entry g = (s.lowerUse h).entry g := fun g => congrArg (fun v => v.get g) htakes.table
  refine ⟨t, hexec, ?_⟩
  rw [hown]
  refine ⟨rfl, rfl, rfl, rfl, rfl, rfl, rfl, rfl, fun hreset => ?_, hleft, hhalting, rfl, rfl, htakes.others, htakes.rest,
    haltAnswered_of_halts htakes.halts, fun g hg => ?_, ?_, ?_⟩
  · rw [hreset]
    rfl
  · rw [hentries, hentry, if_neg (Ne.symm hg)]
  · rw [htakes.attn, hattn, hfree]
  · rw [hentries, hentry, if_pos rfl]

end Sys2Proof.Machine
end

