-- ==== Sys2Proof/Proofs/Proposals.lean ====
section
/-! Proposal claims at the Table Controller (R109 to R111): abandoned, suppressed, or a PROVISIONAL entry given out. -/

namespace Sys2Proof.Machine

/-! ## The claim's turn (R38) -/

/-- No claim goes before the proposal claim of a channel. -/
def State.ProposalTurnOf (s : State) (n : Channel) : Prop :=
  (∀ m : Channel, (s.chan m).sequencerClaim = none) ∧ ∀ m : Channel, m < n → (s.chan m).proposalClaim = none

theorem channels_upTo (n : Channel) : (allChannels.filter fun m => m.val ≤ n.val) =
    (allChannels.filter fun m => m.val < n.val) ++ [n] := by
  revert n; decide

theorem takeProposals_below {s : State} {n : Channel} (h : ∀ m : Channel, m < n → (s.chan m).proposalClaim = none) :
    (allChannels.filter fun m => m.val < n.val).foldl State.takeProposal s = s := by
  have hfold : ∀ list : List Channel, (∀ m ∈ list, m < n) → list.foldl State.takeProposal s = s := by
    intro list hlist
    induction list with
    | nil => rfl
    | cons m list ih =>
      rw [List.foldl_cons, takeProposal_none s m (h m (hlist m List.mem_cons_self))]
      exact ih fun k hk => hlist k (List.mem_cons_of_mem m hk)
  exact hfold _ fun m hm => by simpa using (List.mem_filter.1 hm).2

theorem takeSequencerClaims_none {s : State} (h : ∀ m : Channel, (s.chan m).sequencerClaim = none) :
    s.takeSequencerClaims = s :=
  foldl_fixed _ _ _ fun m => takeSequencerClaim_none s m (h m)

/-- A channel without its proposal claim. -/
def State.dropProposal (s : State) (n : Channel) : State := s.modChan n fun c => { c with proposalClaim := none }

theorem exec_proposalClaim {s : State} {n : Channel} {p : ProposalClaim} (hturn : s.ProposalTurnOf n)
    (hclaim : (s.chan n).proposalClaim = some p) :
    exec (.proposalClaim n) s = .next ((s.dropProposal n).decideProposal n p) := by
  obtain ⟨hsequencer, hlower⟩ := hturn
  change Host.Outcome.next (if _ then _ else _) = _
  rw [if_pos (by rw [hclaim]; rfl), takeSequencerClaims_none hsequencer, channels_upTo, List.foldl_append,
    takeProposals_below hlower, List.foldl_cons, List.foldl_nil]
  unfold State.takeProposal
  rw [hclaim]
  rfl

/-! ## The decision (R109) -/

theorem insertByFirst_of_table {s t : State} (ht : t.table = s.table) (h : Handle) (list : List Handle) :
    t.insertByFirst h list = s.insertByFirst h list := by
  induction list with
  | nil => rfl
  | cons g list ih =>
    unfold State.insertByFirst
    rw [ih, entry_of_table ht, entry_of_table ht]

theorem spanIndex_of_table {s t : State} (ht : t.table = s.table) (key : Key) : t.spanIndex key = s.spanIndex key := by
  have hinsert : t.insertByFirst = s.insertByFirst := funext fun h => funext fun list => insertByFirst_of_table ht h list
  unfold State.spanIndex State.handlesWhere
  rw [hinsert, ht]

/-- What the table answers is a view of the table. -/
theorem covering_of_table {s t : State} (ht : t.table = s.table) (key : Key) (f : FieldNum) :
    t.covering key f = s.covering key f := by
  unfold State.covering
  rw [spanIndex_of_table ht]
  simp only [entry_of_table ht]

theorem nextAfter_of_table {s t : State} (ht : t.table = s.table) (key : Key) (f : FieldNum) :
    t.nextAfter key f = s.nextAfter key f := by
  unfold State.nextAfter
  rw [spanIndex_of_table ht]
  simp only [entry_of_table ht]

theorem dropProposal_abandons (s : State) (n : Channel) (p : ProposalClaim) :
    (s.dropProposal n).abandons p = s.abandons p := by
  have hcovering := covering_of_table (s := s) (t := s.dropProposal n) rfl p.key p.start
  unfold State.abandons
  cases p.basis with
  | none => exact congrArg Option.isSome hcovering
  | some b => rfl

/-- Two changes of one channel are one. -/
theorem modChan_modChan (s : State) (n : Channel) (f g : Chan → Chan) :
    (s.modChan n f).modChan n g = s.modChan n fun c => g (f c) := by
  unfold State.modChan modifyAt
  dsimp only
  rw [get_setAt_same, setAt_setAt]

theorem dropProposal_quota (s : State) (n : Channel) : (s.dropProposal n).quota n = s.quota n := by
  unfold State.quota State.dropProposal
  rw [chan_modChan_same]

/-- A claim that is counted and makes nothing. -/
theorem dropProposal_counted (s : State) (n : Channel) (f : MonitorCounters → MonitorCounters) :
    (s.dropProposal n).modMonitorCounters n f =
      s.modChan n fun c => { c with proposalClaim := none, monitorCounters := f c.monitorCounters } := by
  unfold State.dropProposal State.modMonitorCounters
  rw [modChan_modChan]

theorem abandons_of_basis {s : State} {p : ProposalClaim} {h : Handle} {g : Gen} (hbasis : p.basis = some (h, g)) :
    s.abandons p = true ↔ (s.entry h).gen ≠ g ∨ (s.entry h).key ≠ p.key ∨ (s.entry h).live = false ∨
      p.start.toNat ≤ (s.entry h).first.toNat ∨ (s.entry h).last.toNat < p.start.toNat := by
  unfold State.abandons
  rw [hbasis]
  simp only [Bool.or_eq_true, Bool.not_eq_true', bne_iff_ne, decide_eq_true_eq]
  tauto

theorem stands_of_basis {s : State} {p : ProposalClaim} {h : Handle} {g : Gen} (hbasis : p.basis = some (h, g))
    (hlive : (s.entry h).live = true) (hkey : (s.entry h).key = p.key) (hgen : (s.entry h).gen = g)
    (hfirst : (s.entry h).first.toNat < p.start.toNat) (hlast : p.start.toNat ≤ (s.entry h).last.toNat) :
    ¬s.abandons p = true := fun habandons => by
  rcases (abandons_of_basis hbasis).1 habandons with h | h | h | h | h
  · exact h hgen
  · exact h hkey
  · rw [hlive] at h
    exact nomatch h
  · omega
  · omega

theorem abandons_of_gap {s : State} {p : ProposalClaim} (hbasis : p.basis = none) :
    s.abandons p = (s.covering p.key p.start).isSome := by
  unfold State.abandons
  rw [hbasis]

section
variable {s : State} {n : Channel} {p : ProposalClaim}

theorem proposal_abandoned (hturn : s.ProposalTurnOf n) (hclaim : (s.chan n).proposalClaim = some p)
    (habandons : s.abandons p = true) : exec (.proposalClaim n) s = .next (s.modChan n fun c =>
      { c with
        proposalClaim := none
        monitorCounters := { c.monitorCounters with abandoned := bump c.monitorCounters.abandoned 1 } }) := by
  rw [exec_proposalClaim hturn hclaim]
  unfold State.decideProposal
  rw [dropProposal_abandons, habandons, if_pos rfl, dropProposal_counted]

theorem proposal_suppressed (hturn : s.ProposalTurnOf n) (hclaim : (s.chan n).proposalClaim = some p)
    (habandons : ¬s.abandons p = true) (hfull : s.quota n ≤ s.reserveHeld n) :
    exec (.proposalClaim n) s = .next (s.modChan n fun c =>
      { c with
        proposalClaim := none
        monitorCounters := { c.monitorCounters with suppressed := bump c.monitorCounters.suppressed 1 } }) := by
  have hheld : (s.dropProposal n).reserveHeld n = s.reserveHeld n := rfl
  rw [exec_proposalClaim hturn hclaim]
  unfold State.decideProposal
  rw [dropProposal_abandons, if_neg habandons, dropProposal_quota, hheld, if_pos hfull, dropProposal_counted]

theorem proposal_accepted (hturn : s.ProposalTurnOf n) (hclaim : (s.chan n).proposalClaim = some p)
    (habandons : ¬s.abandons p = true) (hroom : s.reserveHeld n < s.quota n) {f : Handle}
    (hfree : (s.entry f).state = .free) (hlower : ∀ i : Handle, i < f → (s.entry i).state ≠ .free) :
    exec (.proposalClaim n) s = .next ((s.dropProposal n).acceptProposal n p f) := by
  have hheld : (s.dropProposal n).reserveHeld n = s.reserveHeld n := rfl
  have hlowest : (s.dropProposal n).lowestFree = some f := lowestFree_eq (s := s) hfree hlower
  rw [exec_proposalClaim hturn hclaim]
  unfold State.decideProposal
  rw [dropProposal_abandons, if_neg habandons, dropProposal_quota, hheld, if_neg (Nat.not_le.2 hroom), hlowest]

end

/-! ## An accepted claim (R110, R111) -/

theorem truncateBasis_entry {s : State} {p : ProposalClaim} {h : Handle} {g : Gen} (hbasis : p.basis = some (h, g))
    (i : Handle) : (s.truncateBasis p).entry i =
      if h = i then { s.entry i with last := p.start - 1, gen := (s.entry i).gen + 1 } else s.entry i := by
  unfold State.truncateBasis
  rw [hbasis]
  dsimp only
  rw [entry_setEntry]
  split
  · rename_i hi
    subst hi
    rfl
  · rfl

theorem truncateBasis_gap {s : State} {p : ProposalClaim} (hbasis : p.basis = none) : s.truncateBasis p = s := by
  unfold State.truncateBasis
  rw [hbasis]

theorem truncateBasis_rest (s : State) (p : ProposalClaim) :
    s.truncateBasis p = { s with table := (s.truncateBasis p).table } := by
  unfold State.truncateBasis
  split <;> rfl

/-- What an accepted claim makes: the entry, the count and the latch. -/
structure Accepts (s t : State) (n : Channel) (p : ProposalClaim) (f : Handle) : Prop where
  rest : t = { s with chans := t.chans, table := t.table, attn := t.attn }
  chan : ∀ m : Channel, t.chan m = if n = m then { s.chan m with
    proposalClaim := none
    monitorCounters := { (s.chan m).monitorCounters with proposals := bump (s.chan m).monitorCounters.proposals 1 } }
    else s.chan m
  entry : ∀ i : Handle, t.entry i =
    if f = i then { s.proposalEntry n p with gen := ((s.truncateBasis p).entry f).gen + 1, useCount := 0 }
    else (s.truncateBasis p).entry i
  attn : t.attn = (s.attn.handOver t.sharedFree).latchProposal n

theorem dropProposal_truncate (s : State) (n : Channel) (p : ProposalClaim) :
    ((s.dropProposal n).truncateBasis p).table = (s.truncateBasis p).table := by
  unfold State.truncateBasis
  cases p.basis <;> rfl

theorem dropProposal_proposalEntry (s : State) (n m : Channel) (p : ProposalClaim) :
    (s.dropProposal n).proposalEntry m p = s.proposalEntry m p := by
  have hnext := nextAfter_of_table (s := s) (t := s.dropProposal n) rfl p.key p.start
  have hlast : (s.dropProposal n).proposalLast p = s.proposalLast p := by
    unfold State.proposalLast
    cases p.basis with
    | none =>
      dsimp only
      rw [hnext]
      rfl
    | some b => rfl
  unfold State.proposalEntry
  rw [hlast]
  rfl

theorem acceptProposal_accepts (s : State) (n : Channel) (p : ProposalClaim) (f : Handle) :
    Accepts s ((s.dropProposal n).acceptProposal n p f) n p f := by
  have htruncate : (s.dropProposal n).truncateBasis p = { s.dropProposal n with table := (s.truncateBasis p).table } := by
    rw [truncateBasis_rest, dropProposal_truncate]
  have haccept : (s.dropProposal n).acceptProposal n p f =
      (({ s.dropProposal n with table := (s.truncateBasis p).table }.giveOut f (s.proposalEntry n p)).modMonitorCounters n
        fun k => { k with proposals := bump k.proposals 1 }).modAttn fun a => a.latchProposal n := by
    unfold State.acceptProposal
    rw [htruncate, dropProposal_proposalEntry]
  have hentry : ∀ i : Handle, ((s.dropProposal n).acceptProposal n p f).entry i =
      if f = i then { s.proposalEntry n p with gen := ((s.truncateBasis p).entry f).gen + 1, useCount := 0 }
      else (s.truncateBasis p).entry i := fun i => by
    rw [haccept]
    exact entry_giveOut { s.dropProposal n with table := (s.truncateBasis p).table } f i (s.proposalEntry n p)
  have hchan : ∀ m : Channel, ((s.dropProposal n).acceptProposal n p f).chan m = if n = m then { s.chan m with
      proposalClaim := none
      monitorCounters := { (s.chan m).monitorCounters with proposals := bump (s.chan m).monitorCounters.proposals 1 } }
      else s.chan m := fun m => by
    have hcounted := congrArg (fun t : State => t.chan m)
      (dropProposal_counted s n fun k => { k with proposals := bump k.proposals 1 })
    refine Eq.trans ?_ (hcounted.trans (chan_modChan s n m _))
    rw [haccept]
    rfl
  have hfree : ((s.dropProposal n).acceptProposal n p f).sharedFree =
      ({ s.dropProposal n with table := (s.truncateBasis p).table }.setEntry f
        { s.proposalEntry n p with gen := ((s.truncateBasis p).entry f).gen + 1, useCount := 0 }).sharedFree := by
    refine sharedFree_of_same ?_ fun m => ?_
    · rw [haccept]
      rfl
    · rw [hchan]
      refine Eq.trans ?_ (congrArg Chan.config (chan_modChan s n m _)).symm
      split <;> rfl
  refine ⟨?_, hchan, hentry, ?_⟩
  · rw [haccept]
    rfl
  · rw [hfree, haccept]
    rfl

section
variable {s t : State} {n : Channel} {p : ProposalClaim} {f : Handle}

/-- The entry below the start field and the new one above it (R110). -/
theorem Accepts.split (hs : Accepts s t n p f) {h : Handle} {g : Gen} (hbasis : p.basis = some (h, g)) (hne : f ≠ h)
    (hgen : (s.entry h).gen = g) :
    t.entry h = { s.entry h with last := p.start - 1, gen := g + 1 } ∧
    t.entry f =
      { state := .provisional, key := p.key, first := p.start, last := (s.entry h).last, gen := (s.entry f).gen + 1,
        origin := .monitor, owner := some n, charge := .reserve n, useCount := 0, directives := p.directives,
        parent := some (h, g + 1) } ∧
    ∀ i : Handle, i ≠ h → i ≠ f → t.entry i = s.entry i := by
  have hproposal : s.proposalEntry n p =
      { state := .provisional, key := p.key, first := p.start, last := (s.entry h).last, gen := 0, origin := .monitor,
        owner := some n, charge := .reserve n, useCount := 0, directives := p.directives, parent := some (h, g + 1) } := by
    unfold State.proposalEntry State.proposalLast
    rw [hbasis, ← hgen]
    rfl
  refine ⟨?_, ?_, fun i hh hf => ?_⟩
  · rw [hs.entry, if_neg hne, truncateBasis_entry hbasis, if_pos rfl, hgen]
  · rw [hs.entry, if_pos rfl, truncateBasis_entry hbasis, if_neg (Ne.symm hne), hproposal]
  · rw [hs.entry, if_neg (Ne.symm hf), truncateBasis_entry hbasis, if_neg (Ne.symm hh)]

/-- The new entry that fills a gap (R111). -/
theorem Accepts.fill (hs : Accepts s t n p f) (hbasis : p.basis = none) :
    t.entry f =
      { state := .provisional, key := p.key, first := p.start, last := s.proposalLast p, gen := (s.entry f).gen + 1,
        origin := .monitor, owner := some n, charge := .reserve n, useCount := 0, directives := p.directives,
        parent := none } ∧
    ∀ i : Handle, i ≠ f → t.entry i = s.entry i := by
  refine ⟨?_, fun i hf => ?_⟩
  · rw [hs.entry, if_pos rfl, truncateBasis_gap hbasis]
    unfold State.proposalEntry
    rw [hbasis]
    rfl
  · rw [hs.entry, if_neg (Ne.symm hf), truncateBasis_gap hbasis]

end

/-- The last field of a gap: one below the next entry of the key, or the largest number (R111). -/
theorem proposalLast_gap {s : State} {p : ProposalClaim} {last : FieldNum} (hbasis : p.basis = none)
    (hgap : ∀ i : Handle, (s.entry i).live = true → (s.entry i).key = p.key →
      (s.entry i).first.toNat ≤ p.start.toNat ∧ (s.entry i).last.toNat < p.start.toNat ∨
        last.toNat < (s.entry i).first.toNat)
    (hstart : p.start.toNat ≤ last.toNat)
    (hend : last.toNat = 16777215 ∨ ∃ i : Handle, (s.entry i).live = true ∧ (s.entry i).key = p.key ∧
      (s.entry i).first.toNat = last.toNat + 1) : s.proposalLast p = last := by
  unfold State.proposalLast
  rw [hbasis]
  dsimp only
  cases hnext : s.nextAfter p.key p.start with
  | none =>
    have hnone := (nextAfter_eq_none_iff s p.key p.start).1 hnext
    rcases hend with hmax | ⟨i, hlive, hkey, hfirst⟩
    · exact (BitVec.eq_of_toNat_eq hmax).symm
    · have := hnone i hlive hkey
      omega
  | some g =>
    obtain ⟨⟨hlive, hkey, habove⟩, hleast⟩ := nextAfter_some hnext
    have hlt : last.toNat < (s.entry g).first.toNat := by
      rcases hgap g hlive hkey with ⟨hle, -⟩ | hlt
      · omega
      · exact hlt
    have hfirst : (s.entry g).first.toNat = last.toNat + 1 := by
      rcases hend with hmax | ⟨i, hilive, hikey, hifirst⟩
      · have := (s.entry g).first.isLt
        omega
      · have := hleast i hilive hikey (by omega)
        omega
    refine BitVec.eq_of_toNat_eq ?_
    have hsub := toNat_sub_one (x := (s.entry g).first) (n := last.toNat) (by omega)
    rw [hsub, hfirst, Nat.add_sub_cancel]

/-- Settles O15: the three answers of the Table Controller to a proposal claim. -/
theorem proposalClaimSplitsOrRefused : Obligations.ProposalClaimSplitsOrRefused := by
  refine ⟨⟨fun s n p h f g hsequencer hlower hclaim hbasis hlive hkey hgen hfirst hlast hroom hfree hfirstFree => ?_,
      fun s n p f last hsequencer hlower hclaim hbasis hroom hfree hfirstFree hgap hstart hend => ?_⟩,
    fun s n p h g hsequencer hlower hclaim hbasis => ⟨fun hmoved => ?_, fun hlive hkey hgen hfirst hlast hfull => ?_⟩,
    fun s n p hsequencer hlower hclaim hbasis => ⟨fun i hlive hkey hfirst hlast => ?_, fun hgap hfull => ?_⟩⟩
  · have hstands := stands_of_basis hbasis hlive hkey hgen hfirst hlast
    have hne : f ≠ h := fun e => by
      rw [← e, Entry.live, hfree] at hlive
      exact nomatch hlive
    have haccepts := acceptProposal_accepts s n p f
    obtain ⟨hbelow, habove, hothers⟩ := haccepts.split hbasis hne hgen
    exact ⟨_, proposal_accepted ⟨hsequencer, hlower⟩ hclaim hstands hroom hfree hfirstFree, haccepts.rest,
      fun m hm => (haccepts.chan m).trans (if_neg (Ne.symm hm)), (haccepts.chan n).trans (if_pos rfl), hbelow, habove,
      hothers, haccepts.attn⟩
  · have hstands : ¬s.abandons p = true := by
      rw [abandons_of_gap hbasis, covering_eq_none_of fun i hlive hkey => ?_]
      · exact nofun
      · have := hgap i hlive hkey
        omega
    have haccepts := acceptProposal_accepts s n p f
    obtain ⟨hnew, hothers⟩ := haccepts.fill hbasis
    rw [proposalLast_gap hbasis hgap hstart hend] at hnew
    exact ⟨_, proposal_accepted ⟨hsequencer, hlower⟩ hclaim hstands hroom hfree hfirstFree, haccepts.rest,
      fun m hm => (haccepts.chan m).trans (if_neg (Ne.symm hm)), (haccepts.chan n).trans (if_pos rfl), hnew, hothers,
      haccepts.attn⟩
  · exact proposal_abandoned ⟨hsequencer, hlower⟩ hclaim ((abandons_of_basis hbasis).2 hmoved)
  · exact proposal_suppressed ⟨hsequencer, hlower⟩ hclaim (stands_of_basis hbasis hlive hkey hgen hfirst hlast) hfull
  · refine proposal_abandoned ⟨hsequencer, hlower⟩ hclaim ?_
    rw [abandons_of_gap hbasis]
    cases hcovering : s.covering p.key p.start with
    | some g => rfl
    | none =>
      have := covering_eq_none hcovering i hlive hkey
      omega
  · refine proposal_suppressed ⟨hsequencer, hlower⟩ hclaim ?_ hfull
    rw [abandons_of_gap hbasis, covering_eq_none_of hgap]
    exact nofun

end Sys2Proof.Machine
end

