-- ==== Sys2Proof/Proofs/Lookups.lean ====
section
/-! The taking of a lookup at the Table Controller (R40 to R43) and the order of the claims (R38). -/

namespace Sys2Proof.Machine

/-! ## Use counts that follow a channel -/

theorem raiseUse_entry (s : State) (h g : Handle) : (s.raiseUse h).entry g =
    if h = g then { s.entry g with useCount := (s.entry g).useCount + 1 } else s.entry g := by
  unfold State.raiseUse
  dsimp only
  rw [entry_setEntry]
  split
  · rename_i hg
    rw [hg]
  · rfl

/-- An entry that loses a user: FREE if it was RETIRING and that user its last (R28). -/
def Entry.lowered (e : Entry) : Entry :=
  if e.state = .retiring ∧ e.useCount ≤ 1 then Entry.free e.gen else { e with useCount := e.useCount - 1 }

theorem moveUse_entry_same (s : State) (o : Option Handle) : s.moveUse o o = s := if_pos rfl

theorem moveUse_entry (s : State) {old new : Option Handle} (hne : old ≠ new) (g : Handle) :
    (s.moveUse old new).entry g =
      if old = some g then (s.entry g).lowered
      else if new = some g then { s.entry g with useCount := (s.entry g).useCount + 1 } else s.entry g := by
  have hlower (o : Handle) : (s.lowerUse o).entry g = if o = g then (s.entry g).lowered else s.entry g := lowerUse_entry s o g
  unfold State.moveUse
  rw [if_neg hne]
  cases old with
  | none =>
    rw [if_neg nofun]
    cases new with
    | none => rw [if_neg nofun]
    | some b =>
      refine (raiseUse_entry s b g).trans ?_
      simp only [Option.some.injEq]
  | some o =>
    simp only [Option.some.injEq]
    cases new with
    | none =>
      refine (hlower o).trans ?_
      split <;> rfl
    | some b =>
      refine (raiseUse_entry _ b g).trans ?_
      rw [hlower]
      by_cases hb : b = g
      · have ho : ¬o = g := fun ho => hne (by rw [ho, hb])
        simp [hb, ho]
      · simp [hb]

theorem moveUse_rest (s : State) (old new : Option Handle) : s.moveUse old new =
    { s with table := (s.moveUse old new).table, attn := (s.moveUse old new).attn } := by
  have hraise (t : State) (b : Handle) : t.raiseUse b = { t with table := (t.raiseUse b).table } := rfl
  unfold State.moveUse
  split
  · rfl
  · cases old with
    | none =>
      cases new <;> rfl
    | some o =>
      dsimp only
      have h := lowerUse_rest s o
      generalize s.lowerUse o = t at *
      cases new with
      | none => exact h
      | some b =>
        dsimp only
        rw [hraise, h]

/-! ## What a shift leaves in the pool -/

/-- The requests of other channels stay, and so do the jobs, but for those that a cancel order names. -/
def OthersKept (s t : State) (n : Channel) (keeps : Prop) : Prop :=
  (∀ q : RenderRequest, q.channel ≠ n → (InPool t q ↔ InPool s q)) ∧
  ∀ (e : EngineId) (j : Job), s.engines.get e = some j → j.request.channel ≠ n ∨ keeps → t.engines.get e = some j

section
variable {s t u : State} {n : Channel} {keeps : Prop}

theorem OthersKept.of_same (hqueue : t.queue = s.queue) (hengines : t.engines = s.engines) : OthersKept s t n keeps := by
  unfold OthersKept InPool
  rw [hqueue, hengines]
  exact ⟨fun _ _ => Iff.rfl, fun _ _ hj _ => hj⟩

theorem OthersKept.trans (h : OthersKept s t n keeps) (k : OthersKept t u n keeps) : OthersKept s u n keeps :=
  ⟨fun q hq => (k.1 q hq).trans (h.1 q hq), fun e j hj hkeeps => k.2 e j (h.2 e j hj hkeeps) hkeeps⟩

/-- Requests of the channel itself may leave the queue or join it. -/
theorem OthersKept.of_queue (hqueue : ∀ q : RenderRequest, q.channel ≠ n → (q ∈ t.queue ↔ q ∈ s.queue))
    (hengines : t.engines = s.engines) : OthersKept s t n keeps := by
  unfold OthersKept InPool
  rw [hengines]
  exact ⟨fun q hq => or_congr_left (hqueue q hq), fun _ _ hj _ => hj⟩

theorem OthersKept.arbitrate (s : State) : OthersKept s s.arbitrate n keeps := by
  have hstarts := arbitrate_starts s
  exact ⟨fun q _ => hstarts.inPool q, fun e j hj _ => hstarts.kept e j hj⟩

end

/-! ## The render request of a shift (R88, R133) -/

/-- What the sequencer's work on the pool does to a channel that is not HALTING. -/
structure PoolWork (s t : State) (n : Channel) (keeps : Prop) : Prop where
  rest : t = { s with chans := t.chans, queue := t.queue, engines := t.engines }
  others : ∀ m : Channel, m ≠ n → t.chan m = s.chan m
  own : ∃ withdraws cancels : Bool, t.chan n = { s.chan n with withdrawOrder := withdraws, cancelOrder := cancels }
  pool : OthersKept s t n keeps

section
variable {s t u : State} {n : Channel} {keeps : Prop}

theorem PoolWork.refl (s : State) : PoolWork s s n keeps := ⟨rfl, fun _ _ => rfl, ⟨_, _, rfl⟩, .of_same rfl rfl⟩

theorem PoolWork.trans (h : PoolWork s t n keeps) (k : PoolWork t u n keeps) : PoolWork s u n keeps := by
  obtain ⟨w, c, hown⟩ := h.own
  obtain ⟨w', c', kown⟩ := k.own
  refine ⟨?_, fun m hm => (k.others m hm).trans (h.others m hm), ⟨w', c', by rw [kown, hown]⟩, h.pool.trans k.pool⟩
  rw [k.rest, h.rest]

theorem PoolWork.state (h : PoolWork s t n keeps) : (t.chan n).state = (s.chan n).state := by
  obtain ⟨w, c, hown⟩ := h.own
  rw [hown]

theorem PoolWork.arbitrate (s : State) : PoolWork s s.arbitrate n keeps :=
  ⟨by rw [arbitrate_rest], fun m _ => arbitrate_chan s m, ⟨_, _, by rw [arbitrate_chan]⟩, .arbitrate s⟩

theorem PoolWork.takeWithdrawOrder (s : State) : PoolWork s (s.takeWithdrawOrder n) n keeps := by
  rw [takeWithdrawOrder_eq]
  refine ⟨rfl, fun m hm => chan_modChan_ne _ _ (Ne.symm hm), ⟨false, (s.chan n).cancelOrder, chan_modChan_same s n _⟩,
    .of_queue (fun q hq => ?_) rfl⟩
  simp [hq]

theorem PoolWork.cancelled (hrun : (s.chan n).state ≠ .halting) : PoolWork s (s.cancelled n) n False := by
  have hchan := cancelled_chan s n
  have hpool := cancelled_pool s n
  have hrest : s.cancelled n = { s with
      chans := (s.cancelled n).chans, queue := (s.cancelled n).queue, engines := (s.cancelled n).engines } := by
    unfold State.cancelled
    rw [report_chans_of_not]
    · rfl
    · change ¬(((s.modChan n fun c => { c with cancelOrder := false }).chan n).state = _ ∧ _)
      rw [chan_modChan_same]
      exact fun h => hrun h.1
  generalize s.cancelled n = t at *
  refine ⟨hrest, fun m hm => (hchan m).trans (if_neg (Ne.symm hm)), ⟨(s.chan n).withdrawOrder, false, ?_⟩, fun q hq => ?_,
    fun e j hj hkeeps => ?_⟩
  · rw [hchan, if_pos rfl, if_neg fun h => hrun h.1]
  · have hstay : (q.channel == n) = false := by simpa using hq
    constructor
    · intro h
      obtain ⟨r, hr, -, rfl⟩ := (hpool.inPool q).1 h
      exact hr
    · exact fun h => (hpool.inPool q).2 ⟨q, h, hstay, rfl⟩
  · have hne : j.request.channel ≠ n := hkeeps.resolve_right id
    exact hpool.job.2 ⟨j, hj, by simpa using hne, rfl⟩

theorem PoolWork.mono {keeps' : Prop} (h : PoolWork s t n keeps) (hkeeps : keeps' → keeps) : PoolWork s t n keeps' :=
  ⟨h.rest, h.others, h.own, h.pool.1, fun e j hj hcase => h.pool.2 e j hj (hcase.imp_right hkeeps)⟩

theorem PoolWork.takeOrders (hrun : (s.chan n).state ≠ .halting) :
    PoolWork s (s.takeOrders n) n ((s.chan n).cancelOrder = false) := by
  have hcancel : ∀ u : State, (u.chan n).state ≠ .halting →
      PoolWork u (if (u.chan n).cancelOrder then u.takeCancelOrder n else u) n ((u.chan n).cancelOrder = false) := by
    intro u hu
    split
    · rename_i horder
      rw [takeCancelOrder_eq]
      refine ((PoolWork.cancelled hu).trans (.arbitrate _)).mono fun h => ?_
      rw [h] at horder
      exact nomatch horder
    · exact .refl u
  unfold State.takeOrders
  dsimp only
  split
  · have hwithdraw : PoolWork s (s.takeWithdrawOrder n) n ((s.chan n).cancelOrder = false) := .takeWithdrawOrder s
    have hown : ((s.takeWithdrawOrder n).chan n).cancelOrder = (s.chan n).cancelOrder := by
      rw [takeWithdrawOrder_eq]
      have hchan := chan_modChan_same s n fun c => { c with withdrawOrder := false }
      have horder := congrArg Chan.cancelOrder hchan
      exact horder
    refine hwithdraw.trans ((hcancel _ ?_).mono fun h => hown.trans h)
    rw [hwithdraw.state]
    exact hrun
  · exact hcancel s hrun

theorem PoolWork.issue (hrun : (s.chan n).state ≠ .halting) :
    PoolWork s (s.issue n) n ((s.chan n).cancelOrder = false) := by
  unfold State.issue
  split
  · rename_i current l role hcurrent hrole
    have horders := PoolWork.takeOrders hrun
    dsimp only
    generalize s.takeOrders n = u at *
    have hjoined : PoolWork u { u with queue := u.queue ++ [(s.chan n).request n l role current] } n
        ((s.chan n).cancelOrder = false) := by
      refine ⟨rfl, fun _ _ => rfl, ⟨_, _, rfl⟩, .of_queue (fun q hq => ?_) rfl⟩
      have hother : q ≠ (s.chan n).request n l role current := fun h => hq (by rw [h]; rfl)
      simp [hother]
    exact (horders.trans hjoined).trans (.arbitrate _)
  · exact .refl s

end

/-! ## The answer (R40 to R42) -/

/-- What the covering entry answers for a field. -/
def State.answerFor (s : State) (a : Arrived) : Option (Handle × Entry) :=
  (s.covering a.field.key a.field.number).map fun h => (h, s.entry h)

theorem answerFor_handle (s : State) (a : Arrived) :
    (s.answerFor a).map Prod.fst = s.covering a.field.key a.field.number := by
  unfold State.answerFor
  rw [Option.map_map]
  exact Option.map_id'

/-- A channel with the answer applied to it. -/
def Chan.answered (c : Chan) (a : Arrived) (answer : Option (Handle × Entry)) : Chan :=
  { c.latch a.field answer with
    monitor := c.seedFor answer
    currentEntry := answer.map Prod.fst
    sequencerClaim := none }

theorem answerLookup_eq (s : State) (n : Channel) (a : Arrived) : s.answerLookup n a =
    (s.moveUse (s.chan n).currentEntry (s.covering a.field.key a.field.number)).modChan n
      fun c => c.answered a (s.answerFor a) := by
  rw [← answerFor_handle]
  rfl

/-- What a whole taking of a lookup makes of the state. -/
structure TakesLookup (s t : State) (n : Channel) (a : Arrived) : Prop where
  rest : t = { s with chans := t.chans, table := t.table, queue := t.queue, engines := t.engines, attn := t.attn }
  others : ∀ m : Channel, m ≠ n → t.chan m = s.chan m
  own : ∃ withdraws cancels : Bool, t.chan n = { ((s.chan n).answered a (s.answerFor a)).observeNewer.countStep with
    withdrawOrder := withdraws, cancelOrder := cancels }
  table : t.table = (s.moveUse (s.chan n).currentEntry (s.covering a.field.key a.field.number)).table
  attn : t.attn = (s.moveUse (s.chan n).currentEntry (s.covering a.field.key a.field.number)).attn
  pool : OthersInPool s t n

theorem withSet_kept (c : Chan) (f : Field) (set : LatchedSet) (gen : Option Gen) (relatch : Bool) :
    (c.withSet f set gen relatch).state = c.state ∧ (c.withSet f set gen relatch).config = c.config ∧
    (c.withSet f set gen relatch).cancelOrder = c.cancelOrder := ⟨rfl, rfl, rfl⟩

/-- A latch changes the window and its marks only. -/
theorem latch_kept (c : Chan) (f : Field) (answer : Option (Handle × Entry)) : (c.latch f answer).state = c.state ∧
    (c.latch f answer).config = c.config ∧ (c.latch f answer).cancelOrder = c.cancelOrder := by
  unfold Chan.latch
  repeat' split
  all_goals exact withSet_kept _ _ _ _ _

/-- An observation and a step leave all but the monitor's part and the tally. -/
theorem observed_kept (c : Chan) : c.observeNewer.countStep = { c with
    monitor := c.observeNewer.monitor
    proposalClaim := c.observeNewer.proposalClaim
    monitorCounters := c.observeNewer.monitorCounters
    tally := min 255 (c.tally + 1) } := by
  unfold Chan.countStep Chan.observeNewer
  split <;> rfl

theorem takeLookup_takes {s : State} {n : Channel} {a : Arrived} (hrun : (s.chan n).state = .running) :
    TakesLookup s (s.takeLookup n a) n a := by
  have hmove := moveUse_rest s (s.chan n).currentEntry (s.covering a.field.key a.field.number)
  have htake : s.takeLookup n a = (((s.moveUse (s.chan n).currentEntry (s.covering a.field.key a.field.number)).modChan n
      fun c => c.answered a (s.answerFor a)).modChan n fun c => c.observeNewer.countStep).issue n := by
    rw [← answerLookup_eq]
    rfl
  rw [modChan_modChan] at htake
  generalize hu : s.moveUse (s.chan n).currentEntry (s.covering a.field.key a.field.number) = u at htake hmove
  have hchan : ∀ m : Channel, (u.modChan n fun c => (c.answered a (s.answerFor a)).observeNewer.countStep).chan m =
      if n = m then ((s.chan m).answered a (s.answerFor a)).observeNewer.countStep else s.chan m := fun m => by
    rw [chan_modChan, hmove]
    rfl
  have hstate : ((u.modChan n fun c => (c.answered a (s.answerFor a)).observeNewer.countStep).chan n).state ≠ .halting := by
    rw [hchan, if_pos rfl, observed_kept]
    change ((s.chan n).latch a.field (s.answerFor a)).state ≠ _
    rw [(latch_kept _ _ _).1, hrun]
    exact nofun
  have horder : ((u.modChan n fun c => (c.answered a (s.answerFor a)).observeNewer.countStep).chan n).cancelOrder =
      (s.chan n).cancelOrder := by
    rw [hchan, if_pos rfl, observed_kept]
    exact (latch_kept _ _ _).2.2
  have hwork := PoolWork.issue hstate
  rw [← htake, horder] at hwork
  generalize s.takeLookup n a = t at *
  obtain ⟨w, k, hown⟩ := hwork.own
  have hpool : OthersKept s (u.modChan n fun c => (c.answered a (s.answerFor a)).observeNewer.countStep) n
      ((s.chan n).cancelOrder = false) := .of_same (by rw [hmove]; rfl) (by rw [hmove]; rfl)
  refine ⟨?_, fun m hm => ?_, ⟨w, k, ?_⟩, ?_, ?_, hpool.trans hwork.pool⟩
  · rw [hwork.rest, hmove]
    rfl
  · rw [hwork.others m hm, hchan, if_neg (Ne.symm hm)]
  · rw [hown, hchan, if_pos rfl]
  · rw [hwork.rest, hu]
    rfl
  · rw [hwork.rest, hu]
    rfl

/-! ## What the answered channel shows -/

theorem dominant_iff (parity : Parity) (dominance : Dominance) :
    dominant parity dominance = true ↔ (parity = .upper ↔ dominance = .upperFirst) := by
  cases parity <;> cases dominance <;> decide

/-- The window slot, latched generation and mark that a taken lookup leaves are those of the latch. -/
theorem TakesLookup.latched {s t : State} {n : Channel} {a : Arrived} (h : TakesLookup s t n a) :
    (t.chan n).sequencerClaim = none ∧ (t.chan n).currentEntry = s.covering a.field.key a.field.number ∧
    (t.chan n).window.newer = ((s.chan n).latch a.field (s.answerFor a)).window.newer ∧
    (t.chan n).latchedGen = ((s.chan n).latch a.field (s.answerFor a)).latchedGen ∧
    (t.chan n).relatch = ((s.chan n).latch a.field (s.answerFor a)).relatch ∧
    (t.chan n).config = (s.chan n).config := by
  obtain ⟨w, k, hown⟩ := h.own
  rw [hown, observed_kept]
  exact ⟨rfl, answerFor_handle s a, rfl, rfl, rfl, (latch_kept _ _ _).2.1⟩

theorem TakesLookup.entries {s t : State} {n : Channel} {a : Arrived} (h : TakesLookup s t n a) (g : Handle) :
    t.entry g = (s.moveUse (s.chan n).currentEntry (s.covering a.field.key a.field.number)).entry g :=
  entry_of_table h.table g

theorem TakesLookup.sharedFree {s t : State} {n : Channel} {a : Arrived} (h : TakesLookup s t n a) :
    t.sharedFree = (s.moveUse (s.chan n).currentEntry (s.covering a.field.key a.field.number)).sharedFree := by
  refine sharedFree_of_same h.table fun m => ?_
  rw [moveUse_rest]
  by_cases hm : m = n
  · subst hm
    exact h.latched.2.2.2.2.2
  · rw [h.others m hm]
    rfl

/-- A departure that makes no entry FREE tells the attention unit nothing. -/
theorem moveUse_quiet {s : State} {old new : Option Handle}
    (h : ∀ o : Handle, old = some o → new = some o ∨ (s.entry o).state ≠ .retiring ∨ 1 < (s.entry o).useCount) :
    (s.moveUse old new).attn = s.attn := by
  rw [moveUse_attn]
  cases old with
  | none => rfl
  | some o =>
    refine if_neg fun ⟨hne, hstate, hcount⟩ => ?_
    rcases h o rfl with hsame | hother | hmore
    · exact hne hsame.symm
    · exact hother hstate
    · omega

theorem moveUse_frees {s : State} {o : Handle} {new : Option Handle} (hne : new ≠ some o)
    (hstate : (s.entry o).state = .retiring) (hcount : (s.entry o).useCount ≤ 1) :
    (s.moveUse (some o) new).attn = s.attn.handOver (s.moveUse (some o) new).sharedFree := by
  rw [moveUse_attn]
  exact if_pos ⟨fun h => hne h.symm, hstate, hcount⟩

section
variable {c : Chan} {f : Field} {h : Handle} {e : Entry}

theorem latch_enters (hcurrent : c.currentEntry ≠ some h) :
    c.latch f (some (h, e)) = c.withSet f (e.latchedSet h) (some e.gen) false := if_pos hcurrent

theorem latch_again {last : LatchedSet} (hcurrent : c.currentEntry = some h) (hlast : c.lastSet = some last)
    (hmark : c.relatch = false) (hgen : c.latchedGen = some e.gen) :
    c.latch f (some (h, e)) = c.withSet f last c.latchedGen false := by
  unfold Chan.latch
  dsimp only
  rw [if_neg (fun hne => hne hcurrent), hlast]
  dsimp only
  rw [if_neg]
  rintro (hset | hother)
  · rw [hmark] at hset
    exact nomatch hset
  · exact hother hgen

theorem latch_changed {last : LatchedSet} (hcurrent : c.currentEntry = some h) (hlast : c.lastSet = some last)
    (hgen : c.latchedGen ≠ some e.gen) : c.latch f (some (h, e)) =
      if dominant f.parity last.directives.dominance then c.withSet f (e.latchedSet h) (some e.gen) false
      else c.withSet f last c.latchedGen true := by
  unfold Chan.latch
  dsimp only
  rw [if_neg (fun hne => hne hcurrent), hlast]
  dsimp only
  rw [if_pos (.inr hgen)]

end

theorem TakesLookup.answered {s t : State} {n : Channel} {a : Arrived} (h : TakesLookup s t n a) : Answered s t n a := by
  obtain ⟨-, hcurrent, hnewer, hgen, hmark, -⟩ := h.latched
  have hentry := h.entries
  have hfree := h.sharedFree
  have hattn := h.attn
  have hanswer : ∀ g : Handle, s.covering a.field.key a.field.number = some g →
      s.answerFor a = some (g, s.entry g) := fun g hg => by
    unfold State.answerFor
    rw [hg]
    rfl
  have hnone : s.covering a.field.key a.field.number = none → s.answerFor a = none := fun hg => by
    unfold State.answerFor
    rw [hg]
    rfl
  unfold Answered
  generalize s.answerFor a = answer at *
  generalize s.covering a.field.key a.field.number = new at *
  refine ⟨hcurrent, fun g hold hnew => ?_, fun hg => ?_, fun o hold hne => ?_, fun o hold hne hstate hcount => ?_,
    fun hquiet => ?_, fun g hg hne => ?_, fun g last hg hold hlast => ⟨?_, fun hclear hsame => ?_, fun hchanged => ?_⟩⟩
  · rw [hentry]
    by_cases hsame : (s.chan n).currentEntry = new
    · rw [hsame, moveUse_entry_same]
    · rw [moveUse_entry s hsame, if_neg hold, if_neg hnew]
  · rw [hnewer, hgen, hmark, hnone hg]
    exact ⟨rfl, rfl, rfl⟩
  · rw [hentry, moveUse_entry s (fun hsame => hne (hsame.symm.trans hold)), if_pos hold]
    rfl
  · rw [hattn, hfree, hold]
    exact moveUse_frees hne hstate hcount
  · rw [hattn]
    exact moveUse_quiet hquiet
  · rw [hentry, moveUse_entry s (fun hsame => hne (hsame.trans hg)), if_neg hne, if_pos hg, hnewer, hgen, hmark, hanswer g hg,
      latch_enters hne]
    exact ⟨rfl, rfl, rfl, rfl⟩
  · rw [hentry, hold, hg, moveUse_entry_same]
  · rw [hnewer, hgen, hmark, hanswer g hg, latch_again hold hlast hclear hsame]
    exact ⟨rfl, rfl, rfl⟩
  · rw [hnewer, hgen, hmark, hanswer g hg, latch_changed hold hlast hchanged]
    refine ⟨fun hdominant => ?_, fun hnot => ?_⟩
    · rw [if_pos ((dominant_iff _ _).2 hdominant)]
      exact ⟨rfl, rfl, rfl⟩
    · rw [if_neg fun h => hnot ((dominant_iff _ _).1 h)]
      exact ⟨rfl, rfl, rfl⟩

end Sys2Proof.Machine
end

