-- ==== Sys2Proof/Proofs/ClaimOrder.lean ====
section
/-! The order in which the Table Controller takes what waits (R38, R46): what is taken later is taken as if what goes before
it had been taken on its own. -/

namespace Sys2Proof.Machine

/-! ## Table requests -/

/-- A table request is served by the Table Controller, after the claims. -/
theorem exec_table {r : Instr} (h : tableRequest r = true) :
    ∃ owner : State → State × Result, ∀ s : State, exec r s = .next (s.serveTable r owner) := by
  cases r
  case entryAdd key first last d => exact ⟨_, fun _ => rfl⟩
  case entryAmend handle g first last d => exact ⟨_, fun _ => rfl⟩
  case entryRetire handle g => exact ⟨_, fun _ => rfl⟩
  case entryRead handle => exact ⟨_, fun _ => rfl⟩
  case entryFind key f => exact ⟨_, fun _ => rfl⟩
  case entryNext key f => exact ⟨_, fun _ => rfl⟩
  case proposalConfirm handle g => exact ⟨_, fun _ => rfl⟩
  case proposalReject handle g => exact ⟨_, fun _ => rfl⟩
  case channelSet mask record => exact ⟨_, fun _ => rfl⟩
  case unitRead => exact ⟨_, fun _ => rfl⟩
  all_goals exact nomatch h

/-- A waiting table request is served alike where the claims before it come to the same. -/
theorem exec_table_congr {s u : State} {r : Instr} (h : tableRequest r = true) (hs : s.Waits r) (hu : u.Waits r)
    (hclaims : s.takeClaims = u.takeClaims) : exec r s = exec r u := by
  obtain ⟨owner, hexec⟩ := exec_table h
  rw [hexec, hexec]
  unfold State.serveTable
  rw [serve_launched s r _ hs, serve_launched u r _ hu, hclaims]

/-! ## What the taking of a sequencer claim leaves -/

theorem takeOrders_halts {s t : State} (h : Halts s t) (n : Channel) : Halts s (t.takeOrders n) := by
  have hcancel : ∀ u : State, Halts s u → Halts s (if (u.chan n).cancelOrder then u.takeCancelOrder n else u) := by
    intro u hu
    split
    · exact (hu.trans (cancelled_halts u n)).arbitrate
    · exact hu
  unfold State.takeOrders
  refine hcancel _ ?_
  split
  · exact (h.modChan n (fun c => { c with withdrawOrder := false }) fun _ => rfl).dropQueued _
  · exact h

theorem moveUse_halts (s : State) (old new : Option Handle) : Halts s (s.moveUse old new) := by
  refine (Halts.refl s).of_same (fun m => ?_) ?_
  · rw [moveUse_rest]
    rfl
  · rw [moveUse_rest]

theorem takeLookup_halts (s : State) (n : Channel) (a : Arrived) : Halts s (s.takeLookup n a) := by
  have hanswer : Halts s (s.answerLookup n a) := by
    rw [answerLookup_eq]
    refine (moveUse_halts s _ _).modChan n (fun c => c.answered a (s.answerFor a)) fun c => ?_
    exact (latch_kept c a.field _).1
  have hobserve : Halts s ((s.answerLookup n a).modChan n fun c => c.observeNewer.countStep) :=
    hanswer.modChan n (fun c => c.observeNewer.countStep) fun c => by rw [observed_kept]
  unfold State.takeLookup State.finishShift
  generalize (s.answerLookup n a).modChan n _ = u at *
  unfold State.issue
  split
  · exact Halts.arbitrate ((takeOrders_halts hobserve n).of_same (fun _ => rfl) rfl)
  · exact hobserve

/-- A release in its two parts: the channel and its use count, then the order that its state asks for. -/
theorem takeRelease_shape (s : State) (n : Channel) (b : Bool) : s.takeRelease n b =
    if (((s.moveUse (s.chan n).currentEntry none).modChan n fun c => c.released b).chan n).state = .halting then
      (((s.moveUse (s.chan n).currentEntry none).modChan n fun c => c.released b).modChan n
        fun c => { c with cancelOrder := true }).judgeHalted n
    else ((s.moveUse (s.chan n).currentEntry none).modChan n fun c => c.released b).modChan n
      fun c => { c with withdrawOrder := true } := rfl

theorem takeRelease_halts (s : State) (n : Channel) (b : Bool) : Halts s (s.takeRelease n b) := by
  have hmove : Halts s ((s.moveUse (s.chan n).currentEntry none).modChan n fun c => c.released b) :=
    (moveUse_halts s _ _).modChan n (fun c => c.released b) fun _ => rfl
  rw [takeRelease_shape]
  generalize (s.moveUse (s.chan n).currentEntry none).modChan n _ = u at *
  split
  · exact judgeHalted_halts (hmove.modChan n (fun c => { c with cancelOrder := true }) fun _ => rfl) n
  · exact hmove.modChan n (fun c => { c with withdrawOrder := true }) fun _ => rfl

theorem takeSequencerClaim_halts (s : State) (n : Channel) : Halts s (s.takeSequencerClaim n) := by
  unfold State.takeSequencerClaim
  split
  · exact Halts.refl s
  · exact takeLookup_halts s n _
  · exact takeRelease_halts s n _

/-- A request that waits for the Table Controller waits on. -/
theorem takeSequencerClaim_waits {s : State} {r : Instr} (h : s.Waits r) (n : Channel) :
    (s.takeSequencerClaim n).Waits r := by
  rcases (takeSequencerClaim_halts s n).flight with hsame | ⟨mask, hcarried, -⟩
  · exact hsame.trans h
  · exact nomatch h.symm.trans hcarried

/-- The proposal claim of a channel is as it was. -/
def KeepsProposal (s t : State) (n : Channel) : Prop := (t.chan n).proposalClaim = (s.chan n).proposalClaim

theorem KeepsProposal.trans {s t u : State} {n : Channel} (h : KeepsProposal s t n) (k : KeepsProposal t u n) :
    KeepsProposal s u n := Eq.trans k h

theorem modChan_keepsProposal (s : State) (n : Channel) {f : Chan → Chan} (hf : ∀ c : Chan, (f c).proposalClaim = c.proposalClaim) :
    KeepsProposal s (s.modChan n f) n := by
  unfold KeepsProposal
  rw [chan_modChan_same]
  exact hf _

theorem arbitrate_keepsProposal (s : State) (n : Channel) : KeepsProposal s s.arbitrate n := by
  unfold KeepsProposal
  rw [arbitrate_chan]

theorem takeOrders_keepsProposal (s : State) (n : Channel) : KeepsProposal s (s.takeOrders n) n := by
  have hcancel : ∀ u : State, KeepsProposal u (if (u.chan n).cancelOrder then u.takeCancelOrder n else u) n := by
    intro u
    split
    · refine KeepsProposal.trans (t := u.cancelled n) ?_ (arbitrate_keepsProposal _ n)
      unfold KeepsProposal
      rw [cancelled_chan, if_pos rfl]
    · rfl
  unfold State.takeOrders
  refine KeepsProposal.trans ?_ (hcancel _)
  split
  · exact modChan_keepsProposal s n (f := fun c => { c with withdrawOrder := false }) fun _ => rfl
  · rfl

theorem issue_keepsProposal (s : State) (n : Channel) : KeepsProposal s (s.issue n) n := by
  unfold State.issue
  split
  · refine KeepsProposal.trans (takeOrders_keepsProposal s n) ?_
    exact arbitrate_keepsProposal { s.takeOrders n with queue := _ } n
  · rfl

/-- An observation replaces the waiting claim or leaves it (R38). -/
theorem observeNewer_waits {c : Chan} (h : c.proposalClaim ≠ none) : c.observeNewer.proposalClaim ≠ none := by
  unfold Chan.observeNewer
  split
  · exact h
  · rename_i o _
    dsimp only
    cases c.newClaim o with
    | none => exact h
    | some p => exact nofun

theorem latch_proposal (c : Chan) (f : Field) (answer : Option (Handle × Entry)) :
    (c.latch f answer).proposalClaim = c.proposalClaim := by
  unfold Chan.latch
  repeat' split
  all_goals rfl

theorem takeLookup_proposal {s : State} {n : Channel} {a : Arrived} (h : (s.chan n).proposalClaim ≠ none) :
    ((s.takeLookup n a).chan n).proposalClaim ≠ none := by
  have hchan : ((s.answerLookup n a).chan n).proposalClaim = (s.chan n).proposalClaim := by
    rw [answerLookup_eq, chan_modChan_same, moveUse_rest]
    exact latch_proposal _ _ _
  have hissue := issue_keepsProposal ((s.answerLookup n a).modChan n fun c => c.observeNewer.countStep) n
  unfold KeepsProposal at hissue
  unfold State.takeLookup State.finishShift
  rw [hissue, chan_modChan_same]
  exact observeNewer_waits (by rw [hchan]; exact h)

theorem takeRelease_proposal (s : State) (n : Channel) (b : Bool) : KeepsProposal s (s.takeRelease n b) n := by
  have hmove : KeepsProposal s ((s.moveUse (s.chan n).currentEntry none).modChan n fun c => c.released b) n := by
    refine KeepsProposal.trans (t := s.moveUse (s.chan n).currentEntry none) ?_
      (modChan_keepsProposal _ n (f := fun c => c.released b) fun _ => rfl)
    unfold KeepsProposal
    rw [moveUse_rest]
    rfl
  rw [takeRelease_shape]
  generalize (s.moveUse (s.chan n).currentEntry none).modChan n _ = u at *
  split
  · refine (hmove.trans (modChan_keepsProposal u n (f := fun c => { c with cancelOrder := true }) fun _ => rfl)).trans ?_
    unfold KeepsProposal State.judgeHalted
    split
    · rfl
    · rw [report_chan]
      split <;> rfl
  · exact hmove.trans (modChan_keepsProposal u n (f := fun c => { c with withdrawOrder := true }) fun _ => rfl)

/-- A waiting proposal claim waits on after the taking of a sequencer claim. -/
theorem takeSequencerClaim_proposal {s : State} {k : Channel} (h : (s.chan k).proposalClaim ≠ none) (m : Channel) :
    ((s.takeSequencerClaim m).chan k).proposalClaim ≠ none := by
  by_cases hk : k = m
  · subst hk
    unfold State.takeSequencerClaim
    split
    · exact h
    · exact takeLookup_proposal h
    · rw [takeRelease_proposal s k _]
      exact h
  · rw [(takeSequencerClaim_claim s m).1 k hk]
    exact h

/-! ## The taking of a proposal claim -/

/-- What the decision of a claim leaves. -/
structure Decides (s t : State) (n : Channel) : Prop where
  others : ∀ m : Channel, m ≠ n → t.chan m = s.chan m
  own : (t.chan n).proposalClaim = (s.chan n).proposalClaim ∧ (t.chan n).sequencerClaim = (s.chan n).sequencerClaim
  link : t.link = s.link

theorem modMonitorCounters_decides (s : State) (n : Channel) (f : MonitorCounters → MonitorCounters) :
    Decides s (s.modMonitorCounters n f) n := by
  unfold State.modMonitorCounters
  refine ⟨fun m hm => chan_modChan_ne _ _ (Ne.symm hm), ?_, rfl⟩
  rw [chan_modChan_same]
  exact ⟨rfl, rfl⟩

theorem decideProposal_decides (s : State) (n : Channel) (p : ProposalClaim) : Decides s (s.decideProposal n p) n := by
  unfold State.decideProposal
  split
  · exact modMonitorCounters_decides s n _
  · split
    · exact modMonitorCounters_decides s n _
    · split
      · exact modMonitorCounters_decides s n _
      · rename_i f _
        have hsplit : s.splitForProposal n p f =
            { s with table := (s.splitForProposal n p f).table, attn := (s.splitForProposal n p f).attn } := by
          unfold State.splitForProposal
          rw [truncateBasis_rest]
          rfl
        have haccept : s.acceptProposal n p f = ((s.splitForProposal n p f).modMonitorCounters n fun k =>
            { k with proposals := bump k.proposals 1 }).modAttn fun a => a.latchProposal n := rfl
        rw [haccept, hsplit]
        generalize s.splitForProposal n p f = u at *
        obtain ⟨hothers, hown, hlink⟩ := modMonitorCounters_decides { s with table := u.table, attn := u.attn } n
          fun k => { k with proposals := bump k.proposals 1 }
        exact ⟨hothers, hown, hlink⟩

theorem takeProposal_leaves (s : State) (n : Channel) :
    (∀ m : Channel, m ≠ n → (s.takeProposal n).chan m = s.chan m) ∧ ((s.takeProposal n).chan n).proposalClaim = none ∧
    ((s.takeProposal n).chan n).sequencerClaim = (s.chan n).sequencerClaim ∧ (s.takeProposal n).link = s.link := by
  unfold State.takeProposal
  split
  · rename_i hnone
    exact ⟨fun _ _ => rfl, hnone, rfl, rfl⟩
  · rename_i p _
    obtain ⟨hothers, ⟨hproposal, hsequencer⟩, hlink⟩ := decideProposal_decides (s.dropProposal n) n p
    have hown := chan_modChan_same s n fun c => { c with proposalClaim := none }
    have hkept := congrArg Chan.sequencerClaim hown
    exact ⟨fun m hm => (hothers m hm).trans (chan_modChan_ne _ _ (Ne.symm hm)),
      hproposal.trans (congrArg Chan.proposalClaim hown), hsequencer.trans hkept, hlink⟩

/-! ## The order of R38 -/

theorem channelsBelow_split {m n : Channel} (h : m < n) : (allChannels.filter fun k => k.val < n.val) =
    (allChannels.filter fun k => k < m) ++ m :: allChannels.filter fun k => m < k ∧ k < n := by
  revert m n; decide

theorem channelsUpTo_split {m n : Channel} (h : m < n) : (allChannels.filter fun k => k.val ≤ n.val) =
    (allChannels.filter fun k => k < m) ++ m :: allChannels.filter fun k => m < k ∧ k ≤ n := by
  revert m n; decide

/-- The sequencer claims below a channel are taken alike once the first of them has been taken. -/
theorem takeSequencerBelow_first {s : State} {m n : Channel} (hm : m < n) (h : s.TurnOf m) :
    s.takeSequencerBelow n = (s.takeSequencerClaim m).takeSequencerBelow n := by
  obtain ⟨hothers, hown⟩ := takeSequencerClaim_claim s m
  unfold State.takeSequencerBelow
  rw [channelsBelow_split hm]
  refine foldl_first _ _ m (fun k hk => takeSequencerClaim_none s k (h k ?_)) rfl (fun k hk => ?_)
    (takeSequencerClaim_none _ m hown)
  · simpa using (List.mem_filter.1 hk).2
  · have hlt : k < m := by simpa using (List.mem_filter.1 hk).2
    exact takeSequencerClaim_none _ k (by rw [hothers k (ne_of_lt hlt)]; exact h k hlt)

theorem takeClaims_sequencerFirst {s : State} {m : Channel} (h : s.TurnOf m) :
    s.takeClaims = (s.takeSequencerClaim m).takeClaims := by
  unfold State.takeClaims
  rw [takeSequencerClaims_first s m h]

/-- The proposal claims of a list of channels are taken alike once the first of them has been taken. -/
theorem takeProposals_first {s : State} {m : Channel} (hlower : ∀ k : Channel, k < m → (s.chan k).proposalClaim = none)
    (after : List Channel) : ((allChannels.filter fun k => k < m) ++ m :: after).foldl State.takeProposal s =
      ((allChannels.filter fun k => k < m) ++ m :: after).foldl State.takeProposal (s.takeProposal m) := by
  obtain ⟨hothers, hown, -, -⟩ := takeProposal_leaves s m
  refine foldl_first _ _ m (fun k hk => takeProposal_none s k (hlower k ?_)) rfl (fun k hk => ?_)
    (takeProposal_none _ m hown)
  · simpa using (List.mem_filter.1 hk).2
  · have hlt : k < m := by simpa using (List.mem_filter.1 hk).2
    exact takeProposal_none _ k (by rw [hothers k (ne_of_lt hlt)]; exact hlower k hlt)

theorem takeProposal_noSequencer {s : State} (h : ∀ k : Channel, (s.chan k).sequencerClaim = none) (m k : Channel) :
    ((s.takeProposal m).chan k).sequencerClaim = none := by
  obtain ⟨hothers, -, hown, -⟩ := takeProposal_leaves s m
  by_cases hk : k = m
  · rw [hk, hown, h]
  · rw [hothers k hk, h]

theorem takeClaims_proposalFirst {s : State} {m : Channel} (hsequencer : ∀ k : Channel, (s.chan k).sequencerClaim = none)
    (hlower : ∀ k : Channel, k < m → (s.chan k).proposalClaim = none) : s.takeClaims = (s.takeProposal m).takeClaims := by
  unfold State.takeClaims
  rw [takeSequencerClaims_none hsequencer, takeSequencerClaims_none (takeProposal_noSequencer hsequencer m),
    allChannels_split m]
  exact takeProposals_first hlower _

/-! ## The commands of the claims -/

theorem exec_lookup {s : State} {n : Channel} {a : Arrived} (hclaim : (s.chan n).sequencerClaim = some (.lookup a)) :
    exec (.lookup n) s = .next ((s.takeSequencerBelow n).takeLookup n a) := by
  change Host.Outcome.next _ = _
  rw [hclaim]

theorem exec_release {s : State} {n : Channel} {b : Bool} (hclaim : (s.chan n).sequencerClaim = some (.release b)) :
    exec (.release n) s = .next ((s.takeSequencerBelow n).takeRelease n b) := by
  change Host.Outcome.next _ = _
  rw [hclaim]

theorem exec_proposalClaims {s : State} {n : Channel} (hclaim : (s.chan n).proposalClaim ≠ none) :
    exec (.proposalClaim n) s =
      .next ((allChannels.filter fun m => m.val ≤ n.val).foldl State.takeProposal s.takeSequencerClaims) := by
  change Host.Outcome.next (if _ then _ else _) = _
  rw [if_pos (Option.isSome_iff_ne_none.2 hclaim)]

/-- In its turn, a claim's command takes that claim and no other. -/
theorem exec_turn {s u : State} {m : Channel} (hturn : s.TurnOf m)
    (h : (∃ a : Arrived, (s.chan m).sequencerClaim = some (.lookup a) ∧ exec (.lookup m) s = .next u) ∨
      ∃ b : Bool, (s.chan m).sequencerClaim = some (.release b) ∧ exec (.release m) s = .next u) :
    u = s.takeSequencerClaim m := by
  rcases h with ⟨a, hclaim, hexec⟩ | ⟨b, hclaim, hexec⟩
  · rw [exec_lookup hclaim, takeSequencerBelow_turn hturn] at hexec
    cases hexec
    unfold State.takeSequencerClaim
    rw [hclaim]
  · rw [exec_release hclaim, takeSequencerBelow_turn hturn] at hexec
    cases hexec
    unfold State.takeSequencerClaim
    rw [hclaim]

/-- What is taken after a sequencer claim is taken as after that claim alone. -/
theorem exec_after_sequencerClaim {s : State} {r : Instr} {m : Channel} (hturn : s.TurnOf m)
    (h : tableRequest r = true ∧ s.Waits r ∨
      (∃ n : Channel, r = .proposalClaim n ∧ (s.chan n).proposalClaim ≠ none) ∨
      (∃ (n : Channel) (a : Arrived), m < n ∧ r = .lookup n ∧ (s.chan n).sequencerClaim = some (.lookup a)) ∨
      ∃ (n : Channel) (b : Bool), m < n ∧ r = .release n ∧ (s.chan n).sequencerClaim = some (.release b)) :
    exec r s = exec r (s.takeSequencerClaim m) := by
  have hothers := (takeSequencerClaim_claim s m).1
  rcases h with ⟨htable, hw⟩ | ⟨n, rfl, hclaim⟩ | ⟨n, a, hm, rfl, hclaim⟩ | ⟨n, b, hm, rfl, hclaim⟩
  · exact exec_table_congr htable hw (takeSequencerClaim_waits hw m) (takeClaims_sequencerFirst hturn)
  · rw [exec_proposalClaims hclaim, exec_proposalClaims (takeSequencerClaim_proposal hclaim m),
      ← takeSequencerClaims_first s m hturn]
  · have hwaits : ((s.takeSequencerClaim m).chan n).sequencerClaim = some (.lookup a) := by
      rw [hothers n (ne_of_gt hm), hclaim]
    rw [exec_lookup hclaim, exec_lookup hwaits, takeSequencerBelow_first hm hturn]
  · have hwaits : ((s.takeSequencerClaim m).chan n).sequencerClaim = some (.release b) := by
      rw [hothers n (ne_of_gt hm), hclaim]
    rw [exec_release hclaim, exec_release hwaits, takeSequencerBelow_first hm hturn]

/-- What is taken after a proposal claim is taken as after that claim alone. -/
theorem exec_after_proposalClaim {s : State} {r : Instr} {m : Channel}
    (hsequencer : ∀ k : Channel, (s.chan k).sequencerClaim = none)
    (hlower : ∀ k : Channel, k < m → (s.chan k).proposalClaim = none)
    (h : tableRequest r = true ∧ s.Waits r ∨
      ∃ n : Channel, m < n ∧ r = .proposalClaim n ∧ (s.chan n).proposalClaim ≠ none) :
    exec r s = exec r (s.takeProposal m) := by
  obtain ⟨hothers, -, -, hlink⟩ := takeProposal_leaves s m
  rcases h with ⟨htable, hw⟩ | ⟨n, hm, rfl, hclaim⟩
  · exact exec_table_congr htable hw ((congrArg Link.flight hlink).trans hw) (takeClaims_proposalFirst hsequencer hlower)
  · have hwaits : ((s.takeProposal m).chan n).proposalClaim ≠ none := by
      rw [hothers n (ne_of_gt hm)]
      exact hclaim
    rw [exec_proposalClaims hclaim, exec_proposalClaims hwaits, takeSequencerClaims_none hsequencer,
      takeSequencerClaims_none (takeProposal_noSequencer hsequencer m), channelsUpTo_split hm, takeProposals_first hlower]

/-- Settles O13: the answer to a lookup in its turn, and the order of what waits. -/
theorem lookupAnswersCoveringEntry : Obligations.LookupAnswersCoveringEntry := by
  refine ⟨fun s n a hrun hclaim hturn => ?_, fun s u r m hturn htaken hlater => ?_,
    fun s u r m hsequencer hlower hclaim hexec hlater => ?_⟩
  · have hexec := exec_lookup hclaim
    rw [takeSequencerBelow_turn hturn] at hexec
    have htakes := takeLookup_takes (a := a) hrun
    exact ⟨_, hexec, htakes.latched.1, htakes.answered, htakes.pool, htakes.others, htakes.rest⟩
  · rw [exec_turn hturn htaken]
    exact exec_after_sequencerClaim hturn hlater
  · have hu : u = s.takeProposal m := by
      rw [exec_proposalClaims hclaim, takeSequencerClaims_none hsequencer, channels_upTo, List.foldl_append,
        takeProposals_below hlower] at hexec
      exact (Host.Outcome.next.inj hexec).symm
    rw [hu]
    exact exec_after_proposalClaim hsequencer hlower hlater

end Sys2Proof.Machine
end

