-- ==== Sys2Proof/Proofs/Pictures.lean ====
section
/-! The pictures an output shows: slates, formed pictures, the trimmed region and its placement (R119 to R125, R147). -/

namespace Sys2Proof.Machine

/-! ## Slates (R147) -/

theorem colourAt_bar {count width column : Nat} (hcolumn : column < count * width) :
    (SlateRecord.bars count width).colourAt column = barColour (column / width) := by
  have hbar : column / width < count := Nat.div_lt_of_lt_mul (by rwa [Nat.mul_comm])
  exact congrArg barColour (min_eq_left (by omega))

theorem colourAt_rest {count width column : Nat} (hwidth : 0 < width) (hcolumn : count * width ≤ column) :
    (SlateRecord.bars count width).colourAt column = barColour (count - 1) := by
  have hbar : count ≤ column / width := (Nat.le_div_iff_mul_le hwidth).2 hcolumn
  exact congrArg barColour (min_eq_right (by omega))

/-! ## Formed pictures (R120, R124) -/

/-- The rows the mask blanks are black under every recipe. -/
theorem formPicture_black {kind : RecipeKind} {m : Mask} {lineCount : Nat} {fields : List (Option Field)}
    (hlines : ∀ f : Field, some f ∈ fields → f.activeLines.length = lineCount) {i : Nat} (hi : i < 2 * lineCount)
    (hbands : i < 2 * m.top.val ∨ 2 * lineCount ≤ i + 2 * m.bottom.val) :
    (formPicture kind (some m) lineCount fields)[i]? = some (.known blackLine) := by
  have hlength := recipePicture_length kind (some m) lineCount fields hlines
  have hin : inBands (2 * m.top.val) (2 * m.bottom.val) (2 * lineCount) i = true := by
    unfold inBands
    rw [Bool.or_eq_true, decide_eq_true_eq, decide_eq_true_eq]
    exact hbands
  unfold formPicture
  rw [maskedPicture_getElem?, hlength, List.getElem?_eq_getElem (by rw [hlength]; exact hi), hin]
  rfl

/-- Two lists of lines in turn: the first at the even places, the second at the odd ones. -/
theorem interleave_getElem? {xs ys : List PictureLine} (hlength : xs.length = ys.length) (k : Nat) :
    (interleave xs ys)[2 * k]? = xs[k]? ∧ (interleave xs ys)[2 * k + 1]? = ys[k]? := by
  induction xs generalizing ys k with
  | nil =>
    have hys : ys = [] := List.eq_nil_of_length_eq_zero hlength.symm
    subst hys
    exact ⟨rfl, rfl⟩
  | cons x xs ih =>
    cases ys with
    | nil => exact absurd hlength (Nat.succ_ne_zero _)
    | cons y ys =>
      cases k with
      | zero => exact ⟨rfl, rfl⟩
      | succ k => exact ih (Nat.succ.inj hlength) k

/-- WEAVE without a mask: the upper field's lines at the even places, the lower field's at the odd ones. -/
theorem weave_getElem? {f p : Field} {lineCount k : Nat} {x y : List Byte} (hf : f.activeLines.length = lineCount)
    (hp : p.activeLines.length = lineCount) (hx : f.activeLines[k]? = some x) (hy : p.activeLines[k]? = some y) :
    (formPicture .weave none lineCount [some f, some p])[2 * k]? = some (.known (if f.parity = .upper then x else y)) ∧
    (formPicture .weave none lineCount [some f, some p])[2 * k + 1]? =
      some (.known (if f.parity = .upper then y else x)) := by
  have hpicture : formPicture .weave none lineCount [some f, some p] =
      placeLines f.parity f.activeLines (p.activeLines.map .known) := rfl
  have hlength : (f.activeLines.map PictureLine.known).length = (p.activeLines.map PictureLine.known).length := by
    rw [List.length_map, List.length_map, hf, hp]
  rw [hpicture]
  unfold placeLines
  cases f.parity with
  | upper =>
    obtain ⟨heven, hodd⟩ := interleave_getElem? hlength k
    exact ⟨heven.trans (by rw [List.getElem?_map, hx]; rfl), hodd.trans (by rw [List.getElem?_map, hy]; rfl)⟩
  | lower =>
    obtain ⟨heven, hodd⟩ := interleave_getElem? hlength.symm k
    exact ⟨heven.trans (by rw [List.getElem?_map, hy]; rfl), hodd.trans (by rw [List.getElem?_map, hx]; rfl)⟩

/-! ## The trimmed region (R125) -/

section
variable {f : Frame} {row column : Nat}

theorem regionAt_sample (hrow : row < f.picture.length) (hcolumn : column < 720) {line : PictureLine} {r c : Nat}
    (hr : (r : Int) = row + 2 * f.profile.verticalTrim) (hc : (c : Int) = column + f.profile.horizontalTrim) (hlt : c < 720)
    (hline : f.picture[r]? = some line) : f.regionAt row column = some (.sample line c) := by
  have hregionLine : f.regionLine row = some line := by
    unfold Frame.regionLine
    dsimp only
    rw [← hr, if_pos (Int.natCast_nonneg r), Int.toNat_natCast, hline]
  have hregionColumn : f.regionColumn column = some c := by
    unfold Frame.regionColumn
    dsimp only
    rw [← hc, if_pos ⟨Int.natCast_nonneg c, Int.ofNat_lt.2 hlt⟩, Int.toNat_natCast]
  unfold Frame.regionAt
  rw [if_pos ⟨hrow, hcolumn⟩, hregionLine, hregionColumn]

theorem regionLine_none (h : (row : Int) + 2 * f.profile.verticalTrim < 0 ∨
    (f.picture.length : Int) ≤ row + 2 * f.profile.verticalTrim) : f.regionLine row = none := by
  unfold Frame.regionLine
  dsimp only
  split
  · exact List.getElem?_eq_none (by omega)
  · rfl

theorem regionColumn_none (h : (column : Int) + f.profile.horizontalTrim < 0 ∨
    720 ≤ (column : Int) + f.profile.horizontalTrim) : f.regionColumn column = none := by
  unfold Frame.regionColumn
  refine if_neg fun hin => ?_
  have hwidth : (Config.samplesPerLine : Int) = 720 := rfl
  omega

theorem regionAt_black (hrow : row < f.picture.length) (hcolumn : column < 720)
    (h : (row : Int) + 2 * f.profile.verticalTrim < 0 ∨ (f.picture.length : Int) ≤ row + 2 * f.profile.verticalTrim ∨
      (column : Int) + f.profile.horizontalTrim < 0 ∨ 720 ≤ (column : Int) + f.profile.horizontalTrim) :
    f.regionAt row column = some (.colour { y := 16, cb := 128, cr := 128 }) := by
  have hoff : f.regionLine row = none ∨ f.regionColumn column = none := by
    rcases h with h | h | h | h
    · exact .inl (regionLine_none (.inl h))
    · exact .inl (regionLine_none (.inr h))
    · exact .inr (regionColumn_none (.inl h))
    · exact .inr (regionColumn_none (.inr h))
  unfold Frame.regionAt
  rw [if_pos ⟨hrow, hcolumn⟩]
  rcases hoff with h | h
  · rw [h]
    rfl
  · rw [h]
    cases f.regionLine row <;> rfl

/-! ## The placement (R125) -/

/-- A raster by its width and height, with the columns beside a pillar-boxed region and the rows cut from a cropped one. -/
structure RasterSizes (raster : Raster) (width height side cut : Nat) : Prop where
  size : raster.size = (width, height)
  pillars : 4 * height / 3 = width - 2 * side
  besides : (width - (width - 2 * side)) / 2 = side
  within : 2 * side ≤ width
  crop : 3 * width / 4 = height + 2 * cut
  cropped : (height + 2 * cut - height) / 2 = cut

theorem rasterSizes_of {raster : Raster} {width height side cut : Nat}
    (h : raster = .r1920x1080 ∧ width = 1920 ∧ height = 1080 ∧ side = 240 ∧ cut = 180 ∨
      raster = .r1280x720 ∧ width = 1280 ∧ height = 720 ∧ side = 160 ∧ cut = 120 ∨
      raster = .r3840x2160 ∧ width = 3840 ∧ height = 2160 ∧ side = 480 ∧ cut = 360) :
    RasterSizes raster width height side cut := by
  rcases h with ⟨rfl, rfl, rfl, rfl, rfl⟩ | ⟨rfl, rfl, rfl, rfl, rfl⟩ | ⟨rfl, rfl, rfl, rfl, rfl⟩
  · exact ⟨rfl, by decide, by decide, by decide, by decide, by decide⟩
  · exact ⟨rfl, by decide, by decide, by decide, by decide, by decide⟩
  · exact ⟨rfl, by decide, by decide, by decide, by decide, by decide⟩

variable {width height side cut : Nat}

theorem shownAt_of (hsize : f.raster.size = (width, height)) (hrow : row < height) (hcolumn : column < width) :
    f.shownAt row column =
      if column < f.placement.side ∨ f.placement.side + f.placement.width ≤ column then some (.colour f.profile.pillar)
      else some (.scaled (row + f.placement.cut) (column - f.placement.side)) := by
  unfold Frame.shownAt
  rw [hsize]
  exact if_pos ⟨hrow, hcolumn⟩

theorem shown_pillarbox (h : RasterSizes f.raster width height side cut) (haspect : f.profile.aspect = .pillarbox)
    (hrow : row < height) (hcolumn : column < width) :
    f.placement = { width := width - 2 * side, height := height, side := side, cut := 0 } ∧
    f.shownAt row column = if column < side ∨ width ≤ column + side then some (.colour f.profile.pillar)
      else some (.scaled row (column - side)) := by
  have hplacement : f.placement = { width := width - 2 * side, height := height, side := side, cut := 0 } := by
    unfold Frame.placement
    rw [h.size, haspect]
    dsimp only
    rw [h.pillars, h.besides]
  have hright : side + (width - 2 * side) ≤ column ↔ width ≤ column + side := by
    have := h.within
    omega
  refine ⟨hplacement, ?_⟩
  rw [shownAt_of h.size hrow hcolumn, hplacement]
  simp only [hright, Nat.add_zero]

theorem shown_centreCrop (h : RasterSizes f.raster width height side cut) (haspect : f.profile.aspect = .centreCrop)
    (hrow : row < height) (hcolumn : column < width) :
    f.placement = { width := width, height := height + 2 * cut, side := 0, cut := cut } ∧
    f.shownAt row column = some (.scaled (row + cut) column) := by
  have hplacement : f.placement = { width := width, height := height + 2 * cut, side := 0, cut := cut } := by
    unfold Frame.placement
    rw [h.size, haspect]
    dsimp only
    rw [h.crop, h.cropped]
  refine ⟨hplacement, ?_⟩
  rw [shownAt_of h.size hrow hcolumn, hplacement]
  exact if_neg (by dsimp only; omega)

theorem shown_stretch (h : RasterSizes f.raster width height side cut) (haspect : f.profile.aspect = .stretch)
    (hrow : row < height) (hcolumn : column < width) :
    f.placement = { width := width, height := height, side := 0, cut := 0 } ∧
    f.shownAt row column = some (.scaled row column) := by
  have hplacement : f.placement = { width := width, height := height, side := 0, cut := 0 } := by
    unfold Frame.placement
    rw [h.size, haspect]
  refine ⟨hplacement, ?_⟩
  rw [shownAt_of h.size hrow hcolumn, hplacement]
  exact if_neg (by dsimp only; omega)

end

/-- Settles O44: slates, formed pictures, region and placement. -/
theorem slatePicture : Obligations.SlatePicture := by
  refine ⟨fun _ _ => rfl, fun count width column _ => colourAt_bar, fun count width column hwidth _ => colourAt_rest hwidth,
    by decide, fun record raster row column hrow hcolumn => if_pos ⟨hrow, hcolumn⟩,
    fun kind mask lineCount fields hlines => ⟨formPicture_length kind mask lineCount fields hlines, ?_⟩,
    fun f p lineCount k x y => weave_getElem?, fun f row column hrow hcolumn =>
      ⟨fun line r c hr hc hlt hline => regionAt_sample hrow hcolumn hr hc hlt hline, regionAt_black hrow hcolumn⟩,
    fun f width height side cut row column hraster hrow hcolumn => ?_⟩
  · rintro m i rfl hi hbands
    exact formPicture_black hlines hi hbands
  · have hsizes := rasterSizes_of hraster
    exact ⟨fun haspect => shown_pillarbox hsizes haspect hrow hcolumn,
      fun haspect => shown_centreCrop hsizes haspect hrow hcolumn, fun haspect => shown_stretch hsizes haspect hrow hcolumn⟩

end Sys2Proof.Machine
end

