-- ==== Sys2Proof/Proofs/Shifts.lean ====
section
/-! The shift of a window (R81 to R84): its steps, and the render request it issues (R86 to R89, R118 to R123). -/

namespace Sys2Proof.Machine

/-! ## The steps of a shift -/

/-- The state after step 1 of a shift. -/
def State.begun (s : State) (n : Channel) (a : Arrived) : State := s.modChan n fun c => c.beginShift a

/-- The claims of the channels below leave a channel as it is. -/
theorem takeSequencerBelow_own (s : State) (n : Channel) : (s.takeSequencerBelow n).chan n = s.chan n := by
  have hfold : ∀ (list : List Channel) (u : State), (∀ m ∈ list, m < n) →
      (list.foldl State.takeSequencerClaim u).chan n = u.chan n := by
    intro list
    induction list with
    | nil => exact fun _ _ => rfl
    | cons m list ih =>
      intro u hlist
      rw [List.foldl_cons, ih _ fun k hk => hlist k (List.mem_cons_of_mem m hk)]
      exact (takeSequencerClaim_claim u m).1 n (ne_of_gt (hlist m List.mem_cons_self))
  exact hfold _ s fun m hm => by simpa using (List.mem_filter.1 hm).2

/-- A latch gives NEWER a set and changes nothing else than the marks of the latching. -/
theorem latch_withSet (c : Chan) (f : Field) (answer : Option (Handle × Entry)) :
    ∃ (set : LatchedSet) (gen : Option Gen) (relatch : Bool), c.latch f answer = c.withSet f set gen relatch := by
  unfold Chan.latch
  repeat' split
  all_goals exact ⟨_, _, _, rfl⟩

/-- What the answer, the observation and the step leave of a channel and make of it. -/
structure Steps (c d : Chan) (a : Arrived) : Prop where
  port : d.port = c.port
  state : d.state = c.state
  config : d.config = c.config
  window : ∃ set : LatchedSet, d.window = { c.window with newer := some { field := a.field, set := set } }
  tally : d.tally = min 255 (c.tally + 1)
  claim : d.sequencerClaim = none

theorem TakesLookup.steps {s t : State} {n : Channel} {a : Arrived} (h : TakesLookup s t n a) :
    Steps (s.chan n) (t.chan n) a := by
  obtain ⟨w, k, hown⟩ := h.own
  obtain ⟨set, gen, relatch, hlatch⟩ := latch_withSet (s.chan n) a.field (s.answerFor a)
  rw [hown, observed_kept]
  unfold Chan.answered
  rw [hlatch]
  exact ⟨rfl, rfl, rfl, ⟨set, rfl⟩, rfl, rfl⟩

section
variable {s : State} {n : Channel} {a : Arrived}

theorem begun_chan (s : State) (n : Channel) (a : Arrived) (m : Channel) :
    (s.begun n a).chan m = if n = m then (s.chan m).beginShift a else s.chan m := chan_modChan s n m _

theorem begun_chan_same (s : State) (n : Channel) (a : Arrived) : (s.begun n a).chan n = (s.chan n).beginShift a :=
  chan_modChan_same s n _

theorem begun_answerFor (s : State) (n : Channel) (a : Arrived) : (s.begun n a).answerFor a = s.answerFor a := by
  have hcovering := covering_of_table (s := s) (t := s.begun n a) rfl a.field.key a.field.number
  unfold State.answerFor
  rw [hcovering]
  rfl

theorem exec_windowShift (hrun : (s.chan n).state = .running) (hslot : (s.chan n).port.slot = some a)
    (hqueued : s.queued n = false) (hclaim : (s.chan n).sequencerClaim = none) :
    s.shiftField n = some a ∧ exec (.windowShift n) s = .next (s.shift n a) := by
  have hfield : s.shiftField n = some a := by
    unfold State.shiftField
    dsimp only
    rw [if_pos ⟨hrun, hqueued, hclaim⟩, hslot]
  refine ⟨hfield, ?_⟩
  change Host.Outcome.next _ = _
  rw [hfield]

/-- Whatever claims go before it, a shift takes its lookup with the channel as step 1 left it. -/
theorem shift_takes (hrun : (s.chan n).state = .running) :
    ∃ u : State, u.chan n = (s.chan n).beginShift a ∧ TakesLookup u (s.shift n a) n a := by
  have hown := takeSequencerBelow_own (s.begun n a) n
  rw [begun_chan_same] at hown
  exact ⟨_, hown, takeLookup_takes (by rw [hown]; exact hrun)⟩

theorem begun_turn (hturn : s.TurnOf n) : (s.begun n a).TurnOf n := fun m hm => by
  rw [begun_chan, if_neg (ne_of_gt hm)]
  exact hturn m hm

theorem shift_turn (hturn : s.TurnOf n) : s.shift n a = (s.begun n a).takeLookup n a :=
  congrArg (fun u : State => u.takeLookup n a) (takeSequencerBelow_turn (begun_turn hturn))

theorem shift_takes_turn (hrun : (s.chan n).state = .running) (hturn : s.TurnOf n) :
    TakesLookup (s.begun n a) (s.shift n a) n a := by
  rw [shift_turn hturn]
  exact takeLookup_takes (by rw [begun_chan_same]; exact hrun)

/-- Step 1 leaves all that the answer looks at. -/
theorem answered_of_begun {t : State} (h : Answered (s.begun n a) t n a) : Answered s t n a := by
  have hcovering := covering_of_table (s := s) (t := s.begun n a) rfl a.field.key a.field.number
  have hentry : ∀ g : Handle, (s.begun n a).entry g = s.entry g := fun _ => rfl
  have hattn : (s.begun n a).attn = s.attn := rfl
  have hchan := begun_chan_same s n a
  have hcurrent := congrArg Chan.currentEntry hchan
  have hconfig := congrArg Chan.config hchan
  have hlast := congrArg Chan.lastSet hchan
  have hgen := congrArg Chan.latchedGen hchan
  have hmark := congrArg Chan.relatch hchan
  change _ = (s.chan n).currentEntry at hcurrent
  change _ = (s.chan n).config at hconfig
  change _ = (s.chan n).lastSet at hlast
  change _ = (s.chan n).latchedGen at hgen
  change _ = (s.chan n).relatch at hmark
  unfold Answered at h ⊢
  simpa only [hcovering, hentry, hattn, hcurrent, hconfig, hlast, hgen, hmark] using h

/-- Step 1 leaves the pool and the orders of the channel. -/
theorem othersInPool_of_begun {t : State} (h : OthersInPool (s.begun n a) t n) : OthersInPool s t n := by
  have horder := congrArg Chan.cancelOrder (begun_chan_same s n a)
  change _ = (s.chan n).cancelOrder at horder
  unfold OthersInPool at h ⊢
  rw [horder] at h
  exact h

end

/-! ## The observation of a shift (R95, R113, R114) -/

theorem liveState_provisional (e : Entry) : e.liveState = .provisional ↔ e.state = .provisional := by
  unfold Entry.liveState
  split
  · exact iff_of_true rfl ‹_›
  · exact iff_of_false (fun h => LiveState.noConfusion h) ‹_›

/-- The monitor after step 1. -/
def Chan.restarted (c : Chan) (a : Arrived) : Monitor := if a.cls = .discontinuity then Monitor.reset else c.monitor

section
variable {s : State} {n : Channel} {a : Arrived}

theorem seedFor_of_enters {h : Handle} (henters : EntersProposal s n a h) (hlevel : (s.chan n).level ≠ .degraded) :
    ((s.chan n).beginShift a).seedFor (s.answerFor a) =
      ((s.chan n).restarted a).seed (s.entry h).directives (s.entry h).first := by
  obtain ⟨hcovering, hcurrent, hstate⟩ := henters
  unfold State.answerFor
  rw [hcovering]
  exact if_pos ⟨hcurrent, (liveState_provisional _).2 hstate, hlevel⟩

theorem seedFor_of_not (h : (∀ h : Handle, ¬EntersProposal s n a h) ∨ (s.chan n).level = .degraded) :
    ((s.chan n).beginShift a).seedFor (s.answerFor a) = (s.chan n).restarted a := by
  unfold State.answerFor
  cases hcovering : s.covering a.field.key a.field.number with
  | none => rfl
  | some g =>
    refine if_neg fun ⟨hcurrent, hstate, hlevel⟩ => ?_
    rcases h with hnot | hdegraded
    · exact hnot g ⟨hcovering, hcurrent, (liveState_provisional _).1 hstate⟩
    · exact hlevel hdegraded

/-- The monitor that observes the field, told from what the answer enters. -/
theorem seedFor_unique {m : Monitor}
    (henters : ∀ h : Handle, EntersProposal s n a h → (s.chan n).level ≠ .degraded →
      m = ((s.chan n).restarted a).seed (s.entry h).directives (s.entry h).first)
    (hnot : (∀ h : Handle, ¬EntersProposal s n a h) ∨ (s.chan n).level = .degraded → m = (s.chan n).restarted a) :
    m = ((s.chan n).beginShift a).seedFor (s.answerFor a) := by
  by_cases h : ∃ g : Handle, EntersProposal s n a g ∧ (s.chan n).level ≠ .degraded
  · obtain ⟨g, hg, hlevel⟩ := h
    rw [seedFor_of_enters hg hlevel, henters g hg hlevel]
  · have hcase : (∀ g : Handle, ¬EntersProposal s n a g) ∨ (s.chan n).level = .degraded := by
      by_cases hlevel : (s.chan n).level = .degraded
      · exact .inr hlevel
      · exact .inl fun g hg => h ⟨g, hg, hlevel⟩
    rw [seedFor_of_not hcase, hnot hcase]

end

/-- What the monitor sees of a field in NEWER. -/
def Window.sees (w : Window) (config : ChannelConfig) (f : WindowField) : Seen :=
  { record := { number := f.field.number, key := f.field.key, set := f.set }
    known := w.observation config
    slip := f.field.slip }

theorem observed_of_newer {c : Chan} {f : WindowField} (hnewer : c.window.newer = some f) :
    c.observed = if c.level = .degraded then none else some (c.monitor.observe (c.window.sees c.config f)) := by
  unfold Chan.observed Chan.seen
  rw [hnewer]
  rfl

theorem observeNewer_monitor {c : Chan} {f : WindowField} (hnewer : c.window.newer = some f) :
    c.observeNewer.monitor =
      if c.level = .degraded then c.monitor else (c.monitor.observe (c.window.sees c.config f)).monitor := by
  unfold Chan.observeNewer
  rw [observed_of_newer hnewer]
  by_cases hlevel : c.level = .degraded
  · rw [if_pos hlevel, if_pos hlevel]
  · rw [if_neg hlevel, if_neg hlevel]

/-- The answered channel as the observation finds it. -/
theorem answered_kept (c : Chan) (a : Arrived) (answer : Option (Handle × Entry)) :
    (c.answered a answer).level = c.level ∧ (c.answered a answer).config = c.config ∧
    (c.answered a answer).monitor = c.seedFor answer ∧ (c.answered a answer).proposalClaim = c.proposalClaim ∧
    (c.answered a answer).monitorCounters = c.monitorCounters ∧
    ∃ set : LatchedSet, (c.answered a answer).window = { c.window with newer := some { field := a.field, set := set } } := by
  obtain ⟨set, gen, relatch, hlatch⟩ := latch_withSet c a.field answer
  unfold Chan.answered
  rw [hlatch]
  exact ⟨rfl, rfl, rfl, rfl, rfl, set, rfl⟩

theorem TakesLookup.monitor {s t : State} {n : Channel} {a : Arrived} (h : TakesLookup s t n a) {f : WindowField}
    (hnewer : (t.chan n).window.newer = some f) : (t.chan n).monitor =
      if (s.chan n).level = .degraded then (s.chan n).seedFor (s.answerFor a)
      else (((s.chan n).seedFor (s.answerFor a)).observe ((t.chan n).window.sees (s.chan n).config f)).monitor := by
  obtain ⟨w, k, hown⟩ := h.own
  obtain ⟨hlevel, hconfig, hmonitor, -, -, -⟩ := answered_kept (s.chan n) a (s.answerFor a)
  have hwindow : (t.chan n).window = ((s.chan n).answered a (s.answerFor a)).window := by
    rw [hown, observed_kept]
  have hown' : (t.chan n).monitor = ((s.chan n).answered a (s.answerFor a)).observeNewer.monitor := by
    rw [hown, observed_kept]
  rw [hwindow] at hnewer ⊢
  rw [hown', observeNewer_monitor hnewer, hlevel, hconfig, hmonitor]

/-! ## The recipe of CURRENT (R86, R87, R118 to R123) -/

theorem sound_iff (x : Option WindowField) : sound x = true ↔ Sound x := by
  unfold sound Sound
  cases x <;> simp

theorem clean_iff (x : Option WindowField) : sound x = true ∧ slipped x = false ↔ Clean x := by
  unfold sound slipped Clean
  cases x <;> simp

section
variable {w : Window} {c : WindowField}

theorem repair_cases : (Sound w.older → w.repair = lineDouble .older) ∧
    (¬Sound w.older → Sound w.newer → w.repair = lineDouble .newer) ∧
    (¬Sound w.older → ¬Sound w.newer → w.repair = lineDouble .current) := by
  unfold Window.repair
  simp only [← sound_iff]
  exact ⟨fun h => if_pos h, fun h k => by rw [if_neg h, if_pos k], fun h k => by rw [if_neg h, if_neg k]⟩

theorem weave_next (hcurrent : w.current = some c) {mode : Film} {pos : Nat} (hnext : mode.partnerIsNext pos = true) :
    (c.field.slip = false ∧ Clean w.newer →
      w.weave mode pos = { kind := .weave, primary := .current, others := [.newer] }) ∧
    (¬(c.field.slip = false ∧ Clean w.newer) → w.weave mode pos = lineDouble .current) := by
  have hslip : slipped w.current = c.field.slip := by rw [hcurrent]; rfl
  unfold Window.weave
  rw [hslip, hnext, ← clean_iff]
  dsimp only
  simp only [if_true, Bool.and_eq_true, Bool.not_eq_true']
  exact ⟨fun ⟨hc, hs, hn⟩ => if_pos ⟨⟨hs, hc⟩, hn⟩, fun h => if_neg fun ⟨⟨hs, hc⟩, hn⟩ => h ⟨hc, hs, hn⟩⟩

theorem weave_previous (hcurrent : w.current = some c) {mode : Film} {pos : Nat}
    (hprevious : ¬mode.partnerIsNext pos = true) :
    (c.field.slip = false ∧ Clean w.older →
      w.weave mode pos = { kind := .weave, primary := .current, others := [.older] }) ∧
    (¬(c.field.slip = false ∧ Clean w.older) → w.weave mode pos = lineDouble .current) := by
  have hslip : slipped w.current = c.field.slip := by rw [hcurrent]; rfl
  unfold Window.weave
  rw [hslip, ← clean_iff]
  dsimp only
  simp only [if_neg hprevious, Bool.and_eq_true, Bool.not_eq_true']
  exact ⟨fun ⟨hc, hs, hn⟩ => if_pos ⟨⟨hs, hc⟩, hn⟩, fun h => if_neg fun ⟨⟨hs, hc⟩, hn⟩ => h ⟨hc, hs, hn⟩⟩

theorem motion_cases (hcurrent : w.current = some c) :
    (c.field.slip = false ∧ Sound w.older ∧ Clean w.newer →
      w.motion = { kind := .motion, primary := .current, others := [.older, .newer] }) ∧
    (¬(c.field.slip = false ∧ Sound w.older ∧ Clean w.newer) → w.motion = lineDouble .current) := by
  have hslip : slipped w.current = c.field.slip := by rw [hcurrent]; rfl
  unfold Window.motion
  rw [hslip, ← clean_iff, ← sound_iff]
  simp only [Bool.and_eq_true, Bool.not_eq_true']
  exact ⟨fun ⟨hc, ho, hs, hn⟩ => if_pos ⟨⟨⟨ho, hs⟩, hc⟩, hn⟩, fun h => if_neg fun ⟨⟨⟨ho, hs⟩, hc⟩, hn⟩ => h ⟨hc, ho, hs, hn⟩⟩

theorem blend_cases (hcurrent : w.current = some c) :
    (Clean w.newer → w.blend = { kind := .blend, primary := .current, others := [.newer] }) ∧
    (¬Clean w.newer → Sound w.older ∧ c.field.slip = false →
      w.blend = { kind := .blend, primary := .current, others := [.older] }) ∧
    (¬Clean w.newer → ¬(Sound w.older ∧ c.field.slip = false) → w.blend = lineDouble .current) := by
  have hslip : slipped w.current = c.field.slip := by rw [hcurrent]; rfl
  unfold Window.blend
  simp only [hslip, ← clean_iff, ← sound_iff, Bool.and_eq_true, Bool.not_eq_true']
  exact ⟨fun h => if_pos h, fun h k => by rw [if_neg h, if_pos k], fun h k => by rw [if_neg h, if_neg k]⟩

theorem partnerIsNext_iff (mode : Film) (pos : Nat) : mode.partnerIsNext pos = true ↔
    (mode = .film22 ∧ pos = 0 ∨ mode = .film32 ∧ (pos = 0 ∨ pos = 3 ∨ pos = 5 ∨ pos = 8)) := by
  unfold Film.partnerIsNext
  cases mode <;> simp [or_assoc]

theorem recipe_repaired {e : Effective} (h : (c.set.directives.repair && c.field.damaged) = true) :
    w.recipe c e = w.repair := if_pos h

theorem recipe_of {e : Effective} (h : (c.set.directives.repair && c.field.damaged) = false) :
    w.recipe c e =
      match e with
      | .film mode pos => w.weave mode pos
      | .video =>
        match c.set.directives.method with
        | .motion => w.motion
        | .blend => w.blend
        | .lineDouble => lineDouble .current := if_neg (by rw [h]; exact Bool.false_ne_true)

theorem recipe_is (hcurrent : w.current = some c) (e : Effective) : RecipeIs w c e (w.recipe c e) := by
  unfold RecipeIs
  dsimp only
  refine ⟨fun hrepaired => ?_, fun mode pos hplain he => ?_, fun hplain he => ?_⟩
  · rw [recipe_repaired hrepaired]
    exact repair_cases
  · subst he
    rw [recipe_of hplain, ← partnerIsNext_iff]
    exact ⟨fun h => weave_next hcurrent h, fun h => weave_previous hcurrent h⟩
  · subst he
    rw [recipe_of hplain]
    refine ⟨fun hmethod => ?_, fun hmethod => ?_, fun hmethod => ?_⟩
    · rw [hmethod]
      rfl
    · rw [hmethod]
      exact motion_cases hcurrent
    · rw [hmethod]
      exact blend_cases hcurrent

end

/-! ## The effective cadence (R86, R87) -/

theorem cycle_pos (mode : Film) : 0 < mode.cycle := by cases mode <;> decide

/-- A number below the cycle length, counted from a first field. -/
theorem counted_from {cycle : Nat} (hcycle : 0 < cycle) (base first : Nat) :
    (((base : Int) - (first : Int)) % (cycle : Int)).toNat < cycle ∧
    ((((base : Int) - (first : Int)) % (cycle : Int)).toNat + first) % cycle = base % cycle := by
  have hne : (cycle : Int) ≠ 0 := by omega
  have hlow := Int.emod_nonneg ((base : Int) - first) hne
  have hhigh := Int.emod_lt_of_pos ((base : Int) - first) (b := cycle) (by omega)
  refine ⟨by omega, ?_⟩
  have hcast : (((((base : Int) - first) % cycle).toNat + first : Nat) : Int) % cycle = base % cycle := by
    rw [Nat.cast_add, Int.toNat_of_nonneg hlow, Int.emod_add_emod, Int.sub_add_cancel]
  exact_mod_cast hcast

theorem positionFrom_is (mode : Film) (phase : Nat) (first f : FieldNum) :
    mode.positionFrom phase first f < mode.cycle ∧
    (mode.positionFrom phase first f + first.toNat) % mode.cycle = (phase + f.toNat) % mode.cycle := by
  have h := counted_from (cycle_pos mode) (phase + f.toNat) first.toNat
  rw [Nat.cast_add] at h
  exact h

section
variable {m : Monitor} {set : LatchedSet} {f : FieldNum}

theorem effective_driven (hdriven : set.monitorDriven = true) : m.effective set f = m.driven f := by
  cases set with
  | default d =>
    have hcadence : d.cadence = .auto := beq_iff_eq.1 hdriven
    unfold Monitor.effective
    dsimp only
    rw [hcadence]
  | entry h g state first d =>
    cases state with
    | provisional => rfl
    | active =>
      have hcadence : d.cadence = .auto := beq_iff_eq.1 hdriven
      unfold Monitor.effective
      dsimp only
      rw [hcadence]

theorem effective_video (hdriven : set.monitorDriven = false) (hcadence : set.directives.cadence = .video) :
    m.effective set f = .video := by
  cases set with
  | default d =>
    change d.cadence = .video at hcadence
    unfold Monitor.effective
    dsimp only
    rw [hcadence]
    rfl
  | entry h g state first d =>
    cases state with
    | provisional => exact nomatch hdriven
    | active =>
      change d.cadence = .video at hcadence
      unfold Monitor.effective
      dsimp only
      rw [hcadence]
      rfl

section
variable {d : Directives} {mode : Film} {h : Handle} {g : Gen} {first : FieldNum}

theorem film_cadence (hfilm : d.cadence.film = some mode) :
    d.cadence = .film22 ∧ mode = .film22 ∨ d.cadence = .film32 ∧ mode = .film32 := by
  cases hcadence : d.cadence with
  | auto => rw [hcadence] at hfilm; exact nomatch hfilm
  | video => rw [hcadence] at hfilm; exact nomatch hfilm
  | film22 => rw [hcadence] at hfilm; exact .inl ⟨rfl, (Option.some.inj hfilm).symm⟩
  | film32 => rw [hcadence] at hfilm; exact .inr ⟨rfl, (Option.some.inj hfilm).symm⟩

theorem effective_phased {phase : Fin 10} (hfilm : d.cadence.film = some mode) (hphase : d.phase = some phase) :
    m.effective (.entry h g .active first d) f = .film mode (mode.positionFrom phase.val first f) := by
  unfold Monitor.effective
  dsimp only
  rcases film_cadence hfilm with ⟨hcadence, rfl⟩ | ⟨hcadence, rfl⟩
  · rw [hcadence, hphase]
    rfl
  · rw [hcadence, hphase]
    rfl

theorem effective_unphased (hfilm : d.cadence.film = some mode) (hphase : d.phase = none) :
    m.effective (.entry h g .active first d) f = m.unphased mode f (mode.positionFrom 0 first f) := by
  unfold Monitor.effective
  dsimp only
  rcases film_cadence hfilm with ⟨hcadence, rfl⟩ | ⟨hcadence, rfl⟩
  · rw [hcadence, hphase]
    rfl
  · rw [hcadence, hphase]
    rfl

theorem effective_default (hfilm : d.cadence.film = some mode) :
    m.effective (.default d) f = m.unphased mode f (mode.position 0 f) := by
  unfold Monitor.effective
  dsimp only
  rcases film_cadence hfilm with ⟨hcadence, rfl⟩ | ⟨hcadence, rfl⟩
  · rw [hcadence]
    rfl
  · rw [hcadence]
    rfl

end

/-- A fixed mode without a phase: the monitor's position if it is LOCKED in that mode, else the given one. -/
theorem unphased_is (m : Monitor) (mode : Film) (f : FieldNum) (fallback : Nat) :
    (∀ (align misses : Nat) (r : Option FieldRecord), m.detector = .locked mode align misses r →
      m.unphased mode f fallback = .film mode ((align + f.toNat) % mode.cycle)) ∧
    ((∀ (align misses : Nat) (r : Option FieldRecord), m.detector ≠ .locked mode align misses r) →
      m.unphased mode f fallback = .film mode fallback) := by
  unfold Monitor.unphased
  cases hdetector : m.detector with
  | searching => exact ⟨fun _ _ _ h => Detector.noConfusion h, fun _ => rfl⟩
  | candidate _ _ _ _ => exact ⟨fun _ _ _ h => Detector.noConfusion h, fun _ => rfl⟩
  | locked mode' align misses r =>
    dsimp only
    refine ⟨fun align' misses' r' h => ?_, fun h => if_neg fun hmode => h align misses r (by rw [hmode])⟩
    injection h with hmode halign
    rw [if_pos hmode, halign]
    rfl

theorem driven_is (m : Monitor) (f : FieldNum) :
    (∀ (mode : Film) (align misses : Nat) (r : Option FieldRecord), m.detector = .locked mode align misses r →
      m.driven f = .film mode ((align + f.toNat) % mode.cycle)) ∧
    ((∀ (mode : Film) (align misses : Nat) (r : Option FieldRecord), m.detector ≠ .locked mode align misses r) →
      m.driven f = .video) := by
  unfold Monitor.driven
  cases hdetector : m.detector with
  | searching => exact ⟨fun _ _ _ _ h => Detector.noConfusion h, fun _ => rfl⟩
  | candidate _ _ _ _ => exact ⟨fun _ _ _ _ h => Detector.noConfusion h, fun _ => rfl⟩
  | locked mode align misses r =>
    refine ⟨fun mode' align' misses' r' h => ?_, fun h => absurd rfl (h mode align misses r)⟩
    injection h with hmode halign
    rw [hmode, halign]
    rfl

theorem effective_is (m : Monitor) (set : LatchedSet) (f : FieldNum) : EffectiveIs m set f (m.effective set f) := by
  refine ⟨fun hdriven => ?_, effective_video, ?_, ?_⟩
  · rw [effective_driven hdriven]
    exact driven_is m f
  · rintro h g first d mode phase rfl hfilm hphase
    obtain ⟨hbelow, hcounted⟩ := positionFrom_is mode phase.val first f
    exact ⟨_, effective_phased hfilm hphase, hbelow, hcounted⟩
  · rintro d mode first hfilm hphase (⟨rfl, rfl⟩ | ⟨h, g, b, rfl, rfl⟩)
    · rw [effective_default hfilm]
      obtain ⟨hlocked, hnot⟩ := unphased_is m mode f (mode.position 0 f)
      refine ⟨hlocked, fun h => ⟨_, hnot h, Nat.mod_lt _ (cycle_pos mode), ?_⟩⟩
      unfold Film.position
      rw [Nat.add_zero, Nat.zero_add, Nat.mod_mod]
    · rw [effective_unphased hfilm hphase]
      obtain ⟨hbelow, hcounted⟩ := positionFrom_is mode 0 b f
      obtain ⟨hlocked, hnot⟩ := unphased_is m mode f (mode.positionFrom 0 b f)
      rw [Nat.zero_add] at hcounted
      exact ⟨hlocked, fun h => ⟨_, hnot h, hbelow, hcounted⟩⟩

end

/-! ## The request of a shift (R88, R89) -/

section
variable {s : State} {n : Channel} {c : WindowField} {l : LaneId} {role : Role}

theorem roleOf_of_claim (hclaim : s.claims.get n = some l)
    (hrole : (s.lane l).source = some n ∧ role = .program ∨ (s.lane l).source ≠ some n ∧
      (s.lane l).cues.head?.map Cue.target = some (some n) ∧ role = .armed) : s.roleOf n = some (l, role) := by
  unfold State.roleOf
  rw [hclaim]
  dsimp only
  rcases hrole with ⟨hsource, rfl⟩ | ⟨hsource, htarget, rfl⟩
  · exact if_pos hsource
  · rw [if_neg hsource, if_pos htarget]

theorem roleOf_none (h : ∀ l : LaneId, s.claims.get n = some l → (s.lane l).source ≠ some n ∧
    (s.lane l).cues.head?.map Cue.target ≠ some (some n)) : s.roleOf n = none := by
  unfold State.roleOf
  split
  · rfl
  · rename_i l hclaim
    obtain ⟨hsource, htarget⟩ := h l hclaim
    rw [if_neg hsource, if_neg htarget]

theorem issue_eq (hcurrent : (s.chan n).window.current = some c) (hrole : s.roleOf n = some (l, role)) :
    s.issue n = { s.takeOrders n with
      queue := (s.takeOrders n).queue ++ [(s.chan n).request n l role c] }.arbitrate := by
  unfold State.issue
  rw [hcurrent, hrole]

theorem issue_inPool (hcurrent : (s.chan n).window.current = some c) (hrole : s.roleOf n = some (l, role)) :
    InPool (s.issue n) ((s.chan n).request n l role c) := by
  rw [issue_eq hcurrent hrole]
  exact ((arbitrate_starts _).inPool _).2 (.inl (List.mem_append_right _ (List.mem_singleton.2 rfl)))

theorem issue_nothing (h : (s.chan n).window.current = none ∨ s.roleOf n = none) : s.issue n = s := by
  unfold State.issue
  rcases h with h | h
  · rw [h]
  · rw [h]
    cases (s.chan n).window.current <;> rfl

end

section
variable {s : State} {n : Channel} {a : Arrived}

/-- The state in which the request of a lookup's shift is issued. -/
def State.observedAt (s : State) (n : Channel) (a : Arrived) : State :=
  (s.moveUse (s.chan n).currentEntry (s.covering a.field.key a.field.number)).modChan n fun c =>
    (c.answered a (s.answerFor a)).observeNewer.countStep

theorem takeLookup_eq_issue (s : State) (n : Channel) (a : Arrived) : s.takeLookup n a = (s.observedAt n a).issue n := by
  have htake : s.takeLookup n a = ((s.answerLookup n a).modChan n fun c => c.observeNewer.countStep).issue n := rfl
  rw [htake, answerLookup_eq, modChan_modChan]
  rfl

theorem observedAt_rest (s : State) (n : Channel) (a : Arrived) : (s.observedAt n a).claims = s.claims ∧
    (s.observedAt n a).lanes = s.lanes ∧ (s.observedAt n a).queue = s.queue ∧ (s.observedAt n a).engines = s.engines := by
  have hmove := moveUse_rest s (s.chan n).currentEntry (s.covering a.field.key a.field.number)
  unfold State.observedAt
  generalize s.moveUse (s.chan n).currentEntry (s.covering a.field.key a.field.number) = u at *
  rw [hmove]
  exact ⟨rfl, rfl, rfl, rfl⟩

theorem observedAt_chan (s : State) (n : Channel) (a : Arrived) :
    (s.observedAt n a).chan n = ((s.chan n).answered a (s.answerFor a)).observeNewer.countStep := by
  have hmove := moveUse_rest s (s.chan n).currentEntry (s.covering a.field.key a.field.number)
  unfold State.observedAt
  generalize s.moveUse (s.chan n).currentEntry (s.covering a.field.key a.field.number) = u at *
  rw [chan_modChan_same, hmove]
  rfl

theorem observedAt_roleOf (s : State) (n : Channel) (a : Arrived) : (s.observedAt n a).roleOf n = s.roleOf n := by
  obtain ⟨hclaims, hlanes, -, -⟩ := observedAt_rest s n a
  unfold State.roleOf State.lane
  rw [hclaims, hlanes]

/-- A taken lookup leaves the window and the monitor of the request's issue. -/
theorem takeLookup_issued (hrun : (s.chan n).state = .running) :
    ((s.takeLookup n a).chan n).window = ((s.observedAt n a).chan n).window ∧
    ((s.takeLookup n a).chan n).monitor = ((s.observedAt n a).chan n).monitor := by
  obtain ⟨w, k, hown⟩ := (takeLookup_takes (a := a) hrun).own
  rw [hown, observedAt_chan]
  exact ⟨rfl, rfl⟩

theorem takeLookup_request {c : WindowField} {l : LaneId} {role : Role} (hrun : (s.chan n).state = .running)
    (hcurrent : ((s.takeLookup n a).chan n).window.current = some c) (hrole : s.roleOf n = some (l, role)) :
    InPool (s.takeLookup n a) (((s.takeLookup n a).chan n).request n l role c) := by
  obtain ⟨hwindow, hmonitor⟩ := takeLookup_issued (a := a) hrun
  have hrequest : ((s.takeLookup n a).chan n).request n l role c = ((s.observedAt n a).chan n).request n l role c := by
    unfold Chan.request
    rw [hwindow, hmonitor]
  rw [hrequest, takeLookup_eq_issue]
  rw [hwindow] at hcurrent
  exact issue_inPool hcurrent ((observedAt_roleOf s n a).trans hrole)

theorem takeLookup_noRequest (hrun : (s.chan n).state = .running)
    (h : ((s.takeLookup n a).chan n).window.current = none ∨ s.roleOf n = none) :
    (s.takeLookup n a).queue = s.queue ∧ (s.takeLookup n a).engines = s.engines := by
  obtain ⟨-, -, hqueue, hengines⟩ := observedAt_rest s n a
  rw [(takeLookup_issued hrun).1, ← observedAt_roleOf s n a] at h
  rw [takeLookup_eq_issue, issue_nothing h]
  exact ⟨hqueue, hengines⟩

end

/-! ## The whole shift -/

section
variable {s : State} {n : Channel} {a : Arrived}

theorem shift_begun_rest {t : State} (h : TakesLookup (s.begun n a) t n a) :
    t = { s with chans := t.chans, table := t.table, queue := t.queue, engines := t.engines, attn := t.attn } := h.rest

theorem shift_others {t : State} (h : TakesLookup (s.begun n a) t n a) (m : Channel) (hm : m ≠ n) :
    t.chan m = s.chan m := by
  rw [h.others m hm, begun_chan, if_neg (Ne.symm hm)]

theorem shift_monitor (hrun : (s.chan n).state = .running) (hturn : s.TurnOf n) {f : WindowField}
    (hnewer : ((s.shift n a).chan n).window.newer = some f) : ((s.shift n a).chan n).monitor =
      if (s.chan n).level = .degraded then ((s.chan n).beginShift a).seedFor (s.answerFor a)
      else ((((s.chan n).beginShift a).seedFor (s.answerFor a)).observe
        (((s.shift n a).chan n).window.sees (s.chan n).config f)).monitor := by
  have h := (shift_takes_turn (a := a) hrun hturn).monitor hnewer
  rw [begun_chan_same, begun_answerFor] at h
  exact h

theorem shift_newer (hrun : (s.chan n).state = .running) :
    ∃ set : LatchedSet, ((s.shift n a).chan n).window = { ((s.chan n).beginShift a).window with
      newer := some { field := a.field, set := set } } := by
  obtain ⟨u, hu, htakes⟩ := shift_takes (a := a) hrun
  rw [← hu]
  exact htakes.steps.window

theorem shift_request {c : WindowField} {l : LaneId} {role : Role} (hrun : (s.chan n).state = .running)
    (hturn : s.TurnOf n) (hcurrent : ((s.shift n a).chan n).window.current = some c)
    (hclaim : s.claims.get n = some l)
    (hrole : (s.lane l).source = some n ∧ role = .program ∨ (s.lane l).source ≠ some n ∧
      (s.lane l).cues.head?.map Cue.target = some (some n) ∧ role = .armed) :
    InPool (s.shift n a) (((s.shift n a).chan n).request n l role c) := by
  rw [shift_turn hturn] at hcurrent ⊢
  exact takeLookup_request (by rw [begun_chan_same]; exact hrun) hcurrent (roleOf_of_claim (s := s.begun n a) hclaim hrole)

theorem shift_noRequest (hrun : (s.chan n).state = .running) (hturn : s.TurnOf n)
    (h : ((s.shift n a).chan n).window.current = none ∨ ∀ l : LaneId, s.claims.get n = some l →
      (s.lane l).source ≠ some n ∧ (s.lane l).cues.head?.map Cue.target ≠ some (some n)) :
    (s.shift n a).queue = s.queue ∧ (s.shift n a).engines = s.engines := by
  rw [shift_turn hturn] at h ⊢
  exact takeLookup_noRequest (s := s.begun n a) (by rw [begun_chan_same]; exact hrun)
    (h.imp_right fun hnot => roleOf_none (s := s.begun n a) hnot)

theorem beginShift_window (c : Chan) (a : Arrived) :
    (c.beginShift a).window.current = (if a.cls = .next then c.window.newer else none) ∧
    (c.beginShift a).window.older = if a.cls = .next then c.window.current else none := by
  unfold Chan.beginShift
  dsimp only
  split
  · exact ⟨rfl, rfl⟩
  · exact ⟨rfl, rfl⟩

end

/-- Settles O11: the steps of a shift, in its turn and after earlier claims. -/
theorem windowShiftMovesFields : Obligations.WindowShiftMovesFields := by
  intro s n a hrun hslot hqueued hclaim
  obtain ⟨-, hexec⟩ := exec_windowShift hrun hslot hqueued hclaim
  obtain ⟨u, hu, htakes⟩ := shift_takes (a := a) hrun
  have hsteps := htakes.steps
  rw [hu] at hsteps
  obtain ⟨set, hwindow⟩ := hsteps.window
  obtain ⟨hcurrent, holder⟩ := beginShift_window (s.chan n) a
  refine ⟨_, hexec, hsteps.port, ?_, ?_, ?_, hsteps.tally, hsteps.claim, hsteps.state.trans hrun, hsteps.config,
    fun hturn => ?_⟩
  · rw [hwindow]
    rfl
  · rw [hwindow]
    exact hcurrent
  · rw [hwindow]
    exact holder
  have hturned := shift_takes_turn (a := a) hrun hturn
  refine ⟨shift_others hturned, shift_begun_rest hturned, answered_of_begun hturned.answered, ?_,
    othersInPool_of_begun hturned.pool, ?_, shift_noRequest hrun hturn⟩
  · intro m f hnewer ⟨henters, hnot⟩
    have hfield : f.field = a.field := by
      rw [hwindow] at hnewer
      rw [← Option.some.inj hnewer]
    rw [shift_monitor hrun hturn hnewer, seedFor_unique henters hnot]
    unfold Window.sees
    rw [hfield]
  · intro c l role hnow hlane hrole
    exact ⟨_, _, effective_is _ _ _, recipe_is hnow _, shift_request hrun hturn hnow hlane hrole⟩

end Sys2Proof.Machine
end

