-- ==== Sys2Proof/Proofs/Observations.lean ====
section
/-! The cadence monitor: what an observation makes of it, and what the search finds (R98 to R104). -/

namespace Sys2Proof.Machine

/-! ## Observations by the state of the detector (R98 to R104) -/

/-- The monitor with the history after an observation. -/
def Monitor.recorded (m : Monitor) (o : Seen) : Monitor := { m with history := m.historyAfter o }

/-- The monitor that looked for a candidate in SEARCHING. -/
def Monitor.searched (m : Monitor) (o : Seen) : Monitor :=
  { m with history := m.historyAfter o, detector := searchIfKnown o (m.historyAfter o) }

/-- A known observation does not match a mode and alignment, or the field slipped (R97, R101). -/
def Seen.misses (o : Seen) (mode : Film) (align : Nat) : Prop :=
  o.slip = true ∨ ∃ paired rep : Bool, o.known = some (paired, rep) ∧ ¬mode.agrees align o.record.number paired rep = true

section
variable {m : Monitor} {o : Seen} {mode : Film} {align : Nat}

theorem observe_lock {count : Nat} {start : FieldRecord} {paired rep : Bool}
    (hdetector : m.detector = .candidate mode align count start) (hslip : o.slip = false)
    (hknown : o.known = some (paired, rep)) (hagrees : mode.agrees align o.record.number paired rep = true)
    (hcount : mode.lockCount ≤ count + 1) : m.observe o = (m.recorded o).lockIn mode align start := by
  unfold Monitor.observe
  dsimp only
  rw [hdetector]
  dsimp only
  rw [hslip, if_neg Bool.false_ne_true, hknown]
  dsimp only
  rw [if_pos hagrees, if_pos hcount]
  rfl

theorem observe_searching (hdetector : m.detector = .searching) : m.observe o = (m.searched o).countUnlocked := by
  unfold Monitor.observe
  dsimp only
  rw [hdetector]
  rfl

/-- A monitor counts the unlocked run with what bears on it as another has it. -/
def CountsAs (m : Monitor) (r : Observed) : Prop :=
  ∃ u : Monitor, r = u.countUnlocked ∧ u.settled = m.settled ∧ u.unlockedRun = m.unlockedRun ∧ u.pending = m.pending

/-- A candidate that does not lock goes on, or ends, and counts the unlocked run (R100, R103). -/
theorem observe_candidate {count : Nat} {start : FieldRecord} (hdetector : m.detector = .candidate mode align count start)
    (h : o.slip = true ∨ count + 1 < mode.lockCount ∨ ∀ paired rep : Bool, o.known = some (paired, rep) →
      ¬mode.agrees align o.record.number paired rep = true) : CountsAs m (m.observe o) := by
  unfold Monitor.observe
  dsimp only
  rw [hdetector]
  dsimp only
  split
  · exact ⟨_, rfl, rfl, rfl, rfl⟩
  · rename_i hslip
    cases hknown : o.known with
    | none => exact ⟨_, rfl, rfl, rfl, rfl⟩
    | some known =>
      obtain ⟨paired, rep⟩ := known
      dsimp only
      split
      · rename_i hagrees
        have hcount : count + 1 < mode.lockCount := by
          rcases h with h | h | h
          · exact absurd h hslip
          · exact h
          · exact absurd hagrees (h paired rep hknown)
        rw [if_neg (not_le_of_gt hcount)]
        exact ⟨_, rfl, rfl, rfl, rfl⟩
      · exact ⟨_, rfl, rfl, rfl, rfl⟩

theorem countsAs_searching (hdetector : m.detector = .searching) : CountsAs m (m.observe o) := by
  rw [observe_searching hdetector]
  exact ⟨_, rfl, rfl, rfl, rfl⟩

theorem CountsAs.expires {r : Observed} (h : CountsAs m r) (hsettled : m.settled ≠ .video) (hrun : m.unlockedRun = 59) :
    r.event = .expiry ∧ r.changed = true ∧ r.start = m.pending.map Pending.breakField ∧ r.monitor.settled = .video ∧
    r.monitor.unlockedRun = 0 ∧ r.monitor.pending = none := by
  obtain ⟨u, rfl, husettled, hurun, hpending⟩ := h
  have hcount : u.countUnlocked = u.expire := by
    unfold Monitor.countUnlocked
    rw [if_neg (husettled ▸ hsettled), if_pos (by rw [hurun, hrun]; exact le_rfl)]
  rw [hcount, ← hpending]
  exact ⟨rfl, rfl, rfl, rfl, rfl, rfl⟩

/-- Below the limit the unlocked run rises, if it is counted at all (R103). -/
theorem countUnlocked_below (hrun : m.settled = .video ∨ m.unlockedRun < 59) : m.countUnlocked =
    { monitor := { m with unlockedRun := m.unlockedRun + (if m.settled = .video then 0 else 1) },
      event := .nothing, changed := false, start := none } := by
  unfold Monitor.countUnlocked
  by_cases hvideo : m.settled = .video
  · rw [if_pos hvideo, if_pos hvideo]
    rfl
  · have hbelow : ¬Config.unlockedLimit ≤ m.unlockedRun + 1 := by
      have hlimit : Config.unlockedLimit = 60 := rfl
      have := hrun.resolve_left hvideo
      omega
    rw [if_neg hvideo, if_neg hbelow, if_neg hvideo]

/-- LOCKED, no observation changes the settled state. -/
theorem observe_locked {misses : Nat} {r : Option FieldRecord} (hdetector : m.detector = .locked mode align misses r) :
    (m.observe o).changed = false ∧ (m.observe o).start = none := by
  unfold Monitor.observe
  dsimp only
  rw [hdetector]
  dsimp only
  split
  · exact ⟨rfl, rfl⟩
  · cases o.known with
    | none => exact ⟨rfl, rfl⟩
    | some known =>
      dsimp only
      split
      · exact ⟨rfl, rfl⟩
      · exact ⟨rfl, rfl⟩

theorem observe_miss {misses : Nat} {r : Option FieldRecord} (hdetector : m.detector = .locked mode align misses r)
    (hmisses : o.misses mode align) : (m.observe o).monitor = (m.recorded o).miss mode align misses r o := by
  unfold Monitor.observe
  dsimp only
  rw [hdetector]
  dsimp only
  rcases hmisses with hslip | ⟨paired, rep, hknown, hagrees⟩
  · rw [if_pos hslip]
    rfl
  · split
    · rfl
    · rw [hknown]
      dsimp only
      rw [if_neg hagrees]
      rfl

theorem historyAfter_slip (hslip : o.slip = true) : m.historyAfter o = [] := if_pos hslip

theorem historyAfter_known {paired rep : Bool} (hslip : o.slip = false) (hknown : o.known = some (paired, rep)) :
    m.historyAfter o = appendHistory m.history { record := o.record, paired := paired, rep := rep } := by
  unfold Monitor.historyAfter
  rw [hslip, if_neg Bool.false_ne_true, hknown]

end

theorem appendHistory_eq {h : List Observation} (hlength : h.length ≤ 10) (o : Observation) :
    appendHistory h o = (if h.length = 10 then h.tail else h) ++ [o] := by
  have happended : (h ++ [o]).length = h.length + 1 := by rw [List.length_append, List.length_singleton]
  unfold appendHistory
  dsimp only
  rw [happended]
  by_cases hfull : h.length = 10
  · rw [if_pos (by omega), if_pos hfull, List.tail_append_of_ne_nil]
    rintro rfl
    exact absurd hfull (by decide)
  · rw [if_neg (by omega), if_neg hfull]

/-- A monitor just reset or seeded settles nothing at its next observation. -/
theorem observe_restarted {m : Monitor} (o : Seen)
    (h : (∃ (mode : Film) (align misses : Nat) (r : Option FieldRecord), m.detector = .locked mode align misses r) ∨
      m.detector = .searching ∧ (m.settled = .video ∨ m.unlockedRun < 59)) :
    (m.observe o).changed = false ∧ (m.observe o).start = none := by
  rcases h with ⟨mode, align, misses, r, hlocked⟩ | ⟨hsearching, hrun⟩
  · exact observe_locked hlocked
  · rw [observe_searching hsearching, countUnlocked_below (m := m.searched o) hrun]
    exact ⟨rfl, rfl⟩

theorem seed_reset (d : Directives) (first : FieldNum) :
    (∃ (mode : Film) (align misses : Nat) (r : Option FieldRecord),
      (Monitor.reset.seed d first).detector = .locked mode align misses r) ∨
    (Monitor.reset.seed d first).detector = .searching ∧
      ((Monitor.reset.seed d first).settled = .video ∨ (Monitor.reset.seed d first).unlockedRun < 59) := by
  unfold Monitor.seed
  split
  · exact .inr ⟨rfl, .inl rfl⟩
  · exact .inl ⟨_, _, _, _, rfl⟩
  · exact .inr ⟨rfl, .inr (by decide)⟩

/-! ## Entering LOCKED (R100, R103 to R105) -/

/-- The start field of the transition that a lock decides: that of the candidate after VIDEO, that of the break after
FILM. -/
def Monitor.lockStart (m : Monitor) (start : FieldRecord) : Option FieldRecord :=
  match m.settled with
  | .none => none
  | .video => some start
  | .film _ _ => m.pending.map Pending.breakField

section
variable {m : Monitor} {mode : Film} {align : Nat} {start : FieldRecord}

/-- The monitor that entered LOCKED and settled at an alignment. -/
def Monitor.lockedAt (m : Monitor) (mode : Film) (align : Nat) : Monitor :=
  { m with detector := .locked mode align 0 none, settled := .film mode align, unlockedRun := 0, pending := none }

theorem lockIn_again {old : Nat} (hsettled : m.settled = .film mode old)
    (hsame : sameAlignment mode align mode old = true) : m.lockIn mode align start =
      { monitor := m.lockedAt mode old, event := .lock, changed := false, start := none } := by
  unfold Monitor.lockIn Monitor.lockedAt
  dsimp only
  rw [hsettled]
  dsimp only
  rw [if_pos hsame]

theorem sameAlignment_mode {mode' : Film} {align' : Nat} (h : sameAlignment mode align mode' align' = true) :
    mode' = mode := by
  unfold sameAlignment at h
  exact (beq_iff_eq.1 ((Bool.and_eq_true _ _).mp h).1).symm

theorem lockIn_new (hnew : ∀ old : Nat, m.settled = .film mode old → sameAlignment mode align mode old = false) :
    m.lockIn mode align start =
      { monitor := m.lockedAt mode align, event := .lock, changed := true, start := m.lockStart start } := by
  unfold Monitor.lockIn Monitor.lockedAt Monitor.lockStart
  dsimp only
  cases hsettled : m.settled with
  | none => rfl
  | video => rfl
  | film mode' old =>
    dsimp only
    refine if_neg fun hsame => ?_
    obtain rfl := sameAlignment_mode hsame
    rw [hnew old hsettled] at hsame
    exact nomatch hsame

theorem lockIn_event : (m.lockIn mode align start).event = .lock := by
  unfold Monitor.lockIn
  dsimp only
  split
  · split
    · rfl
    · rfl
  · rfl
  · rfl

end

/-! ## The search (R99) -/

/-- The alignment that puts a field at a phase is the only one below the cycle length. -/
theorem alignOf_unique {mode : Film} {phase align : Nat} {f : FieldNum} (hbelow : align < mode.cycle)
    (hphase : (align + f.toNat) % mode.cycle = phase % mode.cycle) : mode.alignOf phase f = align := by
  obtain ⟨hof, hcounted⟩ := counted_from (cycle_pos mode) phase f.toNat
  change mode.alignOf phase f < mode.cycle at hof
  change (mode.alignOf phase f + f.toNat) % mode.cycle = _ at hcounted
  have hsame : mode.alignOf phase f ≡ align [MOD mode.cycle] :=
    Nat.ModEq.add_right_cancel' f.toNat (hcounted.trans hphase.symm)
  exact hsame.eq_of_lt_of_lt hof hbelow

/-- Two repeats five fields apart and eight matches make a FILM32 candidate. -/
theorem search_film32 {first x y : Observation} {rest : List Observation} {align : Nat} (hlength : rest.length = 9)
    (hrepeats : (first :: rest).filter (fun o => o.rep) = [x, y])
    (happart : x.record.number.toNat + 5 = y.record.number.toNat) (hbelow : align < 10)
    (hphase : (align + x.record.number.toNat) % 10 = 2)
    (hagree : ∀ o : Observation, o ∈ first :: rest →
      o.paired = Film.film32.pairedAt ((align + o.record.number.toNat) % 10) ∧
      o.rep = Film.film32.repeatAt ((align + o.record.number.toNat) % 10)) :
    search (first :: rest) = .candidate .film32 align 10 first.record := by
  have halign : Film.film32.alignOf 2 x.record.number = align := alignOf_unique hbelow hphase
  have hall : ((first :: rest).all fun o => Film.film32.agrees align o.record.number o.paired o.rep) = true :=
    List.all_eq_true.2 fun o ho => (agrees_iff _ _ _ _ _).2 (hagree o ho)
  have htest : film32Test (first :: rest) = some align := by
    unfold film32Test
    rw [if_pos (by rw [List.length_cons, hlength]), hrepeats]
    dsimp only
    rw [halign, if_pos ⟨happart, hall⟩]
  unfold search
  rw [htest]
  rfl

/-- Without two repeats there is no FILM32 candidate. -/
theorem film32Test_noRepeat {h : List Observation} (hrep : ∀ o : Observation, o ∈ h → o.rep = false) :
    film32Test h = none := by
  have hfilter : h.filter (fun o => o.rep) = [] :=
    List.filter_eq_nil_iff.2 fun o ho => by rw [hrep o ho]; exact Bool.false_ne_true
  unfold film32Test
  rw [hfilter, ite_self]

/-- Each neighbour of a list rises by one in field number and differs in PAIRED. -/
def Alternates (list : List Observation) : Prop :=
  ∀ i : Nat, ∀ u v : Observation, list[i]? = some u → list[i + 1]? = some v →
    u.record.number.toNat + 1 = v.record.number.toNat ∧ u.paired ≠ v.paired

theorem Alternates.tail {x : Observation} {list : List Observation} (h : Alternates (x :: list)) : Alternates list :=
  fun i u v hu hv => h (i + 1) u v hu hv

theorem alternating_of {list : List Observation} (h : Alternates list) : alternating list = true := by
  induction list with
  | nil => rfl
  | cons x list ih =>
    cases list with
    | nil => rfl
    | cons y list =>
      obtain ⟨hnumber, hpaired⟩ := h 0 x y rfl rfl
      unfold alternating
      rw [ih h.tail, beq_iff_eq.2 hnumber, bne_iff_ne.2 hpaired]
      rfl

/-- In an alternating list PAIRED goes with the parity of the field number. -/
theorem Alternates.paired_iff {list : List Observation} (h : Alternates list) : ∃ k : Nat, ∀ o : Observation, o ∈ list →
    (o.paired = true ↔ (k + o.record.number.toNat) % 2 = 1) := by
  induction list with
  | nil => exact ⟨0, fun o ho => absurd ho List.not_mem_nil⟩
  | cons x list ih =>
    cases list with
    | nil =>
      refine ⟨x.record.number.toNat + (if x.paired = true then 1 else 0), fun o ho => ?_⟩
      obtain rfl := List.mem_singleton.1 ho
      split
      · exact iff_of_true ‹_› (by omega)
      · exact iff_of_false ‹_› (by omega)
    | cons y list =>
      obtain ⟨k, hk⟩ := ih h.tail
      obtain ⟨hnumber, hpaired⟩ := h 0 x y rfl rfl
      refine ⟨k, fun o ho => ?_⟩
      rcases List.mem_cons.1 ho with rfl | ho
      · have hy := hk y List.mem_cons_self
        have hflip : o.paired = true ↔ ¬y.paired = true := by
          revert hpaired
          cases o.paired <;> cases y.paired <;> decide
        rw [hflip, hy]
        omega
      · exact hk o ho

/-- Eight alternating observations without a repeat make a FILM22 candidate. -/
theorem search_film22 {before rest : List Observation} {first x : Observation} {align : Nat}
    (hbefore : ∀ o : Observation, o ∈ before → o.rep = false) (hlength : rest.length = 7)
    (halternates : Alternates (first :: rest)) (hrep : ∀ o : Observation, o ∈ first :: rest → o.rep = false)
    (hx : x ∈ first :: rest) (hpaired : x.paired = true) (hbelow : align < 2)
    (hphase : (align + x.record.number.toNat) % 2 = 1) :
    search (before ++ first :: rest) = .candidate .film22 align 8 first.record := by
  have hnone : film32Test (before ++ first :: rest) = none :=
    film32Test_noRepeat fun o ho => (List.mem_append.1 ho).elim (hbefore o) (hrep o)
  have hnewest : (before ++ first :: rest).drop ((before ++ first :: rest).length - 8) = first :: rest := by
    have hcut : (before ++ first :: rest).length - 8 = before.length := by
      rw [List.length_append, List.length_cons, hlength]
      omega
    rw [hcut, List.drop_left]
  have hall : ((first :: rest).all fun o => !o.rep) = true :=
    List.all_eq_true.2 fun o ho => by rw [hrep o ho]; rfl
  obtain ⟨z, hfound⟩ : ∃ z : Observation, (first :: rest).find? (fun o => o.paired) = some z :=
    Option.isSome_iff_exists.1 (List.find?_isSome.2 ⟨x, hx, hpaired⟩)
  have hz := List.mem_of_find?_eq_some hfound
  have hzpaired : z.paired = true := List.find?_some hfound
  have halign : Film.film22.alignOf 1 z.record.number = align := by
    obtain ⟨k, hk⟩ := halternates.paired_iff
    have hkx := (hk x hx).1 hpaired
    have hkz := (hk z hz).1 hzpaired
    refine alignOf_unique hbelow ?_
    change (align + z.record.number.toNat) % 2 = 1
    omega
  have htest : film22Test (before ++ first :: rest) = some (align, first) := by
    unfold film22Test
    dsimp only
    rw [hnewest, if_pos ⟨by rw [List.length_cons, hlength], alternating_of halternates, hall⟩, hfound]
    dsimp only [List.head?_cons]
    rw [halign]
  unfold search
  rw [hnone, htest]

end Sys2Proof.Machine
end

