-- ==== Sys2Proof/Proofs/MeasureSums.lean ====
section
/-! The comparison measures as sums over lines and samples (R94, R95). -/

namespace Sys2Proof.Machine

/-! ## Lines of luma -/

/-- The luma of line `k`. -/
def lumaLine (f : Field) (k : Nat) : List Nat := (List.range 720).map (lumaAt f k)

/-- The luma of `rows` lines, from line `top` on. -/
def lumaLines (f : Field) (top rows : Nat) : List (List Nat) := (List.range rows).map fun i => lumaLine f (top + i)

theorem lumaOf_line {f : Field} {count k : Nat} (hlength : f.lines.length = 1440 * count) (hk : k < count) :
    lumaOf ((f.lines.drop (1440 * k)).take 1440) = lumaLine f k := by
  have hline : ((f.lines.drop (1440 * k)).take 1440).length = 1440 := by
    rw [List.length_take, List.length_drop, hlength]
    omega
  rw [lumaOf_eq, hline]
  refine List.map_congr_left fun j hj => ?_
  have hbelow : 2 * j + 1 < 1440 := by
    have := List.mem_range.1 hj
    omega
  unfold lumaAt
  rw [List.getD_eq_getElem?_getD, List.getD_eq_getElem?_getD, List.getElem?_take_of_lt hbelow, List.getElem?_drop, Nat.add_assoc]

theorem activeLines_luma {f : Field} {count : Nat} (hlength : f.lines.length = 1440 * count) :
    f.activeLines.map lumaOf = (List.range count).map (lumaLine f) := by
  have hlines : f.lines.length / Config.bytesPerLine = count := by
    rw [hlength]
    exact Nat.mul_div_cancel_left _ (by decide)
  unfold Field.activeLines
  rw [hlines]
  refine List.ext_getElem? fun k => ?_
  rw [List.getElem?_map, List.getElem?_map]
  by_cases hk : k < count
  · rw [linesOf_getElem? _ _ _ hk, List.getElem?_range hk]
    exact congrArg some (lumaOf_line hlength hk)
  · rw [List.getElem?_eq_none (by rw [linesOf_length]; omega), List.getElem?_eq_none (by rw [List.length_range]; omega)]
    rfl

theorem trim_range {α : Type} (g : Nat → α) (top bottom count : Nat) :
    trim top bottom ((List.range count).map g) = (List.range (count - top - bottom)).map fun i => g (top + i) := by
  unfold trim
  refine List.ext_getElem? fun i => ?_
  rw [List.length_map, List.length_range, List.getElem?_map]
  by_cases hi : i < count - top - bottom
  · rw [List.getElem?_take_of_lt hi, List.getElem?_drop, List.getElem?_map, List.getElem?_range (by omega),
      List.getElem?_range hi]
    rfl
  · rw [List.getElem?_eq_none (by rw [List.length_take]; omega), List.getElem?_eq_none (by rw [List.length_range]; omega)]
    rfl

/-- A mask leaves out its top and bottom lines (R94, R124). -/
def Leaves (mask : Option Mask) (top bottom : Nat) : Prop :=
  (mask = none → top = 0 ∧ bottom = 0) ∧ ∀ m : Mask, mask = some m → top = m.top.val ∧ bottom = m.bottom.val

theorem comparedLines_eq {f : Field} {count top bottom : Nat} {mask : Option Mask}
    (hlength : f.lines.length = 1440 * count) (hmask : Leaves mask top bottom) :
    f.comparedLines mask = lumaLines f top (count - top - bottom) := by
  obtain ⟨hnone, hsome⟩ := hmask
  unfold Field.comparedLines lumaLines
  rw [activeLines_luma hlength]
  cases mask with
  | none =>
    obtain ⟨rfl, rfl⟩ := hnone rfl
    simp only [Nat.sub_zero, Nat.zero_add]
  | some m =>
    obtain ⟨rfl, rfl⟩ := hsome m rfl
    exact trim_range _ _ _ _

/-! ## Sums of differences -/

theorem zipWith_range {α β γ : Type} (f : α → β → γ) (g : Nat → α) (h : Nat → β) (rows : Nat) :
    List.zipWith f ((List.range rows).map g) ((List.range rows).map h) =
      (List.range rows).map fun i => f (g i) (h i) := by
  rw [List.zipWith_map, List.zipWith_self]

/-- Four times the difference to the exact mean of two samples. -/
theorem meanDifference_sample (a b c : Nat) :
    2 * absDiff (2 * a) (b + c) = 2 * (2 * (a : Int) - b - c).natAbs := by
  unfold absDiff
  omega

/-- A measure against the means of the lines above and below. -/
theorem betweenLineSum_eq (n f : Field) (top rows : Nat) (above below : Nat → Nat) :
    betweenLineSum (lumaLines n top rows) ((List.range rows).map fun i => lumaLine f (above (top + i)))
      ((List.range rows).map fun i => lumaLine f (below (top + i))) / (720 * rows) =
        meanDifference n f top rows above below := by
  unfold betweenLineSum lumaLines meanDifference lumaLine
  simp only [List.zip_map', zipWith_range, meanDifference_sample]

theorem sameLineSum_eq (n f : Field) (top rows : Nat) :
    sameLineSum (lumaLines n top rows) (lumaLines f top rows) / (720 * rows) = meanDifference n f top rows id id := by
  have hsample : ∀ a b : Nat, 4 * absDiff a b = 2 * (2 * (a : Int) - b - b).natAbs := fun a b => by
    unfold absDiff
    omega
  unfold sameLineSum lumaLines meanDifference lumaLine
  simp only [zipWith_range, hsample, id_eq]

theorem samples_count (f : Field) (top rows : Nat) : ((lumaLines f top rows).map List.length).sum = 720 * rows := by
  have hline : ∀ i : Nat, (lumaLine f i).length = 720 := fun i => by
    unfold lumaLine
    rw [List.length_map, List.length_range]
  unfold lumaLines
  rw [List.map_map]
  simp only [Function.comp_def, hline, List.map_const', List.length_range, List.sum_replicate, smul_eq_mul]
  exact Nat.mul_comm _ _

/-! ## Places between lines -/

/-- The line above the place of an UPPER line: the first line stands in at the top. -/
theorem withTopEdge_zip (y : Nat → List Nat) (rows : Nat) :
    (withTopEdge ((List.range rows).map y)).zip ((List.range rows).map y) =
      ((List.range rows).map fun i => y (i - 1)).zip ((List.range rows).map y) := by
  cases rows with
  | zero => rfl
  | succ rows =>
    have hedge : withTopEdge ((List.range (rows + 1)).map y) = y 0 :: (List.range (rows + 1)).map y := by
      rw [List.range_succ_eq_map]
      rfl
    have hall : y 0 :: (List.range (rows + 1)).map y = ((List.range (rows + 1)).map fun i => y (i - 1)) ++ [y rows] := by
      have habove : (List.range (rows + 1)).map (fun i => y (i - 1)) = y 0 :: (List.range rows).map y := by
        rw [List.range_succ_eq_map, List.map_cons, List.map_map]
        rfl
      rw [habove, List.range_succ, List.map_append]
      rfl
    have hzip := List.zip_append (l₁ := (List.range (rows + 1)).map fun i => y (i - 1)) (r₁ := [y rows])
      (l₂ := (List.range (rows + 1)).map y) (r₂ := []) (by rw [List.length_map, List.length_map])
    rw [List.append_nil, List.zip_nil_right, List.append_nil] at hzip
    rw [hedge, hall, hzip]

/-- The line below the place of a LOWER line: the last line stands in at the bottom. -/
theorem withBottomEdge_range (y : Nat → List Nat) (rows : Nat) :
    withBottomEdge ((List.range rows).map y) = (List.range rows).map fun i => y (min (i + 1) (rows - 1)) := by
  cases rows with
  | zero => rfl
  | succ rows =>
    have hlast : ((List.range (rows + 1)).map y).getLast? = some (y rows) := by
      rw [List.range_succ, List.map_append]
      exact List.getLast?_concat
    have htail : ((List.range (rows + 1)).map y).tail = (List.range rows).map fun i => y (i + 1) := by
      rw [List.range_succ_eq_map, List.map_cons, List.map_map]
      rfl
    unfold withBottomEdge
    rw [hlast, htail, List.range_succ, List.map_append, Nat.add_sub_cancel]
    refine congrArg₂ _ (List.map_congr_left fun i hi => ?_) ?_
    · rw [min_eq_left (by have := List.mem_range.1 hi; omega)]
    · rw [List.map_singleton, min_eq_right (Nat.le_succ rows)]

/-! ## The measures (R94) -/

section
variable {n f : Field} {count top bottom : Nat} {mask : Option Mask}

theorem repeatMeasure_eq (hn : n.lines.length = 1440 * count) (hf : f.lines.length = 1440 * count)
    (hmask : Leaves mask top bottom) :
    repeatMeasure n f mask = meanDifference n f top (count - top - bottom) id id := by
  unfold repeatMeasure
  dsimp only
  rw [comparedLines_eq hn hmask, comparedLines_eq hf hmask, samples_count, sameLineSum_eq]

theorem pairedMeasure_same (hn : n.lines.length = 1440 * count) (hf : f.lines.length = 1440 * count)
    (hmask : Leaves mask top bottom) (hparity : n.parity = f.parity) :
    pairedMeasure n f mask = meanDifference n f top (count - top - bottom) id id := by
  unfold pairedMeasure
  dsimp only
  rw [if_pos hparity, comparedLines_eq hn hmask, comparedLines_eq hf hmask, samples_count, sameLineSum_eq]

theorem pairedMeasure_upper (hn : n.lines.length = 1440 * count) (hf : f.lines.length = 1440 * count)
    (hmask : Leaves mask top bottom) (hupper : n.parity = .upper) (hlower : f.parity = .lower) :
    pairedMeasure n f mask = meanDifference n f top (count - top - bottom) (fun k => max top (k - 1)) id := by
  have habove : ∀ i : Nat, max top (top + i - 1) = top + (i - 1) := fun i => by omega
  have hlines : lumaLines f top (count - top - bottom) =
    (List.range (count - top - bottom)).map fun i => lumaLine f (top + i) := rfl
  have hbetween := betweenLineSum_eq n f top (count - top - bottom) (fun k => max top (k - 1)) id
  simp only [habove, id_eq] at hbetween
  unfold pairedMeasure
  dsimp only
  rw [if_neg (by rw [hupper, hlower]; exact fun h => Parity.noConfusion h), comparedLines_eq hn hmask,
    comparedLines_eq hf hmask, samples_count, hupper, ← hbetween]
  unfold betweenLineSum
  rw [hlines, withTopEdge_zip]

theorem pairedMeasure_lower (hn : n.lines.length = 1440 * count) (hf : f.lines.length = 1440 * count)
    (hmask : Leaves mask top bottom) (hrows : top + bottom < count) (hlower : n.parity = .lower) (hupper : f.parity = .upper) :
    pairedMeasure n f mask =
      meanDifference n f top (count - top - bottom) id fun k => min (k + 1) (count - bottom - 1) := by
  have hbelow : ∀ i : Nat, min (top + i + 1) (count - bottom - 1) = top + min (i + 1) (count - top - bottom - 1) :=
    fun i => by omega
  have hlines : lumaLines f top (count - top - bottom) =
    (List.range (count - top - bottom)).map fun i => lumaLine f (top + i) := rfl
  have hbetween := betweenLineSum_eq n f top (count - top - bottom) id fun k => min (k + 1) (count - bottom - 1)
  simp only [hbelow, id_eq] at hbetween
  unfold pairedMeasure
  dsimp only
  rw [if_neg (by rw [hupper, hlower]; exact fun h => Parity.noConfusion h), comparedLines_eq hn hmask,
    comparedLines_eq hf hmask, samples_count, hlower, ← hbetween]
  dsimp only
  rw [hlines, withBottomEdge_range]

end

/-! ## PAIRED and REPEAT (R95) -/

theorem measureMade_eq (x y : WindowField) : measureMade (some x) (some y) =
    if x.field.damaged = true ∨ y.field.damaged = true then none else some (x.field, y.field) := by
  unfold measureMade
  simp only [Bool.or_eq_true]

theorem observation_eq (config : ChannelConfig) (x c o : WindowField) :
    Window.observation { older := some o, current := some c, newer := some x } config =
      if x.field.damaged = true ∨ c.field.damaged = true ∨ o.field.damaged = true then none
      else some (decide (pairedMeasure x.field c.field x.set.directives.mask ≤ config.pairedThreshold),
        decide (repeatMeasure x.field o.field x.set.directives.mask ≤ config.repeatThreshold)) := by
  unfold Window.observation
  dsimp only
  rw [measureMade_eq, measureMade_eq]
  by_cases hnewer : x.field.damaged = true
  · rw [if_pos (Or.inl hnewer), if_pos (Or.inl hnewer), if_pos (Or.inl hnewer)]
  by_cases hcurrent : c.field.damaged = true
  · rw [if_pos (Or.inr hcurrent), if_pos (Or.inr (Or.inl hcurrent))]
  by_cases holder : o.field.damaged = true
  · rw [if_neg (by tauto), if_pos (Or.inr holder), if_pos (Or.inr (Or.inr holder))]
  · rw [if_neg (by tauto), if_neg (by tauto), if_neg (by tauto)]

/-- Nothing is known of a field while a slot of the window is empty. -/
theorem observation_none (config : ChannelConfig) {w : Window} (h : w.older = none ∨ w.current = none ∨ w.newer = none) :
    w.observation config = none := by
  have hleft : ∀ x : Option WindowField, measureMade x none = none := fun x => by cases x <;> rfl
  have hright : ∀ x : Option WindowField, measureMade none x = none := fun _ => rfl
  unfold Window.observation
  rcases h with h | h | h
  · rw [h, hleft]
    cases measureMade w.newer w.current <;> rfl
  · rw [h, hleft]
  · rw [h, hright]

end Sys2Proof.Machine
end

