-- ==== Sys2Proof/Proofs/MonitorEvents.lean ====
section
/-! What the observation of a shift makes of the channel: its monitor, its claim and its counters (R95 to R116). -/

namespace Sys2Proof.Machine

/-! ## Claims and disagreements (R105 to R108, R115) -/

theorem leftToMonitor_iff (set : LatchedSet) : LeftToMonitor set ↔ set.monitorDriven = true := by
  unfold LeftToMonitor LatchedSet.monitorDriven
  cases set with
  | default d =>
    rw [beq_iff_eq]
    exact ⟨fun h => h.resolve_left fun ⟨_, _, _, _, h⟩ => LatchedSet.noConfusion h, .inr⟩
  | entry h g state first d =>
    cases state with
    | provisional => exact iff_of_true (.inl ⟨_, _, _, _, rfl⟩) rfl
    | active =>
      dsimp only
      rw [beq_iff_eq]
      refine ⟨fun h => h.resolve_left fun ⟨_, _, _, _, h⟩ => ?_, .inr⟩
      injection h with _ _ hstate
      exact LiveState.noConfusion hstate

/-- The claim of a transition has the contents of R107. -/
theorem proposes_claim (start : FieldRecord) (settled : Settled) :
    Proposes { key := start.key, start := start.number, basis := start.set.basis,
               directives := claimDirectives start settled } start settled := by
  refine ⟨rfl, rfl, fun h g state first d hset => ?_, fun d hset => ?_, ?_, ?_⟩
  · dsimp only
    rw [hset]
    rfl
  · dsimp only
    rw [hset]
    rfl
  · rintro rfl
    rfl
  · rintro mode align rfl
    cases mode with
    | film22 =>
      refine ⟨.film22, _, rfl, ?_, rfl⟩
      have hbelow : Film.film22.position align start.number < 2 := Nat.mod_lt _ (by decide)
      exact Nat.mod_eq_of_lt (by omega)
    | film32 => exact ⟨.film32, _, rfl, Nat.mod_eq_of_lt (position_film32_lt align start.number), rfl⟩

theorem transitionClaim_made {start : FieldRecord} {key : Key} (settled : Settled) (hleft : LeftToMonitor start.set)
    (hkey : start.key = key) : ∃ p : ProposalClaim, transitionClaim start key settled = some p ∧ Proposes p start settled :=
  ⟨_, if_pos ⟨(leftToMonitor_iff _).1 hleft, hkey⟩, proposes_claim start settled⟩

theorem transitionClaim_none {start : FieldRecord} {key : Key} (settled : Settled)
    (h : ¬LeftToMonitor start.set ∨ start.key ≠ key) : transitionClaim start key settled = none :=
  if_neg fun ⟨hdriven, hkey⟩ => h.elim (fun hnot => hnot ((leftToMonitor_iff _).2 hdriven)) fun hne => hne hkey

/-- A fixed mode with a phase disagrees with an alignment of that mode exactly when the alignment of the phase does. -/
theorem phase_disagrees {fixed : Film} {align : Nat} {phase : Fin 10} {first : FieldNum} :
    (!sameAlignment fixed align fixed (fixed.alignOf phase.val first)) = true ↔
      ∃ e : Nat, e < fixed.cycle ∧ (e + first.toNat) % fixed.cycle = phase.val % fixed.cycle ∧
        sameAlignment fixed align fixed e = false := by
  obtain ⟨hbelow, hcounted⟩ := counted_from (cycle_pos fixed) phase.val first.toNat
  rw [Bool.not_eq_true']
  refine ⟨fun h => ⟨_, hbelow, hcounted, h⟩, fun ⟨e, he, hphase, hdiffers⟩ => ?_⟩
  rw [alignOf_unique he hphase]
  exact hdiffers

section
variable {h : Handle} {g : Gen} {first : FieldNum} {d : Directives} {fixed : Film} {align : Nat}

theorem disagrees_fixed_video (hfilm : d.cadence.film = some fixed) :
    disagrees (.entry h g .active first d) .video = true := by
  unfold disagrees
  dsimp only
  rcases film_cadence hfilm with ⟨hcadence, -⟩ | ⟨hcadence, -⟩ <;> rw [hcadence] <;> rfl

theorem disagrees_fixed_none (hfilm : d.cadence.film = some fixed) :
    disagrees (.entry h g .active first d) .none = false := by
  unfold disagrees
  dsimp only
  rcases film_cadence hfilm with ⟨hcadence, -⟩ | ⟨hcadence, -⟩ <;> rw [hcadence] <;> rfl

theorem disagrees_fixed_other {mode : Film} (hfilm : d.cadence.film = some fixed) (hmode : mode ≠ fixed) :
    disagrees (.entry h g .active first d) (.film mode align) = true := by
  unfold disagrees
  dsimp only
  rcases film_cadence hfilm with ⟨hcadence, rfl⟩ | ⟨hcadence, rfl⟩ <;> rw [hcadence] <;> exact if_neg (Ne.symm hmode)

theorem disagrees_fixed_unphased (hfilm : d.cadence.film = some fixed) (hphase : d.phase = none) :
    disagrees (.entry h g .active first d) (.film fixed align) = false := by
  unfold disagrees
  dsimp only
  rw [hphase]
  rcases film_cadence hfilm with ⟨hcadence, rfl⟩ | ⟨hcadence, rfl⟩ <;> rw [hcadence] <;> rfl

theorem disagrees_fixed_phased {phase : Fin 10} (hfilm : d.cadence.film = some fixed) (hphase : d.phase = some phase) :
    disagrees (.entry h g .active first d) (.film fixed align) =
      !sameAlignment fixed align fixed (fixed.alignOf phase.val first) := by
  unfold disagrees
  dsimp only
  rw [hphase]
  rcases film_cadence hfilm with ⟨hcadence, rfl⟩ | ⟨hcadence, rfl⟩ <;> rw [hcadence] <;> rfl

/-- A settled state against an entry of a fixed film mode. -/
theorem disagrees_fixed {settled : Settled} (hfilm : d.cadence.film = some fixed) :
    disagrees (.entry h g .active first d) settled = true ↔
      settled = .video ∨ ∃ (mode : Film) (align : Nat), settled = .film mode align ∧
        (mode ≠ fixed ∨ ∃ (phase : Fin 10) (e : Nat), d.phase = some phase ∧ e < fixed.cycle ∧
          (e + first.toNat) % fixed.cycle = phase.val % fixed.cycle ∧ sameAlignment mode align fixed e = false) := by
  cases settled with
  | none =>
    rw [disagrees_fixed_none hfilm]
    exact iff_of_false Bool.false_ne_true (by rintro (h | ⟨_, _, h, _⟩) <;> exact Settled.noConfusion h)
  | video => exact iff_of_true (disagrees_fixed_video hfilm) (.inl rfl)
  | film mode align =>
    by_cases hmode : mode = fixed
    · subst hmode
      cases hphase : d.phase with
      | none =>
        rw [disagrees_fixed_unphased hfilm hphase]
        refine iff_of_false Bool.false_ne_true ?_
        rintro (h | ⟨_, _, h, hother | ⟨_, _, hnone, _⟩⟩)
        · exact Settled.noConfusion h
        · injection h with hmode
          exact hother hmode.symm
        · exact nomatch hnone
      | some phase =>
        rw [disagrees_fixed_phased hfilm hphase, phase_disagrees]
        constructor
        · rintro ⟨e, he, hcounted, hdiffers⟩
          exact .inr ⟨_, _, rfl, .inr ⟨phase, e, rfl, he, hcounted, hdiffers⟩⟩
        · rintro (h | ⟨_, _, h, hother | ⟨_, e, hsame, he, hcounted, hdiffers⟩⟩)
          · exact Settled.noConfusion h
          · injection h with hmode
            exact absurd hmode.symm hother
          · injection h with hmode halign
            injection hsame with hsame
            rw [← hmode, ← halign] at hdiffers
            rw [← hsame] at hcounted
            exact ⟨e, he, hcounted, hdiffers⟩
    · exact iff_of_true (disagrees_fixed_other hfilm hmode) (.inr ⟨_, _, rfl, .inl hmode⟩)

theorem disagrees_active {settled : Settled} : disagrees (.entry h g .active first d) settled = true ↔
    d.cadence = .video ∧ (∃ (mode : Film) (align : Nat), settled = .film mode align) ∨
    ∃ fixed : Film, d.cadence.film = some fixed ∧
      (settled = .video ∨ ∃ (mode : Film) (align : Nat), settled = .film mode align ∧
        (mode ≠ fixed ∨ ∃ (phase : Fin 10) (e : Nat), d.phase = some phase ∧ e < fixed.cycle ∧
          (e + first.toNat) % fixed.cycle = phase.val % fixed.cycle ∧ sameAlignment mode align fixed e = false)) := by
  cases hfilm : d.cadence.film with
  | some fixed =>
    rw [disagrees_fixed hfilm]
    have hnot : d.cadence ≠ .video := fun hvideo => by
      rw [hvideo] at hfilm
      exact nomatch hfilm
    constructor
    · exact fun hcase => .inr ⟨fixed, rfl, hcase⟩
    · rintro (⟨hvideo, -⟩ | ⟨_, hsame, hcase⟩)
      · exact absurd hvideo hnot
      · rw [Option.some.inj hsame]
        exact hcase
  | none =>
    have hcases : disagrees (.entry h g .active first d) settled = true ↔
        d.cadence = .video ∧ ∃ (mode : Film) (align : Nat), settled = .film mode align := by
      unfold disagrees
      dsimp only
      cases hcadence : d.cadence with
      | auto => exact iff_of_false (by cases settled <;> exact Bool.false_ne_true) fun h => Cadence.noConfusion h.1
      | video =>
        cases settled with
        | film mode align => exact iff_of_true rfl ⟨rfl, _, _, rfl⟩
        | video => exact iff_of_false Bool.false_ne_true fun ⟨_, _, _, h⟩ => Settled.noConfusion h
        | none => exact iff_of_false Bool.false_ne_true fun ⟨_, _, _, h⟩ => Settled.noConfusion h
      | film22 =>
        rw [hcadence] at hfilm
        exact nomatch hfilm
      | film32 =>
        rw [hcadence] at hfilm
        exact nomatch hfilm
    rw [hcases]
    exact ⟨.inl, fun h => h.resolve_right fun ⟨_, hsome, _⟩ => nomatch hsome⟩

end

theorem disagrees_iff (set : LatchedSet) (settled : Settled) : disagrees set settled = true ↔ Disagrees set settled := by
  unfold Disagrees
  cases set with
  | default d =>
    exact iff_of_false Bool.false_ne_true fun ⟨_, _, _, _, hset, _⟩ => LatchedSet.noConfusion hset
  | entry h g state first d =>
    cases state with
    | provisional =>
      refine iff_of_false Bool.false_ne_true fun ⟨_, _, _, _, hset, _⟩ => ?_
      injection hset with _ _ hstate
      exact LiveState.noConfusion hstate
    | active =>
      rw [disagrees_active]
      constructor
      · exact fun hcase => ⟨h, g, first, d, rfl, hcase⟩
      · rintro ⟨_, _, _, _, hset, hcase⟩
        injection hset with _ _ _ hfirst hd
        rw [hfirst, hd]
        exact hcase

/-! ## The observation of a channel -/

/-- What an observation makes of channel `c`, which it leaves as `d`. -/
structure Observes (c d : Chan) (key : Key) (o : Observed) : Prop where
  monitor : d.monitor = o.monitor
  kept : o.changed = false → o.start = none → NothingClaimed c d
  settles : o.changed = true → SettledChange c d key o.start o.monitor.settled

section
variable {c : Chan} {o : Observed} {f : WindowField}

theorem observeNewer_eq (ho : c.observed = some o) : c.observeNewer = { c with
    monitor := o.monitor
    proposalClaim := (c.newClaim o).or c.proposalClaim
    monitorCounters := { c.monitorCounters with
      disagreements := bump c.monitorCounters.disagreements (if c.disagreesAt o then 1 else 0)
      abandoned := bump c.monitorCounters.abandoned
        (if (c.newClaim o).isSome && c.proposalClaim.isSome then 1 else 0) } } := by
  unfold Chan.observeNewer
  rw [ho]

theorem newClaim_none (hstart : o.start = none) : c.newClaim o = none := by
  unfold Chan.newClaim
  rw [hstart]

theorem newClaim_of {start : FieldRecord} (hstart : o.start = some start) (hnewer : c.window.newer = some f) :
    c.newClaim o = transitionClaim start f.field.key o.monitor.settled := by
  unfold Chan.newClaim
  rw [hstart, hnewer]

theorem disagreesAt_of (hnewer : c.window.newer = some f) :
    c.disagreesAt o = (o.changed && disagrees f.set o.monitor.settled) := by
  unfold Chan.disagreesAt
  rw [hnewer]

theorem observeNewer_nothing (ho : c.observed = some o) (hnewer : c.window.newer = some f) (hchanged : o.changed = false)
    (hstart : o.start = none) : NothingClaimed c c.observeNewer := by
  have hclaim := newClaim_none (c := c) hstart
  have hagrees : c.disagreesAt o = false := by
    rw [disagreesAt_of hnewer, hchanged]
    rfl
  rw [observeNewer_eq ho, hclaim, hagrees]
  refine ⟨Option.none_or, ?_⟩
  simp [bump_zero]

theorem observeNewer_settles (ho : c.observed = some o) (hnewer : c.window.newer = some f) (hchanged : o.changed = true) :
    SettledChange c c.observeNewer f.field.key o.start o.monitor.settled := by
  have hdisagrees : c.disagreesAt o = disagrees f.set o.monitor.settled := by
    rw [disagreesAt_of hnewer, hchanged]
    rfl
  rw [observeNewer_eq ho, hdisagrees]
  refine ⟨fun start hstart hleft hkey => ?_, fun hnot => ?_, fun g hg => ?_, rfl, rfl⟩
  · obtain ⟨p, hp, hproposes⟩ := transitionClaim_made o.monitor.settled hleft hkey
    rw [newClaim_of hstart hnewer, hp]
    refine ⟨⟨p, rfl, hproposes⟩, ?_⟩
    cases c.proposalClaim <;> rfl
  · have hclaim : c.newClaim o = none := by
      cases hstart : o.start with
      | none => exact newClaim_none hstart
      | some start =>
        rw [newClaim_of hstart hnewer]
        exact transitionClaim_none _ (hnot start hstart)
    rw [hclaim]
    exact ⟨Option.none_or, bump_zero _⟩
  · obtain rfl : f = g := Option.some.inj (hnewer.symm.trans hg)
    rw [← disagrees_iff]
    refine ⟨fun h => ?_, fun h => ?_⟩
    · dsimp only
      rw [if_pos h]
    · dsimp only
      rw [if_neg h, bump_zero]

end

/-- What a change of the settled state does reads the claim, the counters and NEWER only. -/
theorem settledChange_of {c d c' d' : Chan} {key : Key} {start : Option FieldRecord} {settled : Settled}
    (h : SettledChange c d key start settled) (hclaim : c'.proposalClaim = c.proposalClaim)
    (hcounters : c'.monitorCounters = c.monitorCounters) (hclaim' : d'.proposalClaim = d.proposalClaim)
    (hcounters' : d'.monitorCounters = d.monitorCounters) (hnewer : d'.window.newer = d.window.newer) :
    SettledChange c' d' key start settled := by
  unfold SettledChange at h ⊢
  rw [hclaim, hcounters, hclaim', hcounters', hnewer]
  exact h

/-! ## The observation of a shift -/

/-- What the monitor sees of the field of a shift that latches `set` for it. -/
def State.seenFor (s : State) (n : Channel) (a : Arrived) (set : LatchedSet) : Seen :=
  { record := { number := a.field.number, key := a.field.key, set := set }
    known := (s.latchedAt n a).window.observation (s.chan n).config
    slip := a.field.slip }

/-- A shift of channel `n` and its observation `o`. -/
structure ShiftObserves (s : State) (n : Channel) (a : Arrived) (o : Observed) : Prop where
  shifts : exec (.windowShift n) s = .next (s.shift n a)
  locks : o.event = .lock → exec (.cadenceLock n) s = .next (s.shift n a)
  expires : o.event = .expiry → exec (.unlockedRunExpiry n) s = .next (s.shift n a)
  observes : Observes (s.chan n) ((s.shift n a).chan n) a.field.key o

section
variable {s : State} {n : Channel} {a : Arrived}

/-- The channel as the observation of its shift finds it. -/
def State.answeredAt (s : State) (n : Channel) (a : Arrived) : Chan :=
  ((s.chan n).beginShift a).answered a (s.answerFor a)

theorem shift_own (hrun : (s.chan n).state = .running) (hturn : s.TurnOf n) : ∃ withdraws cancels : Bool,
    (s.shift n a).chan n = { (s.answeredAt n a).observeNewer.countStep with
      withdrawOrder := withdraws, cancelOrder := cancels } := by
  obtain ⟨w, k, hown⟩ := (shift_takes_turn (a := a) hrun hturn).own
  rw [begun_chan_same, begun_answerFor] at hown
  exact ⟨w, k, hown⟩

theorem shiftEvent_eq {o : Observed} (hturn : s.TurnOf n) (ho : (s.answeredAt n a).observed = some o) :
    s.shiftEvent n a = o.event := by
  have hchan : (((s.begun n a).takeSequencerBelow n).answerLookup n a).chan n = s.answeredAt n a := by
    rw [takeSequencerBelow_turn (begun_turn hturn), answerLookup_eq, chan_modChan_same, begun_answerFor, moveUse_rest]
    exact congrArg (fun c : Chan => c.answered a (s.answerFor a)) (begun_chan_same s n a)
  have hevent : s.shiftEvent n a =
    match ((((s.begun n a).takeSequencerBelow n).answerLookup n a).chan n).observed with
    | some o => o.event
    | none => .nothing := rfl
  rw [hevent, hchan, ho]

/-- The window of the observation is that of the latch. -/
theorem answeredAt_window (s : State) (n : Channel) (a : Arrived) :
    ∃ set : LatchedSet, (s.answeredAt n a).window.newer = some { field := a.field, set := set } ∧
      (s.answeredAt n a).window.observation (s.chan n).config = (s.latchedAt n a).window.observation (s.chan n).config := by
  obtain ⟨-, -, -, -, -, set, hwindow⟩ := answered_kept ((s.chan n).beginShift a) a (s.answerFor a)
  refine ⟨set, ?_, rfl⟩
  unfold State.answeredAt
  rw [hwindow]

/-- A shift without an earlier claim, of a channel that is not DEGRADED, observes its field. -/
theorem shift_observes (hrun : (s.chan n).state = .running) (hslot : (s.chan n).port.slot = some a)
    (hqueued : s.queued n = false) (hclaim : (s.chan n).sequencerClaim = none) (hturn : s.TurnOf n)
    (hlevel : (s.chan n).level ≠ .degraded) : ∃ set : LatchedSet, ShiftObserves s n a
      ((((s.chan n).beginShift a).seedFor (s.answerFor a)).observe (s.seenFor n a set)) := by
  obtain ⟨hfield, hexec⟩ := exec_windowShift hrun hslot hqueued hclaim
  obtain ⟨set, hnewer, hobservation⟩ := answeredAt_window s n a
  obtain ⟨hlevel', hconfig, hmonitor, hproposal, hcounters, -⟩ := answered_kept ((s.chan n).beginShift a) a (s.answerFor a)
  change (s.answeredAt n a).level = (s.chan n).level at hlevel'
  change (s.answeredAt n a).config = (s.chan n).config at hconfig
  change (s.answeredAt n a).monitor = _ at hmonitor
  change (s.answeredAt n a).proposalClaim = (s.chan n).proposalClaim at hproposal
  change (s.answeredAt n a).monitorCounters = (s.chan n).monitorCounters at hcounters
  have hseen : (s.answeredAt n a).window.sees (s.answeredAt n a).config { field := a.field, set := set } =
      s.seenFor n a set := by
    unfold Window.sees State.seenFor
    rw [hconfig, hobservation]
  have ho := observed_of_newer hnewer
  rw [if_neg (hlevel' ▸ hlevel), hmonitor, hseen] at ho
  have hevent := shiftEvent_eq hturn ho
  obtain ⟨w, k, hown⟩ := shift_own (a := a) hrun hturn
  rw [observed_kept] at hown
  refine ⟨set, hexec, fun hlock => ?_, fun hexpiry => ?_, ⟨?_, fun hchanged hstart => ?_, fun hchanged => ?_⟩⟩
  · change Host.Outcome.next (s.shiftWith n .lock) = _
    unfold State.shiftWith
    rw [hfield]
    dsimp only
    rw [if_pos (hevent.trans hlock)]
  · change Host.Outcome.next (s.shiftWith n .expiry) = _
    unfold State.shiftWith
    rw [hfield]
    dsimp only
    rw [if_pos (hevent.trans hexpiry)]
  · rw [hown, observeNewer_eq ho]
  · obtain ⟨hkept, hsame⟩ := observeNewer_nothing ho hnewer hchanged hstart
    rw [hown]
    exact ⟨hkept.trans hproposal, hsame.trans hcounters⟩
  · have hsettles := observeNewer_settles ho hnewer hchanged
    refine settledChange_of hsettles hproposal.symm hcounters.symm ?_ ?_ ?_
    · rw [hown]
    · rw [hown]
    · rw [hown, observeNewer_eq ho]

/-- In a plain shift the monitor observes the field as it stands. -/
theorem plainShift_observes (h : PlainShift s n a) : ∃ set : LatchedSet,
    ShiftObserves s n a ((s.chan n).monitor.observe (s.seenFor n a set)) := by
  obtain ⟨hrun, hslot, hqueued, hclaim, hturn, hclass, hlevel, hnot⟩ := h
  obtain ⟨set, hobserves⟩ := shift_observes hrun hslot hqueued hclaim hturn hlevel
  rw [seedFor_of_not (.inl hnot)] at hobserves
  have hmonitor : (s.chan n).restarted a = (s.chan n).monitor := if_neg hclass
  rw [hmonitor] at hobserves
  exact ⟨set, hobserves⟩

/-- While DEGRADED nothing is observed, so nothing is claimed or counted (R114). -/
theorem shift_degraded (hrun : (s.chan n).state = .running) (hturn : s.TurnOf n) (hlevel : (s.chan n).level = .degraded) :
    NothingClaimed (s.chan n) ((s.shift n a).chan n) := by
  obtain ⟨hlevel', -, -, hproposal, hcounters, -⟩ := answered_kept ((s.chan n).beginShift a) a (s.answerFor a)
  have hnone : (s.answeredAt n a).observeNewer = s.answeredAt n a := by
    have ho : (s.answeredAt n a).observed = none := if_pos (hlevel'.trans hlevel)
    unfold Chan.observeNewer
    rw [ho]
  obtain ⟨w, k, hown⟩ := shift_own (a := a) hrun hturn
  rw [observed_kept, hnone] at hown
  rw [hown]
  exact ⟨hproposal, hcounters⟩

end

end Sys2Proof.Machine
end

