-- ==== Sys2Proof/Proofs/ShiftEvents.lean ====
section
/-! The monitor events of a shift: lock, expiry, break and search (R98 to R104, R115, R116). -/

namespace Sys2Proof.Machine

section
variable {s : State} {n : Channel} {a : Arrived} {set : LatchedSet} {mode : Film} {align : Nat}

/-! ## Lock (R100, R103 to R105) -/

/-- The candidate of the channel locks at the field. -/
def LocksAt (s : State) (n : Channel) (a : Arrived) (mode : Film) (align : Nat) (start : FieldRecord) : Prop :=
  ∀ set : LatchedSet, (s.chan n).monitor.observe (s.seenFor n a set) =
    ((s.chan n).monitor.recorded (s.seenFor n a set)).lockIn mode align start

theorem locksAt_of {count : Nat} {start : FieldRecord} {paired rep : Bool} (hslip : a.field.slip = false)
    (hdetector : (s.chan n).monitor.detector = .candidate mode align count start)
    (hcount : mode = .film32 ∧ count = 19 ∨ mode = .film22 ∧ count = 15)
    (hknown : (s.latchedAt n a).window.observation (s.chan n).config = some (paired, rep))
    (hpaired : paired = mode.pairedAt (mode.position align a.field.number))
    (hrep : rep = mode.repeatAt (mode.position align a.field.number)) : LocksAt s n a mode align start := by
  have hlocks : mode.lockCount ≤ count + 1 := by
    rcases hcount with ⟨rfl, rfl⟩ | ⟨rfl, rfl⟩
    · decide
    · decide
  have hagrees := (agrees_iff mode align a.field.number paired rep).2 ⟨hpaired, hrep⟩
  exact fun set => observe_lock (o := s.seenFor n a set) hdetector hslip hknown hagrees hlocks

/-- The start field of the transition a lock decides, told by the settled state. -/
theorem lockStart_eq {m : Monitor} {start : FieldRecord} {began : Option FieldRecord}
    (hnone : m.settled = .none → began = none) (hvideo : m.settled = .video → began = some start)
    (hfilm : ∀ (mode : Film) (old : Nat), m.settled = .film mode old → began = m.pending.map Pending.breakField) :
    m.lockStart start = began := by
  unfold Monitor.lockStart
  cases hsettled : m.settled with
  | none => exact (hnone hsettled).symm
  | video => exact (hvideo hsettled).symm
  | film mode old => exact (hfilm mode old hsettled).symm

theorem shift_locks {start : FieldRecord} (h : PlainShift s n a) (hlocks : LocksAt s n a mode align start) :
    ∃ set : LatchedSet, exec (.cadenceLock n) s = .next (s.shift n a) ∧ exec (.windowShift n) s = .next (s.shift n a) ∧
      Observes (s.chan n) ((s.shift n a).chan n) a.field.key
        (((s.chan n).monitor.recorded (s.seenFor n a set)).lockIn mode align start) := by
  obtain ⟨set, hobserves⟩ := plainShift_observes h
  rw [hlocks set] at hobserves
  exact ⟨set, hobserves.locks lockIn_event, hobserves.shifts, hobserves.observes⟩

/-! ## Expiry (R103, R104) -/

/-- The observation of the field neither locks nor is made while LOCKED. -/
theorem countsAs_of (h : (s.chan n).monitor.detector = .searching ∨
      ∃ (mode : Film) (align count : Nat) (start : FieldRecord),
        (s.chan n).monitor.detector = .candidate mode align count start ∧
        (a.field.slip = true ∨ mode = .film32 ∧ count < 19 ∨ mode = .film22 ∧ count < 15 ∨
          ∀ paired rep : Bool, (s.latchedAt n a).window.observation (s.chan n).config = some (paired, rep) →
            paired ≠ mode.pairedAt (mode.position align a.field.number) ∨
            rep ≠ mode.repeatAt (mode.position align a.field.number))) (set : LatchedSet) :
    CountsAs (s.chan n).monitor ((s.chan n).monitor.observe (s.seenFor n a set)) := by
  rcases h with hsearching | ⟨mode, align, count, start, hcandidate, hcase⟩
  · exact countsAs_searching hsearching
  refine observe_candidate hcandidate ?_
  rcases hcase with hslip | ⟨rfl, hcount⟩ | ⟨rfl, hcount⟩ | hmismatch
  · exact .inl hslip
  · exact .inr (.inl (Nat.succ_lt_succ hcount))
  · exact .inr (.inl (Nat.succ_lt_succ hcount))
  · refine .inr (.inr fun paired rep hknown hagrees => ?_)
    obtain ⟨hpaired, hrep⟩ := (agrees_iff _ _ _ _ _).1 hagrees
    exact (hmismatch paired rep hknown).elim (fun hne => hne hpaired) fun hne => hne hrep

/-! ## A shift that settles nothing (R81, R83, R114) -/

/-- After a DISCONTINUITY the monitor starts anew, seeded by an entered proposal or not. -/
theorem seedFor_discontinuity (hclass : a.cls = .discontinuity) :
    ((s.chan n).beginShift a).seedFor (s.answerFor a) = Monitor.reset ∨
    ∃ (d : Directives) (first : FieldNum),
      ((s.chan n).beginShift a).seedFor (s.answerFor a) = Monitor.reset.seed d first := by
  have hreset : (s.chan n).restarted a = Monitor.reset := if_pos hclass
  by_cases h : ∃ g : Handle, EntersProposal s n a g ∧ (s.chan n).level ≠ .degraded
  · obtain ⟨g, hg, hlevel⟩ := h
    exact .inr ⟨_, _, by rw [seedFor_of_enters hg hlevel, hreset]⟩
  · refine .inl ((seedFor_of_not ?_).trans hreset)
    by_cases hlevel : (s.chan n).level = .degraded
    · exact .inr hlevel
    · exact .inl fun g hg => h ⟨g, hg, hlevel⟩

theorem observe_discontinuity (hclass : a.cls = .discontinuity) (o : Seen) :
    ((((s.chan n).beginShift a).seedFor (s.answerFor a)).observe o).changed = false ∧
    ((((s.chan n).beginShift a).seedFor (s.answerFor a)).observe o).start = none := by
  rcases seedFor_discontinuity (s := s) (n := n) hclass with h | ⟨d, first, h⟩
  · rw [h]
    exact observe_restarted o (.inr ⟨rfl, .inr (by decide)⟩)
  · rw [h]
    exact observe_restarted o (seed_reset d first)

theorem shift_claimsNothing (hrun : (s.chan n).state = .running) (hslot : (s.chan n).port.slot = some a)
    (hqueued : s.queued n = false) (hclaim : (s.chan n).sequencerClaim = none) (hturn : s.TurnOf n)
    (hcase : (s.chan n).level = .degraded ∨ a.cls = .discontinuity ∨
      PlainShift s n a ∧ ((s.shift n a).chan n).monitor.settled = (s.chan n).monitor.settled) :
    NothingClaimed (s.chan n) ((s.shift n a).chan n) := by
  by_cases hlevel : (s.chan n).level = .degraded
  · exact shift_degraded hrun hturn hlevel
  rcases hcase.resolve_left hlevel with hclass | ⟨hplain, hsettled⟩
  · obtain ⟨set, hobserves⟩ := shift_observes hrun hslot hqueued hclaim hturn hlevel
    obtain ⟨hchanged, hstart⟩ := observe_discontinuity (s := s) (n := n) hclass (s.seenFor n a set)
    exact hobserves.observes.kept hchanged hstart
  · obtain ⟨set, hobserves⟩ := plainShift_observes hplain
    have hhonest := observe_honest (s.chan n).monitor (s.seenFor n a set)
    have hchanged : ((s.chan n).monitor.observe (s.seenFor n a set)).changed = false := by
      rw [hobserves.observes.monitor] at hsettled
      exact Bool.eq_false_iff.2 fun h => hhonest.changed.1 h hsettled
    exact hobserves.observes.kept hchanged (hhonest.start hchanged)

/-! ## Break and search (R98, R99, R101) -/

theorem misses_of (h : a.field.slip = true ∨
      ∃ paired rep : Bool, (s.latchedAt n a).window.observation (s.chan n).config = some (paired, rep) ∧
        (paired ≠ mode.pairedAt (mode.position align a.field.number) ∨
          rep ≠ mode.repeatAt (mode.position align a.field.number))) (set : LatchedSet) :
    (s.seenFor n a set).misses mode align := by
  rcases h with hslip | ⟨paired, rep, hknown, hmismatch⟩
  · exact .inl hslip
  · refine .inr ⟨paired, rep, hknown, fun hagrees => ?_⟩
    obtain ⟨hpaired, hrep⟩ := (agrees_iff _ _ _ _ _).1 hagrees
    exact hmismatch.elim (fun hne => hne hpaired) fun hne => hne hrep

theorem miss_second (m : Monitor) (miss : FieldRecord) (o : Seen) : m.miss mode align 1 (some miss) o =
    { m with
      detector := search m.history
      unlockedRun := 0
      pending := some { breakField := miss, settled := m.settled } } := if_neg Nat.one_ne_zero

theorem searched_known {m : Monitor} {o : Seen} {paired rep : Bool} (hslip : o.slip = false)
    (hknown : o.known = some (paired, rep)) : (m.searched o).detector = search (m.searched o).history := by
  change searchIfKnown o (m.historyAfter o) = search (m.historyAfter o)
  unfold searchIfKnown
  rw [hslip, if_neg Bool.false_ne_true, hknown]
  rfl

end

/-! ## The observation of a field by its lines (R94, R95) -/

theorem observation_measures {config : ChannelConfig} {x c o : WindowField} {count top bottom paired : Nat}
    (hx : x.field.lines.length = 1440 * count) (hc : c.field.lines.length = 1440 * count)
    (ho : o.field.lines.length = 1440 * count) (hmask : Leaves x.set.directives.mask top bottom)
    (hrows : top + bottom < count)
    (hsame : x.field.parity = c.field.parity →
      paired = meanDifference x.field c.field top (count - top - bottom) id id)
    (hupper : x.field.parity = .upper → c.field.parity = .lower →
      paired = meanDifference x.field c.field top (count - top - bottom) (fun k => max top (k - 1)) id)
    (hlower : x.field.parity = .lower → c.field.parity = .upper →
      paired = meanDifference x.field c.field top (count - top - bottom) id fun k => min (k + 1) (count - bottom - 1)) :
    Window.observation { older := some o, current := some c, newer := some x } config =
      if x.field.damaged = true ∨ c.field.damaged = true ∨ o.field.damaged = true then none
      else some (decide (paired ≤ config.pairedThreshold),
        decide (meanDifference x.field o.field top (count - top - bottom) id id ≤ config.repeatThreshold)) := by
  have hpaired : pairedMeasure x.field c.field x.set.directives.mask = paired := by
    by_cases hparity : x.field.parity = c.field.parity
    · rw [pairedMeasure_same hx hc hmask hparity, hsame hparity]
    · cases hn : x.field.parity with
      | upper =>
        have hcurrent : c.field.parity = .lower := by
          cases hf : c.field.parity with
          | upper => exact absurd (hn.trans hf.symm) hparity
          | lower => rfl
        rw [pairedMeasure_upper hx hc hmask hn hcurrent, hupper hn hcurrent]
      | lower =>
        have hcurrent : c.field.parity = .upper := by
          cases hf : c.field.parity with
          | upper => rfl
          | lower => exact absurd (hn.trans hf.symm) hparity
        rw [pairedMeasure_lower hx hc hmask hrows hn hcurrent, hlower hn hcurrent]
  rw [observation_eq, hpaired, repeatMeasure_eq hx ho hmask]

/-- Settles O12: the monitor events of a shift, the search and the measures. -/
theorem monitorEventsOfShift : Obligations.MonitorEventsOfShift := by
  refine ⟨?lock, ?expiry, ?claims, ?breaks, ?appends,
    fun first x y rest align hlength hrepeats happart hbelow hphase hagree =>
      search_film32 hlength hrepeats happart hbelow hphase hagree,
    fun config x c o count top bottom paired hx hc ho hnone hsome hrows hsame hupper hlower =>
      observation_measures hx hc ho ⟨hnone, hsome⟩ hrows hsame hupper hlower,
    fun config w h => observation_none config h, ?film22⟩
  case lock =>
    intro s n a mode align count start paired rep hplain hslip hdetector hcount hknown hpaired hrep
    have hlocks := locksAt_of (start := start) hslip hdetector hcount hknown hpaired hrep
    obtain ⟨set, hcadence, hshift, hobserves⟩ := shift_locks hplain hlocks
    by_cases hnew : ∀ old : Nat, (s.chan n).monitor.settled = .film mode old → sameAlignment mode align mode old = false
    · rw [lockIn_new (m := (s.chan n).monitor.recorded _) hnew] at hobserves
      have hmonitor := hobserves.monitor
      refine ⟨_, align, hcadence, hshift, congrArg Monitor.detector hmonitor, congrArg Monitor.settled hmonitor,
        congrArg Monitor.unlockedRun hmonitor, congrArg Monitor.pending hmonitor, fun old hold hsame => ?_,
        fun _ => ⟨rfl, fun began hnone hvideo hfilm => ?_⟩⟩
      · rw [hnew old hold] at hsame
        exact nomatch hsame
      · rw [← lockStart_eq hnone hvideo hfilm]
        exact hobserves.settles rfl
    · obtain ⟨old, hnot⟩ := not_forall.1 hnew
      obtain ⟨hold, hsame⟩ := Classical.not_imp.1 hnot
      rw [lockIn_again (m := (s.chan n).monitor.recorded _) hold (Bool.not_eq_false _ ▸ hsame)] at hobserves
      have hmonitor := hobserves.monitor
      refine ⟨_, old, hcadence, hshift, congrArg Monitor.detector hmonitor, congrArg Monitor.settled hmonitor,
        congrArg Monitor.unlockedRun hmonitor, congrArg Monitor.pending hmonitor,
        fun old' hold' _ => ⟨?_, hobserves.kept rfl rfl⟩, fun hdiffers => absurd hdiffers hnew⟩
      injection hold.symm.trans hold'
  case expiry =>
    intro s n a hplain hrun hsettled hcase
    obtain ⟨set, hobserves⟩ := plainShift_observes hplain
    obtain ⟨hevent, hchanged, hstart, hvideo, hzero, hpending⟩ := (countsAs_of hcase set).expires hsettled hrun
    have hmonitor := hobserves.observes.monitor
    refine ⟨_, hobserves.expires hevent, hobserves.shifts, (congrArg Monitor.settled hmonitor).trans hvideo,
      (congrArg Monitor.unlockedRun hmonitor).trans hzero, (congrArg Monitor.pending hmonitor).trans hpending, fun _ => ?_⟩
    rw [← hstart, ← hvideo]
    exact hobserves.observes.settles hchanged
  case claims =>
    intro s n a hrun hslot hqueued hclaim hturn
    exact ⟨_, (exec_windowShift hrun hslot hqueued hclaim).2, shift_claimsNothing hrun hslot hqueued hclaim hturn⟩
  case breaks =>
    intro s n a mode align miss hplain hdetector hcase
    obtain ⟨set, hobserves⟩ := plainShift_observes hplain
    have hmonitor := hobserves.observes.monitor
    rw [observe_miss hdetector (misses_of hcase set), miss_second] at hmonitor
    refine ⟨_, hobserves.shifts, ?_⟩
    rw [hmonitor]
    exact ⟨rfl, fun hslip => historyAfter_slip (o := s.seenFor n a set) hslip, rfl, rfl, rfl⟩
  case appends =>
    intro s n a paired rep hplain hslip hdetector hlength hrun hknown
    obtain ⟨set, hobserves⟩ := plainShift_observes hplain
    have hmonitor := hobserves.observes.monitor
    rw [observe_searching hdetector, countUnlocked_below (m := (s.chan n).monitor.searched _) hrun] at hmonitor
    have hhistory := historyAfter_known (m := (s.chan n).monitor) (o := s.seenFor n a set) hslip hknown
    rw [appendHistory_eq hlength] at hhistory
    refine ⟨_, { record := (s.seenFor n a set).record, paired := paired, rep := rep }, hobserves.shifts, rfl, rfl, rfl, rfl,
      ?_⟩
    rw [hmonitor]
    exact ⟨hhistory, searched_known (o := s.seenFor n a set) hslip hknown, rfl, rfl⟩
  case film22 =>
    rintro before newest first x rest align hbefore rfl hlength halternates hrep hx hpaired hbelow hphase
    exact search_film22 hbefore hlength halternates hrep hx hpaired hbelow hphase

end Sys2Proof.Machine
end
